-- ==== Sys2Proof/Word.lean ====
section
/-! DEFINITION. Word.lean: the widths the manual gives to what it treats as bits. Everything the manual
counts (times, counter values, lengths, indices) is a `Nat`; see INVENTORY.md. -/

namespace Sys2Proof

/-- One byte of the window or of the journal. -/
abbrev Byte := BitVec 8

/-- One 16-bit word of the port bus (spec 00, section 2). -/
abbrev Half := BitVec 16

/-- A 32-bit field. -/
abbrev Word := BitVec 32

/-- A 16-byte key, in clear or wrapped under the storage root (R4, R79). -/
abbrev Key := BitVec 128

/-- A 32-byte unit of the journal (R104). -/
abbrev UnitWord := BitVec 256

end Sys2Proof
end

