-- ==== Sys2Proof/Syntax.lean ====
section
/-! DEFINITION. Syntax.lean: the commands of the block, one constructor of `Instr` for each row of
spec/opcode_table.json, and the operands they carry. -/

namespace Sys2Proof.Machine

/-- The two banks of the non-volatile array (R104). -/
inductive Bank where
  | a
  | b
  deriving DecidableEq, Repr

/-- The two tamper inputs (R139). -/
inductive TamperInput where
  | cover
  | field
  deriving DecidableEq, Repr

/-- What a journal unit gives when it is read (R105): erased, its content, its content after a single-bit
error has been corrected, or nothing. -/
inductive NvUnit where
  | erased
  | good (w : UnitWord)
  | corrected (w : UnitWord)
  | unreadable
  deriving DecidableEq, Repr

/-- An extent as an order cell names it: a starting data-area unit and a length in bytes (R152). -/
structure Extent where
  unit : Half
  len : Half
  deriving DecidableEq, Repr

/-- The fields of an order cell that the meter processor writes, but for the state word and the kind
(R161; layout 12.3). `gen` is the generation number, or the parent slot of DEFINE_SLOT and ADOPT. `args` is
the 22 bytes of argument words, its least significant byte at cell offset 0x1C. -/
structure OrderFields where
  flags : Byte
  tag : Word
  slot : Byte
  cls : Byte
  gen : Half
  counter : Word
  assoc : Extent
  input : Extent
  output : Extent
  args : BitVec 176
  deriving DecidableEq, Repr

/-- The points of the start-up sequence (R133), in order. Step 3 has four parts: choosing the bank, applying
its groups, erasing a torn empty base, and writing an empty base (R121, R122, R124, R136). -/
inductive StartPoint where
  | step1
  | step2
  | choosing
  | applying
  | emptyErase
  | emptyBase
  | step4
  | step5
  | step6
  | step7
  | step8
  | step9
  | step10
  deriving DecidableEq, Repr

/-- Where a run of start-up is interrupted so that other commands can arrive (assumption 9): before a part of the
sequence, once that part has run `passed` times more. Only the part that applies groups runs more than once, one group
each time (R136). -/
structure Pause where
  part : StartPoint
  passed : Nat
  deriving DecidableEq, Repr

/-- What surrounds a reset: the level of the PROV strap that step 2 will sample, the units of the array that
read otherwise than the engine left them (a unit cut off while it was programmed, a bank partly erased, bits
that have failed since), and where the run of start-up is interrupted, one point after the other (assumption 9). -/
structure Boot where
  prov : Bool
  array : List (Bank × Nat × NvUnit)
  pauses : List Pause
  deriving DecidableEq, Repr

end Sys2Proof.Machine

namespace Sys2Proof

open Machine

/-- The commands of the block: one constructor for each row of spec/opcode_table.json. -/
inductive Instr where
  /-- Port command START. -/
  | start
  /-- Port command STOP. -/
  | stop
  /-- Port command APPLY_PLAN. -/
  | applyPlan
  /-- Port command CLEAR_FAULT. -/
  | clearFault
  /-- A write of a value to the nudge register. -/
  | nudge (value : Half)
  /-- A write of a value to the notice acknowledge register. -/
  | noticeAcknowledge (value : Half)
  /-- A write of a word at a port address. -/
  | registerWriteIgnored (addr value : Half)
  /-- The meter processor posts an order of this kind in a lane and nudges the lane; so for the 14 after
  it. -/
  | defineSlot (lane : Nat) (o : OrderFields)
  | installAnchor (lane : Nat) (o : OrderFields)
  | readSlot (lane : Nat) (o : OrderFields)
  | setPolicy (lane : Nat) (o : OrderFields)
  | adopt (lane : Nat) (o : OrderFields)
  | retireSlot (lane : Nat) (o : OrderFields)
  | renewLocal (lane : Nat) (o : OrderFields)
  | renewRemote (lane : Nat) (o : OrderFields)
  | renewConfirm (lane : Nat) (o : OrderFields)
  | renewCancel (lane : Nat) (o : OrderFields)
  | protectFrame (lane : Nat) (o : OrderFields)
  | admitFrame (lane : Nat) (o : OrderFields)
  | setTime (lane : Nat) (o : OrderFields)
  | sync (lane : Nat) (o : OrderFields)
  | unlock (lane : Nat) (o : OrderFields)
  /-- The WRAP request in service ends. -/
  | wrapEnd
  | unwrapEnd
  | protectEnd
  | verifyEnd
  /-- The GENERATE request in service ends; `healthy` is what the health test of the source found. -/
  | generateEnd (healthy : Bool)
  | tokenCheckEnd
  /-- The unit in progress ends and is read back: as it was written (`none`), or otherwise. -/
  | unitProgrammed (readBack : Option NvUnit)
  | groupCommit
  | baseCommit
  /-- The erase in progress ends; the first unit that does not read as erased, if one does not. -/
  | bankEraseEnd (bad : Option Nat)
  /-- A reading of the die temperature, in thousandths of a degree Celsius. -/
  | temperatureReading (milli : Int)
  | tickEdge
  | tickLossTimeout
  | internalSecond
  | supplyWarnAsserted
  | supplyWarnNegated
  | powerOnReset (boot : Boot)
  | pinReset (boot : Boot)
  /-- The level of an input after the change. -/
  | tamperInputChange (input : TamperInput) (asserted : Bool)
  | tamperFilterExpiry (input : TamperInput)
  /-- The budget of the order in a context runs out. -/
  | budgetExpiry (ctx : Nat)
  | scanPeriodExpiry
  | coalescingDelayExpiry (lane : Nat)
  | resetnAsserted
  deriving DecidableEq, Repr

end Sys2Proof
end

