-- ==== Sys2Proof/WellFormed.lean ====
section
/-! DEFINITION. WellFormed.lean: which terms of `Instr` are commands that can reach the block. `exec` is
total all the same: an ill-formed command finds nothing to act on and leaves the state as it is, or acts as
the rules give for the value it carries. -/

namespace Sys2Proof

/-- The lanes are 0 to 3 and so are the order contexts (R155, R166). -/
def isIndex4 (n : Nat) : Bool := decide (n < 4)

/-- The even port address of the word that an access at `addr` reaches (R151; assumption 12). -/
def wordAddr (addr : Half) : Nat := addr.toNat / 2 * 2

/-- A bus write that is a command of a row of its own: a port command (R154), a nudge (R164), or the
acknowledgement of a notice group (R180). -/
def isCommandWrite (addr value : Half) : Bool :=
  (wordAddr addr == 0x8004 && decide (1 ≤ value.toNat) && decide (value.toNat ≤ 4)) ||
  wordAddr addr == 0x8006 ||
  (wordAddr addr == 0x800A && decide (value.toNat ≤ 7))

/-- Each bank has units 0 to 1,023 (R104). -/
def Machine.Boot.wellFormed (b : Machine.Boot) : Bool := b.array.all fun x => decide (x.2.1 < 1024)

/-- The check of one command. -/
def Instr.wellFormed : Instr → Bool
  | .start => true
  | .stop => true
  | .applyPlan => true
  | .clearFault => true
  | .nudge _ => true
  | .noticeAcknowledge v => decide (v.toNat ≤ 7)
  | .registerWriteIgnored a v => !isCommandWrite a v
  | .defineSlot l _ => isIndex4 l
  | .installAnchor l _ => isIndex4 l
  | .readSlot l _ => isIndex4 l
  | .setPolicy l _ => isIndex4 l
  | .adopt l _ => isIndex4 l
  | .retireSlot l _ => isIndex4 l
  | .renewLocal l _ => isIndex4 l
  | .renewRemote l _ => isIndex4 l
  | .renewConfirm l _ => isIndex4 l
  | .renewCancel l _ => isIndex4 l
  | .protectFrame l _ => isIndex4 l
  | .admitFrame l _ => isIndex4 l
  | .setTime l _ => isIndex4 l
  | .sync l _ => isIndex4 l
  | .unlock l _ => isIndex4 l
  | .wrapEnd => true
  | .unwrapEnd => true
  | .protectEnd => true
  | .verifyEnd => true
  | .generateEnd _ => true
  | .tokenCheckEnd => true
  | .unitProgrammed _ => true
  | .groupCommit => true
  | .baseCommit => true
  | .bankEraseEnd bad => (bad.map fun u => decide (u < 1024)).getD true
  | .temperatureReading _ => true
  | .tickEdge => true
  | .tickLossTimeout => true
  | .internalSecond => true
  | .supplyWarnAsserted => true
  | .supplyWarnNegated => true
  | .powerOnReset b => b.wellFormed
  | .pinReset b => b.wellFormed
  | .tamperInputChange _ _ => true
  | .tamperFilterExpiry _ => true
  | .budgetExpiry c => isIndex4 c
  | .scanPeriodExpiry => true
  | .coalescingDelayExpiry l => isIndex4 l
  | .resetnAsserted => true

end Sys2Proof
end

