-- ==== Sys2Proof/Decode.lean ====
section
/-! DEFINITION. Decode.lean: the command that a table word spells. No row of spec/opcode_table.json gives
bits ("fields" is empty in all 46 and no row has "fixed"): the commands reach the block as bus writes, order
cells and events, so no word spells one. -/

namespace Sys2Proof

/-- The command that the bits of a table row spell: none, since no row of the table gives bits. -/
def decodeTableWord (_nbits _w : Nat) : Option Instr := none

end Sys2Proof
end

