-- ==== Sys2Proof/Config.lean ====
section
/-! DEFINITION. Config.lean: what is fixed in one part and not given by the manual. Every constant here
is opaque: nothing can be proved about its value, so a claim holds whatever it is.

The algorithms of the Cipher Unit "are named by their inputs, outputs and sizes; their internal
construction is not part of this manual" (spec 00, section 5), so each one is an uninterpreted function
of its inputs (assumption 4). A cipher is an uninterpreted permutation, so that what it enciphers it deciphers again; that
is all that can be proved of one (R77, R79). -/

namespace Sys2Proof

/-- The 8-byte part serial, fixed at manufacture and the same after every reset (R72). -/
opaque Config.serial : BitVec 64

/-- The cipher of the storage root, which is the same after every reset (R79). -/
opaque Config.root : Key ≃ Key

/-- A clear key wrapped under the storage root (R79, WRAP of INSTALL_ANCHOR). -/
def Config.wrapRoot (key : Key) : Key := Config.root key

/-- The clear form, inside the Cipher Unit only, of a key wrapped under the storage root (R79). -/
def Config.unwrapRoot (key : Key) : Key := Config.root.symm key

/-- The n-th key drawn from the random source, wrapped under the storage root (R31, R82). -/
opaque Config.drawnKey : Nat → Key

/-- Whether the health test of the n-th GENERATE that was abandoned in service had ended by then, and what it found
(R81): the manual does not say when in its service a request makes the test. -/
opaque Config.testEnded : Nat → Option Bool

/-- The cipher of the key bytes of a blob under a clear wrapping key (R79). -/
opaque Config.blobCipher : Key → Key ≃ Key

/-- The 16 enciphered key bytes of a blob: the clear key under a clear wrapping key (R79). -/
def Config.blobEncipher (wrapping key : Key) : Key := Config.blobCipher wrapping key

/-- The clear key that 16 enciphered blob bytes hold under a clear wrapping key (R35). -/
def Config.blobDecipher (wrapping text : Key) : Key := (Config.blobCipher wrapping).symm text

/-- The integrity values of the blobs of one clear wrapping key, one clear key and one header of 16 bytes, by the number
of the slot that the blob is built for. -/
opaque Config.blobSeal : Key → Key → BitVec 128 → BitVec 64 ≃ BitVec 64

/-- The 8-byte integrity value of a blob: of the clear wrapping key, the clear key, the 16 header bytes of the blob, that
is target label, target generation, wrapping generation, class and reserved (R79), and the slot that it is built for, so
that no two slots share one (R33, assumption 20). -/
def Config.blobIntegrity (wrapping key : Key) (head : BitVec 128) (slot : Byte) : BitVec 64 :=
  Config.blobSeal wrapping key head (slot.setWidth 64)

/-- The cipher of the body of a frame, of any length, under a clear key and a nonce (R72, R77). -/
opaque Config.bodyCipher : Key → BitVec 128 → (n : Nat) →
    { l : List Byte // l.length = n } ≃ { l : List Byte // l.length = n }

/-- The 8-byte tag of a frame: of the clear key, the nonce, the associated data and the ciphertext
(R72, R77). -/
opaque Config.frameTag : Key → BitVec 128 → List Byte → List Byte → BitVec 64

/-- The 16-byte integrity value of an unlock challenge under the authority's clear key (R84). -/
opaque Config.unlockToken : Key → Word → BitVec 128

end Sys2Proof
end

