-- ==== Sys2Proof/Machine/State.lean ====
section
/-! DEFINITION. Machine/State.lean: everything the manual gives the block to hold, by the ten blocks of
spec 00 section 3, and the state after reset. Fields that the manual derives from others (the state and the
phase of a slot, the pool counts, the in-flight counts, the projected tree, the open group, the NOTE line, the
summary block) are computed where they are read, so that nothing is stored twice; INVENTORY.md lists each. -/

namespace Sys2Proof.Machine

/-! ## Names -/

/-- The engine states (R153, R159). -/
inductive EngineState where
  | starting | stopped | running | stopping | holdover | failed
  deriving DecidableEq, Repr

/-- The reset cause that the summary block shows (R132; 12.2). -/
inductive ResetCause where
  | power | pin
  deriving DecidableEq, Repr

/-- The four port commands (R153). -/
inductive PortCommand where
  | start | stop | applyPlan | clearFault
  deriving DecidableEq, Repr

/-- The outcomes of a port command (R154). -/
inductive PortOutcome where
  | ok | wrongState | noPlan | planInvalid
  deriving DecidableEq, Repr

/-- The 15 order kinds (R186). -/
inductive Kind where
  | defineSlot | installAnchor | readSlot | setPolicy | adopt | retireSlot | renewLocal | renewRemote
  | renewConfirm | renewCancel | protectFrame | admitFrame | setTime | sync | unlock
  deriving DecidableEq, Repr

/-- The 29 result codes (R177). -/
inductive Code where
  | ok | badKind | badSlot | badExtent | noRoom | wrongSlotState | wrongClass | noParent | parentExpired
  | unknownGeneration | genMismatch | labelMismatch | unwrapFailed | authFailed | replayed | stale | keyExpired
  | counterSpent | stagingFull | notStaged | alreadyStaged | cycle | locked | notProvisioning | tokenRejected
  | rngFault | timedOut | aborted | storeFailed
  deriving DecidableEq, Repr

/-- The class of a slot (R3). -/
inductive SlotClass where
  | transport | frame
  deriving DecidableEq, Repr

/-- The state of a slot (R2). -/
inductive SlotState where
  | empty | void | live
  deriving DecidableEq, Repr

/-- The role of a generation (R4). -/
inductive Role where
  | current | staged | outgoing
  deriving DecidableEq, Repr

/-- The kinds of deadline, in the order R94 and R97 give. -/
inductive DeadlineKind where
  | confirm | grace | expire | renew
  deriving DecidableEq, Repr

/-- The operations of the Cipher Unit (R79). -/
inductive CipherOp where
  | wrap | unwrap | protect | verify | generate | tokenCheck
  deriving DecidableEq, Repr

/-- Where an order in flight waits (R166). -/
inductive WaitPoint where
  | none | cipherQueue | reservation | mark | group | predecessors
  deriving DecidableEq, Repr

/-- The state of a journal bank (R106); which ACTIVE bank is current is held apart. -/
inductive BankState where
  | erased | active | spent
  deriving DecidableEq, Repr

/-- What the Journal Unit is doing in the current bank (R104). -/
inductive Activity where
  | idle | programming | compacting
  deriving DecidableEq, Repr

/-- The reason of the latest TIME notice (12.2). -/
inductive TimeReason where
  | none | tickLost | tickBack | clamped
  deriving DecidableEq, Repr

/-- The fault kinds (R184). -/
inductive FaultKind where
  | nvCorrected | nvGroupLost | rngHealth | nvFatal
  deriving DecidableEq, Repr

/-- The four tamper actions (R141). -/
inductive TamperAction where
  | noteOnly | lock | eraseUse | lockAndErase
  deriving DecidableEq, Repr

/-! ## The Key Table and the Counter Unit -/

/-- The counter record of a FRAME generation (R52); all zero in a TRANSPORT slot. `next` is the next outbound
value, `ceil` the RAM ceiling C, `durCeil` the durable ceiling D, `top` T, `durMark` I, `reqMark` the requested
mark. -/
structure Counters where
  next : Nat
  ceil : Nat
  durCeil : Nat
  reserving : Bool
  top : Nat
  mask : BitVec 64
  durMark : Nat
  reqMark : Nat
  marking : Bool
  deriving DecidableEq, Repr

/-- A generation record (R4). A field that the role does not have is zero: `opened` outside STAGED, `issued`,
`renewAt` and `expiresAt` in STAGED, `graceDue` outside OUTGOING. -/
structure Gen where
  number : Half
  key : Key
  issued : Nat
  opened : Nat
  renewAt : Nat
  expiresAt : Nat
  graceDue : Nat
  expired : Bool
  ctr : Counters
  deriving DecidableEq, Repr

/-- The policy of a slot (R7). -/
structure Policy where
  lifetime : Nat
  fraction : Nat
  window : Nat
  grace : Nat
  hard : Nat
  margin : Nat
  autoConfirm : Bool
  deriving DecidableEq, Repr

/-- The deferred set of a slot: a subset of the four kinds (R97). -/
structure Deferred where
  confirm : Bool
  grace : Bool
  expire : Bool
  renew : Bool
  deriving DecidableEq, Repr

/-- A slot record (R1). `cls` is `none` exactly when the slot is EMPTY. -/
structure SlotRec where
  label : Word
  cls : Option SlotClass
  parent : Option Nat
  orphaned : Bool
  policy : Policy
  last : Half
  renewDue : Bool
  deferred : Deferred
  current : Option Gen
  staged : Option Gen
  outgoing : Option Gen
  deriving DecidableEq, Repr

def Counters.zero : Counters := ⟨0, 0, 0, false, 0, 0, 0, 0, false⟩

def Policy.zero : Policy := ⟨0, 0, 0, 0, 0, 0, false⟩

def Deferred.none : Deferred := ⟨false, false, false, false⟩

/-- An EMPTY slot: the last column of R1. -/
def SlotRec.empty : SlotRec :=
  ⟨0, none, none, false, Policy.zero, 0, false, Deferred.none, none, none, none⟩

/-! ## The Order Dispatcher -/

/-- A lane entry of the applied plan, in range (R156). -/
structure PlanLane where
  enabled : Bool
  first : Nat
  count : Nat
  weight : Nat
  budget : Nat
  threshold : Nat
  delay : Nat
  deriving DecidableEq, Repr

/-- The applied plan (R155); the enables and groups of the notice causes are held by the Notice Unit. -/
structure Plan where
  lanes : Vector PlanLane 4
  scanPeriod : Nat
  authority : Option Nat
  tempOffset : Nat
  hysteresis : Nat
  coverFilter : Nat
  coverAction : TamperAction
  fieldFilter : Nat
  fieldAction : TamperAction
  deriving DecidableEq, Repr

/-- What the dispatcher keeps for a lane (R163, R164, R167), and the lane's done count (R174). -/
structure LaneState where
  cursor : Nat
  scanWanted : Bool
  credits : Nat
  done : Word
  deriving DecidableEq, Repr

/-- The result part of an order cell (12.3). -/
structure CellResult where
  code : Byte
  flags : Byte
  outLen : Half
  genUsed : Half
  ctrUsed : Word
  time : Word
  deriving DecidableEq, Repr

/-- An order cell: 64 bytes of the window, by field (R161; 12.3). -/
structure OrderCell where
  state : Half
  kind : Byte
  order : OrderFields
  result : CellResult
  deriving DecidableEq, Repr

/-- One generation of a wrapping source, as a renewal order copies it at take (R28). -/
structure KeyRef where
  number : Half
  expired : Bool
  key : Key
  deriving DecidableEq, Repr

/-- The parent copy of a renewal order (R28). -/
structure ParentCopy where
  empty : Bool
  current : Option KeyRef
  outgoing : Option KeyRef
  deriving DecidableEq, Repr

/-- The table change that a durable order makes at its commit (R13), or the lockdown change of UNLOCK. -/
inductive Change where
  | define (label : Word) (cls : SlotClass) (parent : Nat) (policy : Policy) (clamped : Bool)
  | install (label : Word) (cls : SlotClass) (policy : Policy) (clamped : Bool) (key : Key)
  | setPolicy (policy : Policy) (clamped : Bool)
  | adopt (parent : Nat)
  | retire
  | stage (number : Half) (key : Key)
  | promote (admitted : Option Word)
  | cancel
  | unlock
  deriving DecidableEq, Repr

/-- A busy order context (R166). `genNo` and `value` are the generation number and the counter value that the
result of a frame order shows; `taken` says that a PROTECT request has taken `value` (R56). `clearKey`,
`newKey`, `wrapKey`, `blobHead`, `blobKey` and `blobSum` are the key material and the blob in the context
(R16, R31, R33); `token` and `challenge` those of UNLOCK (R149). `endAborted` marks a SYNC that a STOP or a
HOLDOVER ends (R128). `erasePending` says that a tamper erase waits for the hold to end (R144). -/
structure Ctx where
  lane : Nat
  cell : Nat
  kind : Byte
  order : OrderFields
  takeTime : Nat
  budget : Nat
  budgetApplies : Bool
  late : Bool
  held : Option Nat
  parentCopy : Option ParentCopy
  poolClaim : Bool
  wait : WaitPoint
  output : List Byte
  preds : List Nat
  endAborted : Bool
  change : Option Change
  genNo : Half
  value : Nat
  taken : Bool
  clearKey : Key
  newKey : Key
  wrapKey : Key
  blobHead : BitVec 128
  blobKey : Key
  blobSum : BitVec 64
  token : BitVec 128
  challenge : Word
  erasePending : Bool
  deriving DecidableEq, Repr

/-- The state of the Order Dispatcher. -/
structure Od where
  plan : Option Plan
  lanes : Vector LaneState 4
  ctxs : Vector (Option Ctx) 4
  scanTimer : Option Nat
  deriving DecidableEq, Repr

/-! ## The Window Port -/

/-- The state of the Window Port: the engine state, the lines it drives and reads, the last port result, the
start-up point, and the window RAM. `held` is the state before HOLDOVER, `served` says that FAILED was entered
from RUNNING (R159), `inReset` that the part is held in reset (R132), `startAt` the step of start-up in
progress (R133), `pauses` where runs of start-up are still to be interrupted (the model's own, assumption 9), `ended`
that start-up has ended (R138), `deferredCmds` the port commands written during step
1 (R134), `summaryOn` that the summary block is kept (step 9). `ram` holds the plan block and the data area,
with an unlisted byte reading zero; `cells` the order cells. -/
structure Wp where
  engine : EngineState
  held : EngineState
  served : Bool
  inReset : Option ResetCause
  cause : ResetCause
  strap : Bool
  provisioning : Bool
  startAt : Option StartPoint
  pauses : List Pause
  ended : Bool
  deferredCmds : List PortCommand
  summaryOn : Bool
  lastCmd : Option PortCommand
  lastOutcome : PortOutcome
  lastOffset : Nat
  cmdCount : Half
  supplyWarn : Bool
  supplySafe : Bool
  ram : List Host.Cell
  cells : Vector OrderCell 128
  deriving DecidableEq, Repr

/-! ## The Cipher Unit -/

/-- A request in the cipher queue: the context that placed it and the operation (R80). -/
structure Request where
  ctx : Nat
  op : CipherOp
  deriving DecidableEq, Repr

/-- The request in service, with what it read when it began (R56, R74, R84). -/
structure Service where
  ctx : Nat
  op : CipherOp
  assoc : List Byte
  input : List Byte
  nonce : BitVec 128
  challenge : Word
  deriving DecidableEq, Repr

/-- The state of the Cipher Unit (R80, R82). `draws` and `cuts` are the model's own: how many keys have been drawn and
how many GENERATE requests have been abandoned in service, the arguments of the free values `Config.drawnKey` and
`Config.testEnded`. -/
structure Xu where
  service : Option Service
  queue : List Request
  failures : Nat
  disabled : Bool
  draws : Nat
  cuts : Nat
  deriving DecidableEq, Repr

/-! ## The Time Unit -/

/-- An entry of the deadline list (R94). -/
structure Deadline where
  due : Nat
  slot : Nat
  kind : DeadlineKind
  deriving DecidableEq, Repr

/-- The state of the Time Unit. `kept` says that meter time is kept (R101); `lossStart` is the engine time at
which the loss timer was last restarted, `internalStart` that at which the internal source started. -/
structure Tu where
  now : Nat
  kept : Bool
  uncertain : Bool
  fallback : Bool
  lossStart : Option Nat
  internalStart : Option Nat
  reason : TimeReason
  deadlines : List Deadline
  deriving DecidableEq, Repr

/-! ## The Journal Unit -/

/-- The content of a record by meaning (R107). The image of a slot shows `ctr.ceil` and `ctr.reqMark` of each
generation as its durable ceiling and mark (R52). A note's input is `none` in a BASE group and for UNLOCK, and
so is its action. -/
inductive RecBody where
  | image (slot : Nat) (rec : SlotRec)
  | counterMark (slot : Nat) (gen : Half) (ceiling mark : Nat)
  | timeMark (time : Nat)
  | note (input : Option TamperInput) (action : Option TamperAction) (flag : Bool) (time : Nat) (seq : Word)
  deriving DecidableEq, Repr

/-- Who handed a record over, which decides when it leaves or is brought up to date (R109, R110). -/
inductive Owner where
  | order (ctx : Nat)
  | deadline
  | counter
  | time
  | unlock (ctx : Nat)
  | tamper
  deriving DecidableEq, Repr

/-- A record handed to the Journal Unit. `joined` says that it has joined the open group, `time` is the meter
time at which it did. -/
structure Rec where
  body : RecBody
  owner : Owner
  joined : Bool
  time : Nat
  deriving DecidableEq, Repr

/-- A group that has closed: its records, whether it is a tamper group, and whether it is being programmed
again after a forced compaction (R119). -/
structure Group where
  recs : List Rec
  tamper : Bool
  retry : Bool
  seq : Word
  deriving DecidableEq, Repr

/-- The steps of a compaction (R116). -/
inductive CompStep where
  | header
  | image (slot : Nat)
  | time
  | note
  | groupEnd
  deriving DecidableEq, Repr

/-- A compaction under way: its target, its epoch, the latest step begun, the unit at which the next step begins,
the record units so far (for the CRC) and the images so far (for the counters that the base carries). -/
structure Compaction where
  target : Bank
  epoch : Word
  step : CompStep
  at_ : Nat
  units : List UnitWord
  images : List Rec
  deriving DecidableEq, Repr

/-- What a programming step belongs to: a group, a compaction, or an empty base (R124). -/
inductive Work where
  | group (g : Group)
  | compaction
  | emptyBase
  deriving DecidableEq, Repr

/-- The programming step in progress: the unit at `at_` of `bank` is being programmed with the head of `units`;
the others follow it without a break. -/
structure Step where
  work : Work
  bank : Bank
  at_ : Nat
  units : List UnitWord
  deriving DecidableEq, Repr

/-- The state of the Journal Unit (R104, R109 to R125). A bank is the list of its programmed units by unit
number, an unlisted unit being erased. `emptyLeft` is what remains to be begun of an empty base, by unit number.
`replayTime`, `replayLock` and `replaySeq` are what replay hands to the Time Unit and the Tamper Unit, `forced`
and `lost` how it ended, `firstGroup` that the next group replayed is the BASE group (R122, R123). -/
structure Ju where
  unitsA : List (Nat × NvUnit)
  unitsB : List (Nat × NvUnit)
  stateA : BankState
  stateB : BankState
  current : Option Bank
  epoch : Word
  used : Nat
  next : Nat
  lastSeq : Word
  activity : Activity
  erasing : Option Bank
  waiting : List Rec
  step : Option Step
  failed : Option Group
  tamper : Option (List Rec)
  comp : Option Compaction
  emptyLeft : List (Nat × UnitWord)
  due : Bool
  hot : Bool
  wasHot : Bool
  replayTime : Nat
  replayLock : Bool
  replaySeq : Word
  firstGroup : Bool
  forced : Bool
  lost : Bool
  deriving DecidableEq, Repr

/-! ## The Tamper Unit -/

/-- The filter of a tamper input: the level of the line, the settled level, and the engine time at which the
running filter timer started (R139); and the capture record (R140). -/
structure TamperState where
  level : Bool
  settled : Bool
  timer : Option Nat
  time : Nat
  count : Nat
  deriving DecidableEq, Repr

/-- Events held until step 6 of start-up, for one input (R147). -/
structure HeldEvents where
  input : TamperInput
  count : Nat
  time : Nat
  deriving DecidableEq, Repr

/-- The state of the Tamper Unit. `restored` says that step 6 of start-up has restored lockdown (R147);
`heldEvents` is in the order in which the first held event of each input settled. -/
structure Tm where
  cover : TamperState
  field : TamperState
  lockdown : Bool
  seq : Word
  restored : Bool
  heldEvents : List HeldEvents
  deriving DecidableEq, Repr

/-! ## The Notice Unit -/

/-- A notice cause (R178). -/
structure Cause where
  enabled : Bool
  group : Nat
  pending : Bool
  inService : Bool
  deriving DecidableEq, Repr

/-- The coalescing state of a lane: the count, and the engine time at which the delay timer started (R182). -/
structure Coalescing where
  count : Nat
  timer : Option Nat
  deriving DecidableEq, Repr

/-- The entry of the fault record (R184). -/
structure FaultEntry where
  kind : FaultKind
  time : Nat
  loc1 : Nat
  loc2 : Nat
  deriving DecidableEq, Repr

/-- The state of the Notice Unit; `highest` is the highest severity seen, coded as in 12.2. -/
structure Nu where
  causes : Vector Cause 13
  lanes : Vector Coalescing 4
  fault : Option FaultEntry
  laterFaults : Nat
  highest : Nat
  deriving DecidableEq, Repr

/-! ## The whole block -/

/-- The state of the block. `clock` is the engine's own clock in milliseconds (spec 05), which only an idle step
advances (assumption 2). `pending` is the queue of commands that wait, first in, first out. -/
structure State where
  wp : Wp
  od : Od
  kt : Vector SlotRec 64
  xu : Xu
  tu : Tu
  ju : Ju
  tm : Tm
  nu : Nu
  clock : Nat
  pending : List Instr
  deriving DecidableEq, Repr

/-- The block is never stopped by a fault: each failure the manual describes is a result code, an entry of the
fault record or the engine state FAILED, and all of these are next states. There is no constructor. -/
inductive Fault where
  deriving DecidableEq, Repr

/-- Why the model has no meaning for a command. -/
inductive Refusal where
  /-- Raised by an arm of `exec` whose command has no meaning yet; safe. No arm raises it. -/
  | notModelled (mnemonic : String)
  deriving DecidableEq, Repr

/-! ## Reset values -/

def OrderFields.zero : OrderFields := ⟨0, 0, 0, 0, 0, 0, ⟨0, 0⟩, ⟨0, 0⟩, ⟨0, 0⟩, 0⟩

def CellResult.zero : CellResult := ⟨0, 0, 0, 0, 0, 0⟩

/-- A zeroed cell reads FREE (R161). -/
def OrderCell.free : OrderCell := ⟨0, 0, OrderFields.zero, CellResult.zero⟩

def LaneState.reset : LaneState := ⟨0, false, 0, 0⟩

/-- A cause after reset: disabled, in group 0, with both flags clear (R178). -/
def Cause.reset : Cause := ⟨false, 0, false, false⟩

/-- A tamper input whose line is negated, after reset (R139, R140). -/
def TamperState.reset : TamperState := ⟨false, false, none, 0, 0⟩

def Wp.reset : Wp where
  engine := .starting
  held := .starting
  served := false
  inReset := none
  cause := .power
  strap := false
  provisioning := false
  startAt := some .step1
  pauses := []
  ended := false
  deferredCmds := []
  summaryOn := false
  lastCmd := none
  lastOutcome := .ok
  lastOffset := 0
  cmdCount := 0
  supplyWarn := false
  supplySafe := false
  ram := []
  cells := Vector.replicate 128 OrderCell.free

def Od.reset : Od where
  plan := none
  lanes := Vector.replicate 4 LaneState.reset
  ctxs := Vector.replicate 4 none
  scanTimer := none

def Xu.reset : Xu where
  service := none
  queue := []
  failures := 0
  disabled := false
  draws := 0
  cuts := 0

/-- Meter time stands at 0 and is not kept until start-up sets it (R101, R184). -/
def Tu.reset : Tu where
  now := 0
  kept := false
  uncertain := true
  fallback := false
  lossStart := none
  internalStart := none
  reason := .none
  deadlines := []

/-- The Journal Unit after reset with a blank array: no bank is current (R104, R125). The bank states, the epoch, the
units used, the next unit and the last sequence have no value in the manual until replay has chosen a bank; those here
are the model's (assumption 11). -/
def Ju.reset : Ju where
  unitsA := []
  unitsB := []
  stateA := .erased
  stateB := .erased
  current := none
  epoch := 0
  used := 0
  next := 1
  lastSeq := 0
  activity := .idle
  erasing := none
  waiting := []
  step := none
  failed := none
  tamper := none
  comp := none
  emptyLeft := []
  due := false
  hot := false
  wasHot := false
  replayTime := 0
  replayLock := false
  replaySeq := 0
  firstGroup := true
  forced := false
  lost := false

def Tm.reset : Tm where
  cover := TamperState.reset
  field := TamperState.reset
  lockdown := false
  seq := 0
  restored := false
  heldEvents := []

/-- The causes after reset, with ENGINE (bit 12) PENDING for the change to STARTING (R178). -/
def Nu.reset : Nu where
  causes := (Vector.replicate 13 Cause.reset).setIfInBounds 12 ⟨false, 0, true, false⟩
  lanes := Vector.replicate 4 ⟨0, none⟩
  fault := none
  laterFaults := 0
  highest := 0

/-- The machine at the end of its first power-on reset, with a blank array and every input line negated:
STARTING, with step 1 of start-up about to run (R132, R133). POWER_ON_RESET and PIN_RESET run start-up. -/
def State.reset : State where
  wp := Wp.reset
  od := Od.reset
  kt := Vector.replicate 64 SlotRec.empty
  xu := Xu.reset
  tu := Tu.reset
  ju := Ju.reset
  tm := Tm.reset
  nu := Nu.reset
  clock := 0
  pending := []

end Sys2Proof.Machine
end

