-- ==== Sys2Proof/Machine/Ops.lean ====
section
/-! DEFINITION. Machine/Ops.lean: the named operations over the window RAM, over little-endian fields, over the
slot table, the lanes and the contexts, and over the engine state. -/

namespace Sys2Proof.Machine

/-! ## Arithmetic (spec 00, section 6) -/

/-- The largest meter time, counter value and 32-bit field. -/
def maxWord : Nat := 4294967295

/-- A sum saturating at 4,294,967,295 (R8, R88, R100). -/
def satAdd (a b : Nat) : Nat := min (a + b) maxWord

/-- A value brought into a range: "clamped" (spec 00, section 6). -/
def clamp (lo hi x : Nat) : Nat := min (max lo x) hi

/-- The field of `size` bytes at byte offset `off` of a little-endian layout held as one number. -/
def fieldAt (x off size : Nat) : Nat := (x >>> (8 * off)) % 2 ^ (8 * size)

/-- A little-endian layout as one number, from its fields: offset, size in bytes, value. A value is cut to its
size. -/
def packFields : List (Nat × Nat × Nat) → Nat
  | [] => 0
  | (off, size, v) :: rest => ((v % 2 ^ (8 * size)) <<< (8 * off)) + packFields rest

/-- The first `len` bytes of a layout, lowest address first. -/
def bytesOf (x len : Nat) : List Byte := (List.range len).map fun i => BitVec.ofNat 8 (x >>> (8 * i))

/-- The number that bytes spell, lowest address least significant. -/
def ofBytes : List Byte → Nat
  | [] => 0
  | b :: bs => b.toNat + 256 * ofBytes bs

def flagNat (b : Bool) : Nat := if b then 1 else 0

/-! ## The window RAM (R151): a sorted list of the bytes that are not zero -/

/-- The byte at an address; an unlisted byte is zero, since step 1 of start-up zeroes the window (R134). -/
def Ram.read : List Host.Cell → Nat → Byte
  | [], _ => 0
  | (k, b) :: rest, a => if a = k then b else Ram.read rest a

/-- The RAM with one byte written, in canonical form. -/
def Ram.write : List Host.Cell → Nat → Byte → List Host.Cell
  | [], a, v => if v = 0 then [] else [(a, v)]
  | (k, b) :: rest, a, v =>
    if a < k then (if v = 0 then (k, b) :: rest else (a, v) :: (k, b) :: rest)
    else if a = k then (if v = 0 then rest else (a, v) :: rest)
    else (k, b) :: Ram.write rest a v

/-- Every listed address lies above `lo`, the addresses rise, and no listed byte is zero. -/
def Ram.wfFrom : Option Nat → List Host.Cell → Bool
  | _, [] => true
  | lo, (k, b) :: rest =>
    (match lo with | none => true | some l => decide (l < k)) && decide (b ≠ 0) && Ram.wfFrom (some k) rest

/-- The canonical form of the window RAM. -/
def Ram.wf (m : List Host.Cell) : Bool := Ram.wfFrom none m

/-- `n` bytes from an address, lowest first. -/
def Ram.readBytes (m : List Host.Cell) (a : Nat) : Nat → List Byte
  | 0 => []
  | n + 1 => Ram.read m a :: Ram.readBytes m (a + 1) n

/-- Bytes written one after the other from an address. -/
def Ram.writeBytes (m : List Host.Cell) (a : Nat) : List Byte → List Host.Cell
  | [] => m
  | b :: bs => Ram.writeBytes (Ram.write m a b) (a + 1) bs

/-- A little-endian field of `n` bytes. -/
def Ram.readNat (m : List Host.Cell) (a n : Nat) : Nat := ofBytes (Ram.readBytes m a n)

/-! ## Slots -/

/-- The record of a slot; a number outside 0..63 names no slot and reads as an EMPTY one. -/
def State.slot (s : State) (n : Nat) : SlotRec := s.kt.getD n SlotRec.empty

def State.setSlot (s : State) (n : Nat) (r : SlotRec) : State := { s with kt := s.kt.setIfInBounds n r }

/-- The state of a slot follows from its record (R2). -/
def SlotRec.state (r : SlotRec) : SlotState :=
  match r.cls, r.current with
  | none, _ => .empty
  | some _, none => .void
  | some _, some _ => .live

/-- The generation in a role. -/
def SlotRec.gen (r : SlotRec) : Role → Option Gen
  | .current => r.current
  | .staged => r.staged
  | .outgoing => r.outgoing

/-- The generations present, in the order CURRENT, STAGED, OUTGOING. -/
def SlotRec.gens (r : SlotRec) : List Gen := r.current.toList ++ r.staged.toList ++ r.outgoing.toList

/-- The generation that bears a number, if one does; the numbers present are distinct (R4). -/
def SlotRec.find (r : SlotRec) (number : Half) : Option Gen := r.gens.find? fun g => g.number = number

/-- The role of the generation that bears a number (R76). -/
def SlotRec.roleOf (r : SlotRec) (number : Half) : Option Role :=
  if (r.current.any fun g => g.number = number) then some .current
  else if (r.staged.any fun g => g.number = number) then some .staged
  else if (r.outgoing.any fun g => g.number = number) then some .outgoing
  else none

/-- The record with every generation changed by a function. -/
def SlotRec.mapGens (r : SlotRec) (f : Gen → Gen) : SlotRec :=
  { r with current := r.current.map f, staged := r.staged.map f, outgoing := r.outgoing.map f }

/-- The record with the generation that bears a number changed, if one does. -/
def SlotRec.updGen (r : SlotRec) (number : Half) (f : Gen → Gen) : SlotRec :=
  match r.roleOf number with
  | some .current => { r with current := r.current.map f }
  | some .staged => { r with staged := r.staged.map f }
  | some .outgoing => { r with outgoing := r.outgoing.map f }
  | none => r

/-! ## Contexts and lanes -/

/-- The order in a context, if the context is busy (R166). -/
def State.ctx (s : State) (c : Nat) : Option Ctx := s.od.ctxs.getD c none

def State.setCtx (s : State) (c : Nat) (x : Option Ctx) : State :=
  { s with od := { s.od with ctxs := s.od.ctxs.setIfInBounds c x } }

/-- A change to the order in a context; nothing where the context is free. -/
def State.modCtx (s : State) (c : Nat) (f : Ctx → Ctx) : State := s.setCtx c ((s.ctx c).map f)

def State.lane (s : State) (n : Nat) : LaneState := s.od.lanes.getD n LaneState.reset

def State.setLane (s : State) (n : Nat) (l : LaneState) : State :=
  { s with od := { s.od with lanes := s.od.lanes.setIfInBounds n l } }

/-- The entry of a lane in the applied plan, if a plan is applied and enables the lane. -/
def State.planLane (s : State) (n : Nat) : Option PlanLane :=
  match s.od.plan with
  | none => none
  | some p =>
    match p.lanes[n]? with
    | some l => if l.enabled then some l else none
    | none => none

def State.cell (s : State) (n : Nat) : OrderCell := s.wp.cells.getD n OrderCell.free

def State.setCell (s : State) (n : Nat) (c : OrderCell) : State :=
  { s with wp := { s.wp with cells := s.wp.cells.setIfInBounds n c } }

/-- The numbers of the busy contexts, in order. -/
def State.busy (s : State) : List Nat := (List.range 4).filter fun c => (s.ctx c).isSome

/-- The context whose order holds a slot, if one does (R169). -/
def State.holder (s : State) (slot : Nat) : Option Nat :=
  (List.range 4).find? fun c => match s.ctx c with | none => false | some x => x.held == some slot

/-- The number of orders of a lane in flight (R166). -/
def State.inFlight (s : State) (lane : Nat) : Nat :=
  ((List.range 4).filter fun c => match s.ctx c with | none => false | some x => x.lane == lane).length

/-! ## The staging pool (R26): 16 places, in use or claimed or free -/

/-- The places in use: one for each STAGED generation present. -/
def State.poolInUse (s : State) : Nat := s.kt.toList.countP fun r => r.staged.isSome

/-- The places claimed by orders in flight. -/
def State.poolClaimed (s : State) : Nat :=
  ((List.range 4).filter fun c => match s.ctx c with | none => false | some x => x.poolClaim).length

def State.poolFree (s : State) : Nat := 16 - (s.poolInUse + s.poolClaimed)

/-! ## Engine states -/

/-- Orders are taken in RUNNING and in FAILED entered from RUNNING (R159, R167). -/
def State.taking (s : State) : Bool :=
  s.wp.engine == .running || (s.wp.engine == .failed && s.wp.served)

/-- The Journal Unit programs groups and compactions in these states (R111, R125). -/
def State.journalRuns (s : State) : Bool :=
  s.wp.engine == .stopped || s.wp.engine == .running || s.wp.engine == .stopping

/-- The step of start-up is at work: the engine is in STARTING, or in a HOLDOVER entered from it. -/
def State.startingUp (s : State) : Bool := s.wp.startAt.isSome

/-! ## The free values of the Cipher Unit (assumption 4) -/

/-- The ciphertext of an input: as many bytes as the input (R72). -/
def encipher (key : Key) (nonce : BitVec 128) (input : List Byte) : List Byte :=
  (Config.bodyCipher (Config.unwrapRoot key) nonce input.length ⟨input, rfl⟩).val

/-- The body that a ciphertext holds: as many bytes as the ciphertext (R77). -/
def decipher (key : Key) (nonce : BitVec 128) (input : List Byte) : List Byte :=
  ((Config.bodyCipher (Config.unwrapRoot key) nonce input.length).symm ⟨input, rfl⟩).val

/-- The tag of a frame under a stored key (R72, R77). -/
def frameTag (key : Key) (nonce : BitVec 128) (assoc text : List Byte) : BitVec 64 :=
  Config.frameTag (Config.unwrapRoot key) nonce assoc text

/-- The nonce of a frame: sender identity, generation number, counter value, two zero bytes, in this order
(R72, R77), little-endian within each part. -/
def frameNonce (sender : BitVec 64) (number : Half) (value : Nat) : BitVec 128 :=
  BitVec.ofNat 128 (packFields [(0, 8, sender.toNat), (8, 2, number.toNat), (10, 4, value)])

end Sys2Proof.Machine
end

