-- ==== Sys2Proof/Machine/Flags.lean ====
section
/-! DEFINITION. Machine/Flags.lean: the notice causes and their flags, lane coalescing, and the fault record
(chapter 11); and the change of engine state, which raises a cause. -/

namespace Sys2Proof.Machine

/-! ## Causes (R178 to R181) -/

/-- The bit of each cause that is not a lane's (R178). -/
def bitRenewDue : Nat := 4
def bitRenewFailed : Nat := 5
def bitKeyExpired : Nat := 6
def bitCounterLow : Nat := 7
def bitTamper : Nat := 8
def bitStoreHot : Nat := 9
def bitFault : Nat := 10
def bitTime : Nat := 11
def bitEngine : Nat := 12

/-- A cause that is PENDING, enabled and not INSERVICE fires (R179). -/
def Cause.fire (c : Cause) : Cause :=
  if c.pending && c.enabled && !c.inService then { c with pending := false, inService := true } else c

/-- An event of a cause (R179). -/
def Cause.raise (c : Cause) : Cause := Cause.fire { c with pending := true }

/-- The acknowledgement of the cause's group (R180). -/
def Cause.acknowledge (c : Cause) : Cause := Cause.fire { c with inService := false }

/-- The enable and group that a plan gives (R181). -/
def Cause.apply (c : Cause) (enabled : Bool) (group : Nat) : Cause :=
  Cause.fire { c with enabled := enabled, group := group }

/-- A cause after one step of the rules, by what it was before: one that fired in the step is left INSERVICE alone,
however many events the step gave it, since events of one cause that come together leave it as one event would (R179). -/
def Cause.together (c d : Cause) : Cause :=
  if !c.inService && d.inService then { d with pending := false } else d

/-- The flags of a LANE_DONE cause are cleared by STOP and by HOLDOVER (R183). -/
def Cause.clear (c : Cause) : Cause := { c with pending := false, inService := false }

def State.cause (s : State) (bit : Nat) : Cause := s.nu.causes.getD bit Cause.reset

def State.setCause (s : State) (bit : Nat) (c : Cause) : State :=
  { s with nu := { s.nu with causes := s.nu.causes.setIfInBounds bit c } }

/-- An event of a cause reaches the Notice Unit (R179). -/
def State.raise (s : State) (bit : Nat) : State := s.setCause bit (s.cause bit).raise

/-- The NOTE line: high while a cause is INSERVICE (R179). -/
def State.note (s : State) : Bool := s.nu.causes.toList.any fun c => c.inService

/-- The acknowledgement of a notice group (R180). -/
def State.acknowledge (s : State) (group : Nat) : State :=
  { s with nu := { s.nu with causes := s.nu.causes.map fun c => if c.group = group then c.acknowledge else c } }

/-- The state `t` that one step of the rules comes to from `s`, with the events that the step gives taken together (R179).
What follows the step within the same command, a take (R167), a completion (R174, R182) or the begin of a cipher service
(R80), is a step of its own, whose events find the causes as this one left them (assumption 32). -/
def State.together (s t : State) : State :=
  { t with nu := { t.nu with causes := t.nu.causes.mapFinIdx fun i d _ => (s.cause i).together d } }

/-! ## Lane coalescing (R182, R183) -/

def State.coalescing (s : State) (lane : Nat) : Coalescing := s.nu.lanes.getD lane ⟨0, none⟩

def State.setCoalescing (s : State) (lane : Nat) (c : Coalescing) : State :=
  { s with nu := { s.nu with lanes := s.nu.lanes.setIfInBounds lane c } }

/-- A counted completion of a lane (R182). A lane that no plan enables counts nothing. -/
def State.countCompletion (s : State) (lane : Nat) : State :=
  match s.planLane lane with
  | none => s
  | some p =>
    let c := s.coalescing lane
    if p.threshold ≤ c.count + 1 then (s.setCoalescing lane ⟨0, none⟩).raise lane
    else
      let timer := if c.count = 0 && p.delay ≠ 0 then some s.clock else c.timer
      s.setCoalescing lane ⟨c.count + 1, timer⟩

/-- The coalescing counts and delays of every lane cleared (R183). -/
def State.clearCoalescing (s : State) : State :=
  { s with nu := { s.nu with lanes := Vector.replicate 4 ⟨0, none⟩ } }

/-- The lane notice state cleared, as STOP and HOLDOVER do (R183). -/
def State.clearLaneNotices (s : State) : State :=
  let nu := s.nu
  { s with nu := { nu with
      causes := nu.causes.mapFinIdx fun i c _ => if i < 4 then c.clear else c
      lanes := Vector.replicate 4 ⟨0, none⟩ } }

/-! ## The fault record (R184, R185) -/

/-- The severity of a fault kind, coded as in 12.2: CORRECTED 1, DEGRADED 2, FATAL 3. -/
def FaultKind.severity : FaultKind → Nat
  | .nvCorrected => 1
  | .nvGroupLost => 2
  | .rngHealth => 2
  | .nvFatal => 3

/-- A fault given to the Notice Unit (R184). -/
def State.giveFault (s : State) (kind : FaultKind) (loc1 loc2 : Nat) : State :=
  let nu := s.nu
  let nu' : Nu :=
    match nu.fault with
    | none => { nu with fault := some ⟨kind, s.tu.now, loc1, loc2⟩, laterFaults := 0, highest := kind.severity }
    | some _ =>
      { nu with laterFaults := min (nu.laterFaults + 1) 255, highest := max nu.highest kind.severity }
  State.raise { s with nu := nu' } bitFault

/-- The fault record emptied (R185). -/
def State.emptyFaults (s : State) : State :=
  { s with nu := { s.nu with fault := none, laterFaults := 0, highest := 0 } }

/-! ## The engine state (R159) -/

/-- A change of engine state, which raises ENGINE. -/
def State.enter (s : State) (e : EngineState) : State :=
  State.raise { s with wp := { s.wp with engine := e } } bitEngine

end Sys2Proof.Machine
end

