-- ==== Sys2Proof/Machine/Operands.lean ====
section
/-! DEFINITION. Machine/Operands.lean: what a command reads from its operands: order kinds and the fields they
use (R170, R186), order cells as the port bus sees them (12.3), extents (R152), policies (R7), and the plan block
with its checks and its clamps (R155, R156). -/

namespace Sys2Proof.Machine

/-! ## Order kinds (R186) -/

def Kind.code : Kind → Byte
  | .defineSlot => 1
  | .installAnchor => 2
  | .readSlot => 3
  | .setPolicy => 4
  | .adopt => 5
  | .retireSlot => 6
  | .renewLocal => 7
  | .renewRemote => 8
  | .renewConfirm => 9
  | .renewCancel => 10
  | .protectFrame => 11
  | .admitFrame => 12
  | .setTime => 13
  | .sync => 14
  | .unlock => 15

/-- The kind a code names; 0 and 16 to 255 name none. -/
def Kind.ofCode (b : Byte) : Option Kind :=
  match b.toNat with
  | 1 => some .defineSlot
  | 2 => some .installAnchor
  | 3 => some .readSlot
  | 4 => some .setPolicy
  | 5 => some .adopt
  | 6 => some .retireSlot
  | 7 => some .renewLocal
  | 8 => some .renewRemote
  | 9 => some .renewConfirm
  | 10 => some .renewCancel
  | 11 => some .protectFrame
  | 12 => some .admitFrame
  | 13 => some .setTime
  | 14 => some .sync
  | 15 => some .unlock
  | _ => none

/-- SET_TIME, SYNC and UNLOCK name no slot (R163, R169). -/
def Kind.namesSlot : Kind → Bool
  | .setTime | .sync | .unlock => false
  | _ => true

/-- The kinds refused LOCKED under lockdown (R146, R170). -/
def Kind.refusedLocked : Kind → Bool
  | .readSlot | .setTime | .sync | .unlock => false
  | _ => true

/-- READ_SLOT and SYNC are taken in FAILED (R170, R171). -/
def Kind.takenInFailed : Kind → Bool
  | .readSlot | .sync => true
  | _ => false

def Kind.usesAssoc : Kind → Bool
  | .protectFrame | .admitFrame => true
  | _ => false

def Kind.usesInput : Kind → Bool
  | .protectFrame | .admitFrame | .installAnchor | .renewRemote | .unlock => true
  | _ => false

def Kind.usesOutput : Kind → Bool
  | .protectFrame | .admitFrame | .renewLocal | .readSlot => true
  | _ => false

/-- The slot that a cell holds once taken: the slot field, for a kind that names a slot, if it is in 0..63
(R169). An unknown kind holds nothing. -/
def heldSlot (kind : Byte) (o : OrderFields) : Option Nat :=
  match Kind.ofCode kind with
  | none => none
  | some k => if k.namesSlot && decide (o.slot.toNat < 64) then some o.slot.toNat else none

/-! ## Result codes (R177) -/

def Code.value : Code → Nat
  | .ok => 0
  | .badKind => 1
  | .badSlot => 2
  | .badExtent => 3
  | .noRoom => 4
  | .wrongSlotState => 5
  | .wrongClass => 6
  | .noParent => 7
  | .parentExpired => 8
  | .unknownGeneration => 9
  | .genMismatch => 10
  | .labelMismatch => 11
  | .unwrapFailed => 12
  | .authFailed => 13
  | .replayed => 14
  | .stale => 15
  | .keyExpired => 16
  | .counterSpent => 17
  | .stagingFull => 18
  | .notStaged => 19
  | .alreadyStaged => 20
  | .cycle => 21
  | .locked => 22
  | .notProvisioning => 23
  | .tokenRejected => 24
  | .rngFault => 25
  | .timedOut => 26
  | .aborted => 27
  | .storeFailed => 28

/-- The result words and flags of an order, but for the code, the tag and the completion time (R174). -/
structure Res where
  outLen : Nat
  ctrUsed : Nat
  genUsed : Half
  clamped : Bool
  promoted : Bool
  deriving DecidableEq, Repr

/-- A result word to which no value is given is 0, and so is a flag that is not set (R186). -/
def Res.zero : Res := ⟨0, 0, 0, false, false⟩

/-! ## Order cells on the port bus (12.3) -/

def Extent.toNat (e : Extent) : Nat := packFields [(0, 2, e.unit.toNat), (2, 2, e.len.toNat)]

def Extent.ofNat (x : Nat) : Extent := ⟨BitVec.ofNat 16 (fieldAt x 0 2), BitVec.ofNat 16 (fieldAt x 2 2)⟩

/-- The 64 bytes of a cell as one little-endian number. -/
def OrderCell.toNat (c : OrderCell) : Nat :=
  packFields [(0x00, 2, c.state.toNat), (0x02, 1, c.kind.toNat), (0x03, 1, c.order.flags.toNat),
    (0x04, 4, c.order.tag.toNat), (0x08, 1, c.order.slot.toNat), (0x09, 1, c.order.cls.toNat),
    (0x0A, 2, c.order.gen.toNat), (0x0C, 4, c.order.counter.toNat), (0x10, 4, Extent.toNat c.order.assoc),
    (0x14, 4, Extent.toNat c.order.input), (0x18, 4, Extent.toNat c.order.output),
    (0x1C, 22, c.order.args.toNat), (0x32, 1, c.result.code.toNat), (0x33, 1, c.result.flags.toNat),
    (0x34, 2, c.result.outLen.toNat), (0x36, 2, c.result.genUsed.toNat), (0x38, 4, c.result.ctrUsed.toNat),
    (0x3C, 4, c.result.time.toNat)]

/-- The cell that 64 bytes spell. -/
def OrderCell.ofNat (x : Nat) : OrderCell where
  state := BitVec.ofNat 16 (fieldAt x 0x00 2)
  kind := BitVec.ofNat 8 (fieldAt x 0x02 1)
  order :=
    { flags := BitVec.ofNat 8 (fieldAt x 0x03 1)
      tag := BitVec.ofNat 32 (fieldAt x 0x04 4)
      slot := BitVec.ofNat 8 (fieldAt x 0x08 1)
      cls := BitVec.ofNat 8 (fieldAt x 0x09 1)
      gen := BitVec.ofNat 16 (fieldAt x 0x0A 2)
      counter := BitVec.ofNat 32 (fieldAt x 0x0C 4)
      assoc := Extent.ofNat (fieldAt x 0x10 4)
      input := Extent.ofNat (fieldAt x 0x14 4)
      output := Extent.ofNat (fieldAt x 0x18 4)
      args := BitVec.ofNat 176 (fieldAt x 0x1C 22) }
  result :=
    { code := BitVec.ofNat 8 (fieldAt x 0x32 1)
      flags := BitVec.ofNat 8 (fieldAt x 0x33 1)
      outLen := BitVec.ofNat 16 (fieldAt x 0x34 2)
      genUsed := BitVec.ofNat 16 (fieldAt x 0x36 2)
      ctrUsed := BitVec.ofNat 32 (fieldAt x 0x38 4)
      time := BitVec.ofNat 32 (fieldAt x 0x3C 4) }

/-- A number with the 16-bit word at byte offset `off` replaced. -/
def replaceHalf (x off : Nat) (v : Half) : Nat :=
  (x >>> (8 * (off + 2))) <<< (8 * (off + 2)) + (v.toNat <<< (8 * off)) + x % 2 ^ (8 * off)

/-- A cell after a processor write of the word at byte offset `off` (R151). -/
def OrderCell.writeHalf (c : OrderCell) (off : Nat) (v : Half) : OrderCell :=
  OrderCell.ofNat (replaceHalf c.toNat off v)

/-! ## Extents (R152) -/

/-- The port address of the first byte of an extent. -/
def Extent.addr (e : Extent) : Nat := 0x2400 + 16 * e.unit.toNat

/-- The extent lies in the data area and is at most 2,048 bytes long; one of length 0 does wherever it begins. -/
def Extent.lies (e : Extent) : Bool :=
  decide (e.len.toNat = 0) || (decide (e.len.toNat ≤ 2048) && decide (e.addr + e.len.toNat ≤ 0x8000))

/-- Two extents share a byte; one of length 0 shares none. -/
def Extent.overlaps (e f : Extent) : Bool :=
  decide (0 < e.len.toNat) && decide (0 < f.len.toNat) &&
  decide (e.addr < f.addr + f.len.toNat) && decide (f.addr < e.addr + e.len.toNat)

/-- The bytes of an extent as they stand in the data area. -/
def State.readExtent (s : State) (e : Extent) : List Byte := Ram.readBytes s.wp.ram e.addr e.len.toNat

/-- Common check 4: each extent the kind uses lies in the data area, and the output overlaps no input (R170). -/
def extentsGood (k : Kind) (o : OrderFields) : Bool :=
  (!k.usesAssoc || o.assoc.lies) && (!k.usesInput || o.input.lies) && (!k.usesOutput || o.output.lies) &&
  !(k.usesOutput && k.usesAssoc && o.output.overlaps o.assoc) &&
  !(k.usesOutput && k.usesInput && o.output.overlaps o.input)

/-! ## Argument words (12.3) -/

/-- The field of `size` bytes of the argument words at cell offset `off`. -/
def OrderFields.arg (o : OrderFields) (off size : Nat) : Nat := fieldAt o.args.toNat (off - 0x1C) size

/-- The new time of SET_TIME (R92). -/
def OrderFields.newTime (o : OrderFields) : Nat := o.arg 0x1C 4

/-- The sender identity of ADMIT_FRAME (R75). -/
def OrderFields.sender (o : OrderFields) : BitVec 64 := BitVec.ofNat 64 (o.arg 0x1C 8)

/-- The label of DEFINE_SLOT and INSTALL_ANCHOR. -/
def OrderFields.label (o : OrderFields) : Word := BitVec.ofNat 32 (o.arg 0x2E 4)

/-- The ALL flag of SYNC (bit 0). -/
def OrderFields.all (o : OrderFields) : Bool := o.flags.getLsbD 0

/-- The class a code names (R3). -/
def classOf (b : Byte) : Option SlotClass :=
  if b = 1 then some .transport else if b = 2 then some .frame else none

def SlotClass.code : SlotClass → Nat
  | .transport => 1
  | .frame => 2

/-- The parent that DEFINE_SLOT or ADOPT names: a slot number, if it is in 0..63 (R14, R20, R186). -/
def OrderFields.parentSlot (o : OrderFields) : Option Nat :=
  if o.gen.toNat < 64 then some o.gen.toNat else none

/-! ## Policies (R7) -/

/-- The policy of a cell, each field read whole before it is brought into range (R186). -/
def OrderFields.rawPolicy (o : OrderFields) : Policy where
  lifetime := o.arg 0x1C 4
  fraction := o.arg 0x2C 1
  window := o.arg 0x20 4
  grace := o.arg 0x24 4
  hard := o.arg 0x28 4
  margin := o.arg 0x2D 1
  autoConfirm := o.flags.getLsbD 1

/-- A policy brought into range for a class (R7). -/
def Policy.inRange (p : Policy) (cls : SlotClass) : Policy where
  lifetime := clamp 3600 315360000 p.lifetime
  fraction := clamp 1 255 p.fraction
  window := clamp 60 86400 p.window
  grace := clamp 0 604800 p.grace
  hard := match cls with | .frame => clamp 65536 4294967294 p.hard | .transport => 0
  margin := match cls with | .frame => clamp 0 255 p.margin | .transport => 0
  autoConfirm := match cls with | .frame => p.autoConfirm | .transport => false

/-- Some field of the class was changed in being brought into range (R7). -/
def Policy.clamps (p : Policy) (cls : SlotClass) : Bool :=
  let q := p.inRange cls
  decide (q.lifetime ≠ p.lifetime) || decide (q.fraction ≠ p.fraction) || decide (q.window ≠ p.window) ||
  decide (q.grace ≠ p.grace) ||
  (match cls with
    | .frame => decide (q.hard ≠ p.hard) || decide (q.margin ≠ p.margin)
    | .transport => false)

/-- The soft limit, H less the share m kept back (R54). -/
def Policy.soft (p : Policy) : Nat := p.hard - p.hard * p.margin / 256

/-- renew_at of a generation issued at a time (R8). -/
def Policy.renewAt (p : Policy) (issued : Nat) : Nat := satAdd issued (p.lifetime * p.fraction / 256)

/-- expires_at of a generation issued at a time (R8). -/
def Policy.expiresAt (p : Policy) (issued : Nat) : Nat := satAdd issued p.lifetime

/-! ## The plan block (12.1) -/

/-- A 16-bit field of the plan block. -/
def planHalf (ram : List Host.Cell) (off : Nat) : Nat := Ram.readNat ram off 2

/-- A lane of the plan block is enabled when its enable field is not zero (R155). -/
def rawEnabled (ram : List Host.Cell) (n : Nat) : Bool := decide (planHalf ram (16 * n) ≠ 0)

def rawFirst (ram : List Host.Cell) (n : Nat) : Nat := planHalf ram (0x002 + 16 * n)

def rawCount (ram : List Host.Cell) (n : Nat) : Nat := planHalf ram (0x004 + 16 * n)

/-- The cells of two lanes share a cell. -/
def lanesMeet (ram : List Host.Cell) (n m : Nat) : Bool :=
  decide (rawFirst ram n < rawFirst ram m + rawCount ram m) &&
  decide (rawFirst ram m < rawFirst ram n + rawCount ram n)

/-- Checks a, b and c of an enabled lane: the offset of the first field found bad (R155). -/
def laneFault (ram : List Host.Cell) (n : Nat) : Option Nat :=
  if rawEnabled ram n then
    if 127 < rawFirst ram n then some (0x002 + 16 * n)
    else if rawCount ram n < 2 || 128 < rawFirst ram n + rawCount ram n then some (0x004 + 16 * n)
    else if (List.range n).any fun m => rawEnabled ram m && lanesMeet ram n m then some (0x002 + 16 * n)
    else none
  else none

/-- The checks of APPLY_PLAN in their order: the offset of the first field found bad (R155). -/
def planFault (ram : List Host.Cell) : Option Nat :=
  match (List.range 4).findSome? (laneFault ram) with
  | some off => some off
  | none =>
    if !((List.range 4).any (rawEnabled ram)) then some 0x000
    else
      let authority := planHalf ram 0x042
      if 63 < authority && authority ≠ 255 then some 0x042 else none

/-- A lane of the plan block, in range (R156). -/
def planLaneOf (ram : List Host.Cell) (n : Nat) : PlanLane :=
  if rawEnabled ram n then
    { enabled := true
      first := rawFirst ram n
      count := rawCount ram n
      weight := clamp 1 8 (planHalf ram (0x006 + 16 * n))
      budget := clamp 1 255 (planHalf ram (0x008 + 16 * n))
      threshold := clamp 1 (min 64 (rawCount ram n)) (planHalf ram (0x00A + 16 * n))
      delay := clamp 0 255 (planHalf ram (0x00C + 16 * n)) }
  else ⟨false, 0, 0, 0, 0, 0, 0⟩

/-- A tamper action code; codes above 3 act as 3 (R141, R156). -/
def actionOf (x : Nat) : TamperAction :=
  match x with
  | 0 => .noteOnly
  | 1 => .lock
  | 2 => .eraseUse
  | _ => .lockAndErase

def TamperAction.code : TamperAction → Nat
  | .noteOnly => 0
  | .lock => 1
  | .eraseUse => 2
  | .lockAndErase => 3

/-- The plan that a plan block gives once it has passed its checks (R155, R156). -/
def planOf (ram : List Host.Cell) : Plan where
  lanes := #v[planLaneOf ram 0, planLaneOf ram 1, planLaneOf ram 2, planLaneOf ram 3]
  scanPeriod := clamp 0 255 (planHalf ram 0x040)
  authority := if planHalf ram 0x042 = 255 then none else some (planHalf ram 0x042)
  tempOffset := clamp 0 80 (planHalf ram 0x044)
  hysteresis := clamp 0 30 (planHalf ram 0x046)
  coverFilter := clamp 1 255 (planHalf ram 0x062)
  coverAction := actionOf (planHalf ram 0x064)
  fieldFilter := clamp 1 255 (planHalf ram 0x066)
  fieldAction := actionOf (planHalf ram 0x068)

/-- The enable of a notice cause in the plan block: the low byte (12.1). -/
def causeEnable (ram : List Host.Cell) (c : Nat) : Bool := decide (Ram.read ram (0x048 + 2 * c) ≠ 0)

/-- The group of a notice cause in the plan block: the high byte, clamped (R156). -/
def causeGroup (ram : List Host.Cell) (c : Nat) : Nat := clamp 0 7 (Ram.read ram (0x049 + 2 * c)).toNat

/-- The filter time of a tamper input: 10 ms while no plan is applied (R139). -/
def State.filterTime (s : State) (i : TamperInput) : Nat :=
  match s.od.plan, i with
  | none, _ => 10
  | some p, .cover => p.coverFilter
  | some p, .field => p.fieldFilter

/-- The action of a tamper input: NOTE_ONLY while no plan is applied (R141). -/
def State.tamperAction (s : State) (i : TamperInput) : TamperAction :=
  match s.od.plan, i with
  | none, _ => .noteOnly
  | some p, .cover => p.coverAction
  | some p, .field => p.fieldAction

/-- The temperature limit in thousandths of a degree: 105.0 °C while no plan is applied (R114, R156). -/
def State.tempLimit (s : State) : Int :=
  match s.od.plan with
  | none => 105000
  | some p => 70000 + 500 * (p.tempOffset : Int)

/-- The temperature hysteresis in thousandths of a degree: 5.0 °C while no plan is applied (R114, R156). -/
def State.tempHysteresis (s : State) : Int :=
  match s.od.plan with
  | none => 5000
  | some p => 500 * (p.hysteresis : Int)

end Sys2Proof.Machine
end

