-- ==== Sys2Proof/Machine/Counters.lean ====
section
/-! DEFINITION. Machine/Counters.lean: the counter record of a generation as a value: its creation, the inbound
window, and its values after a restart (chapter 3). -/

namespace Sys2Proof.Machine

/-- The counter record of a new FRAME generation under a hard limit (R52). -/
def Counters.fresh (hard : Nat) : Counters :=
  { next := 1, ceil := min 4097 (hard + 1), durCeil := min 4097 (hard + 1), reserving := false
    top := 0, mask := 0, durMark := 4096, reqMark := 4096, marking := false }

/-- The counter record a new generation of a class takes: none, shown as zeros, under TRANSPORT. -/
def Counters.initial (cls : Option SlotClass) (hard : Nat) : Counters :=
  match cls with
  | some .frame => Counters.fresh hard
  | _ => Counters.zero

/-- What the window says of a counter value before the cipher request: `none` where it is acceptable (R62). -/
def Counters.check (k : Counters) (c : Nat) : Option Code :=
  if c = 0 then some .stale
  else if k.top < c then none
  else if 64 ≤ k.top - c then some .stale
  else if k.mask.getLsbD (k.top - c) then some .replayed
  else none

/-- The window after an ADMIT_FRAME (R63). -/
def Counters.admitted (k : Counters) (c : Nat) : Counters :=
  if k.top < c then
    { k with
      mask := if 64 ≤ c - k.top then 1 else (k.mask <<< (c - k.top)) ||| 1
      top := c }
  else { k with mask := k.mask ||| ((1 : BitVec 64) <<< (k.top - c)) }

/-- The mark that a value above the durable mark needs (R64, R66). -/
def markFor (c : Nat) : Nat := satAdd c 4096

/-- The record of the STAGED generation that a promoting ADMIT_FRAME leaves: the window updated and, where the value
lies above the mark, the mark raised (R43, R66). -/
def Counters.admitPromoting (k : Counters) (c : Nat) : Counters :=
  let w := k.admitted c
  if k.durMark < c then { w with durMark := markFor c, reqMark := max k.reqMark (markFor c) } else w

/-- The durable values raised by a programmed record, the ceiling capped at H + 1, and the pending flags
cleared where the durable value has caught up (R59). C and the requested mark never stand below the durable values
(R53, R66; assumption 29): the mark of a promoting ADMIT_FRAME is requested by its image alone. -/
def Counters.commit (k : Counters) (hard ceiling mark : Nat) : Counters :=
  let d := max k.durCeil (min ceiling (hard + 1))
  let i := max k.durMark mark
  { k with
    ceil := max k.ceil d
    durCeil := d
    durMark := i
    reqMark := max k.reqMark i
    reserving := k.reserving && decide (d < k.ceil)
    marking := k.marking && decide (i < k.reqMark) }

/-- A reservation requested: the RAM ceiling takes the value (R55, R56, R58). -/
def Counters.reserve (k : Counters) (hard : Nat) : Counters :=
  { k with ceil := min (k.durCeil + 4096) (hard + 1), reserving := true }

/-- A mark requested, which raises the requested mark (R58, R64, R65). -/
def Counters.requestMark (k : Counters) (mark : Nat) : Counters :=
  { k with reqMark := max k.reqMark mark, marking := true }

/-- The value taken: next rises by one (R56). -/
def Counters.takeValue (k : Counters) : Counters := { k with next := k.next + 1 }

/-- The outbound values lowered under a new hard limit (R19). -/
def Counters.lower (k : Counters) (hard : Nat) : Counters :=
  { k with next := min k.next (hard + 1), ceil := min k.ceil (hard + 1), durCeil := min k.durCeil (hard + 1) }

/-- The record after a restart, from its durable ceiling and mark (R67). -/
def Counters.restart (k : Counters) : Counters :=
  { k with
    next := k.durCeil, ceil := k.durCeil, reserving := false
    top := k.durMark, mask := BitVec.allOnes 64, reqMark := k.durMark, marking := false }

/-- Degraded recovery: the durable values advanced by 65,536, and the rest set from them (R68). -/
def Counters.recover (k : Counters) (hard : Nat) : Counters :=
  Counters.restart { k with durCeil := min (k.durCeil + 65536) (hard + 1), durMark := satAdd k.durMark 65536 }

end Sys2Proof.Machine
end

