-- ==== Sys2Proof/Machine/Table.lean ====
section
/-! DEFINITION. Machine/Table.lean: slot records and the parent tree as values: numbering (R6), the table and the
projected tree (R10 to R12), promotion (R40), and the record that each durable change leaves (R13 to R21, R32). -/

namespace Sys2Proof.Machine

/-! ## Numbering (R6) -/

/-- The first number after `n`, modulo 65,536, that no generation present holds; a slot holds at most three, so
three steps are looked at before the fourth is taken. -/
def SlotRec.nextFrom (r : SlotRec) : Nat → Half → Half
  | 0, n => n + 1
  | k + 1, n => if r.gens.any fun g => g.number = n + 1 then r.nextFrom k (n + 1) else n + 1

/-- The next generation number of a slot (R6). -/
def SlotRec.nextNumber (r : SlotRec) : Half := r.nextFrom 3 r.last

/-! ## The trees -/

/-- What a tree says of a slot: its class (`none` when EMPTY), its parent reference, and whether that reference
dangles. -/
structure Node where
  cls : Option SlotClass
  parent : Option Nat
  orphaned : Bool
  deriving DecidableEq, Repr

/-- The table's own tree. -/
def State.tableNode (s : State) (n : Nat) : Node :=
  let r := s.slot n
  ⟨r.cls, r.parent, r.orphaned⟩

/-- Class and parent that a slot will have once the order that holds it has committed (R12). -/
def State.projected (s : State) (n : Nat) : Option SlotClass × Option Nat :=
  let r := s.slot n
  match (s.holder n).bind fun c => (s.ctx c).bind fun x => x.change with
  | some (.define _ cls p _ _) => (some cls, some p)
  | some (.install _ cls _ _ _) => (some cls, none)
  | some (.adopt p) => (r.cls, some p)
  | some .retire => (none, none)
  | _ => (r.cls, r.parent)

/-- The projected tree (R12): every in-flight DEFINE_SLOT, INSTALL_ANCHOR, ADOPT and RETIRE_SLOT that has passed
its checks taken as committed. -/
def State.projNode (s : State) (n : Nat) : Node :=
  let x := s.projected n
  ⟨x.1, x.2, match x.2 with | none => false | some p => (s.projected p).1.isNone⟩

/-- The parent chain of a slot: a reference is followed from a slot that has a parent and is not orphaned
(R10). -/
def chain (t : Nat → Node) : Nat → Nat → List Nat
  | 0, _ => []
  | k + 1, n =>
    if (t n).orphaned then []
    else match (t n).parent with
      | none => []
      | some p => p :: chain t k p

/-- The depth of a slot: the length of its parent chain (R10). -/
def depth (t : Nat → Node) (n : Nat) : Nat := (chain t 64 n).length

/-- `m` is a descendant of `n`: `n` lies in the chain of `m` (R10). -/
def descends (t : Nat → Node) (m n : Nat) : Bool := (chain t 64 m).contains n

/-- The height of a slot: the greatest difference in depth between it and a descendant (R10). -/
def height (t : Nat → Node) (n : Nat) : Nat :=
  (List.range 64).foldl (fun h m => if descends t m n then max h (depth t m - depth t n) else h) 0

/-- A number that some slot's parent reference names (R11). -/
def named (t : Nat → Node) (n : Nat) : Bool :=
  (List.range 64).any fun m => (t m).cls.isSome && (t m).parent == some n

/-- The slot is EMPTY and its number is not reserved by a dangling reference (R11, R14, R16). -/
def vacant (t : Nat → Node) (n : Nat) : Bool := (t n).cls.isNone && !named t n

/-- The slot is defined and of class TRANSPORT. -/
def isTransport (t : Nat → Node) (n : Nat) : Bool := (t n).cls == some .transport

/-- A check against the table and the projected tree: it passes when it passes on both (R12). -/
def State.onBoth (s : State) (check : (Nat → Node) → Bool) : Bool := check s.tableNode && check s.projNode

/-! ## Changes of a slot record -/

/-- The promotion of the STAGED generation, its record issued at `t` (R40); `admitted` is the counter value of a
promoting ADMIT_FRAME (R43). A slot with no STAGED generation is left as it is. -/
def SlotRec.promote (r : SlotRec) (t : Nat) (admitted : Option Word) : SlotRec :=
  match r.staged with
  | none => r
  | some g =>
    let k := match admitted with | none => g.ctr | some c => g.ctr.admitPromoting c.toNat
    { r with
      outgoing := match r.current with
        | none => none
        | some cur =>
          if r.policy.grace = 0 then none else some { cur with graceDue := satAdd t r.policy.grace }
      current := some { g with
        issued := t, opened := 0, renewAt := r.policy.renewAt t, expiresAt := r.policy.expiresAt t
        expired := false, ctr := k }
      staged := none
      renewDue := false }

/-- The highest value handed out under a generation present: the greatest next value less 1 (R19). -/
def SlotRec.highestUsed (r : SlotRec) : Nat := r.gens.foldl (fun h g => max h (g.ctr.next - 1)) 0

/-- The policy that SET_POLICY stores: for a FRAME slot H is brought up to the highest value handed out
(R19). -/
def SlotRec.policyToStore (r : SlotRec) (p : Policy) : Policy :=
  match r.cls with
  | some .frame => { p with hard := max p.hard r.highestUsed }
  | _ => p

/-- SET_POLICY clamps H a second time (R19). -/
def SlotRec.policyRaised (r : SlotRec) (p : Policy) : Bool :=
  match r.cls with
  | some .frame => decide (p.hard < r.highestUsed)
  | _ => false

/-- The new soft limit lies at or below the last value used under CURRENT, and renew_due is clear (R9, R19). -/
def SlotRec.policyDue (r : SlotRec) (p : Policy) : Bool :=
  match r.cls, r.current with
  | some .frame, some g => !r.renewDue && decide ((r.policyToStore p).soft ≤ g.ctr.next - 1)
  | _, _ => false

/-- The record after SET_POLICY (R18, R19). -/
def SlotRec.setPolicy (r : SlotRec) (p : Policy) : SlotRec :=
  let q := r.policyToStore p
  let r1 : SlotRec :=
    match r.cls with
    | some .frame => r.mapGens fun g => { g with ctr := g.ctr.lower q.hard }
    | _ => r
  { r1 with
    policy := q
    renewDue := r.renewDue || r.policyDue p
    current := r1.current.map fun g =>
      { g with renewAt := q.renewAt g.issued, expiresAt := q.expiresAt g.issued } }

/-- A new STAGED generation (R32). -/
def SlotRec.stage (r : SlotRec) (number : Half) (key : Key) (t : Nat) : SlotRec :=
  { r with
    last := number
    staged := some
      { number := number, key := key, issued := 0, opened := t, renewAt := 0, expiresAt := 0, graceDue := 0
        expired := false, ctr := Counters.initial r.cls r.policy.hard } }

/-- A freshly installed anchor (R17). -/
def SlotRec.installed (label : Word) (cls : SlotClass) (p : Policy) (key : Key) (t : Nat) : SlotRec :=
  { SlotRec.empty with
    label := label
    cls := some cls
    policy := p
    last := 1
    current := some
      { number := 1, key := key, issued := t, opened := 0, renewAt := p.renewAt t, expiresAt := p.expiresAt t
        graceDue := 0, expired := false, ctr := Counters.initial (some cls) p.hard } }

/-- The record that a durable change leaves, with `t` the meter time at which its record joined the open group.
The orphaned flag is set at the commit (R11, R15, R20). -/
def Change.apply (ch : Change) (t : Nat) (r : SlotRec) : SlotRec :=
  match ch with
  | .define label cls p pol _ =>
    { SlotRec.empty with label := label, cls := some cls, parent := some p, policy := pol }
  | .install label cls pol _ key => SlotRec.installed label cls pol key t
  | .setPolicy pol _ => r.setPolicy pol
  | .adopt p => { r with parent := some p }
  | .retire => SlotRec.empty
  | .stage number key => r.stage number key t
  | .promote admitted => r.promote t admitted
  | .cancel => { r with staged := none }
  | .unlock => r

/-- The record that a tamper erase leaves (R143). -/
def SlotRec.erase (r : SlotRec) : SlotRec :=
  { r with current := none, staged := none, outgoing := none, renewDue := false, deferred := Deferred.none }

/-- A FRAME slot that holds a generation is affected by an erase action (R143). -/
def SlotRec.erasable (r : SlotRec) : Bool := r.cls == some .frame && !r.gens.isEmpty

/-- The copy of the parent that a renewal order makes at take (R28). -/
def SlotRec.parentCopy (r : SlotRec) : ParentCopy :=
  { empty := r.cls.isNone
    current := r.current.map fun g => ⟨g.number, g.expired, g.key⟩
    outgoing := r.outgoing.map fun g => ⟨g.number, g.expired, g.key⟩ }

end Sys2Proof.Machine
end

