-- ==== Sys2Proof/Machine/Formats.lean ====
section
/-! DEFINITION. Machine/Formats.lean: the journal units, the wrapped-key blob, the public slot record and the
summary block as bytes (chapter 12), with the CRC-32 of R108; and the reading of a journal unit, by which replay
learns what the array holds (R105, R187). -/

namespace Sys2Proof.Machine

/-! ## The CRC-32 of R108 -/

/-- One bit of the reflected CRC: polynomial 0x04C11DB7, whose reflected form is 0xEDB88320. -/
def crcBit (c : Nat) : Nat := if c % 2 = 1 then (c / 2) ^^^ 0xEDB88320 else c / 2

def crcByte (c : Nat) (b : Byte) : Nat := Nat.repeat crcBit 8 (c ^^^ b.toNat)

/-- The CRC-32 of a run of bytes: initial value all ones, final inversion of all bits (R108). -/
def crc32 (bytes : List Byte) : Nat := (bytes.foldl crcByte 0xFFFFFFFF) ^^^ 0xFFFFFFFF

/-- The CRC-32 of journal units, each whole, in the order they are programmed (R108). -/
def crcUnits (units : List UnitWord) : Nat := crc32 (units.flatMap fun u => bytesOf u.toNat 32)

/-! ## Journal units (12.6) -/

def unitOf (x : Nat) : UnitWord := BitVec.ofNat 256 x

/-- The header of a bank: its epoch and the CRC-32 of the epoch's four bytes (R104). -/
def headerUnit (epoch : Word) : UnitWord :=
  unitOf (packFields [(0, 4, epoch.toNat), (4, 4, crc32 (bytesOf epoch.toNat 4))])

/-- The epoch of a header whose check matches (R104). -/
def readHeader (u : UnitWord) : Option Word :=
  if fieldAt u.toNat 4 4 = crc32 (bytesOf u.toNat 4) then some (BitVec.ofNat 32 (fieldAt u.toNat 0 4)) else none

/-- A GROUP_END unit: BASE flag, unit count, sequence, CRC (R108). -/
def groupEndUnit (base : Bool) (count : Nat) (seq : Word) (crc : Nat) : UnitWord :=
  unitOf (packFields [(0, 1, 5), (1, 1, flagNat base), (2, 2, count), (4, 4, seq.toNat), (8, 4, crc)])

def counterMarkUnit (slot : Nat) (gen : Half) (ceiling mark : Nat) : UnitWord :=
  unitOf (packFields [(0, 1, 2), (1, 1, slot), (2, 2, gen.toNat), (4, 4, ceiling), (8, 4, mark)])

def timeMarkUnit (t : Nat) : UnitWord := unitOf (packFields [(0, 1, 3), (4, 4, t)])

def TamperInput.code : TamperInput → Nat
  | .cover => 1
  | .field => 2

def tamperNoteUnit (input : Option TamperInput) (action : Option TamperAction) (flag : Bool) (time : Nat)
    (seq : Word) : UnitWord :=
  unitOf (packFields [(0, 1, 4), (1, 1, (input.map TamperInput.code).getD 0),
    (2, 1, (action.map TamperAction.code).getD 255), (3, 1, flagNat flag), (4, 4, time), (8, 4, seq.toNat)])

def SlotState.code : SlotState → Nat
  | .empty => 0
  | .void => 1
  | .live => 2

/-- The ceiling and mark of a generation as an image carries them: the RAM ceiling and the requested mark (R52,
R116), zero for a role that is absent and under TRANSPORT (R187). -/
def imageCounters (cls : Option SlotClass) (g : Option Gen) : Nat :=
  match cls, g with
  | some .frame, some g => packFields [(0, 4, g.ctr.ceil), (4, 4, g.ctr.reqMark)]
  | _, _ => 0

/-- The 128 bytes of a SLOT_IMAGE as one number (12.6). An image of an EMPTY slot carries no more than its kind,
slot and state, with no parent. -/
def imageNat (slot : Nat) (r : SlotRec) : Nat :=
  let cur (f : Gen → Nat) : Nat := (r.current.map f).getD 0
  let sta (f : Gen → Nat) : Nat := (r.staged.map f).getD 0
  let out (f : Gen → Nat) : Nat := (r.outgoing.map f).getD 0
  let flags := flagNat r.renewDue + 2 * flagNat r.policy.autoConfirm + 4 * flagNat r.current.isSome
    + 8 * flagNat r.staged.isSome + 16 * flagNat r.outgoing.isSome + 32 * cur (fun g => flagNat g.expired)
    + 64 * out (fun g => flagNat g.expired)
  packFields [(0x00, 1, 1), (0x01, 1, slot), (0x02, 1, r.state.code), (0x03, 1, (r.cls.map SlotClass.code).getD 0),
    (0x04, 1, r.parent.getD 255), (0x05, 1, flags), (0x06, 1, r.policy.fraction), (0x07, 1, r.policy.margin),
    (0x08, 4, r.label.toNat), (0x0C, 4, r.policy.lifetime), (0x10, 4, r.policy.hard),
    (0x14, 3, r.policy.window), (0x17, 3, r.policy.grace), (0x1A, 2, r.last.toNat),
    (0x1C, 2, cur fun g => g.number.toNat), (0x1E, 2, out fun g => g.number.toNat),
    (0x20, 4, cur (·.issued)), (0x24, 4, sta (·.opened)), (0x28, 4, out (·.issued)),
    (0x2C, 4, out (·.renewAt)), (0x30, 4, out (·.expiresAt)), (0x34, 4, out (·.graceDue)),
    (0x38, 8, imageCounters r.cls r.current), (0x40, 8, imageCounters r.cls r.staged),
    (0x48, 8, imageCounters r.cls r.outgoing),
    (0x50, 16, cur fun g => g.key.toNat), (0x60, 16, sta fun g => g.key.toNat),
    (0x70, 16, out fun g => g.key.toNat)]

/-- The units of a record, in the order they are programmed. -/
def RecBody.units : RecBody → List UnitWord
  | .image slot r => (List.range 4).map fun i => unitOf (imageNat slot r >>> (256 * i))
  | .counterMark slot gen ceiling mark => [counterMarkUnit slot gen ceiling mark]
  | .timeMark t => [timeMarkUnit t]
  | .note input action flag time seq => [tamperNoteUnit input action flag time seq]

/-- How many units a record occupies (R107). -/
def RecBody.size : RecBody → Nat
  | .image _ _ => 4
  | _ => 1

/-! ## Reading records back -/

/-- The counter record of a generation that an image carries: its durable values only (R52, R187). -/
def readCounters (cls : Option SlotClass) (x off : Nat) : Counters :=
  match cls with
  | some .frame =>
    { Counters.zero with
      ceil := fieldAt x off 4, durCeil := fieldAt x off 4, durMark := fieldAt x (off + 4) 4
      reqMark := fieldAt x (off + 4) 4 }
  | _ => Counters.zero

/-- The slot record that a SLOT_IMAGE carries, with the fields it does not carry rebuilt (R187). The orphaned
flag and the deferred set are derived at step 4 of start-up (R24). That a parent byte of 64 to 254 gives no parent, as
255 does, and what a class or state code gives that is none of 12.6, is the model's choice (assumption 33). -/
def readImage (x : Nat) : SlotRec :=
  let cls := classOf (BitVec.ofNat 8 (fieldAt x 0x03 1))
  if fieldAt x 0x02 1 = 0 ∨ cls = none then SlotRec.empty
  else
    let flags := fieldAt x 0x05 1
    let pol : Policy :=
      { lifetime := fieldAt x 0x0C 4, fraction := fieldAt x 0x06 1, window := fieldAt x 0x14 3
        grace := fieldAt x 0x17 3, hard := fieldAt x 0x10 4, margin := fieldAt x 0x07 1
        autoConfirm := flags.testBit 1 }
    let issued := fieldAt x 0x20 4
    let last : Half := BitVec.ofNat 16 (fieldAt x 0x1A 2)
    { label := BitVec.ofNat 32 (fieldAt x 0x08 4)
      cls := cls
      parent := if fieldAt x 0x04 1 < 64 then some (fieldAt x 0x04 1) else none
      orphaned := false
      policy := pol
      last := last
      renewDue := flags.testBit 0
      deferred := Deferred.none
      current := if flags.testBit 2 then some
        { number := BitVec.ofNat 16 (fieldAt x 0x1C 2), key := BitVec.ofNat 128 (fieldAt x 0x50 16)
          issued := issued, opened := 0, renewAt := pol.renewAt issued, expiresAt := pol.expiresAt issued
          graceDue := 0, expired := flags.testBit 5, ctr := readCounters cls x 0x38 } else none
      staged := if flags.testBit 3 then some
        { number := last, key := BitVec.ofNat 128 (fieldAt x 0x60 16)
          issued := 0, opened := fieldAt x 0x24 4, renewAt := 0, expiresAt := 0
          graceDue := 0, expired := false, ctr := readCounters cls x 0x40 } else none
      outgoing := if flags.testBit 4 then some
        { number := BitVec.ofNat 16 (fieldAt x 0x1E 2), key := BitVec.ofNat 128 (fieldAt x 0x70 16)
          issued := fieldAt x 0x28 4, opened := 0, renewAt := fieldAt x 0x2C 4, expiresAt := fieldAt x 0x30 4
          graceDue := fieldAt x 0x34 4, expired := flags.testBit 6, ctr := readCounters cls x 0x48 } else none }

/-- The kind byte of a unit. -/
def unitKind (u : UnitWord) : Nat := fieldAt u.toNat 0 1

/-- What replay takes from a record of its group. -/
inductive Replayed where
  | image (slot : Nat) (rec : SlotRec)
  | counterMark (slot : Nat) (gen : Half) (ceiling mark : Nat)
  | timeMark (time : Nat)
  | note (flag : Bool) (seq : Word)
  deriving DecidableEq, Repr

def joinUnits : List UnitWord → Nat
  | [] => 0
  | u :: us => u.toNat + (joinUnits us) <<< 256

/-- The records that a run of record units spells: `none` where a record begins with an unknown kind or does not
lie whole within the run (R123). The fuel is the number of units. That any byte but 0 sets the lockdown flag of a note is
the model's choice (assumption 33). -/
def readRecords : Nat → List UnitWord → Option (List Replayed)
  | _, [] => some []
  | 0, _ => none
  | k + 1, u :: rest =>
    let x := u.toNat
    match unitKind u with
    | 1 =>
      if rest.length < 3 then none
      else
        (readRecords k (rest.drop 3)).map fun l =>
          Replayed.image (fieldAt x 1 1) (readImage (joinUnits (u :: rest.take 3))) :: l
    | 2 =>
      (readRecords k rest).map fun l =>
        Replayed.counterMark (fieldAt x 1 1) (BitVec.ofNat 16 (fieldAt x 2 2)) (fieldAt x 4 4) (fieldAt x 8 4) :: l
    | 3 => (readRecords k rest).map fun l => Replayed.timeMark (fieldAt x 4 4) :: l
    | 4 =>
      (readRecords k rest).map fun l =>
        Replayed.note (decide (fieldAt x 3 1 ≠ 0)) (BitVec.ofNat 32 (fieldAt x 8 4)) :: l
    | _ => none

/-! ## The wrapped-key blob (12.4) -/

/-- The 16 header bytes of a blob, by field; the reserved bytes are zero. -/
def blobHeader (label : Word) (target wrapping : Half) (cls : Option SlotClass) : BitVec 128 :=
  BitVec.ofNat 128 (packFields [(0, 4, label.toNat), (4, 2, target.toNat), (6, 2, wrapping.toNat),
    (8, 1, (cls.map SlotClass.code).getD 0)])

/-- The 40 bytes of a blob from its parts. -/
def blobBytes (head : BitVec 128) (key : Key) (sum : BitVec 64) : List Byte :=
  bytesOf head.toNat 16 ++ bytesOf key.toNat 16 ++ bytesOf sum.toNat 8

/-! ## The public slot record (12.5) -/

/-- A FRAME generation is exhausted when its next value has reached H + 1 (R54). -/
def Gen.exhausted (g : Gen) (cls : Option SlotClass) (pol : Policy) : Bool :=
  cls == some .frame && decide (pol.hard < g.ctr.next)

/-- One generation entry of 36 bytes as a number; an absent entry is zero throughout. -/
def publicEntry (r : SlotRec) (role : Role) : Nat :=
  match r.gen role with
  | none => 0
  | some g =>
    packFields [(0x00, 1, 1), (0x01, 1, flagNat g.expired), (0x02, 1, flagNat (g.exhausted r.cls r.policy)),
      (0x04, 2, g.number.toNat), (0x08, 4, if role = .staged then g.opened else g.issued),
      (0x0C, 4, g.renewAt), (0x10, 4, g.expiresAt), (0x14, 4, g.ctr.next), (0x18, 4, g.ctr.durCeil),
      (0x1C, 4, g.ctr.top), (0x20, 4, g.ctr.durMark)]

/-- The public slot record of a slot at a depth as a number of 160 bytes. -/
def publicNat (slot depth : Nat) (r : SlotRec) : Nat :=
  packFields [(0x00, 1, slot), (0x01, 1, (r.cls.map SlotClass.code).getD 0), (0x02, 1, r.state.code),
    (0x03, 1, r.parent.getD 255), (0x04, 4, r.label.toNat), (0x08, 1, flagNat r.orphaned), (0x09, 1, depth),
    (0x0A, 1, flagNat r.renewDue),
    (0x0B, 1, flagNat r.deferred.confirm + 2 * flagNat r.deferred.grace + 4 * flagNat r.deferred.expire
      + 8 * flagNat r.deferred.renew),
    (0x0C, 2, r.last.toNat), (0x0E, 2, r.nextNumber.toNat), (0x10, 4, r.policy.lifetime),
    (0x14, 4, r.policy.window), (0x18, 4, r.policy.grace), (0x1C, 4, r.policy.hard),
    (0x20, 1, r.policy.fraction), (0x21, 1, r.policy.margin), (0x22, 1, flagNat r.policy.autoConfirm),
    (0x28, 36, publicEntry r .current), (0x4C, 36, publicEntry r .staged), (0x70, 36, publicEntry r .outgoing)]

/-- The public slot record that READ_SLOT writes (R23). -/
def State.publicRecord (s : State) (slot : Nat) : List Byte :=
  bytesOf (publicNat slot (depth s.tableNode slot) (s.slot slot)) 160

/-! ## The summary block (12.2) -/

def EngineState.code : EngineState → Nat
  | .starting => 0
  | .stopped => 1
  | .running => 2
  | .stopping => 3
  | .holdover => 4
  | .failed => 5

def ResetCause.code : ResetCause → Nat
  | .power => 1
  | .pin => 2

def PortCommand.code : PortCommand → Nat
  | .start => 1
  | .stop => 2
  | .applyPlan => 3
  | .clearFault => 4

def PortOutcome.code : PortOutcome → Nat
  | .ok => 0
  | .wrongState => 1
  | .noPlan => 2
  | .planInvalid => 3

def TimeReason.code : TimeReason → Nat
  | .none => 0
  | .tickLost => 1
  | .tickBack => 2
  | .clamped => 3

def FaultKind.code : FaultKind → Nat
  | .nvCorrected => 1
  | .nvGroupLost => 2
  | .rngHealth => 3
  | .nvFatal => 4

def Bank.code : Bank → Nat
  | .a => 0
  | .b => 1

def Activity.code : Activity → Nat
  | .idle => 0
  | .programming => 1
  | .compacting => 2

/-- The PENDING mask (12.2), with the bits of R178. -/
def State.pendingMask (s : State) : Nat :=
  (List.range 13).foldl (fun m i => m + (if (s.cause i).pending then 2 ^ i else 0)) 0

/-- The units of the waiting records (R109). -/
def waitingUnits (l : List Rec) : Nat := l.foldl (fun n r => n + r.body.size) 0

/-- The status word of the summary block. -/
def State.statusNat (s : State) : Nat :=
  flagNat s.wp.provisioning + 2 * flagNat s.tu.uncertain + 4 * flagNat s.tu.fallback + 8 * flagNat s.tm.lockdown
  + 16 * flagNat s.ju.hot + 32 * flagNat s.ju.wasHot + 64 * flagNat s.ju.erasing.isSome
  + 128 * flagNat s.xu.disabled + 256 * flagNat s.tm.cover.settled + 512 * flagNat s.tm.field.settled

/-- The 16 bytes of one lane in the summary block. -/
def State.laneNat (s : State) (n : Nat) : Nat :=
  let done := (s.lane n).done.toNat
  match s.planLane n with
  | none => packFields [(0, 4, done)]
  | some p =>
    packFields [(0, 4, done), (4, 1, p.first), (5, 1, p.count), (6, 1, p.weight), (7, 1, p.budget),
      (8, 1, p.threshold), (9, 1, p.delay), (10, 1, s.inFlight n), (11, 1, (s.coalescing n).count), (12, 1, 1)]

/-- The last port result and the port command count, which the summary block shows from the end of step 1 (R134). -/
def State.portResultFields (s : State) : List (Nat × Nat × Nat) :=
  [(0x008, 1, (s.wp.lastCmd.map PortCommand.code).getD 0), (0x009, 1, s.wp.lastOutcome.code),
   (0x00A, 2, s.wp.lastOffset), (0x00C, 2, s.wp.cmdCount.toNat)]

/-- Every other field of the summary block, kept current from step 9 of start-up. -/
def State.summaryFields (s : State) : List (Nat × Nat × Nat) :=
  [(0x000, 2, s.wp.engine.code),
   (0x002, 2, if s.wp.engine = .holdover then s.wp.held.code else s.wp.engine.code),
   (0x004, 2, s.wp.cause.code), (0x006, 2, s.statusNat), (0x00E, 2, s.pendingMask), (0x010, 4, s.tu.now),
   (0x014, 1, s.tu.reason.code), (0x015, 1, s.xu.failures), (0x016, 1, s.poolInUse),
   (0x018, 8, Config.serial.toNat),
   (0x020, 1, (s.nu.fault.map fun f => f.kind.code).getD 0),
   (0x021, 1, (s.nu.fault.map fun f => f.kind.severity).getD 0),
   (0x022, 4, (s.nu.fault.map fun f => f.time).getD 0),
   (0x026, 2, (s.nu.fault.map fun f => f.loc1).getD 0),
   (0x028, 2, (s.nu.fault.map fun f => f.loc2).getD 0),
   (0x02A, 1, s.nu.laterFaults), (0x02B, 1, s.nu.highest), (0x02C, 4, s.tm.seq.toNat),
   (0x030, 1, (s.ju.current.map Bank.code).getD 255), (0x031, 1, s.ju.activity.code), (0x032, 2, s.ju.used),
   (0x034, 4, s.ju.epoch.toNat), (0x038, 4, s.ju.lastSeq.toNat), (0x03C, 2, waitingUnits s.ju.waiting),
   (0x03E, 2, s.tu.deadlines.length), (0x040, 4, (s.tu.deadlines.head?.map fun d => d.due).getD 0),
   (0x044, 1, (s.od.plan.map fun p => p.scanPeriod).getD 0),
   (0x045, 1, (s.od.plan.map fun p => p.tempOffset).getD 0),
   (0x046, 1, (s.od.plan.map fun p => p.hysteresis).getD 0),
   (0x048, 4, s.tm.cover.time), (0x04C, 2, s.tm.cover.count), (0x050, 4, s.tm.field.time),
   (0x054, 2, s.tm.field.count),
   (0x060, 16, s.laneNat 0), (0x070, 16, s.laneNat 1), (0x080, 16, s.laneNat 2), (0x090, 16, s.laneNat 3)]

/-- The 512 bytes of the summary block as one number; before step 9 only the last port result and the port command
count show (R134). -/
def State.summaryNat (s : State) : Nat :=
  packFields s.portResultFields + (if s.wp.summaryOn then packFields s.summaryFields else 0)

end Sys2Proof.Machine
end

