-- ==== Sys2Proof/Machine/Journal.lean ====
section
/-! DEFINITION. Machine/Journal.lean: the array as stored (R104, R105), the waiting list and the open group (R109,
R110), and the requests of the Counter Unit (R58). -/

namespace Sys2Proof.Machine

/-! ## The array -/

def Bank.other : Bank → Bank
  | .a => .b
  | .b => .a

/-- The programmed units of a bank. -/
def State.units (s : State) : Bank → List (Nat × NvUnit)
  | .a => s.ju.unitsA
  | .b => s.ju.unitsB

def State.setUnits (s : State) (bk : Bank) (l : List (Nat × NvUnit)) : State :=
  match bk with
  | .a => { s with ju := { s.ju with unitsA := l } }
  | .b => { s with ju := { s.ju with unitsB := l } }

def State.bankState (s : State) : Bank → BankState
  | .a => s.ju.stateA
  | .b => s.ju.stateB

def State.setBankState (s : State) (bk : Bank) (x : BankState) : State :=
  match bk with
  | .a => { s with ju := { s.ju with stateA := x } }
  | .b => { s with ju := { s.ju with stateB := x } }

/-- What a unit gives when it is read; an unlisted unit is erased. -/
def unitAt : List (Nat × NvUnit) → Nat → NvUnit
  | [], _ => .erased
  | (k, u) :: rest, n => if k = n then u else unitAt rest n

/-- The content of a unit, if it reads (R105). -/
def NvUnit.content : NvUnit → Option UnitWord
  | .good w => some w
  | .corrected w => some w
  | _ => none

/-- A unit that has been read is reported where it read only after a correction (R105, R184). -/
def State.noteRead (s : State) (bk : Bank) (n : Nat) : NvUnit → State
  | .corrected _ => s.giveFault .nvCorrected bk.code n
  | _ => s

/-- A bank's units with one unit replaced. -/
def setUnit (l : List (Nat × NvUnit)) (n : Nat) (u : NvUnit) : List (Nat × NvUnit) :=
  (l.filter fun x => x.1 ≠ n) ++ (if u = .erased then [] else [(n, u)])

/-- The bank that is not current, into which a compaction goes (R115); bank A while none is current. -/
def State.target (s : State) : Bank :=
  match s.ju.current with
  | some bk => bk.other
  | none => .a

/-! ## The waiting list -/

/-- How many records from the front of the list fit in a number of units, in list order (R109). -/
def openLen : Nat → List Rec → Nat
  | _, [] => 0
  | room, r :: rest => if r.body.size ≤ room then 1 + openLen (room - r.body.size) rest else 0

/-- The records of the open group: the front of the list, up to 31 units. -/
def State.openGroup (s : State) : List Rec := s.ju.waiting.take (openLen 31 s.ju.waiting)

/-- A slot record whose generations carry the counters of the table (R52). -/
def SlotRec.withCounters (r t : SlotRec) : SlotRec :=
  r.mapGens fun g =>
    match t.find g.number with
    | some h => { g with ctr := h.ctr }
    | none => g

/-- A record as it stands when it joins the open group (R13, R40, R52, R99). -/
def State.joinRec (s : State) (r : Rec) : Rec :=
  let body :=
    match r.owner, r.body with
    | .order c, .image slot old =>
      match (s.ctx c).bind fun x => x.change with
      | some ch => RecBody.image slot (ch.apply s.tu.now (s.slot slot))
      | none => .image slot old
    | .deadline, .image slot old => .image slot (old.withCounters (s.slot slot))
    | _, x => x
  { r with body := body, joined := true, time := s.tu.now }

/-- Records that the open group has come to hold join it. -/
def State.joinUp (s : State) : State :=
  let n := openLen 31 s.ju.waiting
  { s with ju := { s.ju with
      waiting := s.ju.waiting.mapIdx fun i r => if i < n && !r.joined then s.joinRec r else r } }

/-- A record handed to the Journal Unit, which takes none in FAILED (R109, R120). -/
def State.handOver (s : State) (body : RecBody) (owner : Owner) : State :=
  if s.wp.engine = .failed then s
  else State.joinUp { s with ju := { s.ju with waiting := s.ju.waiting ++ [⟨body, owner, false, 0⟩] } }

/-- Waiting records that leave the list; those behind keep their order and move up (R110). -/
def State.dropWaiting (s : State) (p : Rec → Bool) : State :=
  State.joinUp { s with ju := { s.ju with waiting := s.ju.waiting.filter fun r => !p r } }

/-- The record is one that an order placed. -/
def Rec.ofOrder (r : Rec) (c : Nat) : Bool := r.owner == .order c || r.owner == .unlock c

def Rec.isMarkOf (r : Rec) (slot : Nat) (gen : Half) : Bool :=
  match r.body with
  | .counterMark n g _ _ => n == slot && g == gen
  | _ => false

def Rec.isTimeMark (r : Rec) : Bool :=
  match r.body with
  | .timeMark _ => true
  | _ => false

def Rec.isDeadlineImage (r : Rec) (slot : Nat) : Bool :=
  match r.owner, r.body with
  | .deadline, .image n _ => n == slot
  | _, _ => false

/-- The COUNTER_MARK of a discarded generation is withdrawn (R60, R110). -/
def State.dropMarks (s : State) (slot : Nat) (gens : List Gen) : State :=
  s.dropWaiting fun r => gens.any fun g => r.isMarkOf slot g.number

/-- A waiting record of one sort brought up to date in place, or else a new one (R58, R91, R99). -/
def State.placeOrUpdate (s : State) (p : Rec → Bool) (body : RecBody) (owner : Owner) : State :=
  if s.ju.waiting.any p then
    { s with ju := { s.ju with waiting := s.ju.waiting.map fun r => if p r then { r with body := body } else r } }
  else s.handOver body owner

/-- A SLOT_IMAGE given by a deadline action (R99). -/
def State.deadlineImage (s : State) (slot : Nat) : State :=
  s.placeOrUpdate (fun r => r.isDeadlineImage slot) (.image slot (s.slot slot)) .deadline

/-- A TIME_MARK placed by the Time Unit (R91). -/
def State.timeMark (s : State) : State :=
  s.placeOrUpdate (fun r => r.isTimeMark && r.owner == .time) (.timeMark s.tu.now) .time

/-- A COUNTER_MARK with the generation's values as they now stand (R58). -/
def State.counterMark (s : State) (slot : Nat) (gen : Half) : State :=
  match (s.slot slot).find gen with
  | none => s
  | some g =>
    s.placeOrUpdate (fun r => r.isMarkOf slot gen) (.counterMark slot gen g.ctr.ceil g.ctr.reqMark) .counter

/-- The generation of one number in a slot changed. -/
def State.modGen (s : State) (slot : Nat) (gen : Half) (f : Gen → Gen) : State :=
  s.setSlot slot ((s.slot slot).updGen gen f)

/-- An outbound reservation requested (R55, R56, R58). -/
def State.requestReservation (s : State) (slot : Nat) (gen : Half) : State :=
  let hard := (s.slot slot).policy.hard
  (s.modGen slot gen fun g => { g with ctr := g.ctr.reserve hard }).counterMark slot gen

/-- An inbound mark requested (R58, R64, R65). -/
def State.requestMark (s : State) (slot : Nat) (gen : Half) (mark : Nat) : State :=
  (s.modGen slot gen fun g => { g with ctr := g.ctr.requestMark mark }).counterMark slot gen

/-- The records of the group that is programming, if one is. -/
def State.programming (s : State) : List Rec :=
  match s.ju.step with
  | some ⟨.group g, _, _, _⟩ => g.recs
  | _ => []

/-- The order finishes with its group: the group is programming, or failed and is to be programmed again (R119,
R128, R144). -/
def State.finishing (s : State) (c : Nat) : Bool :=
  (s.programming.any fun r => r.ofOrder c) ||
  (match s.ju.failed with
    | some g => g.recs.any fun r => r.ofOrder c
    | none => false)

/-- The ceiling and mark that a record carries for a generation, if it names it (R52, R59). -/
def RecBody.carries (b : RecBody) (slot : Nat) (gen : Half) : Option (Nat × Nat) :=
  match b with
  | .counterMark n g ceiling mark => if n = slot ∧ g = gen then some (ceiling, mark) else none
  | .image n r =>
    if n = slot ∧ r.cls = some .frame then (r.find gen).map fun g => (g.ctr.ceil, g.ctr.reqMark) else none
  | _ => none

/-- The order's wait for a reservation or a mark is one that the records satisfy (R55, R64, R172). -/
def State.satisfies (s : State) (x : Ctx) (recs : List Rec) : Bool :=
  let slot := x.order.slot.toNat
  match x.wait, (s.slot slot).find x.genNo with
  | .reservation, some g =>
    recs.any fun r => (r.body.carries slot x.genNo).any fun v => decide (g.ctr.next < v.1)
  | .mark, some _ => recs.any fun r => (r.body.carries slot x.genNo).any fun v => decide (x.value ≤ v.2)
  | _, _ => false

/-- The budget stops applying to the orders that wait on a group which has begun programming (R172). -/
def State.settleBudgets (s : State) : State :=
  let recs := s.programming ++ (match s.ju.failed with | some g => g.recs | none => [])
  { s with od := { s.od with
      ctxs := s.od.ctxs.mapFinIdx fun c x _ => x.map fun x =>
        if (recs.any fun r => r.ofOrder c) || s.satisfies x recs then { x with budgetApplies := false } else x } }

end Sys2Proof.Machine
end

