-- ==== Sys2Proof/Machine/Deadlines.lean ====
section
/-! DEFINITION. Machine/Deadlines.lean: the deadline list and its actions (R94 to R99), meter time (R88 to R91), the
deadline entries of a committed change (R95), and the tamper erase of one slot (R143). -/

namespace Sys2Proof.Machine

/-! ## Holds -/

/-- An order in flight holds the slot (R169). -/
def State.isHeld (s : State) (slot : Nat) : Bool := (s.holder slot).isSome

/-! ## The list (R94, R95) -/

def DeadlineKind.order : DeadlineKind → Nat
  | .confirm => 0
  | .grace => 1
  | .expire => 2
  | .renew => 3

/-- List order: due time, then slot, then kind (R94). -/
def Deadline.before (d e : Deadline) : Bool :=
  decide (d.due < e.due) ||
  (d.due == e.due && (decide (d.slot < e.slot) || (d.slot == e.slot && decide (d.kind.order < e.kind.order))))

def insertDeadline (d : Deadline) : List Deadline → List Deadline
  | [] => [d]
  | e :: rest => if d.before e then d :: e :: rest else e :: insertDeadline d rest

def Deferred.set (f : Deferred) (k : DeadlineKind) (v : Bool) : Deferred :=
  match k with
  | .confirm => { f with confirm := v }
  | .grace => { f with grace := v }
  | .expire => { f with expire := v }
  | .renew => { f with renew := v }

def Deferred.has (f : Deferred) : DeadlineKind → Bool
  | .confirm => f.confirm
  | .grace => f.grace
  | .expire => f.expire
  | .renew => f.renew

def State.setDeferred (s : State) (slot : Nat) (k : DeadlineKind) (v : Bool) : State :=
  let r := s.slot slot
  s.setSlot slot { r with deferred := r.deferred.set k v }

/-- The entry of a slot and kind removed, with the kind in the slot's deferred set (R95). -/
def State.removeDeadline (s : State) (slot : Nat) (k : DeadlineKind) : State :=
  let s := s.setDeferred slot k false
  { s with tu := { s.tu with deadlines := s.tu.deadlines.filter fun d => !(d.slot == slot && d.kind == k) } }

/-- An entry set in place of any of the same slot and kind (R95). -/
def State.setDeadline (s : State) (slot : Nat) (k : DeadlineKind) (due : Nat) : State :=
  let s := s.removeDeadline slot k
  { s with tu := { s.tu with deadlines := insertDeadline ⟨due, slot, k⟩ s.tu.deadlines } }

def State.removeAllDeadlines (s : State) (slot : Nat) : State :=
  (((s.removeDeadline slot .confirm).removeDeadline slot .grace).removeDeadline slot .expire).removeDeadline slot .renew

/-! ## The actions (R98, R99) -/

/-- The action of one kind at a slot (R98), recorded by a SLOT_IMAGE where it changes the slot (R99). -/
def State.act (s : State) (slot : Nat) (k : DeadlineKind) : State :=
  let r := s.slot slot
  match k with
  | .confirm =>
    match r.staged with
    | none => s
    | some g => (((s.setSlot slot { r with staged := none }).dropMarks slot [g]).deadlineImage slot).raise bitRenewFailed
  | .grace =>
    match r.outgoing with
    | none => s
    | some g => ((s.setSlot slot { r with outgoing := none }).dropMarks slot [g]).deadlineImage slot
  | .expire =>
    match r.current with
    | none => s
    | some g =>
      if g.expired then s
      else ((s.setSlot slot { r with current := some { g with expired := true } }).deadlineImage slot).raise bitKeyExpired
  | .renew =>
    match r.current with
    | none => s
    | some _ =>
      if r.renewDue then s
      else ((s.setSlot slot { r with renewDue := true }).deadlineImage slot).raise bitRenewDue

/-- The deferred actions of a slot taken in kind order, and the set emptied (R97). -/
def State.takeDeferred (s : State) (slot : Nat) : State :=
  [DeadlineKind.confirm, .grace, .expire, .renew].foldl (fun s k =>
    if (s.slot slot).deferred.has k then (s.setDeferred slot k false).act slot k else s) s

/-- Deadlines fire from the end of start-up on (R101, R138). -/
def State.firing (s : State) : Bool := s.wp.ended

/-- Due entries fire head first (R96); each firing removes an entry, so the list's length bounds them. -/
def State.fireLoop : Nat → State → State
  | 0, s => s
  | k + 1, s =>
    match s.tu.deadlines with
    | [] => s
    | d :: rest =>
      if s.tu.now < d.due then s
      else
        let s := { s with tu := { s.tu with deadlines := rest } }
        State.fireLoop k (if s.isHeld d.slot then s.setDeferred d.slot d.kind true else s.act d.slot d.kind)

/-- Every entry that is due fires (R96). They fall due in one event, so the notices of one cause that their actions give
come together (R93, R179, assumption 32). -/
def State.fireDue (s : State) : State :=
  if s.firing then s.together (State.fireLoop s.tu.deadlines.length s) else s

/-! ## Meter time (R88, R91) -/

/-- One counted second (R88), with the deadlines it makes due and the hourly mark (R91). -/
def State.countSecond (s : State) : State :=
  if s.tu.now < maxWord then
    let s := State.fireDue { s with tu := { s.tu with now := s.tu.now + 1 } }
    if s.tu.now % 3600 = 0 then s.timeMark else s
  else s

/-- SET_TIME at the Time Unit (R93): the new state, and whether the step was clamped. -/
def State.setTime (s : State) (t : Nat) : State × Bool :=
  let now := s.tu.now
  let tu := s.tu
  if now ≤ t then ((State.fireDue { s with tu := { tu with now := t, uncertain := false } }).timeMark, false)
  else if now - t ≤ 900 then (State.timeMark { s with tu := { tu with now := t, uncertain := false } }, false)
  else
    ((State.timeMark { s with tu := { tu with now := now - 900, uncertain := false, reason := .clamped } }).raise
      bitTime, true)

/-- The meter time that a tamper event or a fault records: before start-up has set meter time, a tamper event takes
that of the last replayed TIME_MARK (R147). -/
def State.captureTime (s : State) : Nat := if s.tu.kept then s.tu.now else s.ju.replayTime

/-! ## The entries of a committed change (R95) -/

/-- The RENEW and EXPIRE entries of a CURRENT generation (R8, R18). -/
def State.currentDeadlines (s : State) (slot : Nat) : State :=
  let r := s.slot slot
  match r.current with
  | none => s
  | some g =>
    let s := if r.renewDue then s.removeDeadline slot .renew else s.setDeadline slot .renew g.renewAt
    if g.expired then s.removeDeadline slot .expire else s.setDeadline slot .expire g.expiresAt

/-- The deadline entries that a change sets and removes at its commit, once the table has taken it (R95). -/
def State.changeDeadlines (s : State) (slot : Nat) (ch : Change) : State :=
  let r := s.slot slot
  match ch with
  | .define .. => s
  | .install .. => s.currentDeadlines slot
  | .setPolicy .. => s.currentDeadlines slot
  | .adopt _ => s
  | .retire => s.removeAllDeadlines slot
  | .stage .. =>
    match r.staged with
    | none => s
    | some g => s.setDeadline slot .confirm (satAdd g.opened r.policy.window)
  | .promote _ =>
    let s := s.removeDeadline slot .confirm
    let s := match r.outgoing with
      | none => s.removeDeadline slot .grace
      | some g => s.setDeadline slot .grace g.graceDue
    s.currentDeadlines slot
  | .cancel => s.removeDeadline slot .confirm
  | .unlock => s

/-- The orphaned flag of every slot, from its parent reference and the state of the slot named (R11, R24). -/
def State.setOrphans (s : State) : State :=
  { s with kt := s.kt.map fun r =>
      { r with orphaned := match r.parent with
          | none => false
          | some p => r.cls.isSome && (s.slot p).cls.isNone } }

/-- The generations that a change discards (R5), whose waiting COUNTER_MARKs are withdrawn (R60). -/
def discarded (r r' : SlotRec) : List Gen := r.gens.filter fun g => (r'.find g.number).isNone

/-- The table takes a durable change: the record, the orphaned flags, the deadline entries and COUNTER_LOW (R13,
R15 to R22, R40, R41, R44). -/
def State.commitChange (s : State) (slot : Nat) (ch : Change) (t : Nat) : State :=
  let r := s.slot slot
  let r' := ch.apply t r
  let low := match ch with
    | .setPolicy pol _ => r.policyDue pol
    | _ => false
  let s := (s.setSlot slot r').dropMarks slot (discarded r r')
  let s := (s.setOrphans.changeDeadlines slot ch).fireDue
  if low then s.raise bitCounterLow else s

/-! ## The tamper erase of a slot (R143, R145) -/

/-- A record that joins the tamper group which has not begun programming, or forms a new one: it replaces the
group's note of the same input, or image of the same slot (R113, R145), and keeps its place in the group (assumption
27). None is taken in FAILED (R148). -/
def State.toTamperGroup (s : State) (b : RecBody) : State :=
  if s.wp.engine = .failed then s
  else
    let recs := s.ju.tamper.getD []
    let same (r : Rec) : Bool :=
      match r.body, b with
      | .note i _ _ _ _, .note j _ _ _ _ => i == j
      | .image n _, .image m _ => n == m
      | _, _ => false
    let recs :=
      if recs.any same then recs.map fun r => if same r then { r with body := b } else r
      else recs ++ [⟨b, .tamper, true, s.tu.now⟩]
    { s with ju := { s.ju with tamper := some recs } }

/-- A tamper erase takes effect at a slot that is not held (R143). A slot that holds no generation is left as it
is. -/
def State.eraseSlot (s : State) (slot : Nat) : State :=
  let r := s.slot slot
  if r.erasable then
    let s := (s.setSlot slot r.erase).removeAllDeadlines slot
    let s := s.dropWaiting fun w => w.isDeadlineImage slot || r.gens.any fun g => w.isMarkOf slot g.number
    s.toTamperGroup (.image slot (s.slot slot))
  else s

end Sys2Proof.Machine
end

