-- ==== Sys2Proof/Machine/Work.lean ====
section
/-! DEFINITION. Machine/Work.lean: what the Journal Unit begins when it is idle (R111 to R118): groups, compaction
steps and erases. Nothing here ends a step; see Machine/Commit.lean. -/

namespace Sys2Proof.Machine

def recUnits (recs : List Rec) : List UnitWord := recs.flatMap fun r => r.body.units

/-- The record units of a group (R108). -/
def groupSize (recs : List Rec) : Nat := recs.foldl (fun n r => n + r.body.size) 0

/-- A group of this many record units, with its GROUP_END, stays within the current bank (R111); a bank that has
been abandoned takes none (R119). -/
def State.fits (s : State) (n : Nat) : Bool :=
  s.ju.current.isSome && decide (s.ju.used + n + 1 ≤ 1023) && decide (s.ju.next < 1024)

/-- Every TAMPER_NOTE of a tamper action takes the lockdown state in force when its group begins (R145). -/
def State.stampNote (s : State) (r : Rec) : Rec :=
  match r.body with
  | .note i a _ t _ => { r with body := .note i a s.tm.lockdown t s.tm.seq }
  | _ => r

/-- A group begins programming at the next unit, under the sequence after the last one (R108, R111). -/
def State.beginGroup (s : State) (recs : List Rec) (tamper retry : Bool) : State :=
  match s.ju.current with
  | none => s
  | some bk =>
    let recs := if tamper then recs.map s.stampNote else recs
    let seq := s.ju.lastSeq + 1
    let units := recUnits recs
    let all := units ++ [groupEndUnit false units.length seq (crcUnits units)]
    let g : Group := ⟨recs, tamper, retry, seq⟩
    State.settleBudgets
      { s with ju := { s.ju with activity := .programming, step := some ⟨.group g, bk, s.ju.next, all⟩ } }

/-! ## Compaction (R115, R116) -/

/-- A tamper group waits, which frees the compaction before it from the gate (R111, R113, R114). -/
def State.tamperWaits (s : State) : Bool :=
  s.ju.tamper.isSome || (s.ju.failed.any fun g => g.tamper)

/-- The gate lets a compaction step or an erase begin (R114). -/
def State.gateLets (s : State) : Bool := !s.ju.hot || s.tamperWaits

/-- The first slot from a number on that is not EMPTY. -/
def State.nextImage (s : State) (from_ : Nat) : Option Nat :=
  (List.range 64).find? fun n => decide (from_ ≤ n) && (s.slot n).cls.isSome

/-- The compaction step after one (R116). -/
def State.stepAfter (s : State) (c : CompStep) : CompStep :=
  let images (k : Nat) : CompStep := match s.nextImage k with | some n => .image n | none => .time
  match c with
  | .header => images 0
  | .image n => images (n + 1)
  | .time => .note
  | .note => .groupEnd
  | .groupEnd => .groupEnd

/-- The record of a compaction step, taken as its step begins (R116). The note of a base records no event; that its
time is meter time as its step begins is the model's choice (assumption 23). -/
def State.compRecord (s : State) : CompStep → Option RecBody
  | .image n => some (.image n (s.slot n))
  | .time => some (.timeMark s.tu.now)
  | .note => some (.note none none s.tm.lockdown s.tu.now s.tm.seq)
  | .header => none
  | .groupEnd => none

/-- A compaction begins with the target's header, under the epoch after the current bank's (R116, step 1). That the epoch
after 4,294,967,295 is 0 is the model's choice (assumption 30). -/
def State.beginCompaction (s : State) : State :=
  let epoch := s.ju.epoch + 1
  let bk := s.target
  { s with ju := { s.ju with
      activity := .compacting
      due := false
      comp := some ⟨bk, epoch, .header, 1, [], []⟩
      step := some ⟨.compaction, bk, 0, [headerUnit epoch]⟩ } }

/-- The next step of a compaction begins (R116). -/
def State.beginCompStep (s : State) (c : Compaction) : State :=
  let st := s.stepAfter c.step
  match s.compRecord st with
  | some body =>
    let units := body.units
    let recs := match body with
      | .image .. => c.images ++ [⟨body, .counter, true, s.tu.now⟩]
      | _ => c.images
    { s with ju := { s.ju with
        comp := some ⟨c.target, c.epoch, st, c.at_ + units.length, c.units ++ units, recs⟩
        step := some ⟨.compaction, c.target, c.at_, units⟩ } }
  | none =>
    let u := groupEndUnit true c.units.length (s.ju.lastSeq + 1) (crcUnits c.units)
    { s with ju := { s.ju with
        comp := some ⟨c.target, c.epoch, st, c.at_ + 1, c.units, c.images⟩
        step := some ⟨.compaction, c.target, c.at_, [u]⟩ } }

/-! ## Erase (R118) -/

/-- The erase of a SPENT bank that is not current begins, if none is in progress. -/
def State.beginErase (s : State) : State :=
  if s.ju.erasing.isNone && s.ju.current.isSome && s.bankState s.target == .spent then
    { s with ju := { s.ju with erasing := some s.target } }
  else s

/-- A tamper group waits on a compaction: it does not stay within the current bank (R113, R118). -/
def State.tamperStuck (s : State) : Bool :=
  (s.ju.tamper.any fun recs => !s.fits (groupSize recs)) ||
  (s.ju.failed.any fun g => g.tamper && !s.fits (groupSize g.recs))

/-- The erase of a SPENT bank where R118 allows it: with the gate open, or for a compaction that is due and that a
tamper group waits on. -/
def State.eraseKick (s : State) : State :=
  if !s.ju.hot || (s.ju.due && s.tamperStuck) then s.beginErase else s

/-! ## The choice of R111 -/

/-- A compaction that is due begins, where its target is ERASED and the gate lets it. -/
def State.compactIfDue (s : State) : State :=
  if s.ju.due && s.ju.current.isSome && s.bankState s.target == .erased && s.ju.erasing.isNone && s.gateLets then
    s.beginCompaction
  else s

def State.makeDue (s : State) : State := { s with ju := { s.ju with due := true } }

/-- The work that the Journal Unit begins when idle in STOPPED, RUNNING or STOPPING (R111). A tamper group stands before
a failed ordinary group also where that group holds the note of an UNLOCK (assumption 26). -/
def State.choose (s : State) : State :=
  match s.ju.failed, s.ju.tamper with
  | some g, t =>
    if !g.tamper && t.isSome then
      -- a tamper group stands before a failed ordinary group
      let recs := t.getD []
      if s.fits (groupSize recs) then
        State.beginGroup { s with ju := { s.ju with tamper := none } } recs true false
      else s.makeDue.compactIfDue
    else if s.fits (groupSize g.recs) then
      State.beginGroup { s with ju := { s.ju with failed := none } } g.recs g.tamper true
    else s.makeDue.compactIfDue
  | none, some recs =>
    if s.fits (groupSize recs) then
      State.beginGroup { s with ju := { s.ju with tamper := none } } recs true false
    else s.makeDue.compactIfDue
  | none, none =>
    let s := s.compactIfDue
    if s.ju.activity == .compacting then s
    else
      let recs := s.openGroup
      if recs.isEmpty || s.ju.hot then s
      else if s.fits (groupSize recs) then
        State.joinUp (State.beginGroup { s with ju := { s.ju with waiting := s.ju.waiting.drop recs.length } }
          recs false false)
      else s.makeDue.compactIfDue

/-- The Journal Unit takes up what it can (R111, R115, R118). -/
def State.kick (s : State) : State :=
  if s.journalRuns then
    let s :=
      if s.ju.step.isSome then s
      else
        match s.ju.comp with
        | some c => if s.gateLets then s.beginCompStep c else s
        | none => if s.ju.activity == .idle then s.choose else s
    s.eraseKick
  else s

/-- The safe point of HOLDOVER (R129). -/
def State.safePoint (s : State) : State :=
  if s.wp.engine == .holdover && s.ju.step.isNone then { s with wp := { s.wp with supplySafe := true } } else s

/-- What every command ends with: the Journal Unit takes up what it can, or reports its safe point. -/
def State.finish (s : State) : State := s.kick.safePoint

end Sys2Proof.Machine
end

