-- ==== Sys2Proof/Machine/Completion.lean ====
section
/-! DEFINITION. Machine/Completion.lean: the Cipher Unit's queue (R80, R81), the completion sequence of an order
(R174), and the ways in which orders end without success (R128, R144, R173). -/

namespace Sys2Proof.Machine

/-! ## The cipher queue -/

/-- PROTECT_FRAME takes its counter value as its request begins service (R56). By R55 the value lies below D; in a state
where it does not, which no run reaches, none is taken. -/
def State.takeCounter (s : State) (c : Nat) : State :=
  match s.ctx c with
  | none => s
  | some x =>
    let slot := x.order.slot.toNat
    let r := s.slot slot
    match r.current with
    | none => s
    | some g =>
      if g.ctr.durCeil ≤ g.ctr.next then s
      else
      let v := g.ctr.next
      let low := decide (r.policy.soft ≤ v) && !r.renewDue
      let back := decide (g.ctr.durCeil - v ≤ 1024) && !g.ctr.reserving && decide (g.ctr.durCeil < r.policy.hard + 1)
      let s := s.modCtx c fun x => { x with value := v, taken := true, genNo := g.number }
      let s := s.modGen slot g.number fun g => { g with ctr := g.ctr.takeValue }
      let s := if back then s.requestReservation slot g.number else s
      if low then
        let r := s.slot slot
        ((s.setSlot slot { r with renewDue := true }).removeDeadline slot .renew).raise bitCounterLow
      else s

/-- A request begins service: its order takes its counter value, reads its extents or takes its challenge (R56,
R74, R84). -/
def State.beginService (s : State) (q : Request) : State :=
  let s := if q.op = .protect then s.takeCounter q.ctx else s
  let s := if q.op = .tokenCheck then s.modCtx q.ctx fun x => { x with challenge := s.tm.seq } else s
  let sv : Service :=
    match s.ctx q.ctx with
    | none => ⟨q.ctx, q.op, [], [], 0, 0⟩
    | some x =>
      let frame := q.op = .protect || q.op = .verify
      { ctx := q.ctx
        op := q.op
        assoc := if frame then s.readExtent x.order.assoc else []
        input := if frame then s.readExtent x.order.input else []
        nonce :=
          if q.op = .protect then frameNonce Config.serial x.genNo x.value
          else if q.op = .verify then frameNonce x.order.sender x.genNo x.value else 0
        challenge := s.tm.seq }
  { s with xu := { s.xu with service := some sv } }

/-- The oldest waiting request begins service where none is in service (R80). -/
def State.cipherKick (s : State) : State :=
  match s.xu.service, s.xu.queue with
  | none, q :: rest => State.beginService { s with xu := { s.xu with queue := rest } } q
  | _, _ => s

/-- The health test of a GENERATE ends, with what it found; `lane` and `cell` are those of its order (R82). A test that
passes draws a key. -/
def State.countTest (s : State) (healthy : Bool) (lane cell : Nat) : State :=
  if healthy then { s with xu := { s.xu with failures := 0, draws := s.xu.draws + 1 } }
  else
    let n := s.xu.failures + 1
    State.giveFault { s with xu := { s.xu with failures := n, disabled := decide (3 ≤ n) } } .rngHealth lane cell

/-- The request in service is abandoned (R81). The health test of a GENERATE counts if it had ended, which is a free
value (assumption 4), and a key drawn is discarded. -/
def State.abandon (s : State) : State :=
  match s.xu.service with
  | none => s
  | some sv =>
    let s := { s with xu := { s.xu with service := none } }
    if sv.op = .generate ∧ s.xu.disabled = false then
      let n := s.xu.cuts
      let s := { s with xu := { s.xu with cuts := n + 1 } }
      match Config.testEnded n with
      | none => s
      | some healthy =>
        s.countTest healthy ((s.ctx sv.ctx).elim 0 fun x => x.lane) ((s.ctx sv.ctx).elim 0 fun x => x.cell)
    else s

/-- The request of the order is in service. -/
def State.inService (s : State) (c : Nat) : Bool := s.xu.service.any fun sv => sv.ctx == c

/-- The request of an order leaves the queue, or is abandoned in service (R81). -/
def State.dropRequest (s : State) (c : Nat) : State :=
  let s := if s.inService c then s.abandon else s
  { s with xu := { s.xu with queue := s.xu.queue.filter fun q => q.ctx ≠ c } }

/-! ## Completion (R174) -/

/-- The kind of the order in a context; `none` for a code that names no kind. -/
def Ctx.kindOf (x : Ctx) : Option Kind := Kind.ofCode x.kind

/-- The result part that a completion writes (R174, step 2; 12.3). -/
def resultOf (code : Code) (res : Res) (now : Nat) : CellResult where
  code := BitVec.ofNat 8 code.value
  flags := BitVec.ofNat 8 (flagNat res.clamped + 2 * flagNat res.promoted)
  outLen := BitVec.ofNat 16 res.outLen
  genUsed := res.genUsed
  ctrUsed := BitVec.ofNat 32 res.ctrUsed
  time := BitVec.ofNat 32 now

/-- Step 1: the output, for a result OK (R74, R174). -/
def State.writeOutput (s : State) (x : Ctx) (code : Code) : State :=
  if code = .ok then { s with wp := { s.wp with ram := Ram.writeBytes s.wp.ram x.order.output.addr x.output } }
  else s

/-- Steps 2 and 3: the result fields, the tag from the order copy, and then DONE. It is written whatever the processor has
left in the state word of the TAKEN cell (R162), also a value above 3, over which R161 has the engine never write (DESIGN
CHOICE, assumption 37). -/
def State.writeResult (s : State) (x : Ctx) (code : Code) (res : Res) : State :=
  let cell := s.cell x.cell
  s.setCell x.cell
    { cell with state := 3, order := { cell.order with tag := x.order.tag }, result := resultOf code res s.tu.now }

/-- Steps 4 and 5: the done count, and the coalescing of the lane where completions are counted (R183). -/
def State.countDone (s : State) (lane : Nat) : State :=
  let l := s.lane lane
  let s := s.setLane lane { l with done := l.done + 1 }
  if s.taking then s.countCompletion lane else s

/-- Step 6: the hold ends; a waiting erase is taken, and then the deferred actions (R97, R144, R169). -/
def State.release (s : State) (c : Nat) (x : Ctx) : State :=
  match x.held with
  | none => s
  | some slot =>
    let s := s.modCtx c fun x => { x with held := none, change := none }
    let s := if x.erasePending then s.eraseSlot slot else s
    s.takeDeferred slot

/-- Steps 7 and 8: SYNC orders forget the order, and the context becomes free. -/
def State.freeCtx (s : State) (c : Nat) : State :=
  { s with od := { s.od with
      ctxs := (s.od.ctxs.map fun y => y.map fun y => { y with preds := y.preds.filter (· ≠ c) }).setIfInBounds c none } }

/-- The completion sequence of one order (R174), but for the looks and takes that follow it. -/
def State.complete (s : State) (c : Nat) (code : Code) (res : Res) : State :=
  match s.ctx c with
  | none => s
  | some x => (((((s.writeOutput x code).writeResult x code res).countDone x.lane).release c x)).freeCtx c

/-- The result words of a frame order that ends after its checks without an output (R73, R77); zero for the other
kinds. -/
def Ctx.endRes (x : Ctx) (code : Code) : Res :=
  match x.kindOf with
  | some .protectFrame => { Res.zero with ctrUsed := if x.taken then x.value else 0, genUsed := x.genNo }
  | some .admitFrame =>
    if code = .storeFailed then Res.zero else { Res.zero with ctrUsed := x.value, genUsed := x.genNo }
  | _ => Res.zero

/-- An order withdrawn, aborted or failed: its waiting records and its request go, and it completes with a code
and no output (R110, R128, R173). -/
def State.endOrder (s : State) (c : Nat) (code : Code) : State :=
  match s.ctx c with
  | none => s
  | some x => ((s.dropWaiting fun r => r.ofOrder c).dropRequest c).complete c code (x.endRes code)

/-! ## SYNC (R175) -/

/-- The order in a context is a SYNC. -/
def State.isSync (s : State) (c : Nat) : Bool := (s.ctx c).any fun x => x.wait == .predecessors

/-- The first SYNC whose predecessors have all completed. -/
def State.readySync (s : State) : Option Nat :=
  (List.range 4).find? fun c => (s.ctx c).any fun x => x.wait == .predecessors && x.preds.isEmpty

/-- A SYNC whose predecessors have all completed completes OK, or ABORTED where STOP or HOLDOVER ended it. -/
def State.completeSync (s : State) (c : Nat) : State :=
  match s.ctx c with
  | none => s
  | some x => s.complete c (if x.endAborted then .aborted else .ok) Res.zero

/-! ## STOP and HOLDOVER (R128, R158) -/

/-- Every order in flight ends ABORTED, but for those that finish with their group and the SYNC orders that wait
(R128). Their budgets no longer apply. -/
def State.abortAll (s : State) : State :=
  let s := s.abandon
  let s := { s with xu := { s.xu with queue := [] } }
  let s := (List.range 4).foldl (fun s c =>
    if s.isSync c then s.modCtx c fun x => { x with endAborted := true }
    else if s.finishing c then s.modCtx c fun x => { x with budgetApplies := false }
    else s.endOrder c .aborted) s
  s

/-! ## NV_FATAL (R120, R137) -/

/-- The order waits on the journal. -/
def Ctx.onJournal (x : Ctx) : Bool := x.wait == .group || x.wait == .reservation || x.wait == .mark

end Sys2Proof.Machine
end

