-- ==== Sys2Proof/Machine/Waits.lean ====
section
/-! DEFINITION. Machine/Waits.lean: the points at which an order waits: the cipher queue, its group, a reservation
and a mark; and how a late order is withdrawn there (R172, R173). -/

namespace Sys2Proof.Machine

/-- An order completes at once with a code: a refusal (R13, R170). -/
def State.refuse (s : State) (c : Nat) (code : Code) : State := s.complete c code Res.zero

/-- A request is placed in the cipher queue; a late order is withdrawn instead (R80, R81). -/
def State.placeRequest (s : State) (c : Nat) (op : CipherOp) : State :=
  match s.ctx c with
  | none => s
  | some x =>
    if x.late then s.endOrder c .timedOut
    else
      let s := s.modCtx c fun x => { x with wait := .cipherQueue }
      State.cipherKick { s with xu := { s.xu with queue := s.xu.queue ++ [⟨c, op⟩] } }

/-- A durable order places its record and waits for its group; a late one is withdrawn instead, and in FAILED the
order completes STORE_FAILED (R13, R120, R172). -/
def State.placeRecord (s : State) (c : Nat) (ch : Change) : State :=
  match s.ctx c with
  | none => s
  | some x =>
    if x.late then s.endOrder c .timedOut
    else if s.wp.engine = .failed then s.endOrder c .storeFailed
    else
      let slot := x.order.slot.toNat
      let s := s.modCtx c fun x => { x with wait := .group, change := some ch }
      match ch with
      | .unlock => s.handOver (.note none none false s.tu.now s.tm.seq) (.unlock c)
      | .retire =>
        (s.dropWaiting fun r => r.isDeadlineImage slot).handOver (.image slot SlotRec.empty) (.order c)
      | ch => s.handOver (.image slot (ch.apply s.tu.now (s.slot slot))) (.order c)

/-- A wait for the journal begins; a late order is withdrawn instead, and in FAILED the order completes
STORE_FAILED (R120, R172). `request` makes the request that the wait needs, if it needs one. -/
def State.beginWait (s : State) (c : Nat) (w : WaitPoint) (request : State → State) : State :=
  match s.ctx c with
  | none => s
  | some x =>
    if x.late then s.endOrder c .timedOut
    else if s.wp.engine = .failed then s.endOrder c .storeFailed
    else (request (s.modCtx c fun x => { x with wait := w })).settleBudgets

/-! ## PROTECT_FRAME (R55, R73) -/

/-- The first part of the counter step, and again at each commit that may end the wait (R55). -/
def State.counterStep (s : State) (c : Nat) : State :=
  match s.ctx c with
  | none => s
  | some x =>
    let slot := x.order.slot.toNat
    let r := s.slot slot
    match r.current with
    | none => s
    | some g =>
      if r.policy.hard + 1 ≤ g.ctr.next then
        s.complete c .counterSpent { Res.zero with genUsed := g.number }
      else if g.ctr.durCeil ≤ g.ctr.next then
        s.beginWait c .reservation fun s => if g.ctr.reserving then s else s.requestReservation slot g.number
      else s.placeRequest c .protect

/-! ## ADMIT_FRAME (R64, R65, R77, R78) -/

/-- The window update, the plaintext and OK, or LOCKED under lockdown; then the background mark (R63, R65, R78). -/
def State.finishAdmit (s : State) (c : Nat) : State :=
  match s.ctx c with
  | none => s
  | some x =>
    let slot := x.order.slot.toNat
    if s.tm.lockdown then s.complete c .locked (x.endRes .locked)
    else
      let s := s.modGen slot x.genNo fun g => { g with ctr := g.ctr.admitted x.value }
      let s :=
        match (s.slot slot).find x.genNo with
        | none => s
        | some g =>
          if g.ctr.durMark - g.ctr.top ≤ 1024 && !g.ctr.marking && decide (g.ctr.durMark < maxWord) then
            s.requestMark slot x.genNo (markFor g.ctr.durMark)
          else s
      s.complete c .ok { x.endRes .ok with outLen := x.output.length }

/-- The path of an ADMIT_FRAME whose frame has verified (R42, R64, R77). That a promoting one which verifies under lockdown
completes LOCKED also where it is late, or the engine is in FAILED, is the model's choice: R78 gives LOCKED, R172
TIMED_OUT and R120 STORE_FAILED, and no rule says which is first (assumption 34). -/
def State.admitVerified (s : State) (c : Nat) : State :=
  match s.ctx c with
  | none => s
  | some x =>
    let slot := x.order.slot.toNat
    let r := s.slot slot
    match r.find x.genNo with
    | none => s
    | some g =>
      if r.policy.autoConfirm && r.roleOf x.genNo == some .staged then
        if s.tm.lockdown then s.endOrder c .locked else s.placeRecord c (.promote (some x.order.counter))
      else if g.ctr.durMark < x.value then
        s.beginWait c .mark fun s =>
          if g.ctr.marking && decide (x.value ≤ g.ctr.reqMark) then s
          else s.requestMark slot x.genNo (markFor x.value)
      else s.finishAdmit c

end Sys2Proof.Machine
end

