-- ==== Sys2Proof/Machine/Orders.lean ====
section
/-! DEFINITION. Machine/Orders.lean: what each order kind does when it is taken, after the common checks: its own
checks in their order, and what follows them. Each function takes the context, its order and the state. -/

namespace Sys2Proof.Machine

/-- The first check that fails, of a list of checks with their codes. -/
def firstFailure : List (Bool × Code) → Option Code
  | [] => none
  | (good, code) :: rest => if good then firstFailure rest else some code

/-- The policy an order stores, brought into range for a class (R7). -/
def Ctx.policyFor (x : Ctx) (cls : SlotClass) : Policy := x.order.rawPolicy.inRange cls

/-! ## Table orders (chapter 1) -/

/-- DEFINE_SLOT (R14). -/
def startDefineSlot (c : Nat) (x : Ctx) (s : State) : State :=
  let slot := x.order.slot.toNat
  let cls := classOf x.order.cls
  let parent := x.order.parentSlot
  let checks : List (Bool × Code) :=
    [(s.onBoth fun t => vacant t slot, .wrongSlotState),
     (cls.isSome, .wrongClass),
     (s.onBoth fun t => parent.any fun p => p ≠ slot && isTransport t p, .noParent),
     (s.onBoth fun t => parent.any fun p => decide (depth t p ≤ 3), .cycle)]
  match firstFailure checks, cls, parent with
  | some code, _, _ => s.refuse c code
  | none, some cls, some p =>
    s.placeRecord c
      (.define x.order.label cls p (x.policyFor cls) (x.order.rawPolicy.clamps cls))
  | none, _, _ => s

/-- INSTALL_ANCHOR (R16). -/
def startInstallAnchor (c : Nat) (x : Ctx) (s : State) : State :=
  let slot := x.order.slot.toNat
  let cls := classOf x.order.cls
  let checks : List (Bool × Code) :=
    [(s.wp.provisioning, .notProvisioning),
     (s.onBoth fun t => vacant t slot, .wrongSlotState),
     (cls.isSome, .wrongClass),
     (decide (x.order.input.len.toNat = 16), .badExtent)]
  match firstFailure checks, cls with
  | some code, _ => s.refuse c code
  | none, some cls =>
    let key : Key := BitVec.ofNat 128 (ofBytes (s.readExtent x.order.input))
    let s := { s with wp := { s.wp with
      ram := Ram.writeBytes s.wp.ram x.order.input.addr (List.replicate 16 0) } }
    let ch := Change.install x.order.label cls (x.policyFor cls) (x.order.rawPolicy.clamps cls) 0
    (s.modCtx c fun x => { x with clearKey := key, change := some ch }).placeRequest c .wrap
  | none, none => s

/-- READ_SLOT (R23). -/
def startReadSlot (c : Nat) (x : Ctx) (s : State) : State :=
  if x.order.output.len.toNat < 160 then s.complete c .noRoom { Res.zero with outLen := 160 }
  else
    let bytes := s.publicRecord x.order.slot.toNat
    (s.modCtx c fun x => { x with output := bytes }).complete c .ok { Res.zero with outLen := 160 }

/-- SET_POLICY (R18). -/
def startSetPolicy (c : Nat) (x : Ctx) (s : State) : State :=
  match (s.slot x.order.slot.toNat).cls with
  | none => s.refuse c .wrongSlotState
  | some cls =>
    s.placeRecord c (.setPolicy (x.policyFor cls) (x.order.rawPolicy.clamps cls))

/-- ADOPT (R20). -/
def startAdopt (c : Nat) (x : Ctx) (s : State) : State :=
  let slot := x.order.slot.toNat
  let parent := x.order.parentSlot
  let checks : List (Bool × Code) :=
    [(s.onBoth fun t => (t slot).cls.isSome, .wrongSlotState),
     (s.onBoth fun t => parent.any fun p => isTransport t p, .noParent),
     (s.onBoth fun t => parent.any fun p => p ≠ slot && !descends t p slot, .cycle),
     (s.onBoth fun t => parent.any fun p => decide (depth t p + 1 + height t slot ≤ 4), .cycle)]
  match firstFailure checks, parent with
  | some code, _ => s.refuse c code
  | none, some p => s.placeRecord c (.adopt p)
  | none, none => s

/-- RETIRE_SLOT (R21). -/
def startRetireSlot (c : Nat) (x : Ctx) (s : State) : State :=
  if (s.slot x.order.slot.toNat).cls.isNone then s.refuse c .wrongSlotState
  else s.placeRecord c .retire

/-! ## Renewal orders (chapter 2) -/

/-- What a renewal wraps or unwraps under: the slot's own generations for an anchor, else the parent copy (R29). -/
def wrappingSource (x : Ctx) (r : SlotRec) : ParentCopy :=
  match r.parent with
  | none => r.parentCopy
  | some _ => x.parentCopy.getD ⟨true, none, none⟩

/-- Items 1 to 5 of R30, which RENEW_REMOTE shares (R34); item 5 is judged last and claims the place. -/
def renewalChecks (x : Ctx) (r : SlotRec) (free : Nat) : List (Bool × Code) :=
  let src := wrappingSource x r
  [(r.cls.isSome, .wrongSlotState),
   (r.staged.isNone, .alreadyStaged),
   (!r.orphaned && !(r.parent.isSome && src.empty), .noParent),
   (src.current.any fun k => r.parent.isNone || !k.expired, .parentExpired),
   (decide (0 < free), .stagingFull)]

/-- RENEW_LOCAL (R30, R31). -/
def startRenewLocal (c : Nat) (x : Ctx) (s : State) : State :=
  let r := s.slot x.order.slot.toNat
  match firstFailure (renewalChecks x r s.poolFree), (wrappingSource x r).current with
  | some code, _ => s.refuse c code
  | none, some k =>
    let s := s.modCtx c fun x => { x with poolClaim := true }
    if x.order.output.len.toNat < 40 then s.complete c .noRoom { Res.zero with outLen := 40 }
    else
      let number := r.nextNumber
      (s.modCtx c fun x => { x with
        genNo := number
        wrapKey := k.key
        blobHead := blobHeader r.label number k.number r.cls }).placeRequest c .generate
  | none, none => s

/-- RENEW_REMOTE (R33, R34, R35). -/
def startRenewRemote (c : Nat) (x : Ctx) (s : State) : State :=
  let r := s.slot x.order.slot.toNat
  let src := wrappingSource x r
  match firstFailure (renewalChecks x r s.poolFree) with
  | some code => s.refuse c code
  | none =>
    let s := s.modCtx c fun x => { x with poolClaim := true }
    if x.order.input.len.toNat ≠ 40 then s.refuse c .badExtent
    else
      let blob := ofBytes (s.readExtent x.order.input)
      let target : Half := BitVec.ofNat 16 (fieldAt blob 4 2)
      let wrapping : Half := BitVec.ofNat 16 (fieldAt blob 6 2)
      let named := (src.current.toList ++ src.outgoing.toList).find? fun k => k.number = wrapping
      let checks : List (Bool × Code) :=
        [(decide (BitVec.ofNat 32 (fieldAt blob 0 4) = r.label), .labelMismatch),
         (classOf (BitVec.ofNat 8 (fieldAt blob 8 1)) == r.cls, .wrongClass),
         (decide (target = r.nextNumber), .genMismatch),
         (named.isSome, .unknownGeneration),
         (named.any fun k => r.parent.isNone || !k.expired, .parentExpired),
         (decide (fieldAt blob 9 7 = 0), .unwrapFailed)]
      match firstFailure checks, named with
      | some code, _ => s.refuse c code
      | none, some k =>
        (s.modCtx c fun x => { x with
          genNo := target
          wrapKey := k.key
          blobHead := BitVec.ofNat 128 (fieldAt blob 0 16)
          blobKey := BitVec.ofNat 128 (fieldAt blob 0x10 16)
          blobSum := BitVec.ofNat 64 (fieldAt blob 0x20 8) }).placeRequest c .unwrap
      | none, none => s

/-- The three checks of R39, which RENEW_CANCEL makes too (R44). -/
def stagedChecks (x : Ctx) (r : SlotRec) : List (Bool × Code) :=
  [(r.cls.isSome, .wrongSlotState),
   (r.staged.isSome, .notStaged),
   (r.staged.any fun g => g.number = x.order.gen, .genMismatch)]

/-- RENEW_CONFIRM (R39). -/
def startRenewConfirm (c : Nat) (x : Ctx) (s : State) : State :=
  match firstFailure (stagedChecks x (s.slot x.order.slot.toNat)) with
  | some code => s.refuse c code
  | none => (s.modCtx c fun x => { x with genNo := x.order.gen }).placeRecord c (.promote none)

/-- RENEW_CANCEL (R44). -/
def startRenewCancel (c : Nat) (x : Ctx) (s : State) : State :=
  match firstFailure (stagedChecks x (s.slot x.order.slot.toNat)) with
  | some code => s.refuse c code
  | none => (s.modCtx c fun x => { x with genNo := x.order.gen }).placeRecord c .cancel

/-! ## Frame orders (chapter 4) -/

/-- PROTECT_FRAME (R71, R73), and the first part of the counter step (R55). -/
def startProtectFrame (c : Nat) (x : Ctx) (s : State) : State :=
  let r := s.slot x.order.slot.toNat
  let need := x.order.input.len.toNat + 8
  if r.cls = none then s.refuse c .wrongSlotState
  else if r.cls ≠ some .frame then s.refuse c .wrongClass
  else
    match r.current with
    | none => s.refuse c .wrongSlotState
    | some g =>
      if g.expired then s.complete c .keyExpired { Res.zero with genUsed := g.number }
      else if x.order.output.len.toNat < need then s.complete c .noRoom { Res.zero with outLen := need }
      else (s.modCtx c fun x => { x with genNo := g.number, wrapKey := g.key }).counterStep c

/-- ADMIT_FRAME (R75, R77). -/
def startAdmitFrame (c : Nat) (x : Ctx) (s : State) : State :=
  let r := s.slot x.order.slot.toNat
  let number := x.order.gen
  let value := x.order.counter.toNat
  let len := x.order.input.len.toNat
  if r.cls = none then s.refuse c .wrongSlotState
  else if r.cls ≠ some .frame then s.refuse c .wrongClass
  else
    match r.find number with
    | none => s.refuse c .unknownGeneration
    | some g =>
      if r.roleOf number = some .current && g.expired then s.refuse c .keyExpired
      else if len < 8 then s.refuse c .badExtent
      else if x.order.output.len.toNat < len - 8 then s.complete c .noRoom { Res.zero with outLen := len - 8 }
      else
        match g.ctr.check value with
        | some code => s.complete c code { Res.zero with ctrUsed := value, genUsed := number }
        | none =>
          (s.modCtx c fun x => { x with genNo := number, value := value, wrapKey := g.key }).placeRequest c .verify

/-! ## Other orders -/

/-- SET_TIME (R92, R93). -/
def startSetTime (c : Nat) (x : Ctx) (s : State) : State :=
  let p := s.setTime x.order.newTime
  p.1.complete c .ok { Res.zero with clamped := p.2 }

/-- SYNC (R175). -/
def startSync (c : Nat) (x : Ctx) (s : State) : State :=
  let preds := s.busy.filter fun d =>
    d ≠ c && (x.order.all || (s.ctx d).any fun y => y.lane == x.lane)
  if preds.isEmpty then s.complete c .ok Res.zero
  else s.modCtx c fun x => { x with wait := .predecessors, preds := preds, budgetApplies := false }

/-- UNLOCK (R149). -/
def startUnlock (c : Nat) (x : Ctx) (s : State) : State :=
  if x.order.input.len.toNat ≠ 16 then s.refuse c .badExtent
  else if !s.tm.lockdown then s.complete c .ok Res.zero
  else
    match (s.od.plan.bind fun p => p.authority).map s.slot with
    | none => s.refuse c .tokenRejected
    | some r =>
      match r.current with
      | none => s.refuse c .tokenRejected
      | some g =>
        if r.cls ≠ some .transport || g.expired then s.refuse c .tokenRejected
        else
          let token : BitVec 128 := BitVec.ofNat 128 (ofBytes (s.readExtent x.order.input))
          (s.modCtx c fun x => { x with wrapKey := g.key, token := token }).placeRequest c .tokenCheck

/-! ## The common checks and the start of an order (R170) -/

/-- The first common check that fails (R170). -/
def State.commonCheck (s : State) (x : Ctx) : Option Code :=
  match x.kindOf with
  | none => some .badKind
  | some k =>
    firstFailure
      [(s.wp.engine ≠ .failed || k.takenInFailed, .storeFailed),
       (!k.namesSlot || decide (x.order.slot.toNat < 64), .badSlot),
       (extentsGood k x.order, .badExtent),
       (!s.tm.lockdown || !k.refusedLocked, .locked)]

/-- The checks of a taken order and what follows them. -/
def State.startOrder (s : State) (c : Nat) : State :=
  match s.ctx c with
  | none => s
  | some x =>
    match s.commonCheck x with
    | some code => s.refuse c code
    | none =>
      match x.kindOf with
      | none => s
      | some .defineSlot => startDefineSlot c x s
      | some .installAnchor => startInstallAnchor c x s
      | some .readSlot => startReadSlot c x s
      | some .setPolicy => startSetPolicy c x s
      | some .adopt => startAdopt c x s
      | some .retireSlot => startRetireSlot c x s
      | some .renewLocal => startRenewLocal c x s
      | some .renewRemote => startRenewRemote c x s
      | some .renewConfirm => startRenewConfirm c x s
      | some .renewCancel => startRenewCancel c x s
      | some .protectFrame => startProtectFrame c x s
      | some .admitFrame => startAdmitFrame c x s
      | some .setTime => startSetTime c x s
      | some .sync => startSync c x s
      | some .unlock => startUnlock c x s

end Sys2Proof.Machine
end

