-- ==== Sys2Proof/Machine/Dispatcher.lean ====
section
/-! DEFINITION. Machine/Dispatcher.lean: lane looks (R163), the arbiter (R167) and the take (R168), and what follows
every completion: looks, takes, ready SYNC orders and the end of STOPPING (R158, R174, R175). -/

namespace Sys2Proof.Machine

/-- The conditions of a lane at its cursor (R163). -/
inductive LaneCondition where
  | ready | blocked | empty | full
  deriving DecidableEq, Repr

/-- The condition that a cell gives its lane (R163). -/
def State.judge (s : State) (cell : OrderCell) : LaneCondition :=
  if cell.state = 0 then .empty
  else if cell.state = 1 then
    match heldSlot cell.kind cell.order with
    | none => .ready
    | some n => if s.isHeld n then .blocked else .ready
  else .full

/-- The condition of a lane at its cursor. -/
def State.condition (s : State) (lane : Nat) : LaneCondition := s.judge (s.cell (s.lane lane).cursor)

/-- A lane that is looked at: enabled, with its scan-wanted flag set (R164). -/
def State.looked (s : State) (lane : Nat) : Bool := (s.planLane lane).isSome && (s.lane lane).scanWanted

/-- A look at a lane clears the scan-wanted flag where the lane is empty or full (R163). -/
def State.look (s : State) (lane : Nat) : State :=
  if s.looked lane then
    match s.condition lane with
    | .empty | .full => s.setLane lane { s.lane lane with scanWanted := false }
    | _ => s
  else s

/-- The looks at every wanted lane. R164 names the events at which a look is made; that every event after which the
arbiter may act makes them is the model's choice (assumption 28). -/
def State.looks (s : State) : State := (List.range 4).foldl State.look s

/-- The lane offers its cursor cell to the arbiter. -/
def State.readyLane (s : State) (lane : Nat) : Bool := s.looked lane && s.condition lane == .ready

/-- Every enabled lane's credits set to its weight (R167). -/
def State.refill (s : State) : State :=
  (List.range 4).foldl (fun s n =>
    match s.planLane n with
    | none => s
    | some p => s.setLane n { s.lane n with credits := p.weight }) s

/-- The lane that the arbiter chooses, and the credits it leaves (R167). -/
def State.arbiterChoice (s : State) : Option (State × Nat) :=
  let ready := (List.range 4).filter s.readyLane
  if ready.isEmpty then none
  else
    let s := if ready.any fun n => decide (0 < (s.lane n).credits) then s else s.refill
    (ready.find? fun n => decide (0 < (s.lane n).credits)).map fun n => (s, n)

/-- The cell after a lane's cursor, back to the first after the last (R163). -/
def PlanLane.next (p : PlanLane) (cursor : Nat) : Nat :=
  if p.first + p.count ≤ cursor + 1 then p.first else cursor + 1

/-- The order that a take puts in a context (R166, R168). -/
def freshCtx (lane cell : Nat) (kind : Byte) (o : OrderFields) (now budget : Nat) (copy : Option ParentCopy) : Ctx where
  lane := lane
  cell := cell
  kind := kind
  order := o
  takeTime := now
  budget := 10 * budget
  budgetApplies := true
  late := false
  held := heldSlot kind o
  parentCopy := copy
  poolClaim := false
  wait := .none
  output := []
  preds := []
  endAborted := false
  change := none
  genNo := 0
  value := 0
  taken := false
  clearKey := 0
  newKey := 0
  wrapKey := 0
  blobHead := 0
  blobKey := 0
  blobSum := 0
  token := 0
  challenge := 0
  erasePending := false

/-- The parent copy that a renewal order makes at take (R28). -/
def State.copyParent (s : State) (kind : Byte) (o : OrderFields) : Option ParentCopy :=
  match Kind.ofCode kind, heldSlot kind o with
  | some .renewLocal, some n | some .renewRemote, some n =>
    let r := s.slot n
    match r.parent with
    | none => none
    | some p => if r.orphaned then none else some (s.slot p).parentCopy
  | _, _ => none

/-- The take of the cursor cell of a ready lane into a free context (R168), with the checks that end it. -/
def State.take (s : State) (lane c : Nat) (p : PlanLane) : State :=
  let l := s.lane lane
  let cell := s.cell l.cursor
  let x := freshCtx lane l.cursor cell.kind cell.order s.clock p.budget (s.copyParent cell.kind cell.order)
  let s := s.setCell l.cursor { cell with state := 2 }
  let s := s.setCtx c (some x)
  let s := s.setLane lane { l with cursor := p.next l.cursor, credits := l.credits - 1 }
  s.startOrder c

/-- The lowest-numbered free context. -/
def State.freeContext (s : State) : Option Nat := (List.range 4).find? fun c => (s.ctx c).isNone

/-- The looks, and then one take where the arbiter acts; the flag says that one was made (R164, R167). An idle Journal Unit
begins its next work after the take, whose record joins first: where the command has handed a record over before, R111
leaves open on which side of the take it begins (DESIGN CHOICE, assumption 36). -/
def State.lookAndTake (s : State) : State × Bool :=
  if s.taking then
    let s := s.looks
    match s.freeContext, s.arbiterChoice with
    | some c, some (s, n) =>
      match s.planLane n with
      | none => (s, false)
      | some p => ((s.take n c p).kick, true)
    | _, _ => (s, false)
  else (s, false)

/-- Looks and takes, one after another, for as long as the arbiter acts (R164, R167). Each take turns a POSTED cell
TAKEN, so 128 bound them, and a look follows the last one. -/
def State.arbitrate : Nat → State → State
  | 0, s => s
  | k + 1, s =>
    match s.lookAndTake with
    | (s, true) => State.arbitrate k s
    | (s, false) => s

/-- STOPPING ends with the last order in flight (R158). -/
def State.settle (s : State) : State :=
  if s.wp.engine == .stopping && s.busy.isEmpty then
    State.enter { s with od := { s.od with scanTimer := none } } .stopped
  else s

/-- SYNC orders that have become ready complete, each followed by the arbiter (R174, R175). -/
def State.pump : Nat → State → State
  | 0, s => s
  | k + 1, s =>
    match s.readySync with
    | none => s
    | some c => State.pump k ((s.completeSync c).arbitrate 129)

/-- What follows one or more completions, and every other event at which the arbiter may act. -/
def State.serve (s : State) : State := ((s.arbitrate 129).pump 132).settle

/-- The scan-wanted flag of each enabled lane that a mask names is set (R164). -/
def State.wantScan (s : State) (want : Nat → Bool) : State :=
  (List.range 4).foldl (fun s n =>
    if want n && (s.planLane n).isSome then s.setLane n { s.lane n with scanWanted := true } else s) s

end Sys2Proof.Machine
end

