-- ==== Sys2Proof/Machine/Tamper.lean ====
section
/-! DEFINITION. Machine/Tamper.lean: the taking of tamper events, their actions, and what a locking event and an
erase action do to the orders in flight (chapter 8). -/

namespace Sys2Proof.Machine

def State.tamper (s : State) : TamperInput → TamperState
  | .cover => s.tm.cover
  | .field => s.tm.field

def State.setTamper (s : State) (i : TamperInput) (x : TamperState) : State :=
  match i with
  | .cover => { s with tm := { s.tm with cover := x } }
  | .field => { s with tm := { s.tm with field := x } }

def TamperAction.locks : TamperAction → Bool
  | .lock | .lockAndErase => true
  | _ => false

def TamperAction.erases : TamperAction → Bool
  | .eraseUse | .lockAndErase => true
  | _ => false

/-- The order that holds the slot is an INSTALL_ANCHOR of class FRAME that has passed its checks (R143). -/
def State.installsFrame (s : State) (c : Nat) : Bool :=
  (s.ctx c).any fun x =>
    match x.change with
    | some (.install _ .frame _ _ _) => true
    | _ => false

/-- The erase action at one slot (R143, R144). -/
def State.eraseAt (s : State) (slot : Nat) : State :=
  match s.holder slot with
  | none => s.eraseSlot slot
  | some c =>
    if (s.slot slot).erasable || s.installsFrame c then
      let s' := s.modCtx c fun x => { x with erasePending := true }
      if s.finishing c then s' else s'.endOrder c .aborted
    else s

/-- The erase action at every slot. That the orders which it ends complete in the order of their slots is the model's
choice (R174 lets either be first; assumption 6). -/
def State.eraseAll (s : State) : State := (List.range 64).foldl State.eraseAt s

/-- A locking event withdraws the note of an UNLOCK and the image of a promoting ADMIT_FRAME whose group has not begun
programming (R78, R150), in context order (assumption 6). -/
def State.lockOrders (s : State) : State :=
  (List.range 4).foldl (fun s c =>
    match s.ctx c with
    | none => s
    | some x =>
      if x.wait == .group && !s.finishing c then
        match x.kindOf with
        | some .unlock => s.endOrder c .tokenRejected
        | some .admitFrame => s.endOrder c .locked
        | _ => s
      else s) s

/-- TM takes `n` events of an input as one, with their capture time (R140 to R145, R147). The Cipher Unit begins the next
request only when every order that the event ends has ended, and before the takes that follow (R81, assumption 22). -/
def State.takeEvent (s : State) (i : TamperInput) (n t : Nat) : State :=
  let x := s.tamper i
  let s := (s.setTamper i { x with time := t, count := min (x.count + n) 65535 }).raise bitTamper
  let a := s.tamperAction i
  let s := if a.locks then { s with tm := { s.tm with lockdown := true, seq := s.tm.seq + 1 } } else s
  let s := s.toTamperGroup (.note (some i) (some a) s.tm.lockdown t s.tm.seq)
  let s := if a.erases then s.eraseAll else s
  let s := if a.locks then s.lockOrders else s
  s.cipherKick.serve

/-- An event held until step 6 of start-up (R147). -/
def holdEvent (i : TamperInput) (t : Nat) : List HeldEvents → List HeldEvents
  | [] => [⟨i, 1, t⟩]
  | h :: rest => if h.input = i then { h with count := h.count + 1, time := t } :: rest else h :: holdEvent i t rest

/-- The filter of an input gives an event: the settled level takes the new level, and TM takes the event or holds
it (R139, R140, R147). -/
def State.tamperEvent (s : State) (i : TamperInput) : State :=
  let x := s.tamper i
  let s := s.setTamper i { x with settled := x.level, timer := none }
  let t := s.captureTime
  if s.tm.restored then s.takeEvent i 1 t
  else { s with tm := { s.tm with heldEvents := holdEvent i t s.tm.heldEvents } }

/-- The held events of each input are taken as one, in the order in which the first of each settled (R147). -/
def State.takeHeld (s : State) : State :=
  let held := s.tm.heldEvents
  let t := s.captureTime
  held.foldl (fun s h => s.takeEvent h.input h.count t) { s with tm := { s.tm with restored := true, heldEvents := [] } }

end Sys2Proof.Machine
end

