-- ==== Sys2Proof/Machine/Commit.lean ====
section
/-! DEFINITION. Machine/Commit.lean: the end of a programming step: the next unit, a group's commit (R59, R112), the
BASE commit (R117), a failed verification (R119) and NV_FATAL (R120, R137). -/

namespace Sys2Proof.Machine

/-! ## Counters at a commit (R59) -/

/-- The durable values of one generation raised, if it is present in the slot. -/
def State.raiseDurable (s : State) (slot : Nat) (gen : Half) (ceiling mark : Nat) : State :=
  let r := s.slot slot
  if r.cls = some .frame then
    s.modGen slot gen fun g => { g with ctr := g.ctr.commit r.policy.hard ceiling mark }
  else s

/-- The counters that a record carries are made durable (R59). -/
def State.commitCounters (s : State) (r : Rec) : State :=
  match r.body with
  | .counterMark slot gen ceiling mark => s.raiseDurable slot gen ceiling mark
  | .image slot img =>
    if img.cls = some .frame then
      img.gens.foldl (fun s g => s.raiseDurable slot g.number g.ctr.ceil g.ctr.reqMark) s
    else s
  | _ => s

/-! ## The orders that a commit releases -/

/-- The table change of the order that placed a record (R13). -/
def State.commitTable (s : State) (r : Rec) : State :=
  match r.owner with
  | .order c =>
    match s.ctx c with
    | none => s
    | some x =>
      match x.change with
      | none => s
      | some ch => (s.commitChange x.order.slot.toNat ch r.time).modCtx c fun x => { x with poolClaim := false }
  | _ => s

/-- The result of a committed durable order (R13 to R21, R32, R35, R39, R44). -/
def committedRes (x : Ctx) (ch : Change) : Res :=
  match ch with
  | .define _ _ _ _ cl => { Res.zero with clamped := cl }
  | .install _ _ _ cl _ => { Res.zero with clamped := cl, genUsed := 1 }
  | .setPolicy _ cl => { Res.zero with clamped := cl }
  | .adopt _ => Res.zero
  | .retire => Res.zero
  | .stage number _ => { Res.zero with genUsed := number, outLen := x.output.length }
  | .promote none => { Res.zero with genUsed := x.genNo, promoted := true }
  | .promote (some v) =>
    { Res.zero with genUsed := x.genNo, ctrUsed := v.toNat, promoted := true, outLen := x.output.length }
  | .cancel => { Res.zero with genUsed := x.genNo }
  | .unlock => Res.zero

/-- The record's order completes (R13, R78, R149). SET_POLICY reports H brought up as a clamp (R19), which
`commitGroup` notes before the table takes the change. -/
def State.completeCommitted (s : State) (c : Nat) : State :=
  match s.ctx c with
  | none => s
  | some x =>
    match x.change with
    | none => s
    | some (.promote (some v)) =>
      if s.tm.lockdown then
        s.complete c .locked { Res.zero with genUsed := x.genNo, ctrUsed := v.toNat, promoted := true }
      else s.complete c .ok (committedRes x (.promote (some v)))
    | some .unlock =>
      if s.tm.seq = x.challenge then
        State.complete { s with tm := { s.tm with lockdown := false } } c .ok Res.zero
      else s.complete c .tokenRejected Res.zero
    | some ch => s.complete c .ok (committedRes x ch)

/-- SET_POLICY carries CLAMPED also where H was brought up at the commit (R19). -/
def State.noteRaise (s : State) (r : Rec) : State :=
  match r.owner with
  | .order c =>
    s.modCtx c fun x =>
      match x.change with
      | some (.setPolicy pol cl) =>
        { x with change := some (.setPolicy pol (cl || (s.slot x.order.slot.toNat).policyRaised pol)) }
      | _ => x
  | _ => s

/-- An order that waits for a reservation or a mark goes on, if a record of the commit satisfies it (R55, R64). -/
def State.resume (s : State) (c : Nat) (r : Rec) : State :=
  match s.ctx c with
  | none => s
  | some x =>
    let slot := x.order.slot.toNat
    match (r.body.carries slot x.genNo), (s.slot slot).find x.genNo with
    | some _, some g =>
      if x.wait = .reservation ∧ g.ctr.next < g.ctr.durCeil then
        (s.modCtx c fun x => { x with wait := .none }).counterStep c
      else if x.wait = .mark ∧ x.value ≤ g.ctr.durMark then s.finishAdmit c
      else s
    | _, _ => s

/-- The orders that one record releases, each followed by the looks and takes it leads to (R112). -/
def State.releaseRec (s : State) (r : Rec) : State :=
  let s :=
    match r.owner with
    | .order c => (s.completeCommitted c).serve
    | .unlock c => (s.completeCommitted c).serve
    | _ => s
  (List.range 4).foldl (fun s c =>
    if (s.ctx c).any fun x => x.wait == .reservation || x.wait == .mark then (s.resume c r).serve else s) s

/-! ## Commits (R112, R117) -/

/-- A group is durable (R112). The table takes its changes in one step, so the notices of one cause that they give come
together (R179); the completions that follow are steps of their own (R174, assumption 32). -/
def State.commitGroup (s : State) (g : Group) : State :=
  let n := groupSize g.recs + 1
  let s := { s with ju := { s.ju with
    lastSeq := g.seq, used := s.ju.used + n, next := s.ju.next + n, step := none } }
  let s := g.recs.foldl State.commitCounters s
  let s := s.together (g.recs.foldl (fun s r => (s.noteRaise r).commitTable r) s)
  let s := g.recs.foldl State.releaseRec s
  { s with ju := { s.ju with activity := .idle, due := s.ju.due || decide (768 ≤ s.ju.used) } }

/-- The base of a compaction is durable (R117). -/
def State.commitBase (s : State) (c : Compaction) : State :=
  let old := s.ju.current
  let s := { s with ju := { s.ju with
    current := some c.target, epoch := c.epoch, used := c.at_ - 1, next := c.at_
    lastSeq := s.ju.lastSeq + 1, step := none, comp := none } }
  let s := match old with | none => s | some bk => s.setBankState bk .spent
  let s := c.images.foldl State.commitCounters s
  let s := c.images.foldl State.releaseRec s
  { s with ju := { s.ju with activity := .idle, forced := false } }

/-! ## NV_FATAL (R120, R137, R159) -/

/-- All work in the array stops and every record is discarded; a bank that a compaction was building becomes SPENT
(R106, R120). -/
def State.stopJournal (s : State) : State :=
  let s := match s.ju.comp with
    | none => s
    | some c => s.setBankState c.target .spent
  { s with ju := { s.ju with
    activity := .idle, erasing := none, waiting := [], step := none, failed := none, tamper := none, comp := none
    emptyLeft := [], due := false } }

/-- What the failure of start-up leaves (R101, R137, R147). -/
def State.failStartUp (s : State) : State :=
  if s.startingUp then
    let s := if s.tm.restored then s
      else State.takeHeld { s with tm := { s.tm with lockdown := false, seq := 0 } }
    let tu := s.tu
    let tu := if tu.kept then tu else
      { tu with now := 0, kept := true, uncertain := true, fallback := false, lossStart := some s.clock }
    { s with tu := tu, wp := { s.wp with summaryOn := true, startAt := none } }
  else s

/-- What the engine does once NV_FATAL has been given: it enters FAILED, and the orders that wait on the journal complete
(R120). -/
def State.enterFailed (s : State) : State :=
  let served := s.wp.engine == .running
  let s := State.enter { s with wp := { s.wp with served := served } } .failed
  let s := if served then s else { s with od := { s.od with scanTimer := none } }
  let s := s.stopJournal
  let s := if s.wp.supplyWarn then { s with wp := { s.wp with supplySafe := true } } else s
  let s := s.failStartUp
  let s := (List.range 4).foldl (fun s c =>
    if (s.ctx c).any Ctx.onJournal then s.endOrder c .storeFailed else s) s
  s.serve

/-- NV_FATAL at a location (R120). -/
def State.nvFatal (s : State) (loc1 loc2 : Nat) : State := (s.giveFault .nvFatal loc1 loc2).enterFailed

/-! ## The end of a programming step -/

/-- A unit reads back as it was not written (R105, R119, R120). One that reads only after a correction is reported as any
read is (R184), and where the failure is NV_FATAL too, the two faults are given in one step (R179). -/
def State.stepFailed (s : State) (st : Step) (got : NvUnit) : State :=
  let t := s.noteRead st.bank st.at_ got
  let fatal := (s.together (t.giveFault .nvFatal st.bank.code st.at_)).enterFailed
  match st.work with
  | .group g =>
    if g.retry || t.ju.failed.isSome then fatal
    else { t with ju := { t.ju with
      failed := some g, step := none, activity := .idle, next := 1024, due := true } }
  | .compaction => fatal
  | .emptyBase => fatal

/-- The last unit of a step has been programmed and verified. -/
def State.stepDone (s : State) (st : Step) : State :=
  match st.work with
  | .group g => s.commitGroup g
  | .compaction =>
    match s.ju.comp with
    | none => s
    | some c =>
      let s := { s with ju := { s.ju with step := none } }
      match c.step with
      | .header => s.setBankState c.target .active
      | .groupEnd => s.commitBase c
      | _ => s
  | .emptyBase =>
    let s := { s with ju := { s.ju with step := none } }
    if st.at_ = 0 then s.setBankState .a .active
    else if s.ju.emptyLeft.isEmpty then
      State.setBankState
        { s with ju := { s.ju with current := some .a, epoch := 1, used := 3, next := 4, lastSeq := 0 } } .b .erased
    else s

/-- The unit in progress ends and reads back as given (R105, R111). A unit that reads only after a correction fails its
verification (R105). -/
def State.unitEnds (s : State) (readBack : Option NvUnit) : State :=
  match s.ju.step with
  | none => s
  | some st =>
    match st.units with
    | [] => s
    | w :: rest =>
      let got := readBack.getD (.good w)
      let s := s.setUnits st.bank (setUnit (s.units st.bank) st.at_ got)
      if got ≠ .good w then s.stepFailed st got
      else if rest.isEmpty then s.stepDone st
      else { s with ju := { s.ju with step := some { st with at_ := st.at_ + 1, units := rest } } }

end Sys2Proof.Machine
end

