-- ==== Sys2Proof/Machine/Replay.lean ====
section
/-! DEFINITION. Machine/Replay.lean: start-up replay (R121 to R124, R187), degraded recovery (R68), and the erase and
the empty base of a blank array (R124). -/

namespace Sys2Proof.Machine

/-! ## Reading groups -/

/-- A group as it stands in a bank: its record units, its GROUP_END, and the unit after it. -/
structure FoundGroup where
  units : List UnitWord
  ending : UnitWord
  after : Nat
  deriving DecidableEq, Repr

/-- The units of one record from a unit on, if all of them read. -/
def readRun (l : List (Nat × NvUnit)) (at_ : Nat) : Nat → Option (List UnitWord)
  | 0 => some []
  | k + 1 =>
    if 1024 ≤ at_ then none
    else
      match (unitAt l at_).content with
      | none => none
      | some w => (readRun l (at_ + 1) k).map fun ws => w :: ws

/-- How many units a record takes, by the kind in its first unit; `none` for an unknown kind. -/
def kindSize (k : Nat) : Option Nat :=
  match k with
  | 1 => some 4
  | 2 | 3 | 4 => some 1
  | _ => none

/-- The group that begins at a unit: record by record to its GROUP_END. `none` where a unit does not read, a record
is of an unknown kind, or no GROUP_END comes before an erased unit or the end of the bank (R123). -/
def findGroup (l : List (Nat × NvUnit)) : Nat → Nat → List UnitWord → Option FoundGroup
  | 0, _, _ => none
  | k + 1, at_, acc =>
    match readRun l at_ 1 with
    | some [w] =>
      if unitKind w = 5 then some ⟨acc, w, at_ + 1⟩
      else
        match kindSize (unitKind w) with
        | none => none
        | some n =>
          match readRun l at_ n with
          | none => none
          | some ws => findGroup l k (at_ + n) (acc ++ ws)
    | _ => none

/-- The GROUP_END fields: BASE flag, unit count, sequence, CRC. That any byte but 0 sets the flag is the model's choice
(assumption 33). -/
def endBase (u : UnitWord) : Bool := fieldAt u.toNat 1 1 ≠ 0
def endCount (u : UnitWord) : Nat := fieldAt u.toNat 2 2
def endSeq (u : UnitWord) : Word := BitVec.ofNat 32 (fieldAt u.toNat 4 4)
def endCrc (u : UnitWord) : Nat := fieldAt u.toNat 8 4

/-- The unit count and the CRC of a group match (R121, R123). -/
def FoundGroup.whole (g : FoundGroup) : Bool :=
  endCount g.ending == g.units.length && endCrc g.ending == crcUnits g.units

/-- The units from one to another that read only after a correction are reported (R105). -/
def State.reportCorrected (s : State) (bk : Bank) (from_ upTo : Nat) : State :=
  let l := s.units bk
  (List.range (upTo - from_)).foldl (fun s i => s.noteRead bk (from_ + i) (unitAt l (from_ + i))) s

/-- One past the last programmed unit of a bank. -/
def lastUnit (l : List (Nat × NvUnit)) : Nat := l.foldl (fun m x => max m (x.1 + 1)) 0

/-- The first programmed unit of a bank; 1,024 for a bank that is wholly erased. -/
def firstUnit (l : List (Nat × NvUnit)) : Nat := l.foldl (fun m x => min m x.1) 1024

/-- Where `readRun` stops: past the run, or at its first unit that does not read. -/
def runReach (l : List (Nat × NvUnit)) (at_ : Nat) : Nat → Nat
  | 0 => at_
  | k + 1 => if 1024 ≤ at_ || (unitAt l at_).content.isNone then at_ else runReach l (at_ + 1) k

/-- Where `findGroup` stops: past the last unit that it has read whole, whether it finds the group or not. -/
def groupReach (l : List (Nat × NvUnit)) : Nat → Nat → Nat
  | 0, at_ => at_
  | k + 1, at_ =>
    match readRun l at_ 1 with
    | some [w] =>
      match kindSize (unitKind w) with
      | none => at_ + 1
      | some n => if runReach l at_ n = at_ + n then groupReach l k (at_ + n) else runReach l at_ n
    | _ => at_

/-! ## Choosing the bank (R121, R124) -/

/-- The epoch of a bank whose header is readable (R104). -/
def State.headerOf (s : State) (bk : Bank) : Option Word := (unitAt (s.units bk) 0).content.bind readHeader

/-- The complete BASE group of a bank with a readable header (R121). -/
def State.baseOf (s : State) (bk : Bank) : Option (Word × FoundGroup) :=
  match s.headerOf bk with
  | none => none
  | some e =>
    match findGroup (s.units bk) 300 1 [] with
    | none => none
    | some g => if endBase g.ending && g.whole then some (e, g) else none

def State.wholeErased (s : State) (bk : Bank) : Bool := (s.units bk).all fun x => x.2 = .erased

/-- The three units after the header of an empty base: its records and GROUP_END (R124). The time of the note is the
model's choice (assumption 23). -/
def emptyBaseUnits : List UnitWord :=
  let recs := [timeMarkUnit 0, tamperNoteUnit none none false 0 0]
  recs ++ [groupEndUnit true 2 0 (crcUnits recs)]

/-- The bank holds only a header of epoch 1 and a run of units of an empty base, of which any may not read (R124). -/
def State.tornEmptyBase (s : State) (bk : Bank) : Bool :=
  let l := s.units bk
  s.headerOf bk == some 1 && s.wholeErased bk.other && decide (lastUnit l ≤ 4) &&
  (List.range (lastUnit l - 1)).all fun i =>
    match unitAt l (i + 1) with
    | .erased => false
    | .unreadable => true
    | .good w | .corrected w => some w == emptyBaseUnits[i]?

/-- The header of a bank read, and, where it is readable, its first group (R121). -/
def State.readHead (s : State) (bk : Bank) : State :=
  let s := s.reportCorrected bk 0 1
  if (s.headerOf bk).isSome then s.reportCorrected bk 1 (groupReach (s.units bk) 300 1) else s

/-- The bank that is not selected read up to its first programmed unit, which tells whether it is wholly erased (R121);
its header has been read. How far it is read is the model's choice (assumption 10). -/
def State.readOther (s : State) (bk : Bank) : State := s.reportCorrected bk 1 (firstUnit (s.units bk) + 1)

/-- The look at the whole array: every unit of both banks is read, bank A first (R105, R124; assumptions 10 and 31). -/
def State.readArray (s : State) : State :=
  (s.reportCorrected .a 0 (lastUnit (s.units .a))).reportCorrected .b 0 (lastUnit (s.units .b))

/-- The bank is made SPENT, or ERASED where it is wholly erased (R121). -/
def State.putAside (s : State) (bk : Bank) : State :=
  s.setBankState bk (if s.wholeErased bk then .erased else .spent)

/-- The bank to replay is chosen, or the array is blank, or it is damaged (R121, R124). R121 gives the reading of the two
banks no order; that bank A is read before bank B, so that its corrected units are reported first, is the model's
choice (assumption 31). -/
def State.chooseBank (s : State) : State :=
  let s := (s.readHead .a).readHead .b
  let select (s : State) (bk : Bank) (e : Word) : State :=
    let s := ((s.readOther bk.other).setBankState bk .active).putAside bk.other
    { s with
      ju := { s.ju with current := some bk, epoch := e, used := 0, next := 1, firstGroup := true }
      wp := { s.wp with startAt := some .applying } }
  match s.baseOf .a, s.baseOf .b with
  | some (e, _), some (f, _) => if f.toNat ≤ e.toNat then select s .a e else select s .b f
  | some (e, _), none => select s .a e
  | none, some (f, _) => select s .b f
  | none, none =>
    let s := (s.readArray.putAside .a).putAside .b
    if s.wholeErased .a && s.wholeErased .b then { s with wp := { s.wp with startAt := some .emptyBase } }
    else if s.tornEmptyBase .a || s.tornEmptyBase .b then { s with wp := { s.wp with startAt := some .emptyErase } }
    else s.nvFatal 0 0

/-! ## Applying groups (R122, R187) -/

/-- A generation that an image restores keeps the larger durable values where replay already holds it, with the
ceiling capped at H + 1 (R122); the other counter fields are set from them (R67). -/
def mergeGen (cls : Option SlotClass) (hard : Nat) (held : SlotRec) (g : Gen) : Gen :=
  match cls with
  | some .frame =>
    let k := match held.cls, held.find g.number with
      | some .frame, some h =>
        { g.ctr with durCeil := max h.ctr.durCeil g.ctr.durCeil, durMark := max h.ctr.durMark g.ctr.durMark }
      | _, _ => g.ctr
    { g with ctr := Counters.restart { k with durCeil := min k.durCeil (hard + 1) } }
  | _ => g

/-- One record of a group applied (R122). That a record which names no slot of the table changes nothing is the model's
choice (assumption 33). -/
def State.replay (s : State) (r : Replayed) : State :=
  match r with
  | .image slot img => s.setSlot slot (img.mapGens (mergeGen img.cls img.policy.hard (s.slot slot)))
  | .counterMark slot gen ceiling mark =>
    let r := s.slot slot
    if r.cls = some .frame then
      s.modGen slot gen fun g =>
        let d := max g.ctr.durCeil (min ceiling (r.policy.hard + 1))
        { g with ctr := Counters.restart { g.ctr with durCeil := d, durMark := max g.ctr.durMark mark } }
    else s
  | .timeMark t => { s with ju := { s.ju with replayTime := t } }
  | .note flag seq => { s with ju := { s.ju with replayLock := flag, replaySeq := seq } }

/-- No readable GROUP_END stands among the units from `q` to the last, walking record by record (R123). -/
def noGroupEnd (l : List (Nat × NvUnit)) (last : Nat) : Nat → Nat → Bool
  | 0, _ => true
  | k + 1, q =>
    if last ≤ q then true
    else
      match (unitAt l q).content with
      | none => true
      | some w => if unitKind w = 5 then false else noGroupEnd l last k (q + (kindSize (unitKind w)).getD 1)

/-- The programmed units from the stop point form a torn tail (R123). -/
def isTornTail (l : List (Nat × NvUnit)) (p : Nat) : Bool :=
  let last := lastUnit l
  let n := last - p
  decide (n ≤ 259) &&
  ((List.range n).all fun i =>
    match unitAt l (p + i) with
    | .erased => false
    | .unreadable => i + 1 == n
    | .good _ | .corrected _ => true) &&
  noGroupEnd l last n p

/-- Replay has stopped at a unit: the bank ended cleanly, or a torn tail or a lost group follows (R123). -/
def State.judgeStop (s : State) (bk : Bank) (p : Nat) : State :=
  let l := s.units bk
  let next (s : State) : State := { s with wp := { s.wp with startAt := some .step4 } }
  if 1024 ≤ p || unitAt l p = .erased then next s
  else
    let s := s.reportCorrected bk p (lastUnit l)
    let s := { s with ju := { s.ju with forced := true } }
    if isTornTail l p then next s
    else next (State.giveFault { s with ju := { s.ju with lost := true } } .nvGroupLost bk.code p)

/-- The next group of the selected bank is applied, or replay stops (R122, R123). -/
def State.applyGroup (s : State) : State :=
  match s.ju.current with
  | none => s
  | some bk =>
    let l := s.units bk
    let p := s.ju.next
    match findGroup l 300 p [] with
    | none => (s.reportCorrected bk p (groupReach l 300 p)).judgeStop bk p
    | some g =>
      let s := s.reportCorrected bk p g.after
      let orderly := s.ju.firstGroup || (endSeq g.ending == s.ju.lastSeq + 1 && !endBase g.ending)
      match readRecords g.units.length g.units with
      | some recs =>
        if g.whole && orderly then
          let s := recs.foldl State.replay s
          { s with ju := { s.ju with
            lastSeq := endSeq g.ending, used := g.after - 1, next := g.after, firstGroup := false } }
        else s.judgeStop bk p
      | none => s.judgeStop bk p

/-! ## Degraded recovery (R68) -/

/-- The counter values that the readable records beyond the stop point carry (R68). -/
def salvage (l : List (Nat × NvUnit)) (last : Nat) : Nat → Nat → State → State
  | 0, _, s => s
  | k + 1, q, s =>
    if last ≤ q then s
    else
      match (unitAt l q).content with
      | none => salvage l last k (q + 1) s
      | some w =>
        let n := if unitKind w = 1 then 4 else 1
        match readRun l q n with
        | none => salvage l last k (q + n) s
        | some ws =>
          match readRecords 1 ws with
          | some [.counterMark slot gen c m] =>
            salvage l last k (q + n) (s.replay (.counterMark slot gen c m))
          | some [.image slot img] =>
            salvage l last k (q + n) (img.gens.foldl (fun s g =>
              if img.cls = some .frame then
                s.replay (.counterMark slot g.number g.ctr.durCeil g.ctr.durMark)
              else s) s)
          | _ => salvage l last k (q + n) s

/-- Degraded recovery of every FRAME generation (R68). -/
def State.recover (s : State) : State :=
  match s.ju.current with
  | none => s
  | some bk =>
    let l := s.units bk
    let last := lastUnit l
    let s := salvage l last last s.ju.next (s.reportCorrected bk s.ju.next last)
    { s with kt := s.kt.map fun r =>
        if r.cls = some .frame then r.mapGens fun g => { g with ctr := g.ctr.recover r.policy.hard } else r }

end Sys2Proof.Machine
end

