-- ==== Sys2Proof/Machine/Ports.lean ====
section
/-! DEFINITION. Machine/Ports.lean: what the port commands do in the engine state in force (R154 to R160), writes of
the window and of the registers (R151, R153), and what the port bus reads. -/

namespace Sys2Proof.Machine

/-! ## Port commands -/

/-- The outcome of a port command goes to the last port result, and the count rises (R154). -/
def State.portResult (s : State) (cmd : PortCommand) (outcome : PortOutcome) (offset : Nat) : State :=
  { s with wp := { s.wp with
    lastCmd := some cmd, lastOutcome := outcome, lastOffset := offset, cmdCount := s.wp.cmdCount + 1 } }

/-- START, taken in STOPPED with a plan applied (R157). -/
def State.startLanes (s : State) (p : Plan) : State :=
  let s := (List.range 4).foldl (fun s n =>
    match s.planLane n with
    | none => s
    | some l => s.setLane n { s.lane n with cursor := l.first, scanWanted := true, credits := l.weight }) s
  State.enter
    { s with od := { s.od with scanTimer := if p.scanPeriod = 0 then none else some s.clock } } .running

def State.portStart (s : State) : State :=
  match s.wp.engine, s.od.plan with
  | .stopped, none => s.portResult .start .noPlan 0
  | .stopped, some p => (((s.portResult .start .ok 0).startLanes p).serve).finish
  | _, _ => s.portResult .start .wrongState 0

/-- STOP (R154, R158). With no order in flight the engine passes through STOPPING to STOPPED in the step of the STOP, so
the two changes are events that come together (R159, R179); else it enters STOPPED in a later step, the completion of the
last order in flight (assumption 32). -/
def State.portStop (s : State) : State :=
  match s.wp.engine with
  | .stopped => s.portResult .stop .ok 0
  | .running =>
    let t := State.enter (s.portResult .stop .ok 0) .stopping
    let t := State.clearLaneNotices { t with od := { t.od with scanTimer := none } }
    let t := if s.busy.isEmpty then s.together t.settle else t
    (t.abortAll.serve).finish
  | _ => s.portResult .stop .wrongState 0

/-- The notice causes take their enables and groups, and the lane coalescing is cleared (R181, R183). -/
def State.applyNotices (s : State) : State :=
  let ram := s.wp.ram
  State.clearCoalescing
    { s with nu := { s.nu with
      causes := s.nu.causes.mapFinIdx fun i c _ => c.apply (causeEnable ram i) (causeGroup ram i) } }

/-- A filter timer that has already run for the new filter time gives its event at the apply (R139). -/
def State.applyFilter (s : State) (i : TamperInput) : State :=
  match (s.tamper i).timer with
  | some t => if s.filterTime i ≤ s.clock - t then s.tamperEvent i else s
  | none => s

/-- APPLY_PLAN (R155, R156). Where both running filter timers are over, COVER's event is taken first (R139, assumption
25), and the two events of TAMPER come together, in the step of the apply (R179). -/
def State.portApply (s : State) : State :=
  match s.wp.engine with
  | .stopped =>
    match planFault s.wp.ram with
    | some off => s.portResult .applyPlan .planInvalid off
    | none =>
      let t := s.portResult .applyPlan .ok 0
      let t := State.refill { t with od := { t.od with plan := some (planOf s.wp.ram) } }
      (s.together ((t.applyNotices.applyFilter .cover).applyFilter .field)).finish
  | _ => s.portResult .applyPlan .wrongState 0

/-- CLEAR_FAULT (R160, R185). -/
def State.portClear (s : State) : State :=
  let s := (s.portResult .clearFault .ok 0).emptyFaults
  { s with ju := { s.ju with wasHot := false } }

def State.portCommand (s : State) : PortCommand → State
  | .start => s.portStart
  | .stop => s.portStop
  | .applyPlan => s.portApply
  | .clearFault => s.portClear

/-- The window is not there: the part is held in reset, or step 1 of start-up has not ended (R132, R134). -/
def State.windowClosed (s : State) : Bool := s.wp.inReset.isSome || s.wp.startAt == some .step1

/-- A write of a port command to the port control register: nothing in reset; in step 1 of start-up it is taken
when step 1 ends (R132, R134, R154). -/
def State.writeCommand (s : State) (cmd : PortCommand) : State :=
  if s.wp.inReset.isSome then s
  else if s.wp.startAt = some .step1 then
    { s with wp := { s.wp with deferredCmds := s.wp.deferredCmds ++ [cmd] } }
  else s.portCommand cmd

/-- A write of the nudge register (R164). -/
def State.writeNudge (s : State) (v : Half) : State :=
  if s.wp.inReset.isSome then s else ((s.wantScan fun n => v.getLsbD n).serve).finish

/-- A write of the notice acknowledge register (R153, R180). -/
def State.writeAcknowledge (s : State) (v : Half) : State :=
  if s.wp.inReset.isSome || 7 < v.toNat then s else s.acknowledge v.toNat

/-! ## The window on the port bus (R151) -/

/-- A processor write of a word of the window: stored in the plan block, the cells and the data area, and dropped in
the summary block. -/
def State.writeWindow (s : State) (a : Nat) (v : Half) : State :=
  if s.windowClosed then s
  else if a < 0x0200 || (0x2400 ≤ a && a < 0x8000) then
    { s with wp := { s.wp with
      ram := Ram.write (Ram.write s.wp.ram a (v.extractLsb' 0 8)) (a + 1) (v.extractLsb' 8 8) } }
  else if 0x0400 ≤ a && a < 0x2400 then
    let n := (a - 0x0400) / 64
    s.setCell n ((s.cell n).writeHalf ((a - 0x0400) % 64) v)
  else s

/-- A processor write of a word at a port address (R151, R153). The table gives a row of its own to the writes that
are port commands, nudges and acknowledgements; every other register write is dropped. -/
def State.busWrite (s : State) (addr v : Half) : State :=
  let a := wordAddr addr
  if a < 0x8000 then s.writeWindow a v
  else if a = 0x8004 then
    match v.toNat with
    | 1 => s.writeCommand .start
    | 2 => s.writeCommand .stop
    | 3 => s.writeCommand .applyPlan
    | 4 => s.writeCommand .clearFault
    | _ => s
  else if a = 0x8006 then s.writeNudge v
  else if a = 0x800A then s.writeAcknowledge v
  else s

/-- The mask of causes INSERVICE that the notice pending register shows (R153). -/
def State.inServiceMask (s : State) : Nat :=
  (List.range 13).foldl (fun m i => m + (if (s.cause i).inService then 2 ^ i else 0)) 0

/-- A processor read of the word at a port address: a read changes nothing, and the table has no row for one (R151,
R153). In reset and in step 1 the window reads zero (R132, R134). What the registers read while the part is held in
reset is the model's choice: the same as at the end of the reset (assumption 24). -/
def State.busRead (s : State) (addr : Half) : Half :=
  let a := wordAddr addr
  if a < 0x8000 then
    if s.windowClosed then 0
    else if 0x0200 ≤ a && a < 0x0400 then BitVec.ofNat 16 (fieldAt s.summaryNat (a - 0x0200) 2)
    else if 0x0400 ≤ a && a < 0x2400 then
      BitVec.ofNat 16 (fieldAt (s.cell ((a - 0x0400) / 64)).toNat ((a - 0x0400) % 64) 2)
    else BitVec.ofNat 16 (Ram.readNat s.wp.ram a 2)
  else if a = 0x8000 then 0xD216
  else if a = 0x8002 then BitVec.ofNat 16 s.wp.engine.code
  else if a = 0x8008 then BitVec.ofNat 16 s.inServiceMask
  else 0

/-! ## Posting an order (9.6) -/

/-- The i-th cell of a lane's ring from a cell on. -/
def PlanLane.ringCell (p : PlanLane) (from_ i : Nat) : Nat := p.first + (from_ - p.first + i) % p.count

/-- The post position of a lane: the first cell that is not POSTED from the cursor on, or from the lane's first cell
while START is still to set the cursor there (9.6, R157). `none` where that cell is not FREE or every cell is
POSTED. -/
def State.postCell (s : State) (lane : Nat) (p : PlanLane) : Option Nat :=
  let from_ := if s.taking then (s.lane lane).cursor else p.first
  match (List.range p.count).find? fun i => (s.cell (p.ringCell from_ i)).state ≠ 1 with
  | none => none
  | some i =>
    let n := p.ringCell from_ i
    if (s.cell n).state = 0 then some n else none

/-- The meter processor posts an order in a lane and nudges the lane (9.6, R164). Nothing happens where the window
is closed, the lane is not enabled, or its ring has no free cell at the post position. -/
def State.post (s : State) (kind : Kind) (lane : Nat) (o : OrderFields) : State :=
  if s.windowClosed then s
  else
    match s.planLane lane with
    | none => s
    | some p =>
      match s.postCell lane p with
      | none => s
      | some n =>
        ((s.setCell n { s.cell n with state := 1, kind := kind.code, order := o }).wantScan (· == lane)).serve.finish

end Sys2Proof.Machine
end

