-- ==== Sys2Proof/Machine/Startup.lean ====
section
/-! DEFINITION. Machine/Startup.lean: resets (R132), the start-up sequence (R133 to R138), the supply handshake (R126
to R131), and what the block does while no command waits. -/

namespace Sys2Proof.Machine

/-! ## The deadline list rebuilt (R103) -/

/-- The entries of one slot after replay. -/
def State.rebuildSlot (s : State) (n : Nat) : State :=
  let r := s.slot n
  let put (s : State) (k : DeadlineKind) (due : Nat) : State :=
    { s with tu := { s.tu with deadlines := insertDeadline ⟨due, n, k⟩ s.tu.deadlines } }
  if r.cls.isNone then s
  else
    let s := match r.current with
      | none => s
      | some g =>
        let s := if r.renewDue then s else put s .renew g.renewAt
        if g.expired then s else put s .expire g.expiresAt
    let s := match r.staged with | none => s | some g => put s .confirm (satAdd g.opened r.policy.window)
    match r.outgoing with | none => s | some g => put s .grace g.graceDue

/-! ## The steps of start-up (R133) -/

def State.goTo (s : State) (p : StartPoint) : State := { s with wp := { s.wp with startAt := some p } }

/-- The banks of a torn empty base are erased before an empty base is written (R124). -/
def State.bootErase (s : State) : State × Bool :=
  if s.ju.erasing.isSome then (s, false)
  else
    match [Bank.a, Bank.b].find? fun bk => s.bankState bk ≠ .erased with
    | none => (s.goTo .emptyBase, true)
    | some bk => if s.ju.hot then (s, false) else ({ s with ju := { s.ju with erasing := some bk } }, false)

/-- The next unit of an empty base begins, or the base is whole (R124). That a gate which turns HOT while the base is being
written holds it before its next unit is the model's choice (R114, assumption 35). -/
def State.bootEmptyBase (s : State) : State × Bool :=
  if s.ju.current.isSome then (s.goTo .step4, true)
  else if s.ju.step.isSome || s.ju.hot then (s, false)
  else
    let left : List (Nat × UnitWord) :=
      if s.ju.emptyLeft.isEmpty then
        (0, headerUnit 1) :: emptyBaseUnits.mapIdx fun i u => (i + 1, u)
      else s.ju.emptyLeft
    match left with
    | [] => (s, false)
    | (n, u) :: rest =>
      ({ s with ju := { s.ju with emptyLeft := rest, step := some ⟨.emptyBase, .a, n, [u]⟩ } }, false)

/-- The forced compaction of step 8: the erase of its target, and its steps (R123, R133). -/
def State.bootCompaction (s : State) : State × Bool :=
  if !s.ju.forced then (s.goTo .step9, true)
  else if s.ju.step.isSome || s.ju.erasing.isSome || s.ju.hot then (s, false)
  else
    match s.ju.comp with
    | some c => (s.beginCompStep c, false)
    | none =>
      let s := s.makeDue
      if s.bankState s.target == .erased then (s.beginCompaction, false) else (s.beginErase, false)

/-- Step 10: the engine enters STOPPED (R138). -/
def State.endStartUp (s : State) : State :=
  let s := { s with wp := { s.wp with startAt := none, ended := true } }
  let s := (s.enter .stopped).fireDue
  if 768 ≤ s.ju.used then s.makeDue else s

/-- One part of start-up: the state it leaves, and whether start-up goes on at once. -/
def State.bootStep (s : State) : StartPoint → State × Bool
  | .step1 =>
    let cmds := s.wp.deferredCmds
    let s := State.goTo { s with wp := { s.wp with deferredCmds := [] } } .step2
    (cmds.foldl State.portCommand s, true)
  | .step2 => (State.goTo { s with wp := { s.wp with provisioning := s.wp.strap } } .choosing, true)
  | .choosing => (s.chooseBank, true)
  | .applying => (s.applyGroup, true)
  | .emptyErase => s.bootErase
  | .emptyBase => s.bootEmptyBase
  | .step4 =>
    let s := if s.ju.lost then s.recover else s
    let s := s.setOrphans
    (State.goTo { s with kt := s.kt.map fun r => { r with deferred := Deferred.none } } .step5, true)
  | .step5 =>
    ((((List.range 64).foldl State.rebuildSlot { s with tu := { s.tu with deadlines := [] } })).goTo .step6, true)
  | .step6 =>
    let s := State.takeHeld { s with tm := { s.tm with lockdown := s.ju.replayLock, seq := s.ju.replaySeq } }
    (s.goTo .step7, true)
  | .step7 =>
    (State.goTo { s with tu := { s.tu with
      now := s.ju.replayTime, kept := true, uncertain := true, fallback := false, lossStart := some s.clock
      internalStart := none, reason := .none } } .step8, true)
  | .step8 => s.bootCompaction
  | .step9 => (State.goTo { s with wp := { s.wp with summaryOn := true } } .step10, true)
  | .step10 => (s.endStartUp, false)

/-- Start-up is interrupted before a part (assumption 9). -/
def State.pausesAt (s : State) (p : StartPoint) : Bool := s.wp.pauses.head? == some ⟨p, 0⟩

/-- The interruptions still to come once one has been made. -/
def State.dropPause (s : State) : State := { s with wp := { s.wp with pauses := s.wp.pauses.tail } }

/-- The interruptions still to come once a part has run. -/
def State.passPart (s : State) (p : StartPoint) : State :=
  let pass (w : Pause) : Pause := if w.part = p then { w with passed := w.passed - 1 } else w
  { s with wp := { s.wp with pauses := s.wp.pauses.modifyHead pass } }

/-- Start-up runs in STARTING until it waits for the array, ends, or comes to where it is interrupted (R133,
assumption 9). A bank holds fewer than 1,024 groups. -/
def State.runBoot : Nat → State → State
  | 0, s => s
  | k + 1, s =>
    if s.wp.engine = .starting then
      match s.wp.startAt with
      | none => s
      | some p =>
        if s.pausesAt p then s.dropPause
        else
          match (s.passPart p).bootStep p with
          | (s, true) => State.runBoot k s
          | (s, false) => s
    else s

/-- The block goes on when a reset has ended, the supply is back, the array has done something or the gate may have
opened: with start-up where it is unfinished, else with the work of R111. -/
def State.goOn (s : State) : State := if s.startingUp then (State.runBoot 1100 s).finish else s.finish

/-- The block while no command waits (assumption 2): the engine's clock advances by a millisecond, and a start-up that
was interrupted goes on by one part, so that commands can arrive between any two (assumption 9). -/
def State.idle (s : State) : State :=
  let s := { s with clock := s.clock + 1 }
  if s.wp.inReset.isSome then s else if s.startingUp then (State.runBoot 1 s).finish else s

/-! ## The supply handshake -/

/-- A HOLDOVER entered during start-up lets the step in progress end (R136). -/
def State.holdBoot (s : State) : State :=
  match s.wp.startAt with
  | some .step1 => ((s.bootStep .step1).1.bootStep .step2).1
  | some .applying | some .emptyErase | some .emptyBase | some .step8 | some .step10 => s
  | some p => (s.bootStep p).1
  | none => s

/-- The entry to HOLDOVER (R127, R128, R129). -/
def State.enterHoldover (s : State) : State :=
  let held := s.wp.engine
  let s := State.enter { s with wp := { s.wp with held := held } } .holdover
  let s := if held = .running ∨ held = .stopping then s.clearLaneNotices else s
  let s := { s with ju := { s.ju with erasing := none } }
  let s := s.abortAll.serve
  let s := if held = .starting then s.holdBoot else s
  s.finish

/-- SUPPLY_WARN asserted (R126). -/
def State.warnAsserted (s : State) : State :=
  if s.wp.supplyWarn then s
  else
    let s := { s with wp := { s.wp with supplyWarn := true } }
    if s.wp.inReset.isSome then s
    else
      match s.wp.engine with
      | .failed => { s with wp := { s.wp with supplySafe := true } }
      | .holdover => s
      | _ => s.enterHoldover

/-- The engine state after HOLDOVER (R131). -/
def State.leaveHoldover (s : State) : State :=
  match s.wp.held with
  | .starting => s.enter .starting
  | _ =>
    let s := { s with od := { s.od with scanTimer := none } }
    if s.busy.isEmpty then s.enter .stopped else s.enter .stopping

/-- SUPPLY_WARN negated (R126, R131); a start-up that was held continues (R136). -/
def State.warnNegated (s : State) : State :=
  if !s.wp.supplyWarn then s
  else
    let s := { s with wp := { s.wp with supplyWarn := false, supplySafe := false } }
    if s.wp.inReset.isSome then s
    else if s.wp.engine = .holdover then s.leaveHoldover.goOn
    else s

/-! ## Resets (R132) -/

/-- The units of the array as a reset finds them: as the engine left them, but for those that the surroundings give
otherwise (assumption 9). -/
def State.arrayAt (s : State) (b : Boot) (bk : Bank) : List (Nat × NvUnit) :=
  b.array.foldl (fun l x => if x.1 = bk ∧ x.2.1 < 1024 then setUnit l x.2.1 x.2.2 else l) (s.units bk)

/-- A tamper input at the end of a reset: settled negated, with the filter timer started where the line is asserted
(R139). -/
def inputAfterReset (level : Bool) : TamperState :=
  { TamperState.reset with level := level, timer := if level then some 0 else none }

/-- The state at the end of a reset, or in reset (R132): everything at its value after reset, but for the array, the
lines that come from outside, the commands that wait, and the source of keys. -/
def State.afterReset (s : State) (b : Boot) (cause : ResetCause) : State :=
  { State.reset with
    wp := { Wp.reset with cause := cause, strap := b.prov, supplyWarn := s.wp.supplyWarn, pauses := b.pauses }
    xu := { Xu.reset with draws := s.xu.draws, cuts := s.xu.cuts }
    ju := { Ju.reset with unitsA := s.arrayAt b .a, unitsB := s.arrayAt b .b }
    tm := { Tm.reset with cover := inputAfterReset s.tm.cover.level, field := inputAfterReset s.tm.field.level }
    pending := s.pending }

/-- The part held in reset: nothing runs (R132). -/
def State.holdReset (s : State) (b : Boot) (cause : ResetCause) : State :=
  let r := s.afterReset b cause
  { r with
    wp := { r.wp with inReset := some cause }
    tm := { r.tm with
      cover := { r.tm.cover with timer := none }
      field := { r.tm.field with timer := none } } }

/-- The end of a reset, and start-up (R132, R133, R136). -/
def State.leaveReset (s : State) (b : Boot) (cause : ResetCause) : State :=
  let s := s.afterReset b cause
  if s.wp.supplyWarn then s.enterHoldover else s.goOn

end Sys2Proof.Machine
end

