-- ==== Sys2Proof/Machine/CipherEvents.lean ====
section
/-! DEFINITION. Machine/CipherEvents.lean: the ends of the six Cipher Unit operations (R79 to R84): what the request
returns, and how its order goes on. An end that names an operation which is not in service cannot occur and changes
nothing (assumption 1). -/

namespace Sys2Proof.Machine

/-- The request in service of one operation ends: its order goes on, the next request begins service, and what
follows completions is done (R80). That the order goes on, and writes its output where it completes, before the next
request begins service, and that this request begins, and reads its extents, before the takes that follow the completion
(step 8 of R174) and before a SYNC that it makes ready completes, is the model's choice (R74, assumption 21). -/
def State.endService (s : State) (op : CipherOp) (go : State → Nat → Ctx → Service → State) : State :=
  match s.xu.service with
  | none => s
  | some sv =>
    if sv.op = op then
      match s.ctx sv.ctx with
      | none => s
      | some x =>
        let s := State.modCtx { s with xu := { s.xu with service := none } } sv.ctx fun x => { x with wait := .none }
        ((go s sv.ctx x sv).cipherKick.serve).finish
    else s

/-- WRAP: the key under the storage root for INSTALL_ANCHOR, the blob for RENEW_LOCAL (R16, R31, R32, R79). -/
def State.wrapEnds (s : State) (c : Nat) (x : Ctx) (_sv : Service) : State :=
  match x.change with
  | some (.install label cls pol cl _) =>
    (s.modCtx c fun x => { x with clearKey := 0 }).placeRecord c
      (.install label cls pol cl (Config.wrapRoot x.clearKey))
  | _ =>
    let wrapping := Config.unwrapRoot x.wrapKey
    let key := Config.unwrapRoot x.newKey
    let sum := Config.blobIntegrity wrapping key x.blobHead x.order.slot
    (s.modCtx c fun x => { x with
      blobKey := Config.blobEncipher wrapping key
      blobSum := sum
      output := blobBytes x.blobHead (Config.blobEncipher wrapping key) sum }).placeRecord c (.stage x.genNo x.newKey)

/-- UNWRAP: the key of a blob whose integrity value matches (R35, R79). A blob built for another slot, of the same label
and under the same wrapping key, bears another value and fails (R33, assumption 20). -/
def State.unwrapEnds (s : State) (c : Nat) (x : Ctx) (_sv : Service) : State :=
  let wrapping := Config.unwrapRoot x.wrapKey
  let key := Config.blobDecipher wrapping x.blobKey
  if Config.blobIntegrity wrapping key x.blobHead x.order.slot = x.blobSum then
    s.placeRecord c (.stage x.genNo (Config.wrapRoot key))
  else s.refuse c .unwrapFailed

/-- PROTECT: the ciphertext and its tag, or LOCKED under lockdown (R72, R73, R78). -/
def State.protectEnds (s : State) (c : Nat) (x : Ctx) (sv : Service) : State :=
  if s.tm.lockdown then s.complete c .locked (x.endRes .locked)
  else
    let text := encipher x.wrapKey sv.nonce sv.input
    let tag := frameTag x.wrapKey sv.nonce sv.assoc text
    (s.modCtx c fun x => { x with output := text ++ bytesOf tag.toNat 8 }).complete c .ok
      { x.endRes .ok with outLen := sv.input.length + 8 }

/-- VERIFY: the tag is compared; on a match the body is deciphered and the ADMIT_FRAME goes on (R77). -/
def State.verifyEnds (s : State) (c : Nat) (x : Ctx) (sv : Service) : State :=
  let n := sv.input.length - 8
  let text := sv.input.take n
  let tag : BitVec 64 := BitVec.ofNat 64 (ofBytes (sv.input.drop n))
  if frameTag x.wrapKey sv.nonce sv.assoc text = tag then
    (s.modCtx c fun x => { x with output := decipher x.wrapKey sv.nonce text }).admitVerified c
  else s.complete c .authFailed (x.endRes .authFailed)

/-- GENERATE: the health test, and the key drawn where it passes (R31, R82, R83). -/
def State.generateEnds (healthy : Bool) (s : State) (c : Nat) (x : Ctx) (_sv : Service) : State :=
  if s.xu.disabled then s.refuse c .rngFault
  else
    let key := Config.drawnKey s.xu.draws
    let s := s.countTest healthy x.lane x.cell
    if healthy then (s.modCtx c fun x => { x with newKey := key }).placeRequest c .wrap
    else s.refuse c .rngFault

/-- TOKEN_CHECK: the token is compared, and then the challenge with the sequence as it stands (R84, R149). -/
def State.tokenEnds (s : State) (c : Nat) (x : Ctx) (sv : Service) : State :=
  if Config.unlockToken (Config.unwrapRoot x.wrapKey) sv.challenge = x.token then
    if s.tm.seq = sv.challenge then s.placeRecord c .unlock else s.refuse c .tokenRejected
  else s.refuse c .tokenRejected

/-- WRAP_END (R31, R79). -/
def execWrapEnd (s : State) : Host.Outcome State Fault Refusal := .next (s.endService .wrap State.wrapEnds)

/-- UNWRAP_END (R35, R79). -/
def execUnwrapEnd (s : State) : Host.Outcome State Fault Refusal := .next (s.endService .unwrap State.unwrapEnds)

/-- PROTECT_END (R73). -/
def execProtectEnd (s : State) : Host.Outcome State Fault Refusal := .next (s.endService .protect State.protectEnds)

/-- VERIFY_END (R77). -/
def execVerifyEnd (s : State) : Host.Outcome State Fault Refusal := .next (s.endService .verify State.verifyEnds)

/-- GENERATE_END (R82, R83). -/
def execGenerateEnd (healthy : Bool) (s : State) : Host.Outcome State Fault Refusal :=
  .next (s.endService .generate (State.generateEnds healthy))

/-- TOKEN_CHECK_END (R84, R149). -/
def execTokenCheckEnd (s : State) : Host.Outcome State Fault Refusal :=
  .next (s.endService .tokenCheck State.tokenEnds)

end Sys2Proof.Machine
end

