-- ==== Sys2Proof/Machine/JournalEvents.lean ====
section
/-! DEFINITION. Machine/JournalEvents.lean: the events of the array: the end of programming one unit, the commits of a
group and of a base, the end of an erase, and the temperature reading (chapter 6). -/

namespace Sys2Proof.Machine

/-- UNIT_PROGRAMMED: the unit in progress ends and is read back (R105, R111, R119). -/
def execUnitProgrammed (readBack : Option NvUnit) (s : State) : Host.Outcome State Fault Refusal :=
  if s.ju.step.isSome then .next (s.unitEnds readBack).goOn else .next s

/-- The unit in progress is the GROUP_END of an ordinary or tamper group. -/
def State.atGroupEnd (s : State) : Bool :=
  match s.ju.step with
  | some ⟨.group _, _, _, [_]⟩ => true
  | _ => false

/-- GROUP_COMMIT: the GROUP_END of a group has been programmed and verified (R112). -/
def execGroupCommit (s : State) : Host.Outcome State Fault Refusal :=
  if s.atGroupEnd then .next (s.unitEnds none).goOn else .next s

/-- The unit in progress is the GROUP_END of a compaction. -/
def State.atBaseEnd (s : State) : Bool :=
  match s.ju.step, s.ju.comp with
  | some ⟨.compaction, _, _, _⟩, some c => c.step == .groupEnd
  | _, _ => false

/-- BASE_COMMIT: the BASE group of a compaction has been programmed and verified (R117). -/
def execBaseCommit (s : State) : Host.Outcome State Fault Refusal :=
  if s.atBaseEnd then .next (s.unitEnds none).goOn else .next s

/-- BANK_ERASE_END: every unit of the bank reads as erased, or one does not (R105, R118, R120). -/
def execBankEraseEnd (bad : Option Nat) (s : State) : Host.Outcome State Fault Refusal :=
  match s.ju.erasing with
  | none => .next s
  | some bk =>
    let s' := { s with ju := { s.ju with erasing := none } }
    match bad with
    | some u => .next (s'.nvFatal bk.code u).goOn
    | none => .next ((s'.setUnits bk []).setBankState bk .erased).goOn

/-- TEMPERATURE_READING: the gate follows the reading (R114). -/
def execTemperatureReading (milli : Int) (s : State) : Host.Outcome State Fault Refusal :=
  if s.wp.inReset.isSome then .next s
  else if !s.ju.hot && decide (s.tempLimit ≤ milli) then
    .next (State.raise { s with ju := { s.ju with hot := true, wasHot := true } } bitStoreHot).goOn
  else if s.ju.hot && decide (milli < s.tempLimit - s.tempHysteresis) then
    .next (State.goOn { s with ju := { s.ju with hot := false } })
  else .next s.goOn

end Sys2Proof.Machine
end

