-- ==== Sys2Proof/Machine/LineEvents.lean ====
section
/-! DEFINITION. Machine/LineEvents.lean: the supply lines (R126 to R131), the resets (R132), and the tamper inputs
(R139, R140). -/

namespace Sys2Proof.Machine

/-- SUPPLY_WARN_ASSERTED (R126 to R129). -/
def execSupplyWarnAsserted (s : State) : Host.Outcome State Fault Refusal := .next s.warnAsserted

/-- SUPPLY_WARN_NEGATED (R126, R131). -/
def execSupplyWarnNegated (s : State) : Host.Outcome State Fault Refusal := .next s.warnNegated

/-- POWER_ON_RESET: start-up runs, unless RESETN still holds the part in what remains a power-on reset (R132). -/
def execPowerOnReset (b : Boot) (s : State) : Host.Outcome State Fault Refusal :=
  if s.wp.inReset.isSome then .next (s.holdReset b .power) else .next (s.leaveReset b .power)

/-- PIN_RESET: RESETN is negated and start-up begins (R132). -/
def execPinReset (b : Boot) (s : State) : Host.Outcome State Fault Refusal :=
  .next (s.leaveReset b (s.wp.inReset.getD .pin))

/-- RESETN_ASSERTED: the part stays in reset, with every operation in progress cut off (R132). -/
def execResetnAsserted (s : State) : Host.Outcome State Fault Refusal :=
  if s.wp.inReset.isSome then .next s else .next (s.holdReset ⟨s.wp.strap, [], []⟩ .pin)

/-- TAMPER_INPUT_CHANGE: the filter timer starts where the level differs from the settled level, and stops where it
does not (R139). In reset the filters do not run. -/
def execTamperInputChange (i : TamperInput) (asserted : Bool) (s : State) : Host.Outcome State Fault Refusal :=
  let x := s.tamper i
  if s.wp.inReset.isSome then .next (s.setTamper i { x with level := asserted })
  else
    let timer := if asserted = x.settled then none else if x.timer.isSome then x.timer else some s.clock
    .next (s.setTamper i { x with level := asserted, timer := timer })

/-- TAMPER_FILTER_EXPIRY: the filter of an input gives its event (R139, R140). -/
def execTamperFilterExpiry (i : TamperInput) (s : State) : Host.Outcome State Fault Refusal :=
  match (s.tamper i).timer with
  | none => .next s
  | some _ => .next (s.tamperEvent i).finish

end Sys2Proof.Machine
end

