-- ==== Sys2Proof/Machine/PortCommands.lean ====
section
/-! DEFINITION. Machine/PortCommands.lean: the meanings of the bus writes: the four port commands (R154), the nudge
(R164), the acknowledgement of a notice group (R180), and every other write (R151, R153). -/

namespace Sys2Proof.Machine

/-- START (R157). -/
def execStart (s : State) : Host.Outcome State Fault Refusal := .next (s.writeCommand .start)

/-- STOP (R158). -/
def execStop (s : State) : Host.Outcome State Fault Refusal := .next (s.writeCommand .stop)

/-- APPLY_PLAN (R155, R156). -/
def execApplyPlan (s : State) : Host.Outcome State Fault Refusal := .next (s.writeCommand .applyPlan)

/-- CLEAR_FAULT (R160, R185). -/
def execClearFault (s : State) : Host.Outcome State Fault Refusal := .next (s.writeCommand .clearFault)

/-- NUDGE (R164). -/
def execNudge (v : Half) (s : State) : Host.Outcome State Fault Refusal := .next (s.writeNudge v)

/-- NOTICE_ACKNOWLEDGE (R180). -/
def execNoticeAcknowledge (v : Half) (s : State) : Host.Outcome State Fault Refusal := .next (s.writeAcknowledge v)

/-- REGISTER_WRITE_IGNORED: any other bus write (R151, R153). -/
def execRegisterWriteIgnored (a v : Half) (s : State) : Host.Outcome State Fault Refusal := .next (s.busWrite a v)

end Sys2Proof.Machine
end

