-- ==== Sys2Proof/Machine/PostedOrders.lean ====
section
/-! DEFINITION. Machine/PostedOrders.lean: the meanings of the 15 order rows. The meter processor posts an order of the
row's kind in a lane and nudges the lane; the order is taken, checked and carried on as Machine/Orders.lean gives, at
once where the engine takes orders and a context is free, else when it is (assumption 3). -/

namespace Sys2Proof.Machine

/-- DEFINE_SLOT (`startDefineSlot`, R14). -/
def execDefineSlot (lane : Nat) (o : OrderFields) (s : State) : Host.Outcome State Fault Refusal :=
  .next (s.post .defineSlot lane o)

/-- INSTALL_ANCHOR (`startInstallAnchor`, R16). -/
def execInstallAnchor (lane : Nat) (o : OrderFields) (s : State) : Host.Outcome State Fault Refusal :=
  .next (s.post .installAnchor lane o)

/-- READ_SLOT (`startReadSlot`, R23). -/
def execReadSlot (lane : Nat) (o : OrderFields) (s : State) : Host.Outcome State Fault Refusal :=
  .next (s.post .readSlot lane o)

/-- SET_POLICY (`startSetPolicy`, R18). -/
def execSetPolicy (lane : Nat) (o : OrderFields) (s : State) : Host.Outcome State Fault Refusal :=
  .next (s.post .setPolicy lane o)

/-- ADOPT (`startAdopt`, R20). -/
def execAdopt (lane : Nat) (o : OrderFields) (s : State) : Host.Outcome State Fault Refusal :=
  .next (s.post .adopt lane o)

/-- RETIRE_SLOT (`startRetireSlot`, R21). -/
def execRetireSlot (lane : Nat) (o : OrderFields) (s : State) : Host.Outcome State Fault Refusal :=
  .next (s.post .retireSlot lane o)

/-- RENEW_LOCAL (`startRenewLocal`, R30). -/
def execRenewLocal (lane : Nat) (o : OrderFields) (s : State) : Host.Outcome State Fault Refusal :=
  .next (s.post .renewLocal lane o)

/-- RENEW_REMOTE (`startRenewRemote`, R34). -/
def execRenewRemote (lane : Nat) (o : OrderFields) (s : State) : Host.Outcome State Fault Refusal :=
  .next (s.post .renewRemote lane o)

/-- RENEW_CONFIRM (`startRenewConfirm`, R39). -/
def execRenewConfirm (lane : Nat) (o : OrderFields) (s : State) : Host.Outcome State Fault Refusal :=
  .next (s.post .renewConfirm lane o)

/-- RENEW_CANCEL (`startRenewCancel`, R44). -/
def execRenewCancel (lane : Nat) (o : OrderFields) (s : State) : Host.Outcome State Fault Refusal :=
  .next (s.post .renewCancel lane o)

/-- PROTECT_FRAME (`startProtectFrame`, R71). -/
def execProtectFrame (lane : Nat) (o : OrderFields) (s : State) : Host.Outcome State Fault Refusal :=
  .next (s.post .protectFrame lane o)

/-- ADMIT_FRAME (`startAdmitFrame`, R75). -/
def execAdmitFrame (lane : Nat) (o : OrderFields) (s : State) : Host.Outcome State Fault Refusal :=
  .next (s.post .admitFrame lane o)

/-- SET_TIME (`startSetTime`, R93). -/
def execSetTime (lane : Nat) (o : OrderFields) (s : State) : Host.Outcome State Fault Refusal :=
  .next (s.post .setTime lane o)

/-- SYNC (`startSync`, R175). -/
def execSync (lane : Nat) (o : OrderFields) (s : State) : Host.Outcome State Fault Refusal :=
  .next (s.post .sync lane o)

/-- UNLOCK (`startUnlock`, R149). -/
def execUnlock (lane : Nat) (o : OrderFields) (s : State) : Host.Outcome State Fault Refusal :=
  .next (s.post .unlock lane o)

end Sys2Proof.Machine
end

