-- ==== Sys2Proof/Machine/TimeEvents.lean ====
section
/-! DEFINITION. Machine/TimeEvents.lean: TICK edges, the loss of TICK, the internal seconds source (R88 to R90), and
the expiries of the dispatcher's and the Notice Unit's timers (R164, R172, R182). -/

namespace Sys2Proof.Machine

/-- TICK_EDGE: one second is counted, and in FALLBACK the internal source stops (R89, R90). Edges count nothing while
meter time is not kept (R101). -/
def execTickEdge (s : State) : Host.Outcome State Fault Refusal :=
  if s.tu.kept then
    let t := s.countSecond
    let back := t.tu.fallback
    let t := { t with tu := { t.tu with lossStart := some t.clock, internalStart := none, fallback := false } }
    let t := if back then State.raise { t with tu := { t.tu with reason := .tickBack } } bitTime else t
    .next t.finish
  else .next s

/-- TICK_LOSS_TIMEOUT: two seconds are counted and the internal source starts, in one step (R89, R179). -/
def execTickLossTimeout (s : State) : Host.Outcome State Fault Refusal :=
  if s.tu.kept && !s.tu.fallback then
    let t := s.together s.countSecond.countSecond
    let t := { t with tu := { t.tu with
      fallback := true, lossStart := none, internalStart := some t.clock, reason := .tickLost } }
    .next (t.raise bitTime).finish
  else .next s

/-- INTERNAL_SECOND: in FALLBACK the internal source counts a second (R89). -/
def execInternalSecond (s : State) : Host.Outcome State Fault Refusal :=
  if s.tu.kept && s.tu.fallback then .next s.countSecond.finish else .next s

/-- The late mark acts where the order waits, while its budget applies (R172, R173). -/
def State.lateActs (s : State) (c : Nat) (x : Ctx) : Bool :=
  (x.wait == .cipherQueue && !s.inService c) || x.wait == .group || x.wait == .reservation || x.wait == .mark

/-- BUDGET_EXPIRY (R172, R173). -/
def execBudgetExpiry (c : Nat) (s : State) : Host.Outcome State Fault Refusal :=
  match s.ctx c with
  | none => .next s
  | some x =>
    if x.budgetApplies && !x.late then
      let s' := s.modCtx c fun x => { x with late := true }
      if s.lateActs c x then .next ((s'.endOrder c .timedOut).serve).finish else .next s'
    else .next s

/-- SCAN_PERIOD_EXPIRY: every enabled lane is wanted, and the timer restarts (R164). -/
def execScanPeriodExpiry (s : State) : Host.Outcome State Fault Refusal :=
  match s.od.scanTimer with
  | none => .next s
  | some _ =>
    let t := { s with od := { s.od with scanTimer := some s.clock } }
    .next ((t.wantScan fun _ => true).serve).finish

/-- COALESCING_DELAY_EXPIRY: LANE_DONE is raised, the count is 0 and the timer stops (R182). -/
def execCoalescingDelayExpiry (lane : Nat) (s : State) : Host.Outcome State Fault Refusal :=
  match (s.coalescing lane).timer with
  | none => .next s
  | some _ => .next ((s.setCoalescing lane ⟨0, none⟩).raise lane)

end Sys2Proof.Machine
end

