-- ==== Sys2Proof/Machine/Dispatch.lean ====
section
/-! DEFINITION. Machine/Dispatch.lean: one arm for each command, one meaning for each arm. -/

namespace Sys2Proof.Machine

open Sys2Proof

def exec (i : Instr) (s : State) : Host.Outcome State Fault Refusal :=
  match i with
  | .start => Sys2Proof.Machine.execStart s
  | .stop => Sys2Proof.Machine.execStop s
  | .applyPlan => Sys2Proof.Machine.execApplyPlan s
  | .clearFault => Sys2Proof.Machine.execClearFault s
  | .nudge v => Sys2Proof.Machine.execNudge v s
  | .noticeAcknowledge v => Sys2Proof.Machine.execNoticeAcknowledge v s
  | .registerWriteIgnored a v => Sys2Proof.Machine.execRegisterWriteIgnored a v s
  | .defineSlot l o => Sys2Proof.Machine.execDefineSlot l o s
  | .installAnchor l o => Sys2Proof.Machine.execInstallAnchor l o s
  | .readSlot l o => Sys2Proof.Machine.execReadSlot l o s
  | .setPolicy l o => Sys2Proof.Machine.execSetPolicy l o s
  | .adopt l o => Sys2Proof.Machine.execAdopt l o s
  | .retireSlot l o => Sys2Proof.Machine.execRetireSlot l o s
  | .renewLocal l o => Sys2Proof.Machine.execRenewLocal l o s
  | .renewRemote l o => Sys2Proof.Machine.execRenewRemote l o s
  | .renewConfirm l o => Sys2Proof.Machine.execRenewConfirm l o s
  | .renewCancel l o => Sys2Proof.Machine.execRenewCancel l o s
  | .protectFrame l o => Sys2Proof.Machine.execProtectFrame l o s
  | .admitFrame l o => Sys2Proof.Machine.execAdmitFrame l o s
  | .setTime l o => Sys2Proof.Machine.execSetTime l o s
  | .sync l o => Sys2Proof.Machine.execSync l o s
  | .unlock l o => Sys2Proof.Machine.execUnlock l o s
  | .wrapEnd => Sys2Proof.Machine.execWrapEnd s
  | .unwrapEnd => Sys2Proof.Machine.execUnwrapEnd s
  | .protectEnd => Sys2Proof.Machine.execProtectEnd s
  | .verifyEnd => Sys2Proof.Machine.execVerifyEnd s
  | .generateEnd h => Sys2Proof.Machine.execGenerateEnd h s
  | .tokenCheckEnd => Sys2Proof.Machine.execTokenCheckEnd s
  | .unitProgrammed r => Sys2Proof.Machine.execUnitProgrammed r s
  | .groupCommit => Sys2Proof.Machine.execGroupCommit s
  | .baseCommit => Sys2Proof.Machine.execBaseCommit s
  | .bankEraseEnd bad => Sys2Proof.Machine.execBankEraseEnd bad s
  | .temperatureReading m => Sys2Proof.Machine.execTemperatureReading m s
  | .tickEdge => Sys2Proof.Machine.execTickEdge s
  | .tickLossTimeout => Sys2Proof.Machine.execTickLossTimeout s
  | .internalSecond => Sys2Proof.Machine.execInternalSecond s
  | .supplyWarnAsserted => Sys2Proof.Machine.execSupplyWarnAsserted s
  | .supplyWarnNegated => Sys2Proof.Machine.execSupplyWarnNegated s
  | .powerOnReset b => Sys2Proof.Machine.execPowerOnReset b s
  | .pinReset b => Sys2Proof.Machine.execPinReset b s
  | .tamperInputChange n a => Sys2Proof.Machine.execTamperInputChange n a s
  | .tamperFilterExpiry n => Sys2Proof.Machine.execTamperFilterExpiry n s
  | .budgetExpiry c => Sys2Proof.Machine.execBudgetExpiry c s
  | .scanPeriodExpiry => Sys2Proof.Machine.execScanPeriodExpiry s
  | .coalescingDelayExpiry l => Sys2Proof.Machine.execCoalescingDelayExpiry l s
  | .resetnAsserted => Sys2Proof.Machine.execResetnAsserted s

end Sys2Proof.Machine
end

