-- ==== Sys2Proof/Safety.lean ====
section
/-! DEFINITION. Safety.lean: the laws of the manual that statements are made in, the plain situations in which one
command is followed by nothing but its own effect, and the frames that say what such a command leaves as it was. -/

namespace Sys2Proof.Machine

/-! ## Laws of the state -/

/-- The window RAM is in its canonical form. -/
def State.ramCanonical (s : State) : Prop := Ram.wf s.wp.ram = true

/-- A cause that is PENDING and enabled is INSERVICE too: otherwise it would have fired (R179, R180). -/
def Cause.settled (c : Cause) : Bool := !(c.pending && c.enabled && !c.inService)

/-- Every cause is settled. -/
def State.causesSettled (s : State) : Prop := s.nu.causes.toList.all Cause.settled = true

/-- The law of R53 for the counters of one generation under a hard limit. -/
structure Counters.Ordered (k : Counters) (hard : Nat) : Prop where
  one : 1 ≤ k.next
  next : k.next ≤ k.durCeil
  ceil : k.durCeil ≤ k.ceil
  hard : k.ceil ≤ hard + 1

/-- The law of R53 and R61 for the counters of one generation under a hard limit, as every step keeps it from whatever
state: next ≤ D ≤ C ≤ H + 1 and T ≤ I ≤ the requested mark. (That next is 1 or more also needs that the array carries
no ceiling of 0, so it is stated of the operations, `Counters.Ordered`.) -/
structure Counters.Lawful (k : Counters) (hard : Nat) : Prop where
  next : k.next ≤ k.durCeil
  ceil : k.durCeil ≤ k.ceil
  hard : k.ceil ≤ hard + 1
  top : k.top ≤ k.durMark
  mark : k.durMark ≤ k.reqMark

/-- The counters of every generation present in a slot of class FRAME are lawful. -/
def SlotRec.lawful (r : SlotRec) : Prop := r.cls = some .frame → ∀ g ∈ r.gens, g.ctr.Lawful r.policy.hard

/-- The counters of every slot are lawful (R53, R61). -/
def State.countersLawful (s : State) : Prop := ∀ n, (s.slot n).lawful

/-- Two entries of the deadline list, the first before the second, of different slots or kinds (R94, R95). -/
def Deadline.apart (d e : Deadline) : Prop := d.before e = true ∧ ¬(d.slot = e.slot ∧ d.kind = e.kind)

/-- The deadline list is in list order, with at most one entry of each slot and kind (R94, R95). -/
def State.listKept (s : State) : Prop := s.tu.deadlines.Pairwise Deadline.apart

/-- The generations present in a slot have pairwise distinct numbers (R4). -/
def SlotRec.distinct (r : SlotRec) : Prop := (r.gens.map fun g => g.number).Nodup

/-! ## What an image carries (R52, R187) -/

/-- The counters of a generation as an image of a slot of a class gives them back. -/
def Counters.imaged (cls : Option SlotClass) (k : Counters) : Counters :=
  match cls with
  | some .frame =>
    { Counters.zero with ceil := k.ceil, durCeil := k.ceil, durMark := k.reqMark, reqMark := k.reqMark }
  | _ => Counters.zero

/-- A slot record as its image gives it back: without the orphaned flag and the deferred set. -/
def SlotRec.imaged (r : SlotRec) : SlotRec :=
  { (r.mapGens fun g => { g with ctr := g.ctr.imaged r.cls }) with orphaned := false, deferred := Deferred.none }

/-- The counters that an image carries fit its fields. -/
def Counters.fits (k : Counters) : Prop := k.ceil < 4294967296 ∧ k.reqMark < 4294967296

/-- A slot record whose fields an image can carry: each in its range, and the times that an image does not carry as
the rules give them (R4, R8, R187). -/
structure SlotRec.Imageable (r : SlotRec) : Prop where
  defined : r.cls ≠ none
  parent : ∀ p, r.parent = some p → p < 64
  lifetime : r.policy.lifetime < 4294967296
  hard : r.policy.hard < 4294967296
  fraction : r.policy.fraction < 256
  margin : r.policy.margin < 256
  window : r.policy.window < 16777216
  grace : r.policy.grace < 16777216
  current : ∀ g, r.current = some g → g.issued < 4294967296 ∧ g.opened = 0 ∧ g.graceDue = 0 ∧
    g.renewAt = r.policy.renewAt g.issued ∧ g.expiresAt = r.policy.expiresAt g.issued ∧ g.ctr.fits
  staged : ∀ g, r.staged = some g → g.number = r.last ∧ g.opened < 4294967296 ∧ g.issued = 0 ∧ g.renewAt = 0 ∧
    g.expiresAt = 0 ∧ g.graceDue = 0 ∧ g.expired = false ∧ g.ctr.fits
  outgoing : ∀ g, r.outgoing = some g → g.issued < 4294967296 ∧ g.opened = 0 ∧ g.renewAt < 4294967296 ∧
    g.expiresAt < 4294967296 ∧ g.graceDue < 4294967296 ∧ g.ctr.fits

/-- The deadline list that a change of a slot leaves, with `r` the slot's record after it (R41, R95). -/
def listAfter (slot : Nat) (r : SlotRec) (ch : Change) (l : List Deadline) : List Deadline :=
  let drop (k : DeadlineKind) (l : List Deadline) := l.filter fun d => !(d.slot == slot && d.kind == k)
  let put (k : DeadlineKind) (due : Nat) (l : List Deadline) := insertDeadline ⟨due, slot, k⟩ (drop k l)
  let current (l : List Deadline) :=
    match r.current with
    | none => l
    | some g =>
      let l := if r.renewDue then drop .renew l else put .renew g.renewAt l
      if g.expired then drop .expire l else put .expire g.expiresAt l
  match ch with
  | .define .. => l
  | .adopt _ => l
  | .unlock => l
  | .install .. => current l
  | .setPolicy .. => current l
  | .retire => l.filter fun d => !(d.slot == slot)
  | .cancel => drop .confirm l
  | .stage .. =>
    match r.staged with
    | none => l
    | some g => put .confirm (satAdd g.opened r.policy.window) l
  | .promote _ =>
    let l := drop .confirm l
    current (match r.outgoing with
      | none => drop .grace l
      | some g => put .grace g.graceDue l)

/-- The commit of a change of a slot record raises COUNTER_LOW: a SET_POLICY whose soft limit has been reached (R19). -/
def Change.lowAt (ch : Change) (r : SlotRec) : Bool :=
  match ch with
  | .setPolicy pol _ => r.policyDue pol
  | _ => false

/-- A change as its commit reports it: a SET_POLICY is CLAMPED also where H is brought up to the highest value handed out
(R19). -/
def Change.clampedAt (ch : Change) (r : SlotRec) : Change :=
  match ch with
  | .setPolicy pol cl => .setPolicy pol (cl || r.policyRaised pol)
  | ch => ch

/-- A change is the promotion of an ADMIT_FRAME (R43). -/
def Change.admits : Change → Bool
  | .promote (some _) => true
  | _ => false

/-- A slot record with the orphaned flag that the table's parent gives it: the slot at the parent's number is EMPTY
(R11). -/
def SlotRec.orphanedBy (r : SlotRec) (kt : Nat → SlotRec) : SlotRec :=
  { r with orphaned := match r.parent with
      | none => false
      | some p => r.cls.isSome && (kt p).cls.isNone }

/-- A slot record with the durable values of one generation raised; only a generation of a FRAME slot has any (R59). -/
def SlotRec.raiseDurable (r : SlotRec) (gen : Half) (ceiling mark : Nat) : SlotRec :=
  if r.cls = some .frame then r.updGen gen fun g => { g with ctr := g.ctr.commit r.policy.hard ceiling mark } else r

/-- The record of slot `n` once the counters that a journal record carries are durable (R59): those of the generation
that a COUNTER_MARK names, or of each generation in the image of a FRAME slot. -/
def SlotRec.madeDurable (r : SlotRec) (n : Nat) (b : RecBody) : SlotRec :=
  match b with
  | .counterMark m gen ceiling mark => if m = n then r.raiseDurable gen ceiling mark else r
  | .image m img =>
    if m = n ∧ img.cls = some .frame then
      img.gens.foldl (fun r g => r.raiseDurable g.number g.ctr.ceil g.ctr.reqMark) r
    else r
  | _ => r

/-! ## Plain situations -/

/-- The window is open and start-up has ended. -/
def State.afterStartUp (s : State) : Prop := s.wp.inReset = none ∧ s.wp.startAt = none

/-- Nothing follows a completion: no lane is looked at, no order in flight is a SYNC that waits, and the engine is not
in STOPPING. -/
structure State.NoFollower (s : State) : Prop where
  lanes : ∀ n, (s.lane n).scanWanted = false
  syncs : ∀ c, s.isSync c = false
  engine : s.wp.engine ≠ .stopping

/-- The lane is enabled, its cursor stands at a FREE cell whose successor is not POSTED, no other lane is looked at, and
every context is free: where orders are taken, an order posted in the lane is taken at once into context 0, and no
other order is. -/
structure State.QuietLane (s : State) (lane : Nat) (p : PlanLane) : Prop where
  after : s.afterStartUp
  plan : s.planLane lane = some p
  small : lane < 4
  weight : 1 ≤ p.weight
  count : 2 ≤ p.count
  bound : p.first + p.count ≤ 128
  low : p.first ≤ (s.lane lane).cursor
  high : (s.lane lane).cursor < p.first + p.count
  free : (s.cell (s.lane lane).cursor).state = 0
  next : (s.cell (p.next (s.lane lane).cursor)).state ≠ 1
  others : ∀ n, n ≠ lane → (s.lane n).scanWanted = false
  ctxs : ∀ c, s.ctx c = none

/-- The lane is quiet, and the engine is RUNNING. -/
structure State.Quiet (s : State) (lane : Nat) (p : PlanLane) : Prop extends s.QuietLane lane p where
  running : s.wp.engine = .running

/-- Nothing follows a command but what it does itself: start-up has ended, the supply is not lost, and no completion
would be followed by anything. -/
structure State.Settled (s : State) : Prop where
  after : s.afterStartUp
  follower : s.NoFollower
  supply : s.wp.engine ≠ .holdover

/-- The Cipher Unit has no request. -/
def State.cipherIdle (s : State) : Prop := s.xu.service = none ∧ s.xu.queue = []

/-- No entry of the deadline list is due at a time. -/
def State.noneDue (s : State) (t : Nat) : Prop := ∀ d ∈ s.tu.deadlines, t < d.due

/-- A record of a kind waits in the list or is being programmed (R109). -/
def State.holdsRecord (s : State) (p : Rec → Bool) : Bool := (s.ju.waiting ++ s.programming).any p

/-- A record of the tamper group that waits, or of the group that is being programmed, is of a kind (R113, R145). -/
def State.holdsTamperRecord (s : State) (p : Rec → Bool) : Bool := (s.ju.tamper.getD [] ++ s.programming).any p

/-- The record is the one that the order in context `c` places for a change, in the state as it stands: the SLOT_IMAGE
of its slot as the change leaves it, or the TAMPER_NOTE that ends lockdown; one that has joined the open group bears
the meter time of its joining (R13, R149). -/
def State.recordFor (s : State) (c slot : Nat) (ch : Change) (r : Rec) : Bool :=
  (!r.joined || r.time == s.tu.now) &&
  match ch with
  | .unlock => r.owner == .unlock c && r.body == .note none none false s.tu.now s.tm.seq
  | ch => r.owner == .order c && r.body == .image slot (ch.apply s.tu.now (s.slot slot))

/-- The record is a SLOT_IMAGE that a deadline action gave of a slot whose record is `r`; one that has joined the open
group has taken the counters of the table as it stands (R52, R99). -/
def Rec.isActionImage (n : Nat) (r : SlotRec) (q : Rec) : Bool :=
  q.owner == .deadline && (q.body == .image n r || q.body == .image n (r.withCounters r))

/-! ## Frames -/

/-- What is stored in the array, which banks there are, and the temperature gate stand as they did. -/
structure State.SameArray (s t : State) : Prop where
  unitsA : t.ju.unitsA = s.ju.unitsA
  unitsB : t.ju.unitsB = s.ju.unitsB
  stateA : t.ju.stateA = s.ju.stateA
  stateB : t.ju.stateB = s.ju.stateB
  current : t.ju.current = s.ju.current
  epoch : t.ju.epoch = s.ju.epoch
  used : t.ju.used = s.ju.used
  next : t.ju.next = s.ju.next
  lastSeq : t.ju.lastSeq = s.ju.lastSeq
  hot : t.ju.hot = s.ju.hot
  wasHot : t.ju.wasHot = s.ju.wasHot

/-- The slots, meter time and the deadline list, and the notice causes and faults stand as they did. -/
structure State.SameTables (s t : State) : Prop where
  slots : t.kt = s.kt
  time : t.tu = s.tu
  notices : t.nu = s.nu

/-- An order in flight but for its budget flag and the predecessors it waits for. -/
def Ctx.core (x : Ctx) : Ctx := { x with budgetApplies := false, preds := [] }

/-- What one order's own work leaves of the ports, the dispatcher and the array: everything but one cell, one lane,
one context, the RAM, and what the Journal Unit is about to do. -/
structure State.OrderFrame (s t : State) (lane cell ctx : Nat) : Prop where
  port : t.wp = { s.wp with ram := t.wp.ram, cells := t.wp.cells }
  cells : ∀ n, n ≠ cell → t.cell n = s.cell n
  lanes : ∀ n, n ≠ lane → t.lane n = { s.lane n with credits := (t.lane n).credits }
  ctxs : ∀ c, c ≠ ctx → (t.ctx c).map Ctx.core = (s.ctx c).map Ctx.core
  plan : t.od.plan = s.od.plan
  timer : t.od.scanTimer = s.od.scanTimer
  array : s.SameArray t
  tamper : t.tm = s.tm
  clock : t.clock = s.clock
  pending : t.pending = s.pending

/-- `t` is `s` but for what the Journal Unit has taken up: the group, the compaction step and the erase that it has begun,
and the budgets that this settles (R111, R172). -/
structure State.TakenUp (s t : State) : Prop where
  window : t.wp = s.wp
  plan : t.od.plan = s.od.plan
  lanes : t.od.lanes = s.od.lanes
  timer : t.od.scanTimer = s.od.scanTimer
  ctxs : ∀ c, (t.ctx c).map Ctx.core = (s.ctx c).map Ctx.core
  slots : t.kt = s.kt
  cipher : t.xu = s.xu
  time : t.tu = s.tu
  array : s.SameArray t
  tamper : t.tm = s.tm
  notices : t.nu = s.nu
  clock : t.clock = s.clock
  pending : t.pending = s.pending

/-- An order of a kind, posted in a quiet lane, has been taken into context 0 and is in flight there: the cell at
the cursor is TAKEN, the cursor has moved on, and everything outside stands as it did (R163, R166, R168). -/
structure State.InFlight (s t : State) (lane : Nat) (p : PlanLane) (k : Kind) (o : OrderFields) (x : Ctx) : Prop where
  ctx : t.ctx 0 = some x
  copy : x.lane = lane ∧ x.cell = (s.lane lane).cursor ∧ x.kind = k.code ∧ x.order = o
  held : x.held = heldSlot k.code o
  take : x.takeTime = s.clock ∧ x.budget = 10 * p.budget ∧ x.late = false
  cell : t.cell (s.lane lane).cursor = { s.cell (s.lane lane).cursor with state := 2, kind := k.code, order := o }
  ring : (t.lane lane).cursor = p.next (s.lane lane).cursor ∧ (t.lane lane).scanWanted = false ∧
    (t.lane lane).done = (s.lane lane).done
  frame : s.OrderFrame t lane (s.lane lane).cursor 0

/-- An order of a kind code, posted in a quiet lane, has been taken and has completed with a code: its cell is DONE with
the result, the lane's done count has risen, its context is free again, and everything outside stands as it did
(R168, R174). -/
structure State.DoneAtOnce (s t : State) (lane : Nat) (p : PlanLane) (kind : Byte) (o : OrderFields) (code : Code)
    (res : Res) : Prop where
  cell : t.cell (s.lane lane).cursor = { state := 3, kind := kind, order := o, result := resultOf code res t.tu.now }
  ctx : t.ctx 0 = none
  ring : (t.lane lane).cursor = p.next (s.lane lane).cursor ∧ (t.lane lane).scanWanted = false ∧
    (t.lane lane).done = (s.lane lane).done + 1
  frame : s.OrderFrame t lane (s.lane lane).cursor 0

/-- The order passes the common checks of its kind in RUNNING (R170). -/
structure State.PassesCommon (s : State) (k : Kind) (o : OrderFields) : Prop where
  slot : k.namesSlot = true → o.slot.toNat < 64
  extents : extentsGood k o = true
  unlocked : k.refusedLocked = true → s.tm.lockdown = false

/-- An order posted in a quiet lane has completed at once with a code, and nothing else has changed but that the Notice
Unit has counted one completion of the lane (R170, R174, R182). -/
structure State.EndsAtOnce (s t : State) (lane : Nat) (p : PlanLane) (kind : Byte) (o : OrderFields) (code : Code)
    (res : Res) : Prop where
  done : s.DoneAtOnce t lane p kind o code res
  slots : t.kt = s.kt
  time : t.tu = s.tu
  notices : t.nu = (s.countCompletion lane).nu
  cipher : t.xu = s.xu
  ram : t.wp.ram = s.wp.ram

/-- The order `x` in context 0 waits for its group with a change: the record of that change has been handed over, and the
tables, the RAM and the Cipher Unit stand as they did (R13). -/
structure State.HandedOver (s t : State) (x : Ctx) (ch : Change) : Prop where
  wait : x.wait = .group
  change : x.change = some ch
  given : t.holdsRecord (s.recordFor 0 x.order.slot.toNat ch) = true
  tables : s.SameTables t
  ram : t.wp.ram = s.wp.ram
  cipher : t.xu = s.xu

/-- The order `x` in context `c` has completed with a code: its cell is DONE with the result and the tag of the order
copy, its lane's done count has risen, its context is free, and everything outside stands as it did (R174). -/
structure State.OrderEnds (s t : State) (c : Nat) (x : Ctx) (code : Code) (res : Res) : Prop where
  cell : t.cell x.cell =
    { s.cell x.cell with
      state := 3
      order := { (s.cell x.cell).order with tag := x.order.tag }
      result := resultOf code res s.tu.now }
  ctx : t.ctx c = none
  ring : t.lane x.lane = { s.lane x.lane with done := (s.lane x.lane).done + 1 }
  frame : s.OrderFrame t x.lane x.cell c

/-- The order `x` in context `c` completes with a code, and nothing else changes but the RAM: the tables stand as they
did, the Notice Unit has counted one completion of the lane, and the Cipher Unit has no request (R174, R182). -/
structure State.EndsPlainly (s t : State) (c : Nat) (x : Ctx) (code : Code) (res : Res) : Prop where
  ends : s.OrderEnds t c x code res
  slots : t.kt = s.kt
  time : t.tu = s.tu
  notices : t.nu = (s.countCompletion x.lane).nu
  cipher : t.xu = { s.xu with service := none }

/-- The order in context `c` goes on as `x`: its cell, every lane and the tables stand as they did. -/
structure State.GoesOn (s t : State) (c : Nat) (x : Ctx) : Prop where
  ctx : (t.ctx c).map Ctx.core = some x.core
  cell : t.cell x.cell = s.cell x.cell
  ring : t.lane x.lane = s.lane x.lane
  ram : t.wp.ram = s.wp.ram
  tables : s.SameTables t
  frame : s.OrderFrame t x.lane x.cell c

/-- A request of the order in context 0 is the only one of the Cipher Unit, and has begun service (R80). -/
structure State.RequestBegun (s t : State) (op : CipherOp) (v : Service) : Prop where
  unit : t.xu = { s.xu with service := some v }
  ctx : v.ctx = 0
  op : v.op = op

/-- A PROTECT request has taken the next value of generation `g`, the CURRENT one of slot `n`, whose record was `r`: a
reservation is requested at a distance of 1,024 or less, and its COUNTER_MARK handed over; at the soft limit the slot
becomes due for renewal (R9, R55, R56, R58). -/
structure State.TakesNext (s t : State) (n : Nat) (r : SlotRec) (g : Gen) : Prop where
  slot :
    let back := g.ctr.durCeil - g.ctr.next ≤ 1024 ∧ g.ctr.reserving = false ∧ g.ctr.durCeil < r.policy.hard + 1
    let low := r.policy.soft ≤ g.ctr.next ∧ r.renewDue = false
    t.slot n = { r with
      current := some { g with ctr := if back then g.ctr.takeValue.reserve r.policy.hard else g.ctr.takeValue }
      renewDue := if low then true else r.renewDue
      deferred := if low then r.deferred.set .renew false else r.deferred }
  others : ∀ m, m ≠ n → t.slot m = s.slot m
  time :
    let low := r.policy.soft ≤ g.ctr.next ∧ r.renewDue = false
    t.tu = { s.tu with
      deadlines := if low then s.tu.deadlines.filter fun d => !(d.slot == n && d.kind == .renew)
        else s.tu.deadlines }
  notices : t.nu = (if r.policy.soft ≤ g.ctr.next ∧ r.renewDue = false then s.raise bitCounterLow else s).nu
  mark : g.ctr.durCeil - g.ctr.next ≤ 1024 ∧ g.ctr.reserving = false ∧ g.ctr.durCeil < r.policy.hard + 1 →
    t.holdsRecord (fun q => q.body ==
      .counterMark n g.number (min (g.ctr.durCeil + 4096) (r.policy.hard + 1)) g.ctr.reqMark) = true

/-- The order `x` in context `c` is one that may complete without a deferred action or a tamper erase following: it
stands in a lane and a cell, and the slot it holds, if it holds one, has nothing deferred (R97, R144). -/
structure State.Plain (s : State) (c : Nat) (x : Ctx) : Prop where
  ctx : s.ctx c = some x
  small : c < 4
  lane : x.lane < 4
  cell : x.cell < 128
  erase : x.erasePending = false
  deferred : ∀ n, x.held = some n → (s.slot n).deferred = Deferred.none

/-- The request of the order `x` in context `c` is in service, no other waits, the engine is RUNNING, and nothing
follows the end of the request but what the order itself does. -/
structure State.Serving (s : State) (c : Nat) (x : Ctx) (v : Service) (op : CipherOp) : Prop where
  plain : s.Plain c x
  follower : s.NoFollower
  running : s.wp.engine = .running
  service : s.xu.service = some v
  queue : s.xu.queue = []
  ctx : v.ctx = c
  op : v.op = op
  late : x.late = false

/-- The command that posts an order of a kind. -/
def Kind.command (k : Kind) (lane : Nat) (o : OrderFields) : Instr :=
  match k with
  | .defineSlot => .defineSlot lane o
  | .installAnchor => .installAnchor lane o
  | .readSlot => .readSlot lane o
  | .setPolicy => .setPolicy lane o
  | .adopt => .adopt lane o
  | .retireSlot => .retireSlot lane o
  | .renewLocal => .renewLocal lane o
  | .renewRemote => .renewRemote lane o
  | .renewConfirm => .renewConfirm lane o
  | .renewCancel => .renewCancel lane o
  | .protectFrame => .protectFrame lane o
  | .admitFrame => .admitFrame lane o
  | .setTime => .setTime lane o
  | .sync => .sync lane o
  | .unlock => .unlock lane o

end Sys2Proof.Machine
end

