-- ==== Sys2Proof/Certificates/Slice0/Obligations.lean ====
section
/-! DEFINITION. Certificates/Slice0/Obligations.lean: the statements for the provers. A statement that rests on a choice of
the model names the entry of the assumption log in its docstring. -/

open Sys2Proof Sys2Proof.Machine

/-! ## Orders as they are taken -/

/-- R14, R13: a DEFINE_SLOT that passes its checks hands its record over and waits for its group. Posting an order as
one command, and the context it takes, are the model's (assumptions 3 and 6). -/
def Obligations.DefineSlotHandsItsRecordOver : Prop :=
  ∀ (s : State) (lane : Nat) (p : PlanLane) (o : OrderFields) (cls : SlotClass) (par : Nat),
    s.Quiet lane p → s.PassesCommon .defineSlot o →
    s.onBoth (fun t => vacant t o.slot.toNat) = true → classOf o.cls = some cls → o.parentSlot = some par →
    par ≠ o.slot.toNat → s.onBoth (fun t => isTransport t par) = true →
    s.onBoth (fun t => decide (depth t par ≤ 3)) = true →
    ∃ t x, exec (.defineSlot lane o) s = .next t ∧ s.InFlight t lane p .defineSlot o x ∧
      s.HandedOver t x (.define o.label cls par (o.rawPolicy.inRange cls) (o.rawPolicy.clamps cls))

/-- R16: an INSTALL_ANCHOR that passes its checks takes the key bytes, zeroes them in the data area, and its WRAP
request begins service in an idle Cipher Unit. Posting an order as one command, and the context it takes, are the
model's (assumptions 3 and 6). -/
def Obligations.InstallAnchorTakesTheKeyAndWraps : Prop :=
  ∀ (s : State) (lane : Nat) (p : PlanLane) (o : OrderFields) (cls : SlotClass),
    s.Quiet lane p → s.PassesCommon .installAnchor o → s.cipherIdle → s.wp.provisioning = true →
    s.onBoth (fun t => vacant t o.slot.toNat) = true → classOf o.cls = some cls → o.input.len.toNat = 16 →
    ∃ t x v, exec (.installAnchor lane o) s = .next t ∧ s.InFlight t lane p .installAnchor o x ∧
      x.wait = .cipherQueue ∧
      x.change = some (.install o.label cls (o.rawPolicy.inRange cls) (o.rawPolicy.clamps cls) 0) ∧
      x.clearKey = BitVec.ofNat 128 (ofBytes (s.readExtent o.input)) ∧
      s.RequestBegun t .wrap v ∧ s.SameTables t ∧
      t.wp.ram = Ram.writeBytes s.wp.ram o.input.addr (List.replicate 16 0)

/-- R23: READ_SLOT writes the public slot record, or is refused NO_ROOM with the length 160. Posting an order as one
command, and the context it takes, are the model's (assumptions 3 and 6). -/
def Obligations.ReadSlotWritesThePublicRecord : Prop :=
  ∀ (s : State) (lane : Nat) (p : PlanLane) (o : OrderFields),
    s.Quiet lane p → s.PassesCommon .readSlot o → (s.slot o.slot.toNat).deferred = Deferred.none →
    ∃ t, exec (.readSlot lane o) s = .next t ∧
      (o.output.len.toNat < 160 →
        s.EndsAtOnce t lane p Kind.readSlot.code o .noRoom { Res.zero with outLen := 160 }) ∧
      (160 ≤ o.output.len.toNat →
        s.DoneAtOnce t lane p Kind.readSlot.code o .ok { Res.zero with outLen := 160 } ∧
        t.kt = s.kt ∧ t.tu = s.tu ∧ t.nu = (s.countCompletion lane).nu ∧ t.xu = s.xu ∧
        t.wp.ram = Ram.writeBytes s.wp.ram o.output.addr (s.publicRecord o.slot.toNat))

/-- R18, R21: SET_POLICY and RETIRE_SLOT on a slot that is not EMPTY hand their records over and wait. Posting an order
as one command, and the context it takes, are the model's (assumptions 3 and 6). -/
def Obligations.SetPolicyAndRetireHandTheirRecordsOver : Prop :=
  ∀ (s : State) (lane : Nat) (p : PlanLane) (o : OrderFields) (cls : SlotClass),
    s.Quiet lane p → (s.slot o.slot.toNat).cls = some cls →
    (s.PassesCommon .setPolicy o →
      ∃ t x, exec (.setPolicy lane o) s = .next t ∧ s.InFlight t lane p .setPolicy o x ∧
        s.HandedOver t x (.setPolicy (o.rawPolicy.inRange cls) (o.rawPolicy.clamps cls))) ∧
    (s.PassesCommon .retireSlot o →
      ∃ t x, exec (.retireSlot lane o) s = .next t ∧ s.InFlight t lane p .retireSlot o x ∧
        s.HandedOver t x .retire)

/-- R20: an ADOPT that passes its checks hands its record over and waits. Posting an order as one command, and the
context it takes, are the model's (assumptions 3 and 6). -/
def Obligations.AdoptHandsItsRecordOver : Prop :=
  ∀ (s : State) (lane : Nat) (p : PlanLane) (o : OrderFields) (par : Nat),
    s.Quiet lane p → s.PassesCommon .adopt o →
    s.onBoth (fun t => (t o.slot.toNat).cls.isSome) = true → o.parentSlot = some par →
    s.onBoth (fun t => isTransport t par) = true →
    s.onBoth (fun t => decide (par ≠ o.slot.toNat) && !descends t par o.slot.toNat) = true →
    s.onBoth (fun t => decide (depth t par + 1 + height t o.slot.toNat ≤ 4)) = true →
    ∃ t x, exec (.adopt lane o) s = .next t ∧ s.InFlight t lane p .adopt o x ∧ s.HandedOver t x (.adopt par)

/-- R30, R31: a RENEW_LOCAL that passes its checks claims a place of the staging pool, takes the next generation number
and the wrapping key, and its GENERATE request begins service in an idle Cipher Unit. `k` is the CURRENT generation
of the slot itself for an anchor, and of its parent else. Posting an order as one command, and the context it takes,
are the model's (assumptions 3 and 6). -/
def Obligations.RenewLocalClaimsAndGenerates : Prop :=
  ∀ (s : State) (lane : Nat) (p : PlanLane) (o : OrderFields) (r : SlotRec) (k : Gen),
    s.Quiet lane p → s.PassesCommon .renewLocal o → s.cipherIdle → s.slot o.slot.toNat = r →
    r.cls ≠ none → r.staged = none → r.orphaned = false →
    (r.parent = none → r.current = some k) →
    (∀ q, r.parent = some q → (s.slot q).cls ≠ none ∧ (s.slot q).current = some k ∧ k.expired = false) →
    0 < s.poolFree → 40 ≤ o.output.len.toNat →
    ∃ t x v, exec (.renewLocal lane o) s = .next t ∧ s.InFlight t lane p .renewLocal o x ∧
      x.wait = .cipherQueue ∧ x.poolClaim = true ∧ x.genNo = r.nextNumber ∧ x.wrapKey = k.key ∧
      x.blobHead = blobHeader r.label r.nextNumber k.number r.cls ∧
      s.RequestBegun t .generate v ∧ s.SameTables t ∧ t.wp.ram = s.wp.ram

/-- R33 to R35, R37, R38: a RENEW_REMOTE whose blob passes the checks claims a place of the staging pool, and its UNWRAP
request begins service in an idle Cipher Unit. The wrapping source `src` is the slot itself for an anchor, and its
parent else; the blob names `k`, its CURRENT generation `k0` or its OUTGOING one. Posting an order as one command,
and the context it takes, are the model's (assumptions 3 and 6). -/
def Obligations.RenewRemoteClaimsAndUnwraps : Prop :=
  ∀ (s : State) (lane : Nat) (p : PlanLane) (o : OrderFields) (r src : SlotRec) (k0 k : Gen) (blob : Nat),
    s.Quiet lane p → s.PassesCommon .renewRemote o → s.cipherIdle → s.slot o.slot.toNat = r →
    r.cls ≠ none → r.staged = none → r.orphaned = false →
    (r.parent = none → src = r) →
    (∀ q, r.parent = some q → src = s.slot q ∧ src.cls ≠ none ∧ k0.expired = false ∧ k.expired = false) →
    src.current = some k0 → (k = k0 ∨ (src.outgoing = some k ∧ k0.number ≠ k.number)) →
    0 < s.poolFree → o.input.len.toNat = 40 → blob = ofBytes (s.readExtent o.input) →
    BitVec.ofNat 32 (fieldAt blob 0 4) = r.label → classOf (BitVec.ofNat 8 (fieldAt blob 8 1)) = r.cls →
    BitVec.ofNat 16 (fieldAt blob 4 2) = r.nextNumber → BitVec.ofNat 16 (fieldAt blob 6 2) = k.number →
    fieldAt blob 9 7 = 0 →
    ∃ t x v, exec (.renewRemote lane o) s = .next t ∧ s.InFlight t lane p .renewRemote o x ∧
      x.wait = .cipherQueue ∧ x.poolClaim = true ∧ x.genNo = r.nextNumber ∧ x.wrapKey = k.key ∧
      x.blobHead = BitVec.ofNat 128 (fieldAt blob 0 16) ∧ x.blobKey = BitVec.ofNat 128 (fieldAt blob 0x10 16) ∧
      x.blobSum = BitVec.ofNat 64 (fieldAt blob 0x20 8) ∧
      s.RequestBegun t .unwrap v ∧ s.SameTables t ∧ t.wp.ram = s.wp.ram

/-- R39, R44: RENEW_CONFIRM and RENEW_CANCEL that name the STAGED generation hand their records over and wait. Posting
an order as one command, and the context it takes, are the model's (assumptions 3 and 6). -/
def Obligations.ConfirmAndCancelHandTheirRecordsOver : Prop :=
  ∀ (s : State) (lane : Nat) (p : PlanLane) (o : OrderFields) (g : Gen),
    s.Quiet lane p → (s.slot o.slot.toNat).cls ≠ none → (s.slot o.slot.toNat).staged = some g → g.number = o.gen →
    (s.PassesCommon .renewConfirm o →
      ∃ t x, exec (.renewConfirm lane o) s = .next t ∧ s.InFlight t lane p .renewConfirm o x ∧
        x.genNo = o.gen ∧ s.HandedOver t x (.promote none)) ∧
    (s.PassesCommon .renewCancel o →
      ∃ t x, exec (.renewCancel lane o) s = .next t ∧ s.InFlight t lane p .renewCancel o x ∧
        x.genNo = o.gen ∧ s.HandedOver t x .cancel)

/-- R56, R73, R74: a PROTECT_FRAME under a CURRENT generation with counter values left takes the next value as its
request begins service, with its nonce and its extents read; a reservation is requested at a distance of 1,024 or
less, whose COUNTER_MARK is handed over, and at the soft limit the slot becomes due for renewal (R9, R55, R58).
Posting an order as one command, and the context it takes, are the model's (assumptions 3 and 6). -/
def Obligations.ProtectFrameTakesTheNextValue : Prop :=
  ∀ (s : State) (lane : Nat) (p : PlanLane) (o : OrderFields) (r : SlotRec) (g : Gen),
    s.Quiet lane p → s.PassesCommon .protectFrame o → s.cipherIdle → s.slot o.slot.toNat = r →
    r.cls = some .frame → r.current = some g → g.expired = false →
    o.input.len.toNat + 8 ≤ o.output.len.toNat → g.ctr.next ≤ r.policy.hard → g.ctr.next < g.ctr.durCeil →
    ∃ t x v, exec (.protectFrame lane o) s = .next t ∧ s.InFlight t lane p .protectFrame o x ∧
      x.wait = .cipherQueue ∧ x.genNo = g.number ∧ x.value = g.ctr.next ∧ x.taken = true ∧ x.wrapKey = g.key ∧
      s.RequestBegun t .protect v ∧ v.assoc = s.readExtent o.assoc ∧ v.input = s.readExtent o.input ∧
      v.nonce = frameNonce Config.serial g.number g.ctr.next ∧
      s.TakesNext t o.slot.toNat r g ∧ t.wp.ram = s.wp.ram

/-- R77: an ADMIT_FRAME whose checks pass and whose counter value the window accepts has its VERIFY request begin
service in an idle Cipher Unit; one whose value the window refuses completes STALE or REPLAYED. Posting an order as
one command, and the context it takes, are the model's (assumptions 3 and 6). -/
def Obligations.AdmitFrameAsksTheWindow : Prop :=
  ∀ (s : State) (lane : Nat) (p : PlanLane) (o : OrderFields) (r : SlotRec) (g : Gen),
    s.Quiet lane p → s.PassesCommon .admitFrame o → s.cipherIdle → s.slot o.slot.toNat = r →
    r.deferred = Deferred.none → r.cls = some .frame → r.find o.gen = some g →
    (r.roleOf o.gen = some .current → g.expired = false) →
    8 ≤ o.input.len.toNat → o.input.len.toNat ≤ o.output.len.toNat + 8 →
    ∃ t, exec (.admitFrame lane o) s = .next t ∧
      (g.ctr.check o.counter.toNat = none →
        ∃ x v, s.InFlight t lane p .admitFrame o x ∧ x.wait = .cipherQueue ∧ x.genNo = o.gen ∧
          x.value = o.counter.toNat ∧ x.wrapKey = g.key ∧ s.RequestBegun t .verify v ∧
          v.assoc = s.readExtent o.assoc ∧ v.input = s.readExtent o.input ∧
          v.nonce = frameNonce o.sender o.gen o.counter.toNat ∧ s.SameTables t ∧ t.wp.ram = s.wp.ram) ∧
      (∀ code, g.ctr.check o.counter.toNat = some code →
        (code = .stale ∨ code = .replayed) ∧
        s.EndsAtOnce t lane p Kind.admitFrame.code o code
          { Res.zero with ctrUsed := o.counter.toNat, genUsed := o.gen })

/-- R91 to R93: SET_TIME moves meter time forward, or back by at most 900 seconds, and places a TIME_MARK; no deadline
falls due. Posting an order as one command, and the context it takes, are the model's (assumptions 3 and 6). -/
def Obligations.SetTimeMovesTheClock : Prop :=
  ∀ (s : State) (lane : Nat) (p : PlanLane) (o : OrderFields),
    s.Quiet lane p → s.PassesCommon .setTime o → s.noneDue o.newTime →
    ∃ t, exec (.setTime lane o) s = .next t ∧
      s.DoneAtOnce t lane p Kind.setTime.code o .ok
        { Res.zero with clamped := decide (o.newTime + 900 < s.tu.now) } ∧
      t.tu = (if o.newTime + 900 < s.tu.now then
          { s.tu with now := s.tu.now - 900, uncertain := false, reason := .clamped }
        else { s.tu with now := o.newTime, uncertain := false }) ∧
      t.nu = ((if o.newTime + 900 < s.tu.now then s.raise bitTime else s).countCompletion lane).nu ∧
      t.holdsRecord (fun q => q.body == .timeMark t.tu.now) = true ∧
      t.kt = s.kt ∧ t.xu = s.xu ∧ t.wp.ram = s.wp.ram

/-- R175: a SYNC that finds no order in flight completes OK at once. Posting an order as one command, and the context it
takes, are the model's (assumptions 3 and 6). -/
def Obligations.SyncCompletesWithNothingAhead : Prop :=
  ∀ (s : State) (lane : Nat) (p : PlanLane) (o : OrderFields), s.Quiet lane p →
    ∃ t, exec (.sync lane o) s = .next t ∧ s.EndsAtOnce t lane p Kind.sync.code o .ok Res.zero

/-- R149: UNLOCK with lockdown clear completes OK at once; with lockdown set it takes the token and the challenge, and
its TOKEN_CHECK request begins service in an idle Cipher Unit. `n` is the unlock authority, with `g` its CURRENT
generation. Posting an order as one command, and the context it takes, are the model's (assumptions 3 and 6). -/
def Obligations.UnlockChecksTheToken : Prop :=
  ∀ (s : State) (lane : Nat) (p : PlanLane) (o : OrderFields) (plan : Plan) (n : Nat) (g : Gen),
    s.Quiet lane p → s.PassesCommon .unlock o → s.cipherIdle → o.input.len.toNat = 16 →
    s.od.plan = some plan → plan.authority = some n →
    (s.slot n).cls = some .transport → (s.slot n).current = some g → g.expired = false →
    ∃ t, exec (.unlock lane o) s = .next t ∧
      (s.tm.lockdown = false → s.EndsAtOnce t lane p Kind.unlock.code o .ok Res.zero) ∧
      (s.tm.lockdown = true →
        ∃ x v, s.InFlight t lane p .unlock o x ∧ x.wait = .cipherQueue ∧ x.wrapKey = g.key ∧
          x.token = BitVec.ofNat 128 (ofBytes (s.readExtent o.input)) ∧ x.challenge = s.tm.seq ∧
          s.RequestBegun t .tokenCheck v ∧ v.challenge = s.tm.seq ∧ s.SameTables t ∧ t.wp.ram = s.wp.ram)

/-- R170, R146, R171: the common checks, in their order, with their codes: for every order kind in RUNNING; BAD_KIND for
a cell that was posted through the window with a kind code of no order, and nudged; and STORE_FAILED in FAILED
entered from RUNNING, for the kinds that are not taken there. Posting an order as one command, and the context it
takes, are the model's (assumptions 3 and 6). -/
def Obligations.CommonChecksRefuseInOrder : Prop :=
  ∀ (s : State) (lane : Nat) (p : PlanLane) (o : OrderFields), (s.slot o.slot.toNat).deferred = Deferred.none →
    (∀ k : Kind, s.Quiet lane p → ∃ t, exec (k.command lane o) s = .next t ∧
      (k.namesSlot = true → 64 ≤ o.slot.toNat → s.EndsAtOnce t lane p k.code o .badSlot Res.zero) ∧
      ((k.namesSlot = true → o.slot.toNat < 64) → extentsGood k o = false →
        s.EndsAtOnce t lane p k.code o .badExtent Res.zero) ∧
      ((k.namesSlot = true → o.slot.toNat < 64) → extentsGood k o = true → k.refusedLocked = true →
        s.tm.lockdown = true → s.EndsAtOnce t lane p k.code o .locked Res.zero)) ∧
    (∀ kind : Byte, s.Quiet lane p → kind = 0 ∨ 16 ≤ kind.toNat →
      let cur := (s.lane lane).cursor
      ∃ t, exec (.nudge (BitVec.ofNat 16 (2 ^ lane)))
          (s.setCell cur { s.cell cur with state := 1, kind := kind, order := o }) = .next t ∧
        s.EndsAtOnce t lane p kind o .badKind Res.zero) ∧
    (∀ k : Kind, s.QuietLane lane p → s.wp.engine = .failed → s.wp.served = true → k.takenInFailed = false →
      ∃ t, exec (k.command lane o) s = .next t ∧ s.EndsAtOnce t lane p k.code o .storeFailed Res.zero)

/-- R14, R16, R18, R20, R21: the own checks of the table orders, in their order, with their codes. Posting an order as
one command, and the context it takes, are the model's (assumptions 3 and 6). -/
def Obligations.TableOrdersRefuseInOrder : Prop :=
  ∀ (s : State) (lane : Nat) (p : PlanLane) (o : OrderFields) (code : Code),
    s.Quiet lane p → (s.slot o.slot.toNat).deferred = Deferred.none →
    let slot := o.slot.toNat
    let par := o.parentSlot
    (s.PassesCommon .defineSlot o →
      firstFailure
        [(s.onBoth fun t => vacant t slot, .wrongSlotState), ((classOf o.cls).isSome, .wrongClass),
         (s.onBoth fun t => par.any fun q => q ≠ slot && isTransport t q, .noParent),
         (s.onBoth fun t => par.any fun q => decide (depth t q ≤ 3), .cycle)] = some code →
      ∃ t, exec (.defineSlot lane o) s = .next t ∧ s.EndsAtOnce t lane p Kind.defineSlot.code o code Res.zero) ∧
    (s.PassesCommon .installAnchor o →
      firstFailure
        [(s.wp.provisioning, .notProvisioning), (s.onBoth fun t => vacant t slot, .wrongSlotState),
         ((classOf o.cls).isSome, .wrongClass), (decide (o.input.len.toNat = 16), .badExtent)] = some code →
      ∃ t, exec (.installAnchor lane o) s = .next t ∧ s.EndsAtOnce t lane p Kind.installAnchor.code o code Res.zero) ∧
    (s.PassesCommon .adopt o →
      firstFailure
        [(s.onBoth fun t => (t slot).cls.isSome, .wrongSlotState),
         (s.onBoth fun t => par.any fun q => isTransport t q, .noParent),
         (s.onBoth fun t => par.any fun q => q ≠ slot && !descends t q slot, .cycle),
         (s.onBoth fun t => par.any fun q => decide (depth t q + 1 + height t slot ≤ 4), .cycle)] = some code →
      ∃ t, exec (.adopt lane o) s = .next t ∧ s.EndsAtOnce t lane p Kind.adopt.code o code Res.zero) ∧
    (s.PassesCommon .setPolicy o → (s.slot slot).cls = none →
      ∃ t, exec (.setPolicy lane o) s = .next t ∧ s.EndsAtOnce t lane p Kind.setPolicy.code o .wrongSlotState Res.zero) ∧
    (s.PassesCommon .retireSlot o → (s.slot slot).cls = none →
      ∃ t, exec (.retireSlot lane o) s = .next t ∧ s.EndsAtOnce t lane p Kind.retireSlot.code o .wrongSlotState Res.zero)

/-- R29, R30, R33, R34, R39, R44: the own checks of the renewal orders, in their order, with their codes. `src` is the
wrapping source: the slot itself for an anchor, and its parent else. Posting an order as one command, and the
context it takes, are the model's (assumptions 3 and 6). -/
def Obligations.RenewalOrdersRefuseInOrder : Prop :=
  ∀ (s : State) (lane : Nat) (p : PlanLane) (o : OrderFields) (r src : SlotRec) (code : Code),
    s.Quiet lane p → s.slot o.slot.toNat = r → r.deferred = Deferred.none →
    (r.parent = none → src = r) → (∀ q, r.parent = some q → src = s.slot q) →
    let renewal : List (Bool × Code) :=
      [(r.cls.isSome, .wrongSlotState), (r.staged.isNone, .alreadyStaged),
       (!r.orphaned && (r.parent.isNone || src.cls.isSome), .noParent),
       (src.current.any fun k => r.parent.isNone || !k.expired, .parentExpired), (decide (0 < s.poolFree), .stagingFull)]
    let blob := ofBytes (s.readExtent o.input)
    let named := (src.current.toList ++ src.outgoing.toList).find? fun k => k.number = BitVec.ofNat 16 (fieldAt blob 6 2)
    let staged : List (Bool × Code) :=
      [(r.cls.isSome, .wrongSlotState), (r.staged.isSome, .notStaged),
       (r.staged.any fun g => g.number = o.gen, .genMismatch)]
    (s.PassesCommon .renewLocal o → firstFailure (renewal ++ [(decide (40 ≤ o.output.len.toNat), .noRoom)]) = some code →
      ∃ t, exec (.renewLocal lane o) s = .next t ∧ s.EndsAtOnce t lane p Kind.renewLocal.code o code
        (if code = .noRoom then { Res.zero with outLen := 40 } else Res.zero)) ∧
    (s.PassesCommon .renewRemote o →
      firstFailure (renewal ++
        [(decide (o.input.len.toNat = 40), .badExtent),
         (decide (BitVec.ofNat 32 (fieldAt blob 0 4) = r.label), .labelMismatch),
         (classOf (BitVec.ofNat 8 (fieldAt blob 8 1)) == r.cls, .wrongClass),
         (decide (BitVec.ofNat 16 (fieldAt blob 4 2) = r.nextNumber), .genMismatch), (named.isSome, .unknownGeneration),
         (named.any fun k => r.parent.isNone || !k.expired, .parentExpired),
         (decide (fieldAt blob 9 7 = 0), .unwrapFailed)]) = some code →
      ∃ t, exec (.renewRemote lane o) s = .next t ∧ s.EndsAtOnce t lane p Kind.renewRemote.code o code Res.zero) ∧
    (s.PassesCommon .renewConfirm o → firstFailure staged = some code →
      ∃ t, exec (.renewConfirm lane o) s = .next t ∧ s.EndsAtOnce t lane p Kind.renewConfirm.code o code Res.zero) ∧
    (s.PassesCommon .renewCancel o → firstFailure staged = some code →
      ∃ t, exec (.renewCancel lane o) s = .next t ∧ s.EndsAtOnce t lane p Kind.renewCancel.code o code Res.zero)

/-- R55, R58, R71, R73, R75, R77, R149: the own checks of PROTECT_FRAME, ADMIT_FRAME and UNLOCK, in their order, with
their codes and result words; and a PROTECT_FRAME that finds no durable value left waits for a reservation, which it
requests where none is pending. Posting an order as one command, and the context it takes, are the model's
(assumptions 3 and 6). -/
def Obligations.FrameAndUnlockOrdersRefuseInOrder : Prop :=
  ∀ (s : State) (lane : Nat) (p : PlanLane) (o : OrderFields) (r : SlotRec), s.Quiet lane p →
    s.slot o.slot.toNat = r →
    let frame : List (Bool × Code) :=
      [(r.cls.isSome, .wrongSlotState), (r.cls == some .frame, .wrongClass)]
    let need := o.input.len.toNat + 8
    let cut := o.input.len.toNat - 8
    (∀ code, s.PassesCommon .protectFrame o → r.deferred = Deferred.none →
      firstFailure (frame ++
        [(r.current.isSome, .wrongSlotState), (!r.current.any fun g => g.expired, .keyExpired),
         (decide (need ≤ o.output.len.toNat), .noRoom),
         (!r.current.any fun g => decide (r.policy.hard < g.ctr.next), .counterSpent)]) = some code →
      ∃ t, exec (.protectFrame lane o) s = .next t ∧ s.EndsAtOnce t lane p Kind.protectFrame.code o code
        (if code = .noRoom then { Res.zero with outLen := need }
        else if code = .keyExpired ∨ code = .counterSpent then
          { Res.zero with genUsed := r.current.elim 0 fun g => g.number }
        else Res.zero)) ∧
    (∀ g, s.PassesCommon .protectFrame o → r.cls = some .frame → r.current = some g → g.expired = false →
      need ≤ o.output.len.toNat → g.ctr.next ≤ r.policy.hard → g.ctr.durCeil ≤ g.ctr.next →
      let k := if g.ctr.reserving then g.ctr else g.ctr.reserve r.policy.hard
      ∃ t x, exec (.protectFrame lane o) s = .next t ∧ s.InFlight t lane p .protectFrame o x ∧ x.wait = .reservation ∧
        x.genNo = g.number ∧ x.wrapKey = g.key ∧ x.taken = false ∧
        t.slot o.slot.toNat = { r with current := some { g with ctr := k } } ∧
        (∀ n, n ≠ o.slot.toNat → t.slot n = s.slot n) ∧ t.tu = s.tu ∧ t.nu = s.nu ∧ t.xu = s.xu ∧ t.wp.ram = s.wp.ram ∧
        (g.ctr.reserving = false → t.holdsRecord (fun q => q.body ==
          .counterMark o.slot.toNat g.number (min (g.ctr.durCeil + 4096) (r.policy.hard + 1)) g.ctr.reqMark) = true)) ∧
    (∀ code, s.PassesCommon .admitFrame o → r.deferred = Deferred.none →
      firstFailure (frame ++
        [((r.find o.gen).isSome, .unknownGeneration),
         (!(r.roleOf o.gen == some .current && (r.find o.gen).any fun g => g.expired), .keyExpired),
         (decide (8 ≤ o.input.len.toNat), .badExtent), (decide (cut ≤ o.output.len.toNat), .noRoom)]) = some code →
      ∃ t, exec (.admitFrame lane o) s = .next t ∧ s.EndsAtOnce t lane p Kind.admitFrame.code o code
        (if code = .noRoom then { Res.zero with outLen := cut } else Res.zero)) ∧
    (∀ code, s.PassesCommon .unlock o → s.tm.lockdown = true →
      let auth := (s.od.plan.bind fun p => p.authority).map s.slot
      firstFailure
        [(decide (o.input.len.toNat = 16), .badExtent),
         (auth.any fun a => a.cls == some .transport && a.current.any fun g => !g.expired, .tokenRejected)] = some code →
      ∃ t, exec (.unlock lane o) s = .next t ∧ s.EndsAtOnce t lane p Kind.unlock.code o code Res.zero)

/-! ## The ends of cipher requests -/

/-- R16, R31, R32, R79: when a WRAP ends, INSTALL_ANCHOR has its key under the storage root and RENEW_LOCAL its blob,
and the order hands its record over. That the integrity value of the blob takes the slot of the order, where R79 and
12.4 name the key and the header, is the model's reading of R33 (assumption 20). The functions of the Cipher Unit
are free, but that it deciphers what it has enciphered (assumption 4). -/
def Obligations.WrapEndHandsTheRecordOver : Prop :=
  ∀ (s : State) (c : Nat) (x : Ctx) (v : Service), s.Serving c x v .wrap →
    ∃ t, exec .wrapEnd s = .next t ∧ t.xu = { s.xu with service := none } ∧
      (∀ label cls pol cl k, x.change = some (.install label cls pol cl k) →
        let ch := Change.install label cls pol cl (Config.wrapRoot x.clearKey)
        t.holdsRecord (s.recordFor c x.order.slot.toNat ch) = true ∧
        s.GoesOn t c { x with wait := .group, clearKey := 0, change := some ch }) ∧
      (x.change = none →
        let wrapping := Config.unwrapRoot x.wrapKey
        let key := Config.unwrapRoot x.newKey
        let blob := Config.blobEncipher wrapping key
        let sum := Config.blobIntegrity wrapping key x.blobHead x.order.slot
        let ch := Change.stage x.genNo x.newKey
        t.holdsRecord (s.recordFor c x.order.slot.toNat ch) = true ∧
        s.GoesOn t c { x with
          wait := .group
          blobKey := blob
          blobSum := sum
          output := blobBytes x.blobHead blob sum
          change := some ch })

/-- R35, R79: when an UNWRAP ends, a blob whose integrity value matches gives the key of a new generation, and any other
completes UNWRAP_FAILED: a blob as a WRAP under the same wrapping key makes it for the slot gives back the key that
was wrapped, and one made so for another slot fails, as R33 has it. That the integrity value takes the slot is the
model's reading of R33 (assumption 20). The functions of the Cipher Unit are free, but that it deciphers what it has
enciphered (assumption 4). -/
def Obligations.UnwrapEndChecksTheBlob : Prop :=
  ∀ (s : State) (c : Nat) (x : Ctx) (v : Service), s.Serving c x v .unwrap →
    let wrapping := Config.unwrapRoot x.wrapKey
    let key := Config.blobDecipher wrapping x.blobKey
    let staged (t : State) (k : Key) : Prop :=
      let ch := Change.stage x.genNo (Config.wrapRoot k)
      t.holdsRecord (s.recordFor c x.order.slot.toNat ch) = true ∧ t.xu = { s.xu with service := none } ∧
      s.GoesOn t c { x with wait := .group, change := some ch }
    let failed (t : State) : Prop := s.EndsPlainly t c x .unwrapFailed Res.zero ∧ t.wp.ram = s.wp.ram
    ∃ t, exec .unwrapEnd s = .next t ∧
      (Config.blobIntegrity wrapping key x.blobHead x.order.slot = x.blobSum → staged t key) ∧
      (Config.blobIntegrity wrapping key x.blobHead x.order.slot ≠ x.blobSum → failed t) ∧
      (∀ (k : Key) (n : Byte), x.blobKey = Config.blobEncipher wrapping k →
        x.blobSum = Config.blobIntegrity wrapping k x.blobHead n →
        (n = x.order.slot → staged t k) ∧ (n ≠ x.order.slot → failed t))

/-- R72, R73, R78: when a PROTECT ends, the ciphertext and its tag are written and the order completes OK, or LOCKED
with nothing written while lockdown is in force. The functions of the Cipher Unit are free, but that it deciphers
what it has enciphered (assumption 4). -/
def Obligations.ProtectEndWritesTheFrame : Prop :=
  ∀ (s : State) (c : Nat) (x : Ctx) (v : Service), s.Serving c x v .protect →
    x.kind = Kind.protectFrame.code → x.taken = true →
    let text := encipher x.wrapKey v.nonce v.input
    let tag := frameTag x.wrapKey v.nonce v.assoc text
    ∃ t, exec .protectEnd s = .next t ∧
      (s.tm.lockdown = true →
        s.EndsPlainly t c x .locked { Res.zero with ctrUsed := x.value, genUsed := x.genNo } ∧ t.wp.ram = s.wp.ram) ∧
      (s.tm.lockdown = false →
        s.EndsPlainly t c x .ok
          { Res.zero with ctrUsed := x.value, genUsed := x.genNo, outLen := v.input.length + 8 } ∧
        t.wp.ram = Ram.writeBytes s.wp.ram x.order.output.addr (text ++ bytesOf tag.toNat 8))

/-- R77, R63, R65, R78: when a VERIFY ends with a tag that matches, and the value needs neither a promotion nor a mark,
the window takes the value and the plaintext is written; a further mark is requested at a distance of 1,024 or less,
and its COUNTER_MARK handed over (R58). The plaintext of a ciphertext that a PROTECT makes under the same key and
nonce is its input. A tag that does not match completes AUTH_FAILED, and lockdown completes LOCKED. The functions of
the Cipher Unit are free, but that it deciphers what it has enciphered (assumption 4). -/
def Obligations.VerifyEndAdmitsTheFrame : Prop :=
  ∀ (s : State) (c : Nat) (x : Ctx) (v : Service) (r : SlotRec) (g : Gen), s.Serving c x v .verify →
    x.kind = Kind.admitFrame.code → x.order.slot.toNat < 64 → s.slot x.order.slot.toNat = r →
    r.deferred = Deferred.none → r.find x.genNo = some g →
    (r.policy.autoConfirm = false ∨ r.roleOf x.genNo ≠ some .staged) → x.value ≤ g.ctr.durMark →
    let n := v.input.length - 8
    let text := v.input.take n
    let tag : BitVec 64 := BitVec.ofNat 64 (ofBytes (v.input.drop n))
    let good := frameTag x.wrapKey v.nonce v.assoc text = tag
    let res : Res := { Res.zero with ctrUsed := x.value, genUsed := x.genNo }
    let k := g.ctr.admitted x.value
    let near := k.durMark - k.top ≤ 1024 ∧ k.marking = false ∧ k.durMark < maxWord
    ∃ t, exec .verifyEnd s = .next t ∧
      (¬good → s.EndsPlainly t c x .authFailed res ∧ t.wp.ram = s.wp.ram) ∧
      (good → s.tm.lockdown = true → s.EndsPlainly t c x .locked res ∧ t.wp.ram = s.wp.ram) ∧
      (good → s.tm.lockdown = false →
        s.OrderEnds t c x .ok { res with outLen := text.length } ∧
        t.wp.ram = Ram.writeBytes s.wp.ram x.order.output.addr (decipher x.wrapKey v.nonce text) ∧
        (∀ body, text = encipher x.wrapKey v.nonce body →
          t.wp.ram = Ram.writeBytes s.wp.ram x.order.output.addr body) ∧
        t.slot x.order.slot.toNat =
          r.updGen x.genNo (fun g => { g with ctr := if near then k.requestMark (markFor k.durMark) else k }) ∧
        (near → t.holdsRecord (fun q => q.body ==
          .counterMark x.order.slot.toNat x.genNo k.ceil (max k.reqMark (markFor k.durMark))) = true) ∧
        (∀ m, m ≠ x.order.slot.toNat → t.slot m = s.slot m) ∧
        t.tu = s.tu ∧ t.nu = (s.countCompletion x.lane).nu ∧ t.xu = { s.xu with service := none })

/-- R31, R82, R83: when a GENERATE ends, a healthy source gives a key, whose WRAP begins service; an unhealthy one is
counted and recorded, and disabled at the third failure in a row. A disabled source fails every order; that the
GENERATE which R83 fails at once stays in service until its GENERATE_END is the model's choice (assumption 8). The
functions of the Cipher Unit are free, but that it deciphers what it has enciphered (assumption 4). -/
def Obligations.GenerateEndTestsTheSource : Prop :=
  ∀ (s : State) (c : Nat) (x : Ctx) (v : Service) (healthy : Bool), s.Serving c x v .generate →
    ∃ t, exec (.generateEnd healthy) s = .next t ∧
      (s.xu.disabled = true → s.EndsPlainly t c x .rngFault Res.zero ∧ t.wp.ram = s.wp.ram) ∧
      (s.xu.disabled = false → healthy = true →
        s.GoesOn t c { x with newKey := Config.drawnKey s.xu.draws, wait := .cipherQueue } ∧
        ∃ w : Service, w.ctx = c ∧ w.op = .wrap ∧
          t.xu = { s.xu with failures := 0, draws := s.xu.draws + 1, service := some w }) ∧
      (s.xu.disabled = false → healthy = false →
        s.OrderEnds t c x .rngFault Res.zero ∧ t.kt = s.kt ∧ t.tu = s.tu ∧ t.wp.ram = s.wp.ram ∧
        t.nu = ((s.giveFault .rngHealth x.lane x.cell).countCompletion x.lane).nu ∧
        t.xu = { s.xu with
          service := none
          failures := s.xu.failures + 1
          disabled := decide (3 ≤ s.xu.failures + 1) })

/-- R84, R149: when a TOKEN_CHECK ends, a token that matches under the challenge of the lockdown still in force hands
the order's record over, and any other completes TOKEN_REJECTED. The functions of the Cipher Unit are free, but that
it deciphers what it has enciphered (assumption 4). -/
def Obligations.TokenCheckEndComparesTheToken : Prop :=
  ∀ (s : State) (c : Nat) (x : Ctx) (v : Service), s.Serving c x v .tokenCheck →
    let good := Config.unlockToken (Config.unwrapRoot x.wrapKey) v.challenge = x.token ∧ s.tm.seq = v.challenge
    ∃ t, exec .tokenCheckEnd s = .next t ∧
      (good → t.holdsRecord (s.recordFor c x.order.slot.toNat .unlock) = true ∧ t.xu = { s.xu with service := none } ∧
        s.GoesOn t c { x with wait := .group, change := some .unlock }) ∧
      (¬good → s.EndsPlainly t c x .tokenRejected Res.zero ∧ t.wp.ram = s.wp.ram)

/-! ## The queue, reset, and what every command keeps -/

/-- A step takes the command at the front of the queue and performs it on the state with the queue's rest; on an empty
queue it advances the engine's clock and changes nothing else, where no start-up is under way. The queue and the clock
are the model's own (assumptions 1 and 2). -/
def Obligations.StepRunsTheFrontCommand : Prop :=
  (∀ (s : State) (c : Instr) (rest : List Instr), s.pending = c :: rest → step s = exec c { s with pending := rest }) ∧
  (∀ s : State, s.pending = [] → (s.wp.inReset ≠ none ∨ s.wp.startAt = none) →
    step s = .next { s with clock := s.clock + 1 })

/-- R132 and the rules it names: what the end of a power-on reset leaves, as the port bus and the lines show it, and
that this state meets the laws of the statements below. State.reset is the end of a first power-on reset (assumption
11). -/
def Obligations.ResetLeavesTheBlockStarting : Prop :=
  let s := State.reset
  s.wp.engine = .starting ∧ s.wp.cause = .power ∧ s.wp.supplySafe = false ∧ s.note = false ∧
  s.busRead 0x8000 = 0xD216 ∧ s.busRead 0x8002 = 0 ∧ s.busRead 0x8008 = 0 ∧
  (∀ a : Half, a.toNat < 0x8000 → s.busRead a = 0) ∧
  s.wp.lastCmd = none ∧ s.wp.lastOutcome = .ok ∧ s.wp.cmdCount = 0 ∧
  s.od.plan = none ∧ (∀ c, s.ctx c = none) ∧ (∀ n, (s.cell n).state = 0) ∧
  (∀ n, (s.slot n).state = .empty) ∧ s.poolFree = 16 ∧
  (∀ n, s.cause n = { enabled := false, group := 0, pending := decide (n = 12), inService := false }) ∧
  s.nu.fault = none ∧ s.xu.service = none ∧ s.xu.queue = [] ∧ s.xu.failures = 0 ∧ s.xu.disabled = false ∧
  s.ju.hot = false ∧ s.ju.wasHot = false ∧ s.ramCanonical ∧ s.causesSettled ∧ s.listKept ∧ s.countersLawful

/-- Every command answers a next state, and leaves the commands that wait as they stand. -/
def Obligations.EveryCommandAnswersANextState : Prop :=
  ∀ (c : Instr) (s : State), ∃ t, exec c s = .next t ∧ t.pending = s.pending

/-- Every step keeps the window RAM in its canonical form: addresses rising, no zero byte listed. -/
def Obligations.StepKeepsTheRamCanonical : Prop :=
  ∀ s t : State, s.ramCanonical → step s = .next t → t.ramCanonical

/-- R179, R180: after every step no cause is PENDING and enabled without being INSERVICE, if none was before. -/
def Obligations.StepKeepsTheCausesSettled : Prop :=
  ∀ s t : State, s.causesSettled → step s = .next t → t.causesSettled

/-- R94, R95: every step keeps the deadline list in its order, with at most one entry of each slot and kind. -/
def Obligations.StepKeepsTheDeadlineList : Prop :=
  ∀ s t : State, s.listKept → step s = .next t → t.listKept

/-- R53, R61: every step keeps the counters of every generation of every FRAME slot in their order: no value handed out
lies at or above the durable ceiling, which is at most the ceiling and H + 1, and no value admitted lies above the
durable mark, which is at most the requested mark. That the requested mark never stands below the durable one is the
model's reading (assumption 29). -/
def Obligations.StepKeepsTheCounterLaw : Prop :=
  ∀ s t : State, s.countersLawful → step s = .next t → t.countersLawful

/-! ## The port bus -/

/-- R157: START in STOPPED with a plan applied enters RUNNING, puts every enabled lane's cursor at its first cell and its
credits at its weight, and starts the scan timer; with no cell POSTED there, each lane is looked at and no longer wanted
(R163). -/
def Obligations.StartEntersRunning : Prop :=
  ∀ (s : State) (p : Plan), s.afterStartUp → s.wp.engine = .stopped → s.od.plan = some p → (∀ c, s.ctx c = none) →
    (∀ n l, s.planLane n = some l → (s.cell l.first).state ≠ 1) →
    ∃ t, exec .start s = .next t ∧
      (∀ n l, s.planLane n = some l → t.lane n =
        { cursor := l.first, scanWanted := false, credits := l.weight, done := (s.lane n).done }) ∧
      (∀ n, s.planLane n = none → t.lane n = s.lane n) ∧
      State.TakenUp
        { s with
          wp := { s.wp with
            engine := .running, lastCmd := some .start, lastOutcome := .ok, lastOffset := 0
            cmdCount := s.wp.cmdCount + 1 }
          od := { s.od with lanes := t.od.lanes, scanTimer := if p.scanPeriod = 0 then none else some s.clock }
          nu := (s.raise bitEngine).nu } t

/-- R154, R155, R157, R158: the port commands that the engine state, the want of a plan or a bad plan block turns away, and
STOP in STOPPED: nothing changes but the last port result and the command count. -/
def Obligations.PortCommandsTurnedAwayChangeOnlyTheResult : Prop :=
  ∀ s : State, s.windowClosed = false →
    let result (c : PortCommand) (o : PortOutcome) (off : Nat) : State :=
      { s with wp := { s.wp with lastCmd := some c, lastOutcome := o, lastOffset := off, cmdCount := s.wp.cmdCount + 1 } }
    (s.wp.engine ≠ .stopped → exec .start s = .next (result .start .wrongState 0)) ∧
    (s.wp.engine = .stopped → s.od.plan = none → exec .start s = .next (result .start .noPlan 0)) ∧
    (s.wp.engine = .stopped → exec .stop s = .next (result .stop .ok 0)) ∧
    (s.wp.engine ≠ .stopped → s.wp.engine ≠ .running → exec .stop s = .next (result .stop .wrongState 0)) ∧
    (s.wp.engine ≠ .stopped → exec .applyPlan s = .next (result .applyPlan .wrongState 0)) ∧
    (∀ off, s.wp.engine = .stopped → planFault s.wp.ram = some off →
      exec .applyPlan s = .next (result .applyPlan .planInvalid off))

/-- R158, R128, R183: STOP in RUNNING with no order in flight passes through STOPPING to STOPPED; with one order, which waits
for a cipher request, that order completes ABORTED first. The lane notices and coalescing are cleared, and the request in
service is abandoned (R81). Whether the health test of an abandoned GENERATE had ended, and what it found, is a free
value (assumption 4); one that had ended is counted (R82). With no order in flight the engine passes through STOPPING in
the step of the STOP (R158), so its two changes of state are events of ENGINE that come together, and leave it as one does
(R159, R179); with one, it leaves STOPPING in a later step, as that order completes, and ENGINE has a second event of its
own. Which events come together is the model's reading (assumption 32). -/
def Obligations.StopEndsTheOrderInFlight : Prop :=
  (∀ s : State, s.afterStartUp → s.wp.engine = .running → (∀ n, (s.lane n).scanWanted = false) →
    let k := State.abandon { s with nu := (s.raise bitEngine).clearLaneNotices.nu }
    let u (n : Nu) : State :=
      { s with
        wp := { s.wp with
          engine := .stopped, lastCmd := some .stop, lastOutcome := .ok, lastOffset := 0, cmdCount := s.wp.cmdCount + 1 }
        od := { s.od with scanTimer := none }
        xu := { k.xu with queue := [] }
        nu := n }
    let later := u (k.raise bitEngine).nu
    ∃ t, exec .stop s = .next t ∧
      ((∀ c, s.ctx c = none) → (u k.nu).TakenUp t) ∧
      (∀ c x, s.Plain c x → (∀ d, d ≠ c → s.ctx d = none) → x.wait = .cipherQueue → s.finishing c = false →
        later.OrderEnds t c x .aborted (x.endRes .aborted) ∧ t.kt = later.kt ∧ t.tu = later.tu ∧ t.xu = later.xu ∧
        t.nu = later.nu ∧ t.wp.ram = later.wp.ram)) ∧
  (∀ s : State, s.xu.service = none → s.abandon = s) ∧
  (∀ (s : State) (v : Service) (x : Ctx), s.xu.service = some v → s.ctx v.ctx = some x →
    (v.op ≠ .generate ∨ s.xu.disabled = true → s.abandon = { s with xu := { s.xu with service := none } }) ∧
    (v.op = .generate → s.xu.disabled = false →
      let cut := { s.xu with service := none, cuts := s.xu.cuts + 1 }
      let bad := { cut with failures := s.xu.failures + 1, disabled := decide (3 ≤ s.xu.failures + 1) }
      s.abandon =
        match Config.testEnded s.xu.cuts with
        | none => { s with xu := cut }
        | some true => { s with xu := { cut with failures := 0, draws := s.xu.draws + 1 } }
        | some false => { s with xu := bad, nu := (s.giveFault .rngHealth x.lane x.cell).nu }))

/-- R155, R156, R167, R181, R183: APPLY_PLAN in STOPPED with a plan block that passes the checks applies it: the lanes'
credits, the causes' enables and groups, and the coalescing follow. No tamper filter runs. The fields of a plan that
passes the checks are in range, with no cell in two lanes. -/
def Obligations.ApplyPlanTakesThePlanBlock : Prop :=
  (∀ s : State, s.afterStartUp → s.wp.engine = .stopped → planFault s.wp.ram = none →
    s.tm.cover.timer = none → s.tm.field.timer = none →
    ∃ t, exec .applyPlan s = .next t ∧
      (∀ n l, t.planLane n = some l → t.lane n = { s.lane n with credits := l.weight }) ∧
      (∀ n, t.planLane n = none → t.lane n = s.lane n) ∧
      (∀ n, n < 13 → t.cause n = (s.cause n).apply (causeEnable s.wp.ram n) (causeGroup s.wp.ram n)) ∧
      (∀ n, t.coalescing n = ⟨0, none⟩) ∧
      t.nu = { s.nu with causes := t.nu.causes, lanes := t.nu.lanes } ∧
      State.TakenUp
        { s with
          wp := { s.wp with
            lastCmd := some .applyPlan, lastOutcome := .ok, lastOffset := 0, cmdCount := s.wp.cmdCount + 1 }
          od := { s.od with plan := some (planOf s.wp.ram), lanes := t.od.lanes }
          nu := t.nu } t) ∧
  (∀ ram : List Host.Cell, planFault ram = none →
    let p := planOf ram
    (∃ (n : Nat) (l : PlanLane), p.lanes[n]? = some l ∧ l.enabled = true) ∧
    (∀ (n : Nat) (l : PlanLane), p.lanes[n]? = some l → l.enabled = true →
      2 ≤ l.count ∧ l.first + l.count ≤ 128 ∧ 1 ≤ l.weight ∧ l.weight ≤ 8 ∧ 1 ≤ l.budget ∧ l.budget ≤ 255 ∧
      1 ≤ l.threshold ∧ l.threshold ≤ 64 ∧ l.threshold ≤ l.count ∧ l.delay ≤ 255) ∧
    (∀ (n m : Nat) (k l : PlanLane), n ≠ m → p.lanes[n]? = some k → p.lanes[m]? = some l → k.enabled = true → l.enabled = true →
      k.first + k.count ≤ l.first ∨ l.first + l.count ≤ k.first) ∧
    p.scanPeriod ≤ 255 ∧ p.tempOffset ≤ 80 ∧ p.hysteresis ≤ 30 ∧ (∀ a, p.authority = some a → a < 64) ∧
    1 ≤ p.coverFilter ∧ p.coverFilter ≤ 255 ∧ 1 ≤ p.fieldFilter ∧ p.fieldFilter ≤ 255)

/-- R160, R185: CLEAR_FAULT ends OK in every engine state; it empties the fault record and clears the was-hot flag, and
changes nothing else. -/
def Obligations.ClearFaultEmptiesTheRecord : Prop :=
  ∀ s : State, s.windowClosed = false →
    exec .clearFault s = .next
      { s with
        wp := { s.wp with
          lastCmd := some .clearFault, lastOutcome := .ok, lastOffset := 0, cmdCount := s.wp.cmdCount + 1 }
        nu := { s.nu with fault := none, laterFaults := 0, highest := 0 }
        ju := { s.ju with wasHot := false } }

/-- R163, R164: with every context busy, a NUDGE sets the scan-wanted flags of the enabled lanes it names, and the expiry of
the scan period those of all enabled lanes and restarts the timer; the look that follows clears the flag of a lane whose
cursor cell is not POSTED. That a nudge is followed by a look at every wanted lane, those that it does not name among
them, so that their flags too may be cleared, is the model's choice (assumption 28). An order command is the marking of
the cell at the post position POSTED and a nudge of the lane (procedure 9.6), which is the model's choice too
(assumption 3). -/
def Obligations.NudgeAndScanPeriodWantTheLanes : Prop :=
  (∀ (s : State) (v : Half), s.afterStartUp → s.wp.engine = .running → (∀ c, c < 4 → s.ctx c ≠ none) →
    s.readySync = none →
    (∃ t, exec (.nudge v) s = .next t ∧
      (∀ n, s.planLane n ≠ none → t.lane n = { s.lane n with
        scanWanted := ((s.lane n).scanWanted || v.getLsbD n) && decide ((s.cell (s.lane n).cursor).state = 1) }) ∧
      (∀ n, s.planLane n = none → t.lane n = s.lane n) ∧
      State.TakenUp { s with od := { s.od with lanes := t.od.lanes } } t) ∧
    (s.od.scanTimer ≠ none → ∃ t, exec .scanPeriodExpiry s = .next t ∧
      (∀ n, s.planLane n ≠ none → t.lane n = { s.lane n with
        scanWanted := decide ((s.cell (s.lane n).cursor).state = 1) }) ∧
      (∀ n, s.planLane n = none → t.lane n = s.lane n) ∧
      State.TakenUp { s with od := { s.od with lanes := t.od.lanes, scanTimer := some s.clock } } t)) ∧
  (∀ (s : State) (k : Kind) (lane n : Nat) (p : PlanLane) (o : OrderFields), s.afterStartUp →
    s.planLane lane = some p → s.postCell lane p = some n →
    exec (k.command lane o) s =
      exec (.nudge (BitVec.ofNat 16 (2 ^ lane)))
        (s.setCell n { s.cell n with state := 1, kind := k.code, order := o }))

/-- R180: an acknowledgement clears INSERVICE in the causes of its group, and those that are PENDING and enabled fire
again; nothing else changes. -/
def Obligations.AcknowledgeReleasesTheGroup : Prop :=
  ∀ (s : State) (v : Half), s.wp.inReset = none → v.toNat ≤ 7 →
    ∃ t, exec (.noticeAcknowledge v) s = .next t ∧
      (∀ n, (s.cause n).group ≠ v.toNat → t.cause n = s.cause n) ∧
      (∀ n, n < 13 → (s.cause n).group = v.toNat →
        t.cause n = { s.cause n with
          pending := (s.cause n).pending && !(s.cause n).enabled
          inService := (s.cause n).pending && (s.cause n).enabled }) ∧
      t = { s with nu := { s.nu with causes := t.nu.causes } }

/-- R151, R153: a processor write of a word in the plan block, the cells or the data area is read back and touches no other
word; one anywhere else that is no command of the block is dropped. -/
def Obligations.BusWritesAreStoredOrDropped : Prop :=
  ∀ (s : State) (a v : Half), s.ramCanonical → s.windowClosed = false →
    let w := wordAddr a
    (w < 0x0200 ∨ (0x0400 ≤ w ∧ w < 0x8000) →
      ∃ t, exec (.registerWriteIgnored a v) s = .next t ∧ t.busRead a = v ∧
        (∀ b : Half, wordAddr b ≠ w → t.busRead b = s.busRead b) ∧
        t = { s with wp := { s.wp with ram := t.wp.ram, cells := t.wp.cells } }) ∧
    ((0x0200 ≤ w ∧ w < 0x0400) ∨ (0x8000 ≤ w ∧ isCommandWrite a v = false) →
      exec (.registerWriteIgnored a v) s = .next s)

/-! ## The array -/

/-- R111: a unit that verifies, of a step with units left, is programmed, and the next one begins; no more is done but that
an erase may begin. -/
def Obligations.UnitThatVerifiesIsFollowedByTheNext : Prop :=
  ∀ (s : State) (st : Step) (w : UnitWord) (rest : List UnitWord) (rb : Option NvUnit), s.wp.startAt = none →
    s.ju.step = some st → st.units = w :: rest → rest ≠ [] → rb = none ∨ rb = some (.good w) →
    ∃ t, exec (.unitProgrammed rb) s = .next t ∧
      (∀ n, unitAt (t.units st.bank) n = if n = st.at_ then .good w else unitAt (s.units st.bank) n) ∧
      t.units st.bank.other = s.units st.bank.other ∧
      t = { s with ju := { s.ju with
        unitsA := t.ju.unitsA, unitsB := t.ju.unitsB, erasing := t.ju.erasing
        step := some { st with at_ := st.at_ + 1, units := rest } } }

/-- R105, R119, R120, R184: a unit of a group that does not read back as written makes the bank take no more units and a
compaction due, and the group waits to be programmed again; a second failure is NV_FATAL and the engine enters FAILED. A
unit that reads only after a correction is NV_CORRECTED too; where it gives both faults, the two events of FAULT come
together, and leave it as one does (R179; that the verification gives both in one step is assumption 32). -/
def Obligations.UnitThatFailsAbandonsTheBank : Prop :=
  ∀ (s : State) (g : Group) (bk : Bank) (at_ : Nat) (w : UnitWord) (rest : List UnitWord) (got : NvUnit), s.Settled →
    s.ju.step = some ⟨.group g, bk, at_, w :: rest⟩ → s.ju.comp = none → got ≠ .good w →
    let u : State :=
      { s.setUnits bk (setUnit (s.units bk) at_ got) with
        nu := match got with
          | .corrected _ => (s.giveFault .nvCorrected bk.code at_).nu
          | _ => s.nu }
    ∃ t, exec (.unitProgrammed (some got)) s = .next t ∧
      (g.retry = false → s.ju.failed = none →
        State.TakenUp { u with ju := { u.ju with next := 1024 } } t ∧ t.ju.failed = some g ∧
        (t.ju.due = true ∨ t.ju.activity = .compacting)) ∧
      (g.retry = true ∨ s.ju.failed ≠ none → (∀ c, s.ctx c = none) →
        t = { u with
          wp := { s.wp with
            engine := .failed, served := decide (s.wp.engine = .running)
            supplySafe := s.wp.supplySafe || s.wp.supplyWarn }
          od := { s.od with scanTimer := if s.wp.engine = .running then s.od.scanTimer else none }
          nu := { (u.giveFault .nvFatal bk.code at_).nu with causes := ((s.raise bitFault).raise bitEngine).nu.causes }
          ju := { u.ju with
            activity := .idle, erasing := none, waiting := [], step := none, failed := none, tamper := none
            emptyLeft := [], due := false } })

/-- R13, R15 to R22, R40, R41, R43, R44, R59, R112: the commit of a group that holds the SLOT_IMAGE of one order: the
counters that the image carries become durable, the slot takes the change, the orphaned flags and the deadline list
follow, and the order completes OK; a promoting ADMIT_FRAME completes LOCKED, with its promotion made, where lockdown is
in force (R78), and a SET_POLICY is CLAMPED where H is brought up, and raises COUNTER_LOW where its soft limit has been
reached (R19). That the change is applied again at the commit, to the slot as it then stands, is the model's reading
(assumption 7), and so is the requested mark that a promoting ADMIT_FRAME whose value lies above I raises with the durable
one (assumption 29). Groups of several records, and a commit whose deadlines are due already, are left out. -/
def Obligations.GroupCommitAppliesTheChange : Prop :=
  ∀ (s : State) (c : Nat) (x : Ctx) (g : Group) (bk : Bank) (at_ : Nat) (w : UnitWord) (r : Rec) (img : SlotRec)
    (ch : Change), s.Settled → s.wp.engine = .running → s.Plain c x →
    s.ju.step = some ⟨.group g, bk, at_, [w]⟩ → g.recs = [r] → r.owner = .order c →
    x.held = some x.order.slot.toNat → x.order.slot.toNat < 64 → r.body = .image x.order.slot.toNat img →
    x.change = some ch → ch ≠ .unlock → x.wait = .group →
    (∀ d y, s.ctx d = some y → y.wait ≠ .reservation ∧ y.wait ≠ .mark) →
    let slot := x.order.slot.toNat
    let base := (s.slot slot).madeDurable slot r.body
    let r' := ch.apply r.time base
    let l := listAfter slot r' ch s.tu.deadlines
    let kt (n : Nat) : SlotRec := if n = slot then r' else s.slot n
    let locked := ch.admits && s.tm.lockdown
    let res := committedRes x (ch.clampedAt base)
    let u := State.setUnits
      { s with ju := { s.ju with lastSeq := g.seq, used := s.ju.used + 5, next := s.ju.next + 5 } } bk
      (setUnit (s.units bk) at_ (.good w))
    (∀ d ∈ l, s.tu.now < d.due) →
    ∃ t, exec .groupCommit s = .next t ∧
      u.OrderEnds t c x (if locked then .locked else .ok) (if locked then { res with outLen := 0 } else res) ∧
      (∀ n, n < 64 → t.slot n = (kt n).orphanedBy kt) ∧ t.tu = { s.tu with deadlines := l } ∧
      t.nu = ((if ch.lowAt base then s.raise bitCounterLow else s).countCompletion x.lane).nu ∧ t.xu = s.xu ∧
      t.wp.ram = if locked then s.wp.ram else Ram.writeBytes s.wp.ram x.order.output.addr x.output

/-- R149: the commit of the note of an UNLOCK ends lockdown where the challenge is still that of the lockdown in force, and
else the order completes TOKEN_REJECTED. -/
def Obligations.GroupCommitOfUnlockEndsLockdown : Prop :=
  ∀ (s : State) (c : Nat) (x : Ctx) (g : Group) (bk : Bank) (at_ : Nat) (w : UnitWord) (r : Rec) (i : Option TamperInput)
    (a : Option TamperAction) (f : Bool) (tm : Nat) (q : Word), s.Settled → s.wp.engine = .running → s.Plain c x →
    s.ju.step = some ⟨.group g, bk, at_, [w]⟩ → g.recs = [r] → r.owner = .unlock c → r.body = .note i a f tm q →
    x.held = none → x.change = some .unlock → x.wait = .group →
    (∀ d y, s.ctx d = some y → y.wait ≠ .reservation ∧ y.wait ≠ .mark) →
    let good := s.tm.seq = x.challenge
    let u := State.setUnits
      { s with
        ju := { s.ju with lastSeq := g.seq, used := s.ju.used + 2, next := s.ju.next + 2 }
        tm := { s.tm with lockdown := if good then false else s.tm.lockdown } } bk
      (setUnit (s.units bk) at_ (.good w))
    ∃ t, exec .groupCommit s = .next t ∧
      u.OrderEnds t c x (if good then .ok else .tokenRejected) Res.zero ∧
      t.kt = s.kt ∧ t.tu = s.tu ∧ t.nu = (s.countCompletion x.lane).nu ∧ t.xu = s.xu ∧
      t.wp.ram = if good then Ram.writeBytes s.wp.ram x.order.output.addr x.output else s.wp.ram

/-- R52, R55, R56, R58, R59, R63 to R65, R77: the commit of a group that no order placed, of COUNTER_MARKs and other
records: the counters that each record carries become durable, and nothing else changes where no order waits for a
reservation or a mark. The one order that waits goes on where the group's COUNTER_MARK satisfies it: a PROTECT_FRAME
under a CURRENT generation with a value left places its request, which takes the next value at once in an idle Cipher
Unit; an ADMIT_FRAME whose value the durable mark has reached is admitted, or completes LOCKED under lockdown. -/
def Obligations.CounterMarkCommitRaisesTheDurableValues : Prop :=
  ∀ (s : State) (g : Group) (bk : Bank) (at_ : Nat) (w : UnitWord), s.Settled → s.wp.engine = .running →
    s.ju.step = some ⟨.group g, bk, at_, [w]⟩ → (∀ r ∈ g.recs, ∀ c, r.owner ≠ .order c ∧ r.owner ≠ .unlock c) →
    let n := groupSize g.recs + 1
    let kt (m : Nat) : SlotRec := g.recs.foldl (fun q r => q.madeDurable m r.body) (s.slot m)
    let u := State.setUnits
      { s with ju := { s.ju with lastSeq := g.seq, used := s.ju.used + n, next := s.ju.next + n } } bk
      (setUnit (s.units bk) at_ (.good w))
    let waits (y : Ctx) : Prop := y.wait = .reservation ∨ y.wait = .mark
    ∃ t b : State, exec .groupCommit s = .next t ∧ b = { u with kt := b.kt } ∧ (∀ m, b.slot m = kt m) ∧
      ((∀ d y, s.ctx d = some y → ¬waits y) → b.TakenUp t) ∧
      (∀ (c : Nat) (x : Ctx) (r : Rec) (gen : Half) (ceiling mark : Nat) (k : Gen),
        let slot := x.order.slot.toNat
        s.Plain c x → waits x → (∀ d y, d ≠ c → s.ctx d = some y → ¬waits y) → x.late = false →
        g.recs = [r] → r.body = .counterMark slot gen ceiling mark → x.genNo = gen → slot < 64 →
        (x.wait = .reservation → (kt slot).current = some k → k.number = gen → k.ctr.next ≤ (kt slot).policy.hard →
          k.ctr.next < k.ctr.durCeil →
          (s.xu.service ≠ none →
            b.GoesOn t c { x with wait := .cipherQueue } ∧
            t.xu = { s.xu with queue := s.xu.queue ++ [⟨c, .protect⟩] }) ∧
          (s.cipherIdle →
            ∃ v : Service, v.ctx = c ∧ v.op = .protect ∧ v.assoc = s.readExtent x.order.assoc ∧
              v.input = s.readExtent x.order.input ∧ v.nonce = frameNonce Config.serial gen k.ctr.next ∧
              t.xu = { s.xu with service := some v } ∧ b.TakesNext t slot (kt slot) k ∧
              State.GoesOn { b with kt := t.kt, tu := t.tu, nu := t.nu } t c
                { x with wait := .cipherQueue, value := k.ctr.next, taken := true })) ∧
        (x.wait = .mark → x.kind = Kind.admitFrame.code → (kt slot).find gen = some k → x.value ≤ k.ctr.durMark →
          let res : Res := { Res.zero with ctrUsed := x.value, genUsed := gen }
          let a := k.ctr.admitted x.value
          let near := a.durMark - a.top ≤ 1024 ∧ a.marking = false ∧ a.durMark < maxWord
          (s.tm.lockdown = true → b.OrderEnds t c x .locked res ∧ t.kt = b.kt ∧ t.wp.ram = s.wp.ram) ∧
          (s.tm.lockdown = false →
            b.OrderEnds t c x .ok { res with outLen := x.output.length } ∧
            t.wp.ram = Ram.writeBytes s.wp.ram x.order.output.addr x.output ∧
            t.slot slot =
              (kt slot).updGen gen (fun g => { g with ctr := if near then a.requestMark (markFor a.durMark) else a }) ∧
            (near → t.holdsRecord (fun q => q.body ==
              .counterMark slot gen a.ceil (max a.reqMark (markFor a.durMark))) = true) ∧
            (∀ m, m ≠ slot → t.slot m = kt m)) ∧
          t.tu = s.tu ∧ t.nu = (s.countCompletion x.lane).nu ∧ t.xu = s.xu))

/-- R59, R117: the commit of a base makes the target current under its epoch and the old bank SPENT, and the counters of
the images it holds durable; no order waits for a reservation or a mark. -/
def Obligations.BaseCommitMakesTheTargetCurrent : Prop :=
  ∀ (s : State) (cp : Compaction) (old : Bank) (at_ : Nat) (w : UnitWord), s.Settled →
    s.ju.step = some ⟨.compaction, cp.target, at_, [w]⟩ → s.ju.comp = some cp → cp.step = .groupEnd →
    s.ju.current = some old → (∀ d y, s.ctx d = some y → y.wait ≠ .reservation ∧ y.wait ≠ .mark) →
    (∀ r ∈ cp.images, ∀ c, r.owner ≠ .order c ∧ r.owner ≠ .unlock c) →
    let v := s.setUnits cp.target (setUnit (s.units cp.target) at_ (.good w))
    let u := State.setBankState
      { v with ju := { v.ju with
        current := some cp.target, epoch := cp.epoch, used := cp.at_ - 1, next := cp.at_
        lastSeq := s.ju.lastSeq + 1 } } old .spent
    ∃ t, exec .baseCommit s = .next t ∧
      (∀ m, t.slot m = cp.images.foldl (fun q r => q.madeDurable m r.body) (s.slot m)) ∧
      State.TakenUp { u with kt := t.kt } t

/-- R105, R118, R120: the end of an erase leaves the bank ERASED; a unit that does not read as erased is NV_FATAL. -/
def Obligations.EraseEndLeavesTheBankErased : Prop :=
  ∀ (s : State) (bk : Bank) (bad : Option Nat), s.Settled → s.ju.erasing = some bk →
    ∃ t, exec (.bankEraseEnd bad) s = .next t ∧
      (bad = none → t.units bk = [] ∧ t.bankState bk = .erased ∧
        State.TakenUp
          { s with ju := { s.ju with
            unitsA := t.ju.unitsA, unitsB := t.ju.unitsB, stateA := t.ju.stateA, stateB := t.ju.stateB } } t ∧
        t.units bk.other = s.units bk.other ∧ t.bankState bk.other = s.bankState bk.other) ∧
      (∀ n, bad = some n → s.ju.comp = none → (∀ c, s.ctx c = none) →
        t = { s with
          wp := { s.wp with
            engine := .failed, served := decide (s.wp.engine = .running)
            supplySafe := s.wp.supplySafe || s.wp.supplyWarn }
          od := { s.od with scanTimer := if s.wp.engine = .running then s.od.scanTimer else none }
          nu := ((s.giveFault .nvFatal bk.code n).raise bitEngine).nu
          ju := { s.ju with
            activity := .idle, erasing := none, waiting := [], step := none, failed := none, tamper := none
            emptyLeft := [], due := false } })

/-- R114, R156: a reading at or above the limit makes an OPEN gate HOT and raises STORE_HOT; one below the limit less the
hysteresis makes a HOT gate OPEN; any other leaves it. The limit is 70.0 °C and half a degree for each step of the plan's
offset, or 105.0 °C while no plan is applied. -/
def Obligations.TemperatureReadingDecidesTheGate : Prop :=
  ∀ (s : State) (milli : Int), s.Settled →
    let limit : Int := match s.od.plan with | none => 105000 | some p => 70000 + 500 * p.tempOffset
    let below : Int := match s.od.plan with | none => 5000 | some p => 500 * p.hysteresis
    ∃ t, exec (.temperatureReading milli) s = .next t ∧
      State.TakenUp
        (if s.ju.hot = false ∧ limit ≤ milli then
          { s with ju := { s.ju with hot := true, wasHot := true }, nu := (s.raise bitStoreHot).nu }
        else if s.ju.hot = true ∧ milli < limit - below then { s with ju := { s.ju with hot := false } }
        else s) t

/-! ## Time -/

/-- R88 to R91, R101: a TICK edge and a second of the internal source each count one second of meter time, and the loss of
TICK two, saturating; the loss enters FALLBACK and an edge leaves it, each with a TIME notice; a second that begins an
hour of meter time hands a TIME_MARK over (but in FAILED); nothing counts while meter time is not kept. No deadline falls
due. -/
def Obligations.SecondsAreCounted : Prop :=
  ∀ s : State, s.Settled → s.noneDue (s.tu.now + 2) → s.tu.now ≤ maxWord →
    let marked (t : State) (n : Nat) : Prop :=
      ∀ m, s.tu.now < m → m ≤ min (s.tu.now + n) maxWord → m % 3600 = 0 → s.wp.engine ≠ .failed →
        t.holdsRecord (fun q => q.body == .timeMark m) = true
    (s.tu.kept = false → exec .tickEdge s = .next s ∧ exec .tickLossTimeout s = .next s ∧
      exec .internalSecond s = .next s) ∧
    (s.tu.kept = true → ∃ t, exec .tickEdge s = .next t ∧ marked t 1 ∧
      State.TakenUp
        { s with
          tu := { s.tu with
            now := min (s.tu.now + 1) maxWord, lossStart := some s.clock, internalStart := none, fallback := false
            reason := if s.tu.fallback then .tickBack else s.tu.reason }
          nu := (if s.tu.fallback then s.raise bitTime else s).nu } t) ∧
    (s.tu.kept = true → s.tu.fallback = false → ∃ t, exec .tickLossTimeout s = .next t ∧ marked t 2 ∧
      State.TakenUp
        { s with
          tu := { s.tu with
            now := min (s.tu.now + 2) maxWord, lossStart := none, internalStart := some s.clock, fallback := true
            reason := .tickLost }
          nu := (s.raise bitTime).nu } t) ∧
    (s.tu.kept = true → s.tu.fallback = true → ∃ t, exec .internalSecond s = .next t ∧ marked t 1 ∧
      State.TakenUp { s with tu := { s.tu with now := min (s.tu.now + 1) maxWord } } t)

/-- R96 to R99: the one deadline that a second makes due acts on its slot, raises its notice and hands a SLOT_IMAGE of the
slot over, or goes into the deferred set of a slot that an order holds. -/
def Obligations.DeadlineActsWhenItFallsDue : Prop :=
  ∀ (s : State) (d : Deadline) (rest : List Deadline), s.Settled → s.wp.engine = .running → s.wp.ended = true →
    s.tu.kept = true → s.tu.fallback = true → s.tu.now < maxWord → s.tu.deadlines = d :: rest →
    d.due = s.tu.now + 1 → (∀ e ∈ rest, d.due < e.due) → d.slot < 64 →
    let r := s.slot d.slot
    let image (t : State) : Prop := t.holdsRecord (Rec.isActionImage d.slot (t.slot d.slot)) = true
    ∃ t, exec .internalSecond s = .next t ∧
      (∀ n, n ≠ d.slot → t.slot n = s.slot n) ∧
      (s.holder d.slot ≠ none → t.slot d.slot = { r with deferred := r.deferred.set d.kind true } ∧ t.nu = s.nu) ∧
      (s.holder d.slot = none → d.kind = .confirm → r.staged ≠ none →
        t.slot d.slot = { r with staged := none } ∧ t.nu = (s.raise bitRenewFailed).nu ∧ image t) ∧
      (s.holder d.slot = none → d.kind = .grace → r.outgoing ≠ none →
        t.slot d.slot = { r with outgoing := none } ∧ t.nu = s.nu ∧ image t) ∧
      (∀ g, s.holder d.slot = none → d.kind = .expire → r.current = some g → g.expired = false →
        t.slot d.slot = { r with current := some { g with expired := true } } ∧
          t.nu = (s.raise bitKeyExpired).nu ∧ image t) ∧
      (s.holder d.slot = none → d.kind = .renew → r.current ≠ none → r.renewDue = false →
        t.slot d.slot = { r with renewDue := true } ∧ t.nu = (s.raise bitRenewDue).nu ∧ image t) ∧
      State.TakenUp
        { s with
          tu := { s.tu with now := s.tu.now + 1, deadlines := rest }
          kt := t.kt
          nu := t.nu } t

/-- R172, R173: the budget of an order that runs out withdraws it TIMED_OUT where it waits for a cipher service, a
reservation, a mark or its group; elsewhere the order is only marked late; and it does nothing where the budget no longer
applies. -/
def Obligations.BudgetExpiryWithdrawsTheOrder : Prop :=
  ∀ (s : State) (c : Nat) (x : Ctx), s.ctx c = some x →
    (s.Settled → s.wp.engine = .running → s.Plain c x → x.budgetApplies = true → x.late = false →
      (x.wait = .cipherQueue ∧ s.inService c = false) ∨ x.wait = .group ∨ x.wait = .reservation ∨ x.wait = .mark →
      ∃ t, exec (.budgetExpiry c) s = .next t ∧ s.OrderEnds t c x .timedOut (x.endRes .timedOut) ∧
        t.kt = s.kt ∧ t.tu = s.tu ∧
        t.nu = ((if s.inService c then s.abandon else s).countCompletion x.lane).nu ∧ t.wp.ram = s.wp.ram ∧
        t.xu.queue = s.xu.queue.filter (fun q => q.ctx ≠ c)) ∧
    (x.budgetApplies = true → x.late = false →
      (x.wait = .cipherQueue ∧ s.inService c = true) ∨ x.wait = .none ∨ x.wait = .predecessors →
      exec (.budgetExpiry c) s = .next (s.setCtx c (some { x with late := true }))) ∧
    (x.budgetApplies = false ∨ x.late = true → exec (.budgetExpiry c) s = .next s)

/-- R182: the end of a coalescing delay raises LANE_DONE of the lane, which fires where it is enabled and not in service,
and puts the count back to 0. -/
def Obligations.CoalescingDelayRaisesLaneDone : Prop :=
  ∀ (s : State) (lane : Nat), (s.coalescing lane).timer ≠ none →
    let k := s.cause lane
    let fires := k.enabled && !k.inService
    ∃ t, exec (.coalescingDelayExpiry lane) s = .next t ∧
      t.cause lane = { k with pending := !fires, inService := k.inService || fires } ∧
      t.coalescing lane = ⟨0, none⟩ ∧ (∀ n, n ≠ lane → t.cause n = s.cause n ∧ t.coalescing n = s.coalescing n) ∧
      t = { s with nu := { s.nu with causes := t.nu.causes, lanes := t.nu.lanes } }

/-! ## Supply, reset, tamper -/

/-- R126 to R129, R131, R183: with no order in flight, SUPPLY_WARN takes the block to HOLDOVER, with its safe point at once
where no unit is being programmed; its negation takes the block back to STOPPED. In FAILED the supply is safe at
once. The request in service is abandoned, as the statement of STOP says (R81; assumption 4). -/
def Obligations.SupplyWarnHoldsAndReleases : Prop :=
  ∀ s : State, s.afterStartUp → (∀ c, s.ctx c = none) →
    (s.wp.supplyWarn = false → s.wp.engine = .stopped ∨ s.wp.engine = .running →
      let note := if s.wp.engine = .running then (s.raise bitEngine).clearLaneNotices else s.raise bitEngine
      let k := State.abandon { s with nu := note.nu }
      exec .supplyWarnAsserted s = .next
        { s with
          wp := { s.wp with
            supplyWarn := true, held := s.wp.engine, engine := .holdover
            supplySafe := s.wp.supplySafe || s.ju.step.isNone }
          ju := { s.ju with erasing := none }
          xu := { k.xu with queue := [] }
          nu := k.nu }) ∧
    (s.wp.supplyWarn = false → s.wp.engine = .failed →
      exec .supplyWarnAsserted s = .next { s with wp := { s.wp with supplyWarn := true, supplySafe := true } }) ∧
    (s.wp.supplyWarn = true → s.wp.engine = .holdover → s.wp.held ≠ .starting →
      ∃ t, exec .supplyWarnNegated s = .next t ∧
        State.TakenUp
          { s with
            wp := { s.wp with supplyWarn := false, supplySafe := false, engine := .stopped }
            od := { s.od with scanTimer := none }
            nu := (s.raise bitEngine).nu } t)

/-- R132, R134: the end of either reset leaves everything at its value after reset but the array, the lines and the reset
cause, with step 1 of start-up to come, and RESETN holds the part there. The choice of the point at which start-up is
interrupted, the counters of key draws and of abandoned GENERATE requests, the queue, and what the registers read while
RESETN holds the part are the model's (assumptions 1, 4, 9 and 24). -/
def Obligations.ResetsPutEverythingBack : Prop :=
  ∀ (s : State) (prov : Bool), s.wp.supplyWarn = false → s.wp.inReset = none →
    let after (cause : ResetCause) : State :=
      { State.reset with
        wp := { Wp.reset with cause := cause, strap := prov }
        xu := { Xu.reset with draws := s.xu.draws, cuts := s.xu.cuts }
        ju := { Ju.reset with unitsA := s.ju.unitsA, unitsB := s.ju.unitsB }
        tm := { Tm.reset with
          cover := { TamperState.reset with
            level := s.tm.cover.level, timer := if s.tm.cover.level then some 0 else none }
          field := { TamperState.reset with
            level := s.tm.field.level, timer := if s.tm.field.level then some 0 else none } }
        pending := s.pending }
    exec (.powerOnReset ⟨prov, [], [⟨.step1, 0⟩]⟩) s = .next (after .power) ∧
    exec (.pinReset ⟨prov, [], [⟨.step1, 0⟩]⟩) s = .next (after .pin) ∧
    ∃ t, exec .resetnAsserted s = .next t ∧ t.wp.inReset = some .pin ∧ t.wp.engine = .starting ∧
      t.wp.supplySafe = false ∧ t.note = false ∧ (∀ a : Half, a.toNat < 0x8000 → t.busRead a = 0) ∧
      t.ju = { Ju.reset with unitsA := s.ju.unitsA, unitsB := s.ju.unitsB } ∧ t.kt = State.reset.kt ∧
      t.od = Od.reset ∧ exec (.pinReset ⟨prov, [], [⟨.step1, 0⟩]⟩) t = .next (after .pin)

/-- R124, R133, R135: start-up of a blank array goes through the reading of the array and waits for the header of an empty
base, the first unit of which is being programmed in bank A. That the one command of the reset carries start-up through
these first steps, up to its wait for the array, is the model's choice (assumption 9). -/
def Obligations.BlankArrayStartsAnEmptyBase : Prop :=
  ∀ (s : State) (prov : Bool), s.wp.supplyWarn = false → s.ju.unitsA = [] → s.ju.unitsB = [] →
    ∃ t, exec (.powerOnReset ⟨prov, [], []⟩) s = .next t ∧ (s.wp.inReset = none →
      t.wp.engine = .starting ∧ t.wp.startAt = some .emptyBase ∧ t.wp.provisioning = prov ∧
      t.ju.step = some ⟨.emptyBase, .a, 0, [headerUnit 1]⟩ ∧ t.ju.stateA = .erased ∧ t.ju.stateB = .erased ∧
      t.ju.current = none)

/-- R139 to R145, R149: a change of a tamper input starts the filter timer where the level differs from the settled one,
keeps one that runs, and stops it where the level is the settled one. With no order in flight, a filter that runs out
settles the input, records the event and raises TAMPER; a locking action sets lockdown under the next sequence, an erase
action discards every generation of every FRAME slot, with its deadlines, and the tamper group takes the TAMPER_NOTE of
the event and the SLOT_IMAGE of each erased slot. -/
def Obligations.TamperInputIsFilteredAndItsEventActs : Prop :=
  ∀ (s : State) (i : TamperInput),
    let x := s.tamper i
    let a := s.tamperAction i
    let erased (n : Nat) : Bool := a.erases && (s.slot n).erasable
    (∀ b : Bool, s.wp.inReset = none →
      ∃ t, exec (.tamperInputChange i b) s = .next t ∧
        t.tamper i = { x with
          level := b
          timer := if b = x.settled then none else if x.timer = none then some s.clock else x.timer } ∧
        (∀ j, j ≠ i → t.tamper j = s.tamper j) ∧
        t = { s with tm := { s.tm with cover := t.tm.cover, field := t.tm.field } }) ∧
    (s.Settled → s.wp.engine = .running → s.tm.restored = true → s.tu.kept = true →
      s.cipherIdle → (∀ c, s.ctx c = none) → x.timer ≠ none →
      ∃ t, exec (.tamperFilterExpiry i) s = .next t ∧
        t.tamper i = { x with
          settled := x.level, timer := none, time := s.tu.now, count := min (x.count + 1) 65535 } ∧
        (∀ j, j ≠ i → t.tamper j = s.tamper j) ∧
        (∀ n, n < 64 → t.slot n = if erased n then (s.slot n).erase else s.slot n) ∧
        t.tu = { s.tu with deadlines := s.tu.deadlines.filter fun d => !erased d.slot } ∧
        t.nu = (s.raise bitTamper).nu ∧
        t.tm.lockdown = (a.locks || s.tm.lockdown) ∧
        t.tm.seq = (if a.locks then s.tm.seq + 1 else s.tm.seq) ∧
        t.holdsTamperRecord (fun q => q.body ==
          .note (some i) (some a) (a.locks || s.tm.lockdown) s.tu.now t.tm.seq) = true ∧
        (∀ n, erased n = true → t.holdsTamperRecord (fun q => q.body == .image n (s.slot n).erase) = true) ∧
        State.TakenUp { s with kt := t.kt, tu := t.tu, tm := { s.tm with
          cover := t.tm.cover, field := t.tm.field, lockdown := t.tm.lockdown, seq := t.tm.seq }, nu := t.nu } t)

/-! ## Records, counters and layouts -/

/-- R6: the next generation number of a slot is the first after `last`, modulo 65,536, that no generation present holds. -/
def Obligations.NextNumberIsTheFirstFree : Prop :=
  ∀ r : SlotRec, ∃ k : Nat, 1 ≤ k ∧ k ≤ 4 ∧ r.nextNumber = r.last + BitVec.ofNat 16 k ∧
    (∀ g ∈ r.gens, g.number ≠ r.nextNumber) ∧
    ∀ j, 1 ≤ j → j < k → ∃ g ∈ r.gens, g.number = r.last + BitVec.ofNat 16 j

/-- R8, R15, R17 to R21, R32, R40, R43, R44: the records that the durable changes leave. The orphaned flag of the slot
follows at the commit (R11), and so does the deferred set, which a change keeps and which is dropped there with the
slot's deadline entries (R41, R44). A SET_POLICY of a FRAME slot brings H up to `h`, the highest value handed out, and the
counters under it. That a promoting ADMIT_FRAME raises the requested mark with the durable one is the model's reading
(assumption 29). -/
def Obligations.ChangesLeaveTheRecordsOfTheRules : Prop :=
  ∀ (r : SlotRec) (t : Nat) (label : Word) (cls : SlotClass) (par : Nat) (p : Policy) (key : Key) (cl : Bool) (n : Half),
    let times (p : Policy) (g : Gen) : Gen :=
      { g with
        renewAt := min (g.issued + p.lifetime * p.fraction / 256) 4294967295
        expiresAt := min (g.issued + p.lifetime) 4294967295 }
    let promoted (k : Counters → Counters) (g : Gen) : SlotRec :=
      { r with
        current := some (times r.policy { g with issued := t, opened := 0, expired := false, ctr := k g.ctr })
        staged := none
        renewDue := false
        outgoing :=
          if r.policy.grace = 0 then none
          else r.current.map fun c => { c with graceDue := min (t + r.policy.grace) 4294967295 } }
    (Change.define label cls par p cl).apply t r =
      { label := label, cls := some cls, parent := some par, orphaned := false, policy := p, last := 0, renewDue := false
        deferred := Deferred.none, current := none, staged := none, outgoing := none } ∧
    (Change.install label cls p cl key).apply t r =
      { label := label, cls := some cls, parent := none, orphaned := false, policy := p, last := 1, renewDue := false
        deferred := Deferred.none
        current := some (times p
          { number := 1, key := key, issued := t, opened := 0, renewAt := 0, expiresAt := 0, graceDue := 0
            expired := false, ctr := Counters.initial (some cls) p.hard })
        staged := none, outgoing := none } ∧
    (Change.stage n key).apply t r =
      { r with
        last := n
        staged := some
          { number := n, key := key, issued := 0, opened := t, renewAt := 0, expiresAt := 0, graceDue := 0
            expired := false, ctr := Counters.initial r.cls r.policy.hard } } ∧
    (Change.cancel).apply t r = { r with staged := none } ∧
    (Change.retire).apply t r = SlotRec.empty ∧
    (Change.adopt par).apply t r = { r with parent := some par } ∧
    (∀ g, r.staged = some g → (Change.promote none).apply t r = promoted id g) ∧
    (∀ g v, r.staged = some g → (Change.promote (some v)).apply t r =
      promoted (fun k =>
        if k.durMark < v.toNat then
          { k.admitted v.toNat with
            durMark := min (v.toNat + 4096) 4294967295
            reqMark := max k.reqMark (min (v.toNat + 4096) 4294967295) }
        else k.admitted v.toNat) g) ∧
    (r.cls ≠ some .frame →
      (Change.setPolicy p cl).apply t r = { r with policy := p, current := r.current.map (times p) }) ∧
    (∀ h, r.cls = some .frame → p.hard ≤ h → (∀ g ∈ r.gens, g.ctr.next ≤ h + 1) →
      (h = p.hard ∨ ∃ g ∈ r.gens, g.ctr.next = h + 1) →
      let q := { p with hard := h }
      let low (g : Gen) : Gen :=
        { g with ctr := { g.ctr with
          next := min g.ctr.next (h + 1), ceil := min g.ctr.ceil (h + 1), durCeil := min g.ctr.durCeil (h + 1) } }
      (Change.setPolicy p cl).apply t r =
        { r with
          policy := q
          renewDue := r.renewDue || r.current.any fun g => decide (h - h * p.margin / 256 ≤ g.ctr.next - 1)
          current := r.current.map fun g => times q (low g)
          staged := r.staged.map low
          outgoing := r.outgoing.map low })

/-- R53, R55 to R59, R67, R68: the operations on the outbound counters keep 1 ≤ next ≤ D ≤ C ≤ H + 1, each under the
condition under which its rule makes it; a commit lowers no durable value, a restart resumes from the durable ceiling,
and degraded recovery 65,536 above it. -/
def Obligations.CounterOperationsKeepTheOrder : Prop :=
  ∀ (k : Counters) (hard ceiling mark : Nat), k.Ordered hard →
    (k.next < k.durCeil → k.takeValue.Ordered hard) ∧
    (k.reserve hard).Ordered hard ∧
    (∀ new, k.next ≤ new + 1 → (k.lower new).Ordered new) ∧
    k.restart.Ordered hard ∧ k.restart.next = k.durCeil ∧
    (k.recover hard).Ordered hard ∧ (k.recover hard).next = min (k.durCeil + 65536) (hard + 1) ∧
    (k.recover hard).durMark = min (k.durMark + 65536) 4294967295 ∧
    (k.commit hard ceiling mark).Ordered hard ∧
    (k.commit hard ceiling mark).durCeil = max k.durCeil (min ceiling (hard + 1)) ∧
    (k.commit hard ceiling mark).durMark = max k.durMark mark ∧
    (∀ h, 65536 ≤ h → (Counters.fresh h).Ordered h)

/-- R62, R63: a counter value that the inbound window has admitted is never acceptable again, whatever values are admitted
after it. -/
def Obligations.WindowAdmitsNoValueTwice : Prop :=
  ∀ (k : Counters) (c : Nat) (later : List Nat), k.check c = none → (later.foldl Counters.admitted (k.admitted c)).check c ≠ none

/-- 12.3: the 64 bytes of an order cell spell the cell: every field is read from where it is written. -/
def Obligations.OrderCellReadsBackFromItsBytes : Prop :=
  ∀ c : OrderCell, OrderCell.ofNat c.toNat = c

/-- R187, 12.6: a SLOT_IMAGE gives back the slot record, with the fields it does not carry as the rules give them: the
counters at their durable values, no orphaned flag and no deferred set. -/
def Obligations.SlotImageReadsBackAsTheSlot : Prop :=
  ∀ (slot : Nat) (r : SlotRec), r.Imageable → readImage (imageNat slot r) = r.imaged
end

