-- ==== Sys2Proof/Laws/State.lean ====
section
/-! SUPPORT. Laws/State.lean: what each plain update of the state leaves, field by field, and read after write. -/

namespace Sys2Proof.Machine

@[simp] theorem State.setSlot_wp (s : State) (n : Nat) (r : SlotRec) : (s.setSlot n r).wp = s.wp := rfl
@[simp] theorem State.setSlot_od (s : State) (n : Nat) (r : SlotRec) : (s.setSlot n r).od = s.od := rfl
@[simp] theorem State.setSlot_xu (s : State) (n : Nat) (r : SlotRec) : (s.setSlot n r).xu = s.xu := rfl
@[simp] theorem State.setSlot_tu (s : State) (n : Nat) (r : SlotRec) : (s.setSlot n r).tu = s.tu := rfl
@[simp] theorem State.setSlot_ju (s : State) (n : Nat) (r : SlotRec) : (s.setSlot n r).ju = s.ju := rfl
@[simp] theorem State.setSlot_tm (s : State) (n : Nat) (r : SlotRec) : (s.setSlot n r).tm = s.tm := rfl
@[simp] theorem State.setSlot_nu (s : State) (n : Nat) (r : SlotRec) : (s.setSlot n r).nu = s.nu := rfl
@[simp] theorem State.setSlot_clock (s : State) (n : Nat) (r : SlotRec) : (s.setSlot n r).clock = s.clock := rfl
@[simp] theorem State.setSlot_pending (s : State) (n : Nat) (r : SlotRec) : (s.setSlot n r).pending = s.pending := rfl

@[simp] theorem State.setCtx_wp (s : State) (c : Nat) (x : Option Ctx) : (s.setCtx c x).wp = s.wp := rfl
@[simp] theorem State.setCtx_kt (s : State) (c : Nat) (x : Option Ctx) : (s.setCtx c x).kt = s.kt := rfl
@[simp] theorem State.setCtx_xu (s : State) (c : Nat) (x : Option Ctx) : (s.setCtx c x).xu = s.xu := rfl
@[simp] theorem State.setCtx_tu (s : State) (c : Nat) (x : Option Ctx) : (s.setCtx c x).tu = s.tu := rfl
@[simp] theorem State.setCtx_ju (s : State) (c : Nat) (x : Option Ctx) : (s.setCtx c x).ju = s.ju := rfl
@[simp] theorem State.setCtx_tm (s : State) (c : Nat) (x : Option Ctx) : (s.setCtx c x).tm = s.tm := rfl
@[simp] theorem State.setCtx_nu (s : State) (c : Nat) (x : Option Ctx) : (s.setCtx c x).nu = s.nu := rfl
@[simp] theorem State.setCtx_clock (s : State) (c : Nat) (x : Option Ctx) : (s.setCtx c x).clock = s.clock := rfl
@[simp] theorem State.setCtx_pending (s : State) (c : Nat) (x : Option Ctx) : (s.setCtx c x).pending = s.pending := rfl

@[simp] theorem State.modCtx_wp (s : State) (c : Nat) (f : Ctx → Ctx) : (s.modCtx c f).wp = s.wp := rfl
@[simp] theorem State.modCtx_kt (s : State) (c : Nat) (f : Ctx → Ctx) : (s.modCtx c f).kt = s.kt := rfl
@[simp] theorem State.modCtx_xu (s : State) (c : Nat) (f : Ctx → Ctx) : (s.modCtx c f).xu = s.xu := rfl
@[simp] theorem State.modCtx_tu (s : State) (c : Nat) (f : Ctx → Ctx) : (s.modCtx c f).tu = s.tu := rfl
@[simp] theorem State.modCtx_ju (s : State) (c : Nat) (f : Ctx → Ctx) : (s.modCtx c f).ju = s.ju := rfl
@[simp] theorem State.modCtx_tm (s : State) (c : Nat) (f : Ctx → Ctx) : (s.modCtx c f).tm = s.tm := rfl
@[simp] theorem State.modCtx_nu (s : State) (c : Nat) (f : Ctx → Ctx) : (s.modCtx c f).nu = s.nu := rfl
@[simp] theorem State.modCtx_clock (s : State) (c : Nat) (f : Ctx → Ctx) : (s.modCtx c f).clock = s.clock := rfl
@[simp] theorem State.modCtx_pending (s : State) (c : Nat) (f : Ctx → Ctx) : (s.modCtx c f).pending = s.pending := rfl

@[simp] theorem State.setLane_wp (s : State) (n : Nat) (l : LaneState) : (s.setLane n l).wp = s.wp := rfl
@[simp] theorem State.setLane_kt (s : State) (n : Nat) (l : LaneState) : (s.setLane n l).kt = s.kt := rfl
@[simp] theorem State.setLane_xu (s : State) (n : Nat) (l : LaneState) : (s.setLane n l).xu = s.xu := rfl
@[simp] theorem State.setLane_tu (s : State) (n : Nat) (l : LaneState) : (s.setLane n l).tu = s.tu := rfl
@[simp] theorem State.setLane_ju (s : State) (n : Nat) (l : LaneState) : (s.setLane n l).ju = s.ju := rfl
@[simp] theorem State.setLane_tm (s : State) (n : Nat) (l : LaneState) : (s.setLane n l).tm = s.tm := rfl
@[simp] theorem State.setLane_nu (s : State) (n : Nat) (l : LaneState) : (s.setLane n l).nu = s.nu := rfl
@[simp] theorem State.setLane_clock (s : State) (n : Nat) (l : LaneState) : (s.setLane n l).clock = s.clock := rfl
@[simp] theorem State.setLane_pending (s : State) (n : Nat) (l : LaneState) : (s.setLane n l).pending = s.pending := rfl

@[simp] theorem State.setCell_od (s : State) (n : Nat) (x : OrderCell) : (s.setCell n x).od = s.od := rfl
@[simp] theorem State.setCell_kt (s : State) (n : Nat) (x : OrderCell) : (s.setCell n x).kt = s.kt := rfl
@[simp] theorem State.setCell_xu (s : State) (n : Nat) (x : OrderCell) : (s.setCell n x).xu = s.xu := rfl
@[simp] theorem State.setCell_tu (s : State) (n : Nat) (x : OrderCell) : (s.setCell n x).tu = s.tu := rfl
@[simp] theorem State.setCell_ju (s : State) (n : Nat) (x : OrderCell) : (s.setCell n x).ju = s.ju := rfl
@[simp] theorem State.setCell_tm (s : State) (n : Nat) (x : OrderCell) : (s.setCell n x).tm = s.tm := rfl
@[simp] theorem State.setCell_nu (s : State) (n : Nat) (x : OrderCell) : (s.setCell n x).nu = s.nu := rfl
@[simp] theorem State.setCell_clock (s : State) (n : Nat) (x : OrderCell) : (s.setCell n x).clock = s.clock := rfl
@[simp] theorem State.setCell_pending (s : State) (n : Nat) (x : OrderCell) : (s.setCell n x).pending = s.pending := rfl

@[simp] theorem State.setCause_wp (s : State) (b : Nat) (x : Cause) : (s.setCause b x).wp = s.wp := rfl
@[simp] theorem State.setCause_od (s : State) (b : Nat) (x : Cause) : (s.setCause b x).od = s.od := rfl
@[simp] theorem State.setCause_kt (s : State) (b : Nat) (x : Cause) : (s.setCause b x).kt = s.kt := rfl
@[simp] theorem State.setCause_xu (s : State) (b : Nat) (x : Cause) : (s.setCause b x).xu = s.xu := rfl
@[simp] theorem State.setCause_tu (s : State) (b : Nat) (x : Cause) : (s.setCause b x).tu = s.tu := rfl
@[simp] theorem State.setCause_ju (s : State) (b : Nat) (x : Cause) : (s.setCause b x).ju = s.ju := rfl
@[simp] theorem State.setCause_tm (s : State) (b : Nat) (x : Cause) : (s.setCause b x).tm = s.tm := rfl
@[simp] theorem State.setCause_clock (s : State) (b : Nat) (x : Cause) : (s.setCause b x).clock = s.clock := rfl
@[simp] theorem State.setCause_pending (s : State) (b : Nat) (x : Cause) : (s.setCause b x).pending = s.pending := rfl

@[simp] theorem State.raise_wp (s : State) (b : Nat) : (s.raise b).wp = s.wp := rfl
@[simp] theorem State.raise_od (s : State) (b : Nat) : (s.raise b).od = s.od := rfl
@[simp] theorem State.raise_kt (s : State) (b : Nat) : (s.raise b).kt = s.kt := rfl
@[simp] theorem State.raise_xu (s : State) (b : Nat) : (s.raise b).xu = s.xu := rfl
@[simp] theorem State.raise_tu (s : State) (b : Nat) : (s.raise b).tu = s.tu := rfl
@[simp] theorem State.raise_ju (s : State) (b : Nat) : (s.raise b).ju = s.ju := rfl
@[simp] theorem State.raise_tm (s : State) (b : Nat) : (s.raise b).tm = s.tm := rfl
@[simp] theorem State.raise_clock (s : State) (b : Nat) : (s.raise b).clock = s.clock := rfl
@[simp] theorem State.raise_pending (s : State) (b : Nat) : (s.raise b).pending = s.pending := rfl

@[simp] theorem State.acknowledge_wp (s : State) (g : Nat) : (s.acknowledge g).wp = s.wp := rfl
@[simp] theorem State.acknowledge_od (s : State) (g : Nat) : (s.acknowledge g).od = s.od := rfl
@[simp] theorem State.acknowledge_kt (s : State) (g : Nat) : (s.acknowledge g).kt = s.kt := rfl
@[simp] theorem State.acknowledge_xu (s : State) (g : Nat) : (s.acknowledge g).xu = s.xu := rfl
@[simp] theorem State.acknowledge_tu (s : State) (g : Nat) : (s.acknowledge g).tu = s.tu := rfl
@[simp] theorem State.acknowledge_ju (s : State) (g : Nat) : (s.acknowledge g).ju = s.ju := rfl
@[simp] theorem State.acknowledge_tm (s : State) (g : Nat) : (s.acknowledge g).tm = s.tm := rfl
@[simp] theorem State.acknowledge_clock (s : State) (g : Nat) : (s.acknowledge g).clock = s.clock := rfl
@[simp] theorem State.acknowledge_pending (s : State) (g : Nat) : (s.acknowledge g).pending = s.pending := rfl

@[simp] theorem State.setCoalescing_wp (s : State) (n : Nat) (x : Coalescing) : (s.setCoalescing n x).wp = s.wp := rfl
@[simp] theorem State.setCoalescing_od (s : State) (n : Nat) (x : Coalescing) : (s.setCoalescing n x).od = s.od := rfl
@[simp] theorem State.setCoalescing_kt (s : State) (n : Nat) (x : Coalescing) : (s.setCoalescing n x).kt = s.kt := rfl
@[simp] theorem State.setCoalescing_xu (s : State) (n : Nat) (x : Coalescing) : (s.setCoalescing n x).xu = s.xu := rfl
@[simp] theorem State.setCoalescing_tu (s : State) (n : Nat) (x : Coalescing) : (s.setCoalescing n x).tu = s.tu := rfl
@[simp] theorem State.setCoalescing_ju (s : State) (n : Nat) (x : Coalescing) : (s.setCoalescing n x).ju = s.ju := rfl
@[simp] theorem State.setCoalescing_tm (s : State) (n : Nat) (x : Coalescing) : (s.setCoalescing n x).tm = s.tm := rfl
@[simp] theorem State.setCoalescing_clock (s : State) (n : Nat) (x : Coalescing) : (s.setCoalescing n x).clock = s.clock := rfl
@[simp] theorem State.setCoalescing_pending (s : State) (n : Nat) (x : Coalescing) : (s.setCoalescing n x).pending = s.pending := rfl

@[simp] theorem State.clearCoalescing_wp (s : State) : s.clearCoalescing.wp = s.wp := rfl
@[simp] theorem State.clearCoalescing_od (s : State) : s.clearCoalescing.od = s.od := rfl
@[simp] theorem State.clearCoalescing_kt (s : State) : s.clearCoalescing.kt = s.kt := rfl
@[simp] theorem State.clearCoalescing_xu (s : State) : s.clearCoalescing.xu = s.xu := rfl
@[simp] theorem State.clearCoalescing_tu (s : State) : s.clearCoalescing.tu = s.tu := rfl
@[simp] theorem State.clearCoalescing_ju (s : State) : s.clearCoalescing.ju = s.ju := rfl
@[simp] theorem State.clearCoalescing_tm (s : State) : s.clearCoalescing.tm = s.tm := rfl
@[simp] theorem State.clearCoalescing_clock (s : State) : s.clearCoalescing.clock = s.clock := rfl
@[simp] theorem State.clearCoalescing_pending (s : State) : s.clearCoalescing.pending = s.pending := rfl

@[simp] theorem State.clearLaneNotices_wp (s : State) : s.clearLaneNotices.wp = s.wp := rfl
@[simp] theorem State.clearLaneNotices_od (s : State) : s.clearLaneNotices.od = s.od := rfl
@[simp] theorem State.clearLaneNotices_kt (s : State) : s.clearLaneNotices.kt = s.kt := rfl
@[simp] theorem State.clearLaneNotices_xu (s : State) : s.clearLaneNotices.xu = s.xu := rfl
@[simp] theorem State.clearLaneNotices_tu (s : State) : s.clearLaneNotices.tu = s.tu := rfl
@[simp] theorem State.clearLaneNotices_ju (s : State) : s.clearLaneNotices.ju = s.ju := rfl
@[simp] theorem State.clearLaneNotices_tm (s : State) : s.clearLaneNotices.tm = s.tm := rfl
@[simp] theorem State.clearLaneNotices_clock (s : State) : s.clearLaneNotices.clock = s.clock := rfl
@[simp] theorem State.clearLaneNotices_pending (s : State) : s.clearLaneNotices.pending = s.pending := rfl

@[simp] theorem State.giveFault_wp (s : State) (k : FaultKind) (a b : Nat) : (s.giveFault k a b).wp = s.wp := rfl
@[simp] theorem State.giveFault_od (s : State) (k : FaultKind) (a b : Nat) : (s.giveFault k a b).od = s.od := rfl
@[simp] theorem State.giveFault_kt (s : State) (k : FaultKind) (a b : Nat) : (s.giveFault k a b).kt = s.kt := rfl
@[simp] theorem State.giveFault_xu (s : State) (k : FaultKind) (a b : Nat) : (s.giveFault k a b).xu = s.xu := rfl
@[simp] theorem State.giveFault_tu (s : State) (k : FaultKind) (a b : Nat) : (s.giveFault k a b).tu = s.tu := rfl
@[simp] theorem State.giveFault_ju (s : State) (k : FaultKind) (a b : Nat) : (s.giveFault k a b).ju = s.ju := rfl
@[simp] theorem State.giveFault_tm (s : State) (k : FaultKind) (a b : Nat) : (s.giveFault k a b).tm = s.tm := rfl
@[simp] theorem State.giveFault_clock (s : State) (k : FaultKind) (a b : Nat) : (s.giveFault k a b).clock = s.clock := rfl
@[simp] theorem State.giveFault_pending (s : State) (k : FaultKind) (a b : Nat) : (s.giveFault k a b).pending = s.pending := rfl

@[simp] theorem State.emptyFaults_wp (s : State) : s.emptyFaults.wp = s.wp := rfl
@[simp] theorem State.emptyFaults_od (s : State) : s.emptyFaults.od = s.od := rfl
@[simp] theorem State.emptyFaults_kt (s : State) : s.emptyFaults.kt = s.kt := rfl
@[simp] theorem State.emptyFaults_xu (s : State) : s.emptyFaults.xu = s.xu := rfl
@[simp] theorem State.emptyFaults_tu (s : State) : s.emptyFaults.tu = s.tu := rfl
@[simp] theorem State.emptyFaults_ju (s : State) : s.emptyFaults.ju = s.ju := rfl
@[simp] theorem State.emptyFaults_tm (s : State) : s.emptyFaults.tm = s.tm := rfl
@[simp] theorem State.emptyFaults_clock (s : State) : s.emptyFaults.clock = s.clock := rfl
@[simp] theorem State.emptyFaults_pending (s : State) : s.emptyFaults.pending = s.pending := rfl

@[simp] theorem State.enter_od (s : State) (e : EngineState) : (s.enter e).od = s.od := rfl
@[simp] theorem State.enter_kt (s : State) (e : EngineState) : (s.enter e).kt = s.kt := rfl
@[simp] theorem State.enter_xu (s : State) (e : EngineState) : (s.enter e).xu = s.xu := rfl
@[simp] theorem State.enter_tu (s : State) (e : EngineState) : (s.enter e).tu = s.tu := rfl
@[simp] theorem State.enter_ju (s : State) (e : EngineState) : (s.enter e).ju = s.ju := rfl
@[simp] theorem State.enter_tm (s : State) (e : EngineState) : (s.enter e).tm = s.tm := rfl
@[simp] theorem State.enter_clock (s : State) (e : EngineState) : (s.enter e).clock = s.clock := rfl
@[simp] theorem State.enter_pending (s : State) (e : EngineState) : (s.enter e).pending = s.pending := rfl

@[simp] theorem State.modGen_wp (s : State) (n : Nat) (g : Half) (f : Gen → Gen) : (s.modGen n g f).wp = s.wp := rfl
@[simp] theorem State.modGen_od (s : State) (n : Nat) (g : Half) (f : Gen → Gen) : (s.modGen n g f).od = s.od := rfl
@[simp] theorem State.modGen_xu (s : State) (n : Nat) (g : Half) (f : Gen → Gen) : (s.modGen n g f).xu = s.xu := rfl
@[simp] theorem State.modGen_tu (s : State) (n : Nat) (g : Half) (f : Gen → Gen) : (s.modGen n g f).tu = s.tu := rfl
@[simp] theorem State.modGen_ju (s : State) (n : Nat) (g : Half) (f : Gen → Gen) : (s.modGen n g f).ju = s.ju := rfl
@[simp] theorem State.modGen_tm (s : State) (n : Nat) (g : Half) (f : Gen → Gen) : (s.modGen n g f).tm = s.tm := rfl
@[simp] theorem State.modGen_nu (s : State) (n : Nat) (g : Half) (f : Gen → Gen) : (s.modGen n g f).nu = s.nu := rfl
@[simp] theorem State.modGen_clock (s : State) (n : Nat) (g : Half) (f : Gen → Gen) : (s.modGen n g f).clock = s.clock := rfl
@[simp] theorem State.modGen_pending (s : State) (n : Nat) (g : Half) (f : Gen → Gen) : (s.modGen n g f).pending = s.pending := rfl

@[simp] theorem State.portResult_od (s : State) (x : PortCommand) (o : PortOutcome) (n : Nat) : (s.portResult x o n).od = s.od := rfl
@[simp] theorem State.portResult_kt (s : State) (x : PortCommand) (o : PortOutcome) (n : Nat) : (s.portResult x o n).kt = s.kt := rfl
@[simp] theorem State.portResult_xu (s : State) (x : PortCommand) (o : PortOutcome) (n : Nat) : (s.portResult x o n).xu = s.xu := rfl
@[simp] theorem State.portResult_tu (s : State) (x : PortCommand) (o : PortOutcome) (n : Nat) : (s.portResult x o n).tu = s.tu := rfl
@[simp] theorem State.portResult_ju (s : State) (x : PortCommand) (o : PortOutcome) (n : Nat) : (s.portResult x o n).ju = s.ju := rfl
@[simp] theorem State.portResult_tm (s : State) (x : PortCommand) (o : PortOutcome) (n : Nat) : (s.portResult x o n).tm = s.tm := rfl
@[simp] theorem State.portResult_nu (s : State) (x : PortCommand) (o : PortOutcome) (n : Nat) : (s.portResult x o n).nu = s.nu := rfl
@[simp] theorem State.portResult_clock (s : State) (x : PortCommand) (o : PortOutcome) (n : Nat) : (s.portResult x o n).clock = s.clock := rfl
@[simp] theorem State.portResult_pending (s : State) (x : PortCommand) (o : PortOutcome) (n : Nat) : (s.portResult x o n).pending = s.pending := rfl

@[simp] theorem State.setUnits_wp (s : State) (x : Bank) (l : List (Nat × NvUnit)) : (s.setUnits x l).wp = s.wp := by cases x <;> rfl
@[simp] theorem State.setUnits_od (s : State) (x : Bank) (l : List (Nat × NvUnit)) : (s.setUnits x l).od = s.od := by cases x <;> rfl
@[simp] theorem State.setUnits_kt (s : State) (x : Bank) (l : List (Nat × NvUnit)) : (s.setUnits x l).kt = s.kt := by cases x <;> rfl
@[simp] theorem State.setUnits_xu (s : State) (x : Bank) (l : List (Nat × NvUnit)) : (s.setUnits x l).xu = s.xu := by cases x <;> rfl
@[simp] theorem State.setUnits_tu (s : State) (x : Bank) (l : List (Nat × NvUnit)) : (s.setUnits x l).tu = s.tu := by cases x <;> rfl
@[simp] theorem State.setUnits_tm (s : State) (x : Bank) (l : List (Nat × NvUnit)) : (s.setUnits x l).tm = s.tm := by cases x <;> rfl
@[simp] theorem State.setUnits_nu (s : State) (x : Bank) (l : List (Nat × NvUnit)) : (s.setUnits x l).nu = s.nu := by cases x <;> rfl
@[simp] theorem State.setUnits_clock (s : State) (x : Bank) (l : List (Nat × NvUnit)) : (s.setUnits x l).clock = s.clock := by cases x <;> rfl
@[simp] theorem State.setUnits_pending (s : State) (x : Bank) (l : List (Nat × NvUnit)) : (s.setUnits x l).pending = s.pending := by cases x <;> rfl

@[simp] theorem State.setBankState_wp (s : State) (x : Bank) (y : BankState) : (s.setBankState x y).wp = s.wp := by cases x <;> rfl
@[simp] theorem State.setBankState_od (s : State) (x : Bank) (y : BankState) : (s.setBankState x y).od = s.od := by cases x <;> rfl
@[simp] theorem State.setBankState_kt (s : State) (x : Bank) (y : BankState) : (s.setBankState x y).kt = s.kt := by cases x <;> rfl
@[simp] theorem State.setBankState_xu (s : State) (x : Bank) (y : BankState) : (s.setBankState x y).xu = s.xu := by cases x <;> rfl
@[simp] theorem State.setBankState_tu (s : State) (x : Bank) (y : BankState) : (s.setBankState x y).tu = s.tu := by cases x <;> rfl
@[simp] theorem State.setBankState_tm (s : State) (x : Bank) (y : BankState) : (s.setBankState x y).tm = s.tm := by cases x <;> rfl
@[simp] theorem State.setBankState_nu (s : State) (x : Bank) (y : BankState) : (s.setBankState x y).nu = s.nu := by cases x <;> rfl
@[simp] theorem State.setBankState_clock (s : State) (x : Bank) (y : BankState) : (s.setBankState x y).clock = s.clock := by cases x <;> rfl
@[simp] theorem State.setBankState_pending (s : State) (x : Bank) (y : BankState) : (s.setBankState x y).pending = s.pending := by cases x <;> rfl

@[simp] theorem State.setTamper_wp (s : State) (x : TamperInput) (y : TamperState) : (s.setTamper x y).wp = s.wp := by cases x <;> rfl
@[simp] theorem State.setTamper_od (s : State) (x : TamperInput) (y : TamperState) : (s.setTamper x y).od = s.od := by cases x <;> rfl
@[simp] theorem State.setTamper_kt (s : State) (x : TamperInput) (y : TamperState) : (s.setTamper x y).kt = s.kt := by cases x <;> rfl
@[simp] theorem State.setTamper_xu (s : State) (x : TamperInput) (y : TamperState) : (s.setTamper x y).xu = s.xu := by cases x <;> rfl
@[simp] theorem State.setTamper_tu (s : State) (x : TamperInput) (y : TamperState) : (s.setTamper x y).tu = s.tu := by cases x <;> rfl
@[simp] theorem State.setTamper_ju (s : State) (x : TamperInput) (y : TamperState) : (s.setTamper x y).ju = s.ju := by cases x <;> rfl
@[simp] theorem State.setTamper_nu (s : State) (x : TamperInput) (y : TamperState) : (s.setTamper x y).nu = s.nu := by cases x <;> rfl
@[simp] theorem State.setTamper_clock (s : State) (x : TamperInput) (y : TamperState) : (s.setTamper x y).clock = s.clock := by cases x <;> rfl
@[simp] theorem State.setTamper_pending (s : State) (x : TamperInput) (y : TamperState) : (s.setTamper x y).pending = s.pending := by cases x <;> rfl

/-! ## Parts of the blocks that an update leaves -/

@[simp] theorem State.setCtx_plan (s : State) (c : Nat) (x : Option Ctx) : (s.setCtx c x).od.plan = s.od.plan := rfl
@[simp] theorem State.setCtx_lanes (s : State) (c : Nat) (x : Option Ctx) : (s.setCtx c x).od.lanes = s.od.lanes := rfl
@[simp] theorem State.setCtx_timer (s : State) (c : Nat) (x : Option Ctx) :
    (s.setCtx c x).od.scanTimer = s.od.scanTimer := rfl
@[simp] theorem State.modCtx_plan (s : State) (c : Nat) (f : Ctx → Ctx) : (s.modCtx c f).od.plan = s.od.plan := rfl
@[simp] theorem State.modCtx_lanes (s : State) (c : Nat) (f : Ctx → Ctx) : (s.modCtx c f).od.lanes = s.od.lanes := rfl
@[simp] theorem State.modCtx_timer (s : State) (c : Nat) (f : Ctx → Ctx) :
    (s.modCtx c f).od.scanTimer = s.od.scanTimer := rfl
@[simp] theorem State.setLane_plan (s : State) (n : Nat) (l : LaneState) : (s.setLane n l).od.plan = s.od.plan := rfl
@[simp] theorem State.setLane_ctxs (s : State) (n : Nat) (l : LaneState) : (s.setLane n l).od.ctxs = s.od.ctxs := rfl
@[simp] theorem State.setLane_timer (s : State) (n : Nat) (l : LaneState) :
    (s.setLane n l).od.scanTimer = s.od.scanTimer := rfl
@[simp] theorem State.setCell_ram (s : State) (n : Nat) (x : OrderCell) : (s.setCell n x).wp.ram = s.wp.ram := rfl
@[simp] theorem State.setCell_engine (s : State) (n : Nat) (x : OrderCell) :
    (s.setCell n x).wp.engine = s.wp.engine := rfl
@[simp] theorem State.enter_engine (s : State) (e : EngineState) : (s.enter e).wp.engine = e := rfl
@[simp] theorem State.enter_ram (s : State) (e : EngineState) : (s.enter e).wp.ram = s.wp.ram := rfl
@[simp] theorem State.enter_cells (s : State) (e : EngineState) : (s.enter e).wp.cells = s.wp.cells := rfl

/-! ## Read after write -/

/-- A read of a vector is a read of an option. -/
theorem getD_eq {α : Type} {k : Nat} (v : Vector α k) (j : Nat) (d : α) : v.getD j d = (v[j]?).getD d := by
  simp [Vector.getD, Array.getD_eq_getD_getElem?]

/-- What a vector reads after one of its places has been written, if it has the place. -/
theorem getD_set {α : Type} {k : Nat} (v : Vector α k) (i j : Nat) (a d : α) :
    (v.setIfInBounds i a).getD j d = if i = j ∧ i < k then a else v.getD j d := by
  simp only [getD_eq, Vector.getElem?_setIfInBounds]
  by_cases h : i = j
  · subst h
    by_cases hk : i < k <;> simp [hk]
  · simp [h]

theorem State.slot_setSlot (s : State) (n m : Nat) (r : SlotRec) :
    (s.setSlot n r).slot m = if n = m ∧ n < 64 then r else s.slot m := getD_set _ _ _ _ _

theorem State.ctx_setCtx (s : State) (c d : Nat) (x : Option Ctx) :
    (s.setCtx c x).ctx d = if c = d ∧ c < 4 then x else s.ctx d := getD_set _ _ _ _ _

theorem State.lane_setLane (s : State) (n m : Nat) (l : LaneState) :
    (s.setLane n l).lane m = if n = m ∧ n < 4 then l else s.lane m := getD_set _ _ _ _ _

theorem State.cell_setCell (s : State) (n m : Nat) (x : OrderCell) :
    (s.setCell n x).cell m = if n = m ∧ n < 128 then x else s.cell m := getD_set _ _ _ _ _

theorem State.cause_setCause (s : State) (b i : Nat) (x : Cause) :
    (s.setCause b x).cause i = if b = i ∧ b < 13 then x else s.cause i := getD_set _ _ _ _ _

theorem State.coalescing_setCoalescing (s : State) (n m : Nat) (x : Coalescing) :
    (s.setCoalescing n x).coalescing m = if n = m ∧ n < 4 then x else s.coalescing m := getD_set _ _ _ _ _

/-- There are four contexts. -/
theorem State.ctx_none_of_le (s : State) (c : Nat) (h : 4 ≤ c) : s.ctx c = none := by
  simp [State.ctx, getD_eq, h]

/-- There are 64 slots. -/
theorem State.slot_empty_of_le (s : State) (n : Nat) (h : 64 ≤ n) : s.slot n = SlotRec.empty := by
  simp [State.slot, getD_eq, h]

theorem State.ctx_modCtx (s : State) (c d : Nat) (f : Ctx → Ctx) :
    (s.modCtx c f).ctx d = if c = d then (s.ctx d).map f else s.ctx d := by
  unfold State.modCtx
  rw [State.ctx_setCtx]
  by_cases h : c = d
  · subst h
    by_cases hc : c < 4
    · simp [hc]
    · simp [hc, State.ctx_none_of_le s c (by omega)]
  · simp [h]

/-! ## Updates of one block do not show through readers of another -/

@[simp] theorem State.ctx_setSlot (s : State) (n c : Nat) (r : SlotRec) : (s.setSlot n r).ctx c = s.ctx c := rfl
@[simp] theorem State.ctx_setCell (s : State) (n c : Nat) (x : OrderCell) : (s.setCell n x).ctx c = s.ctx c := rfl
@[simp] theorem State.ctx_setLane (s : State) (n c : Nat) (l : LaneState) : (s.setLane n l).ctx c = s.ctx c := rfl
@[simp] theorem State.ctx_raise (s : State) (b c : Nat) : (s.raise b).ctx c = s.ctx c := rfl
@[simp] theorem State.ctx_enter (s : State) (e : EngineState) (c : Nat) : (s.enter e).ctx c = s.ctx c := rfl
@[simp] theorem State.slot_setCtx (s : State) (n c : Nat) (x : Option Ctx) : (s.setCtx c x).slot n = s.slot n := rfl
@[simp] theorem State.slot_modCtx (s : State) (n c : Nat) (f : Ctx → Ctx) : (s.modCtx c f).slot n = s.slot n := rfl
@[simp] theorem State.slot_setCell (s : State) (n m : Nat) (x : OrderCell) : (s.setCell m x).slot n = s.slot n := rfl
@[simp] theorem State.slot_setLane (s : State) (n m : Nat) (l : LaneState) : (s.setLane m l).slot n = s.slot n := rfl
@[simp] theorem State.cell_setCtx (s : State) (n c : Nat) (x : Option Ctx) : (s.setCtx c x).cell n = s.cell n := rfl
@[simp] theorem State.cell_setLane (s : State) (n m : Nat) (l : LaneState) : (s.setLane m l).cell n = s.cell n := rfl
@[simp] theorem State.lane_setCtx (s : State) (n c : Nat) (x : Option Ctx) : (s.setCtx c x).lane n = s.lane n := rfl
@[simp] theorem State.lane_setCell (s : State) (n m : Nat) (x : OrderCell) : (s.setCell m x).lane n = s.lane n := rfl
@[simp] theorem State.planLane_setCtx (s : State) (n c : Nat) (x : Option Ctx) :
    (s.setCtx c x).planLane n = s.planLane n := rfl
@[simp] theorem State.planLane_setCell (s : State) (n m : Nat) (x : OrderCell) :
    (s.setCell m x).planLane n = s.planLane n := rfl
@[simp] theorem State.planLane_setLane (s : State) (n m : Nat) (l : LaneState) :
    (s.setLane m l).planLane n = s.planLane n := rfl

end Sys2Proof.Machine
end

