-- ==== Sys2Proof/Laws/Causes.lean ====
section
/-! SUPPORT. Laws/Causes.lean: the events of one step taken together (R179): where each cause has had at most one, the step
has nothing to take together. -/

namespace Sys2Proof.Machine

@[simp] theorem State.together_wp (s t : State) : (s.together t).wp = t.wp := rfl
@[simp] theorem State.together_od (s t : State) : (s.together t).od = t.od := rfl
@[simp] theorem State.together_kt (s t : State) : (s.together t).kt = t.kt := rfl
@[simp] theorem State.together_xu (s t : State) : (s.together t).xu = t.xu := rfl
@[simp] theorem State.together_tu (s t : State) : (s.together t).tu = t.tu := rfl
@[simp] theorem State.together_ju (s t : State) : (s.together t).ju = t.ju := rfl
@[simp] theorem State.together_tm (s t : State) : (s.together t).tm = t.tm := rfl
@[simp] theorem State.together_clock (s t : State) : (s.together t).clock = t.clock := rfl
@[simp] theorem State.together_pending (s t : State) : (s.together t).pending = t.pending := rfl

/-- An event of an idle cause and a second one leave it as one does (R179). -/
theorem Cause.together_raise_raise (c : Cause) : c.together c.raise.raise = c.raise := by
  obtain ⟨e, g, p, i⟩ := c
  cases e <;> cases i <;> simp [Cause.together, Cause.raise, Cause.fire]

theorem Cause.together_self (c : Cause) : c.together c = c := by
  unfold Cause.together
  cases c.inService <;> rfl

theorem Cause.together_raise (c : Cause) : c.together c.raise = c.raise := by
  obtain ⟨e, g, p, i⟩ := c
  cases e <;> cases i <;> simp [Cause.together, Cause.raise, Cause.fire]

theorem Cause.together_clear (c : Cause) : c.together c.clear = c.clear := by
  simp [Cause.together, Cause.clear]

theorem Cause.together_apply (c : Cause) (e : Bool) (g : Nat) : c.together (c.apply e g) = c.apply e g := by
  obtain ⟨e', g', p, i⟩ := c
  cases e <;> cases p <;> cases i <;> simp [Cause.together, Cause.apply, Cause.fire]

theorem State.cause_together (s t : State) (n : Nat) : (s.together t).cause n = (s.cause n).together (t.cause n) := by
  unfold State.together State.cause
  simp only [getD_eq]
  by_cases h : n < 13
  · simp [h]
  · simp [h, Cause.together_self]

/-- The causes are those that each of the 13 bits reads. -/
theorem State.causes_ext {s t : State} (h : ∀ n, s.cause n = t.cause n) : s.nu.causes = t.nu.causes := by
  apply Vector.ext
  intro i hi
  have := h i
  simpa [State.cause, getD_eq, hi] using this

/-- Where each cause stands as it did or as one event leaves it, the step has nothing more to take together. -/
theorem State.together_eq {s t : State} (h : ∀ n, (s.cause n).together (t.cause n) = t.cause n) : s.together t = t := by
  have e : (s.together t).nu.causes = t.nu.causes := State.causes_ext fun n => by rw [State.cause_together, h]
  show ({ t with nu := { t.nu with causes := (s.together t).nu.causes } } : State) = t
  rw [e]

/-- What at most one event of each cause can leave, of the causes in a list, with the others untouched or cleared. -/
def State.Once (l : List Nat) (s t : State) : Prop :=
  ∀ n, (s.cause n).together (t.cause n) = t.cause n ∧
    (n ∉ l → t.cause n = s.cause n ∨ t.cause n = (s.cause n).clear)

theorem State.Once.together {l : List Nat} {s t : State} (h : State.Once l s t) : s.together t = t :=
  State.together_eq fun n => (h n).1

theorem State.cause_congr {s t : State} (h : t.nu = s.nu) (n : Nat) : t.cause n = s.cause n := by
  unfold State.cause
  rw [h]

theorem State.Once.refl (s : State) : State.Once [] s s := fun _ => ⟨Cause.together_self _, fun _ => Or.inl rfl⟩

theorem State.Once.congr {l : List Nat} {s t u : State} (h : State.Once l s t) (k : u.nu.causes = t.nu.causes) :
    State.Once l s u := by
  intro n
  have : u.cause n = t.cause n := by unfold State.cause; rw [k]
  rw [this]
  exact h n

/-- No event has come. -/
theorem State.Once.same {s t : State} (h : t.nu = s.nu) : State.Once [] s t := (State.Once.refl s).congr (by rw [h])

/-- An event of a cause that has had none. -/
theorem State.Once.raise {l : List Nat} {s t : State} (h : State.Once l s t) {b : Nat} (hb : b ∉ l) :
    State.Once (b :: l) s (t.raise b) := by
  intro n
  unfold State.raise
  rw [State.cause_setCause]
  split
  · rename_i hn
    obtain ⟨rfl, -⟩ := hn
    refine ⟨?_, fun h => absurd List.mem_cons_self h⟩
    rcases (h b).2 hb with e | e <;> rw [e]
    · exact Cause.together_raise _
    · generalize s.cause b = c
      obtain ⟨e, g, p, i⟩ := c
      cases e <;> cases i <;> simp [Cause.together, Cause.raise, Cause.clear, Cause.fire]
  · exact ⟨(h n).1, fun hn => (h n).2 fun m => hn (List.mem_cons_of_mem _ m)⟩

theorem State.giveFault_causes (s : State) (k : FaultKind) (a b : Nat) :
    (s.giveFault k a b).nu.causes = (s.raise bitFault).nu.causes := by
  unfold State.giveFault
  dsimp only
  cases s.nu.fault <;> rfl

theorem State.cause_raise (s : State) (b n : Nat) :
    (s.raise b).cause n = if b = n ∧ b < 13 then (s.cause b).raise else s.cause n := State.cause_setCause ..

theorem State.cause_giveFault (s : State) (k : FaultKind) (a b : Nat) {n : Nat} (h : n ≠ bitFault) :
    (s.giveFault k a b).cause n = s.cause n := by
  have e : (s.giveFault k a b).cause n = (s.raise bitFault).cause n := by
    unfold State.cause
    rw [State.giveFault_causes]
  rw [e, State.cause_raise, if_neg fun k => h k.1.symm]

/-- A second event of a cause adds nothing to the first (R179). -/
theorem State.Once.again {l : List Nat} {s t : State} (h : State.Once l s t) {b : Nat}
    (hb : t.cause b = (s.cause b).raise) : s.together (t.raise b) = t := by
  have e : (s.together (t.raise b)).nu.causes = t.nu.causes := State.causes_ext fun n => by
    rw [State.cause_together, State.raise, State.cause_setCause]
    split
    · rename_i hn
      obtain ⟨rfl, -⟩ := hn
      rw [hb]
      exact Cause.together_raise_raise _
    · exact (h n).1
  show ({ t with nu := { t.nu with causes := (s.together (t.raise b)).nu.causes } } : State) = t
  rw [e]

/-- A fault that follows at most one other in a step: the two events of FAULT leave it as one does (R179). -/
theorem State.together_faults {s u : State} (h : u.nu.causes = s.nu.causes ∨ u.nu.causes = (s.raise bitFault).nu.causes)
    (k : FaultKind) (a b : Nat) : (s.together (u.giveFault k a b)).nu.causes = (s.raise bitFault).nu.causes := by
  have hu : ∀ n, u.cause n = s.cause n ∨ u.cause n = (s.raise bitFault).cause n := fun n => by
    unfold State.cause
    rcases h with h | h
    · exact Or.inl (by rw [h])
    · exact Or.inr (by rw [h])
  refine State.causes_ext fun n => ?_
  rw [State.cause_together]
  by_cases hn : n = bitFault
  · subst hn
    have e : (u.giveFault k a b).cause bitFault = (u.cause bitFault).raise := by
      unfold State.cause
      rw [State.giveFault_causes]
      exact (State.cause_raise u bitFault bitFault).trans (if_pos ⟨rfl, by decide⟩)
    have r : (s.raise bitFault).cause bitFault = (s.cause bitFault).raise :=
      (State.cause_raise s bitFault bitFault).trans (if_pos ⟨rfl, by decide⟩)
    rw [e, r]
    rcases hu bitFault with e | e <;> rw [e]
    · exact Cause.together_raise _
    · rw [r]
      exact Cause.together_raise_raise _
  · have r : (s.raise bitFault).cause n = s.cause n := by rw [State.cause_raise, if_neg fun x => hn x.1.symm]
    rw [State.cause_giveFault _ _ _ _ hn, r]
    rcases hu n with e | e <;> rw [e]
    · exact Cause.together_self _
    · rw [r]
      exact Cause.together_self _

theorem State.Once.clearLanes {l : List Nat} {s t : State} (h : State.Once l s t) (hl : ∀ n ∈ l, 4 ≤ n) :
    State.Once l s t.clearLaneNotices := by
  intro n
  by_cases h4 : n < 4
  · have e : t.clearLaneNotices.cause n = (t.cause n).clear := by
      unfold State.clearLaneNotices State.cause
      simp [getD_eq, h4, show n < 13 by omega]
    rw [e]
    have hn : n ∉ l := fun m => absurd (hl n m) (by omega)
    rcases (h n).2 hn with k | k <;> rw [k]
    · exact ⟨Cause.together_clear _, fun _ => Or.inr rfl⟩
    · exact ⟨Cause.together_clear _, fun _ => Or.inr rfl⟩
  · have e : t.clearLaneNotices.cause n = t.cause n := by
      unfold State.clearLaneNotices State.cause
      by_cases h13 : n < 13
      · simp [getD_eq, h4, h13]
      · simp [getD_eq, h13]
    rw [e]
    exact h n

/-- A step that gives no event has nothing to take together. -/
theorem State.together_same {s t : State} (h : t.nu = s.nu) : s.together t = t := (State.Once.same h).together

end Sys2Proof.Machine
end

