-- ==== Sys2Proof/Laws/Cipher.lean ====
section
/-! SUPPORT. Laws/Cipher.lean: what the Cipher Unit enciphers it deciphers again, and no two slots share the integrity value
of a blob (R33, R77, R79). -/

namespace Sys2Proof

/-- A stored key unwraps to the key that was wrapped (R79). -/
@[simp] theorem Config.unwrapRoot_wrapRoot (key : Key) : Config.unwrapRoot (Config.wrapRoot key) = key :=
  Config.root.symm_apply_apply key

@[simp] theorem Config.wrapRoot_unwrapRoot (key : Key) : Config.wrapRoot (Config.unwrapRoot key) = key :=
  Config.root.apply_symm_apply key

/-- The enciphered bytes of a blob give the key back (R35, R79). -/
@[simp] theorem Config.blobDecipher_blobEncipher (wrapping key : Key) :
    Config.blobDecipher wrapping (Config.blobEncipher wrapping key) = key :=
  (Config.blobCipher wrapping).symm_apply_apply key

/-- Two slots never share the integrity value of one key under one header (R33). -/
theorem Config.blobIntegrity_slot {wrapping key : Key} {head : BitVec 128} {m n : Byte}
    (h : Config.blobIntegrity wrapping key head m = Config.blobIntegrity wrapping key head n) : m = n := by
  have h := (Config.blobSeal wrapping key head).injective h
  bv_omega

namespace Machine

@[simp] theorem encipher_length (key : Key) (nonce : BitVec 128) (l : List Byte) :
    (encipher key nonce l).length = l.length :=
  (Config.bodyCipher (Config.unwrapRoot key) nonce l.length ⟨l, rfl⟩).property

@[simp] theorem decipher_length (key : Key) (nonce : BitVec 128) (l : List Byte) :
    (decipher key nonce l).length = l.length :=
  ((Config.bodyCipher (Config.unwrapRoot key) nonce l.length).symm ⟨l, rfl⟩).property

/-- The body of a frame is what was enciphered under the same key and nonce (R72, R77). -/
@[simp] theorem decipher_encipher (key : Key) (nonce : BitVec 128) (l : List Byte) :
    decipher key nonce (encipher key nonce l) = l := by
  have e : ∀ n (v : { l : List Byte // l.length = n }),
      decipher key nonce v.val = ((Config.bodyCipher (Config.unwrapRoot key) nonce n).symm v).val := by
    rintro n ⟨l, rfl⟩
    rfl
  unfold encipher
  rw [e, Equiv.symm_apply_apply]

end Machine

end Sys2Proof
end

