-- ==== Sys2Proof/Laws/Counters.lean ====
section
/-! SUPPORT. Laws/Counters.lean: what a change of one generation does to its slot, and that the counter operations and
the changes of slot records keep the counters lawful (R53, R61). -/

namespace Sys2Proof.Machine

/-! ## One generation changed -/

/-- What `updGen` can do: it changes the one generation that `find` gives, in its role, or there is none. -/
theorem SlotRec.updGen_cases (r : SlotRec) (n : Half) (f : Gen → Gen) :
    (∃ g, r.find n = some g ∧ g.number = n ∧
      (r.current = some g ∧ r.updGen n f = { r with current := some (f g) } ∨
       (∀ h, r.current = some h → h.number ≠ n) ∧ r.staged = some g ∧ r.updGen n f = { r with staged := some (f g) } ∨
       (∀ h, r.current = some h → h.number ≠ n) ∧ (∀ h, r.staged = some h → h.number ≠ n) ∧ r.outgoing = some g ∧
        r.updGen n f = { r with outgoing := some (f g) })) ∨
    r.find n = none ∧ r.updGen n f = r := by
  unfold SlotRec.updGen SlotRec.roleOf SlotRec.find SlotRec.gens
  cases hc : r.current with
  | none =>
    cases hs : r.staged with
    | none =>
      cases ho : r.outgoing with
      | none => right; simp
      | some c =>
        by_cases h3 : c.number = n
        · left; exact ⟨c, by simp [h3], h3, by simp [h3]⟩
        · right; simp [h3]
    | some b =>
      by_cases h2 : b.number = n
      · left; exact ⟨b, by simp [h2], h2, by simp [h2]⟩
      · cases ho : r.outgoing with
        | none => right; simp [h2]
        | some c =>
          by_cases h3 : c.number = n
          · left; exact ⟨c, by simp [h2, h3], h3, by simp [h2, h3]⟩
          · right; simp [h2, h3]
  | some a =>
    by_cases h1 : a.number = n
    · left; exact ⟨a, by simp [h1], h1, by simp [h1]⟩
    · cases hs : r.staged with
      | none =>
        cases ho : r.outgoing with
        | none => right; simp [h1]
        | some c =>
          by_cases h3 : c.number = n
          · left; exact ⟨c, by simp [h1, h3], h3, by simp [h1, h3]⟩
          · right; simp [h1, h3]
      | some b =>
        by_cases h2 : b.number = n
        · left; exact ⟨b, by simp [h1, h2], h2, by simp [h1, h2]⟩
        · cases ho : r.outgoing with
          | none => right; simp [h1, h2]
          | some c =>
            by_cases h3 : c.number = n
            · left; exact ⟨c, by simp [h1, h2, h3], h3, by simp [h1, h2, h3]⟩
            · right; simp [h1, h2, h3]

theorem SlotRec.find_mem {r : SlotRec} {n : Half} {g : Gen} (h : r.find n = some g) : g ∈ r.gens :=
  List.mem_of_find?_eq_some h

theorem SlotRec.find_current {r : SlotRec} {g : Gen} (hc : r.current = some g) : r.find g.number = some g := by
  simp [SlotRec.find, SlotRec.gens, hc]

@[simp] theorem SlotRec.updGen_cls (r : SlotRec) (n : Half) (f : Gen → Gen) : (r.updGen n f).cls = r.cls := by
  rcases r.updGen_cases n f with ⟨g, -, -, ⟨-, e⟩ | ⟨-, -, e⟩ | ⟨-, -, -, e⟩⟩ | ⟨-, e⟩ <;> rw [e]

@[simp] theorem SlotRec.updGen_policy (r : SlotRec) (n : Half) (f : Gen → Gen) :
    (r.updGen n f).policy = r.policy := by
  rcases r.updGen_cases n f with ⟨g, -, -, ⟨-, e⟩ | ⟨-, -, e⟩ | ⟨-, -, -, e⟩⟩ | ⟨-, e⟩ <;> rw [e]

@[simp] theorem SlotRec.updGen_deferred (r : SlotRec) (n : Half) (f : Gen → Gen) :
    (r.updGen n f).deferred = r.deferred := by
  rcases r.updGen_cases n f with ⟨g, -, -, ⟨-, e⟩ | ⟨-, -, e⟩ | ⟨-, -, -, e⟩⟩ | ⟨-, e⟩ <;> rw [e]

/-- The generation of a number after a change of it. -/
theorem SlotRec.find_updGen {r : SlotRec} {n : Half} {g : Gen} (hg : r.find n = some g) (f : Gen → Gen)
    (hf : (f g).number = g.number) : (r.updGen n f).find n = some (f g) := by
  rcases r.updGen_cases n f with ⟨a, ha, hn, h⟩ | ⟨ha, -⟩
  · obtain rfl : a = g := Option.some.inj (ha.symm.trans hg)
    have hfn : (f a).number = n := hf.trans hn
    rcases h with ⟨hc, e⟩ | ⟨hc, hs, e⟩ | ⟨hc, hs, ho, e⟩
    · rw [e]; simp [SlotRec.find, SlotRec.gens, hfn]
    · rw [e]
      cases h1 : r.current with
      | none => simp [SlotRec.find, SlotRec.gens, hfn]
      | some b => simp [SlotRec.find, SlotRec.gens, hfn, hc b h1]
    · rw [e]
      cases h1 : r.current with
      | none =>
        cases h2 : r.staged with
        | none => simp [SlotRec.find, SlotRec.gens, hfn]
        | some d => simp [SlotRec.find, SlotRec.gens, hfn, hs d h2]
      | some b =>
        cases h2 : r.staged with
        | none => simp [SlotRec.find, SlotRec.gens, hfn, hc b h1]
        | some d => simp [SlotRec.find, SlotRec.gens, hfn, hc b h1, hs d h2]
  · rw [hg] at ha; cases ha

/-- Two changes of the generation of a number that agree on the one that bears it. -/
theorem SlotRec.updGen_at {r : SlotRec} {n : Half} {g : Gen} (hg : r.find n = some g) {f h : Gen → Gen}
    (hfh : f g = h g) : r.updGen n f = r.updGen n h := by
  have key : ∀ k : Gen → Gen, r.updGen n k = match r.roleOf n with
      | some .current => { r with current := r.current.map fun _ => k g }
      | some .staged => { r with staged := r.staged.map fun _ => k g }
      | some .outgoing => { r with outgoing := r.outgoing.map fun _ => k g }
      | none => r := by
    intro k
    rcases r.updGen_cases n k with ⟨a, ha, hn, hk⟩ | ⟨ha, -⟩
    · obtain rfl : a = g := Option.some.inj (ha.symm.trans hg)
      unfold SlotRec.roleOf
      rcases hk with ⟨hc, e⟩ | ⟨hc, hs, e⟩ | ⟨hc, hs, ho, e⟩
      · rw [e]; simp [hc, hn]
      · rw [e, if_neg (by simpa [Option.any_eq_true] using hc)]; simp [hs, hn]
      · rw [e, if_neg (by simpa [Option.any_eq_true] using hc), if_neg (by simpa [Option.any_eq_true] using hs)]
        simp [ho, hn]
    · rw [hg] at ha; cases ha
  rw [key, key, hfh]

theorem SlotRec.roleOf_updGen (r : SlotRec) (n : Half) {f : Gen → Gen} (hf : ∀ g, (f g).number = g.number) :
    (r.updGen n f).roleOf n = r.roleOf n := by
  have e : ∀ o : Option Gen, (o.map f).any (fun g => decide (g.number = n)) = o.any fun g => decide (g.number = n) := by
    intro o; cases o <;> simp [hf]
  unfold SlotRec.updGen
  split <;> unfold SlotRec.roleOf <;> dsimp only <;> simp only [e]

theorem SlotRec.updGen_updGen {r : SlotRec} {n : Half} {f : Gen → Gen} (hf : ∀ g, (f g).number = g.number)
    {h : Gen → Gen} : (r.updGen n f).updGen n h = r.updGen n (fun g => h (f g)) := by
  have hr := SlotRec.roleOf_updGen r n hf
  generalize hk : r.roleOf n = k at *
  have hu : ∀ (q : SlotRec) (k : Gen → Gen), q.updGen n k = match q.roleOf n with
      | some .current => { q with current := q.current.map k }
      | some .staged => { q with staged := q.staged.map k }
      | some .outgoing => { q with outgoing := q.outgoing.map k }
      | none => q := fun _ _ => rfl
  rw [hu (r.updGen n f), hr, hu r, hu r, hk]
  cases k with
  | none => rfl
  | some x => cases x <;> simp [Option.map_map, Function.comp_def]

theorem SlotRec.updGen_current {r : SlotRec} {g : Gen} (hc : r.current = some g) (f : Gen → Gen) :
    r.updGen g.number f = { r with current := some (f g) } := by
  unfold SlotRec.updGen SlotRec.roleOf
  simp [hc]

/-! ## The counter operations -/

theorem Counters.Lawful.fresh (hard : Nat) : (Counters.fresh hard).Lawful hard := by
  constructor <;> simp only [Counters.fresh] <;> omega

theorem Counters.Lawful.initial {cls : Option SlotClass} (h : cls = some .frame) (hard : Nat) :
    (Counters.initial cls hard).Lawful hard := by
  subst h; exact Counters.Lawful.fresh hard

theorem Counters.Lawful.takeValue {k : Counters} {hard : Nat} (h : k.Lawful hard) (hk : k.next < k.durCeil) :
    k.takeValue.Lawful hard :=
  ⟨hk, h.ceil, h.hard, h.top, h.mark⟩

theorem Counters.Lawful.reserve {k : Counters} {hard : Nat} (h : k.Lawful hard) : (k.reserve hard).Lawful hard := by
  have := h.ceil; have := h.hard
  exact ⟨h.next, by simp only [Counters.reserve]; omega, by simp only [Counters.reserve]; omega, h.top, h.mark⟩

theorem Counters.Lawful.requestMark {k : Counters} {hard : Nat} (h : k.Lawful hard) (m : Nat) :
    (k.requestMark m).Lawful hard :=
  ⟨h.next, h.ceil, h.hard, h.top, Nat.le_trans h.mark (Nat.le_max_left ..)⟩

theorem Counters.Lawful.commit {k : Counters} {hard : Nat} (h : k.Lawful hard) (c m : Nat) :
    (k.commit hard c m).Lawful hard := by
  have := h.next; have := h.ceil; have := h.hard; have := h.top; have := h.mark
  constructor <;> simp only [Counters.commit] <;> omega

theorem Counters.Lawful.lower {k : Counters} {hard : Nat} (h : k.Lawful hard) (new : Nat) :
    (k.lower new).Lawful new := by
  have := h.next; have := h.ceil
  constructor <;> simp only [Counters.lower] <;> first | omega | exact h.top | exact h.mark

/-- A restart of whatever record has a ceiling within the hard limit. -/
theorem Counters.Lawful.restart {k : Counters} {hard : Nat} (h : k.durCeil ≤ hard + 1) : k.restart.Lawful hard :=
  ⟨Nat.le_refl _, Nat.le_refl _, h, Nat.le_refl _, Nat.le_refl _⟩

theorem Counters.Lawful.recover (k : Counters) (hard : Nat) : (k.recover hard).Lawful hard :=
  Counters.Lawful.restart (Nat.min_le_right ..)

theorem Counters.Lawful.admitted {k : Counters} {hard c : Nat} (h : k.Lawful hard) (hc : c ≤ k.durMark) :
    (k.admitted c).Lawful hard := by
  unfold Counters.admitted
  split
  · exact ⟨h.next, h.ceil, h.hard, hc, h.mark⟩
  · exact ⟨h.next, h.ceil, h.hard, h.top, h.mark⟩

theorem le_markFor {c : Nat} (h : c ≤ maxWord) : c ≤ markFor c := by
  unfold markFor satAdd; omega

theorem Counters.Lawful.admitPromoting {k : Counters} {hard c : Nat} (h : k.Lawful hard) (hc : c ≤ maxWord) :
    (k.admitPromoting c).Lawful hard := by
  unfold Counters.admitPromoting
  dsimp only
  split
  · rename_i hk
    have ht : k.top < c := Nat.lt_of_le_of_lt h.top hk
    have := h.next; have := h.ceil; have := h.hard; have := le_markFor hc
    have e : k.admitted c = { k with
        mask := if 64 ≤ c - k.top then 1 else (k.mask <<< (c - k.top)) ||| 1
        top := c } := by unfold Counters.admitted; rw [if_pos ht]
    rw [e]
    exact ⟨h.next, h.ceil, h.hard, le_markFor hc, Nat.le_max_right ..⟩
  · exact h.admitted (by omega)

/-! ## Slot records -/

theorem SlotRec.lawful_empty : SlotRec.empty.lawful := fun h => nomatch h

/-- A record with the same class, the same hard limit and no new generation. -/
theorem SlotRec.lawful.of_gens {r q : SlotRec} (h : r.lawful) (hc : q.cls = r.cls)
    (hh : q.policy.hard = r.policy.hard) (hg : ∀ g ∈ q.gens, ∃ g' ∈ r.gens, g.ctr = g'.ctr) : q.lawful := by
  intro e g hm
  obtain ⟨g', hm', e'⟩ := hg g hm
  rw [e', hh]
  exact h (hc ▸ e) g' hm'

theorem SlotRec.mem_gens {r : SlotRec} {g : Gen} :
    g ∈ r.gens ↔ r.current = some g ∨ r.staged = some g ∨ r.outgoing = some g := by
  simp [SlotRec.gens]

/-- A record that has lost generations, or whose generations differ but in their counters from those of a lawful one. -/
theorem SlotRec.lawful.of_roles {r q : SlotRec} (h : r.lawful) (hc : q.cls = r.cls)
    (hh : q.policy.hard = r.policy.hard)
    (h1 : ∀ g, q.current = some g → ∃ g', r.current = some g' ∧ g.ctr = g'.ctr)
    (h2 : ∀ g, q.staged = some g → r.staged = some g) (h3 : ∀ g, q.outgoing = some g → r.outgoing = some g) :
    q.lawful := by
  refine h.of_gens hc hh fun g hg => ?_
  rcases SlotRec.mem_gens.1 hg with e | e | e
  · obtain ⟨g', e', he⟩ := h1 g e
    exact ⟨g', SlotRec.mem_gens.2 (Or.inl e'), he⟩
  · exact ⟨g, SlotRec.mem_gens.2 (Or.inr (Or.inl (h2 g e))), rfl⟩
  · exact ⟨g, SlotRec.mem_gens.2 (Or.inr (Or.inr (h3 g e))), rfl⟩

/-- A record with the same class, policy and generations. -/
theorem SlotRec.lawful.of_same {r q : SlotRec} (h : r.lawful) (hc : q.cls = r.cls) (hp : q.policy = r.policy)
    (h1 : q.current = r.current) (h2 : q.staged = r.staged) (h3 : q.outgoing = r.outgoing) : q.lawful :=
  h.of_roles hc (by rw [hp]) (fun g hg => ⟨g, h1 ▸ hg, rfl⟩) (fun _ hg => h2 ▸ hg) fun _ hg => h3 ▸ hg

theorem SlotRec.lawful.updGen {r : SlotRec} (h : r.lawful) {n : Half} {f : Gen → Gen}
    (hf : ∀ g, r.cls = some .frame → r.find n = some g → g.ctr.Lawful r.policy.hard →
      (f g).ctr.Lawful r.policy.hard) : (r.updGen n f).lawful := by
  intro e g hm
  rw [SlotRec.updGen_cls] at e
  rw [SlotRec.updGen_policy]
  rcases r.updGen_cases n f with ⟨a, ha, -, hk⟩ | ⟨-, e'⟩
  · have hfa := hf a e ha (h e a (SlotRec.find_mem ha))
    have old : ∀ g ∈ r.gens, g.ctr.Lawful r.policy.hard := h e
    rw [SlotRec.mem_gens] at hm
    rcases hk with ⟨-, e'⟩ | ⟨-, -, e'⟩ | ⟨-, -, -, e'⟩ <;> rw [e'] at hm <;> dsimp only at hm <;>
      rcases hm with hm | hm | hm <;>
      first
        | (cases hm; exact hfa)
        | exact old g (SlotRec.mem_gens.2 (by simp [hm]))
  · rw [e'] at hm
    exact h e g hm

theorem SlotRec.lawful.promote {r : SlotRec} (h : r.lawful) (t : Nat) (v : Option Word) : (r.promote t v).lawful := by
  unfold SlotRec.promote
  split
  · exact h
  · rename_i b hb
    dsimp only
    intro e g hm
    rw [SlotRec.mem_gens] at hm
    have old : ∀ g ∈ r.gens, g.ctr.Lawful r.policy.hard := h e
    have hs := old b (SlotRec.mem_gens.2 (by simp [hb]))
    rcases hm with hm | hm | hm
    · cases hm
      dsimp only
      cases v with
      | none => exact hs
      | some c => exact hs.admitPromoting (by have := c.isLt; unfold maxWord; omega)
    · cases hm
    · dsimp only at hm
      split at hm
      · cases hm
      · rename_i cur hc
        split at hm
        · cases hm
        · cases hm
          exact old cur (SlotRec.mem_gens.2 (by simp [hc]))

theorem SlotRec.lawful.setPolicy {r : SlotRec} (h : r.lawful) (p : Policy) : (r.setPolicy p).lawful := by
  have hcls : (r.setPolicy p).cls = r.cls := by
    unfold SlotRec.setPolicy; dsimp only; split <;> rfl
  intro e g hm
  rw [hcls] at e
  have old : ∀ g ∈ r.gens, g.ctr.Lawful r.policy.hard := h e
  have h1 : ∀ a ∈ r.gens, (a.ctr.lower (r.policyToStore p).hard).Lawful (r.policyToStore p).hard :=
    fun a ha => (old a ha).lower _
  show g.ctr.Lawful (r.setPolicy p).policy.hard
  have hp : (r.setPolicy p).policy = r.policyToStore p := by
    unfold SlotRec.setPolicy; dsimp only
  rw [hp]
  rw [SlotRec.mem_gens] at hm
  unfold SlotRec.setPolicy at hm
  simp only [e, SlotRec.mapGens, Option.map_eq_some_iff, Option.map_map] at hm
  rcases hm with ⟨a, ha, rfl⟩ | ⟨a, ha, rfl⟩ | ⟨a, ha, rfl⟩ <;>
    exact h1 a (SlotRec.mem_gens.2 (by simp [ha]))

theorem SlotRec.lawful.stage {r : SlotRec} (h : r.lawful) (n : Half) (k : Key) (t : Nat) : (r.stage n k t).lawful := by
  intro e g hm
  have old : ∀ g ∈ r.gens, g.ctr.Lawful r.policy.hard := h e
  rw [SlotRec.mem_gens] at hm
  unfold SlotRec.stage at hm
  rcases hm with hm | hm | hm
  · exact old g (SlotRec.mem_gens.2 (Or.inl hm))
  · cases hm
    exact Counters.Lawful.initial e _
  · exact old g (SlotRec.mem_gens.2 (Or.inr (Or.inr hm)))

theorem SlotRec.lawful_installed (label : Word) (cls : SlotClass) (p : Policy) (k : Key) (t : Nat) :
    (SlotRec.installed label cls p k t).lawful := by
  intro e g hm
  rw [SlotRec.mem_gens] at hm
  unfold SlotRec.installed at hm e
  rcases hm with hm | hm | hm
  · cases hm
    exact Counters.Lawful.initial e _
  · cases hm
  · cases hm

/-- Every durable change of a lawful record leaves a lawful one. -/
theorem Change.apply_lawful (ch : Change) (t : Nat) {r : SlotRec} (h : r.lawful) : (ch.apply t r).lawful := by
  cases ch with
  | define label cls p pol cl =>
    intro e g hm
    rw [SlotRec.mem_gens] at hm
    rcases hm with hm | hm | hm <;> cases hm
  | install label cls pol cl key => exact SlotRec.lawful_installed _ _ _ _ _
  | setPolicy pol cl => exact h.setPolicy _
  | adopt p => exact h.of_same rfl rfl rfl rfl rfl
  | retire => exact SlotRec.lawful_empty
  | stage n k => exact h.stage _ _ _
  | promote v => exact h.promote _ _
  | cancel => exact h.of_roles rfl rfl (fun g hg => ⟨g, hg, rfl⟩) (fun _ hg => nomatch hg) fun _ hg => hg
  | unlock => exact h

theorem SlotRec.lawful.erase (r : SlotRec) : r.erase.lawful := by
  intro e g hm
  rw [SlotRec.mem_gens] at hm
  rcases hm with hm | hm | hm <;> cases hm

/-- A record whose generations are all changed to lawful ones. -/
theorem SlotRec.lawful_mapGens {r : SlotRec} {f : Gen → Gen}
    (hf : r.cls = some .frame → ∀ g ∈ r.gens, (f g).ctr.Lawful r.policy.hard) : (r.mapGens f).lawful := by
  intro e g hm
  rw [SlotRec.mem_gens] at hm
  unfold SlotRec.mapGens at hm
  simp only [Option.map_eq_some_iff] at hm
  rcases hm with ⟨a, ha, rfl⟩ | ⟨a, ha, rfl⟩ | ⟨a, ha, rfl⟩ <;>
    exact hf e a (SlotRec.mem_gens.2 (by simp [ha]))

/-! ## The table -/

theorem State.countersLawful_kt {s t : State} (h : t.kt = s.kt) (hs : s.countersLawful) : t.countersLawful := by
  unfold State.countersLawful State.slot at *
  rwa [h]

theorem State.countersLawful.setSlot {s : State} (h : s.countersLawful) {n : Nat} {r : SlotRec} (hr : r.lawful) :
    (s.setSlot n r).countersLawful := by
  intro m
  rw [State.slot_setSlot]
  split
  · exact hr
  · exact h m

/-- The table with every record changed to a lawful one. -/
theorem State.countersLawful.map {s : State} (h : s.countersLawful) {f : SlotRec → SlotRec}
    (hf : ∀ r : SlotRec, r.lawful → (f r).lawful) : State.countersLawful { s with kt := s.kt.map f } := by
  intro m
  show SlotRec.lawful ((s.kt.map f).getD m SlotRec.empty)
  have hm := h m
  unfold State.slot at hm
  rw [getD_eq] at hm ⊢
  rw [Vector.getElem?_map]
  cases hk : s.kt[m]? with
  | none => exact SlotRec.lawful_empty
  | some r =>
    rw [hk] at hm
    exact hf r hm

end Sys2Proof.Machine
end

