-- ==== Sys2Proof/Laws/Ram.lean ====
section
/-! SUPPORT. Laws/Ram.lean: the window RAM: read after write, and the canonical form, which every write keeps. -/

namespace Sys2Proof.Machine

theorem Ram.read_write (m : List Host.Cell) (a b : Nat) (v : Byte) (h : Ram.wf m = true) :
    Ram.read (Ram.write m a v) b = if b = a then v else Ram.read m b := by
  have key : ∀ (m : List Host.Cell) (lo : Option Nat), Ram.wfFrom lo m = true →
      Ram.read (Ram.write m a v) b = (if b = a then v else Ram.read m b) ∧
      (∀ l, lo = some l → b ≤ l → Ram.read m b = 0) := by
    intro m
    induction m with
    | nil =>
      intro lo _
      refine ⟨?_, fun _ _ _ => rfl⟩
      rw [Ram.write]
      split <;> by_cases hb : b = a <;> simp [Ram.read, *]
    | cons x rest ih =>
      obtain ⟨k, w⟩ := x
      intro lo hw
      simp only [Ram.wfFrom, Bool.and_eq_true] at hw
      obtain ⟨⟨hlo, hnz⟩, hrest⟩ := hw
      obtain ⟨ih1, ih2⟩ := ih (some k) hrest
      have low : b ≤ k → Ram.read rest b = 0 := ih2 k rfl
      refine ⟨?_, ?_⟩
      · simp only [Ram.write]
        split
        · split
          · by_cases hb : b = a
            · subst hb
              have : b ≠ k := by omega
              simp [Ram.read, low (by omega), *]
            · simp [hb]
          · by_cases hb : b = a <;> simp [Ram.read, hb]
        · split
          · rename_i _ hak
            subst hak
            split
            · by_cases hb : b = a
              · subst hb; simp [*]
              · simp [Ram.read, hb]
            · by_cases hb : b = a <;> simp [Ram.read, hb]
          · by_cases hb : b = k
            · subst hb
              have : b ≠ a := by omega
              simp [Ram.read, this]
            · simp [Ram.read, hb, ih1]
      · intro l hl hbl
        subst hl
        have : l < k := by simpa using hlo
        have hb : b ≠ k := by omega
        simp [Ram.read, hb, low (by omega)]
  exact (key m none h).1

theorem Ram.wfFrom_write (m : List Host.Cell) (a : Nat) (v : Byte) (lo : Option Nat)
    (h : Ram.wfFrom lo m = true) (hlo : ∀ l, lo = some l → l < a) : Ram.wfFrom lo (Ram.write m a v) = true := by
  induction m generalizing lo with
  | nil =>
    rw [Ram.write]
    split
    · rfl
    · rename_i hv
      cases lo with
      | none => simpa [Ram.wfFrom] using hv
      | some l => simpa [Ram.wfFrom, hlo l rfl] using hv
  | cons x rest ih =>
    obtain ⟨k, w⟩ := x
    simp only [Ram.wfFrom, Bool.and_eq_true] at h
    obtain ⟨⟨h1, h2⟩, h3⟩ := h
    have wider : ∀ k' l : Nat, l < k' → Ram.wfFrom (some k') rest = true → Ram.wfFrom (some l) rest = true := by
      intro k' l hl hr
      cases rest with
      | nil => rfl
      | cons y ys =>
        simp only [Ram.wfFrom, Bool.and_eq_true, decide_eq_true_eq] at hr ⊢
        exact ⟨⟨by omega, hr.1.2⟩, hr.2⟩
    simp only [Ram.write]
    split
    · split
      · simp [Ram.wfFrom, h1, h3, by simpa using h2]
      · rename_i hv
        cases lo with
        | none => simp_all [Ram.wfFrom]
        | some l => simp_all [Ram.wfFrom]
    · split
      · rename_i _ hak
        subst hak
        split
        · cases lo with
          | none =>
            cases rest with
            | nil => rfl
            | cons y ys => simp_all [Ram.wfFrom]
          | some l => exact wider a l (hlo l rfl) h3
        · simp_all [Ram.wfFrom]
      · simp only [Ram.wfFrom, Bool.and_eq_true]
        exact ⟨⟨h1, h2⟩, ih (some k) h3 (by intro l hl; cases hl; omega)⟩

theorem Ram.wf_write (m : List Host.Cell) (a : Nat) (v : Byte) (h : Ram.wf m = true) :
    Ram.wf (Ram.write m a v) = true :=
  Ram.wfFrom_write m a v none h (by simp)

theorem Ram.wf_writeBytes (bs : List Byte) (m : List Host.Cell) (a : Nat) (h : Ram.wf m = true) :
    Ram.wf (Ram.writeBytes m a bs) = true := by
  induction bs generalizing m a with
  | nil => exact h
  | cons b bs ih => exact ih _ _ (Ram.wf_write m a b h)

/-- A byte outside the bytes written reads as before. -/
theorem Ram.read_writeBytes_outside (bs : List Byte) (m : List Host.Cell) (a b : Nat) (h : Ram.wf m = true)
    (hb : b < a ∨ a + bs.length ≤ b) : Ram.read (Ram.writeBytes m a bs) b = Ram.read m b := by
  induction bs generalizing m a with
  | nil => rfl
  | cons x bs ih =>
    have hl : (x :: bs).length = bs.length + 1 := rfl
    rw [hl] at hb
    show Ram.read (Ram.writeBytes (Ram.write m a x) (a + 1) bs) b = _
    rw [ih _ _ (Ram.wf_write m a x h) (by omega), Ram.read_write m a b x h, if_neg (by omega)]

/-- Bytes written read back. -/
theorem Ram.readBytes_writeBytes (bs : List Byte) (m : List Host.Cell) (a : Nat) (h : Ram.wf m = true) :
    Ram.readBytes (Ram.writeBytes m a bs) a bs.length = bs := by
  induction bs generalizing m a with
  | nil => rfl
  | cons x bs ih =>
    have hw := Ram.wf_write m a x h
    show Ram.read (Ram.writeBytes (Ram.write m a x) (a + 1) bs) a ::
      Ram.readBytes (Ram.writeBytes (Ram.write m a x) (a + 1) bs) (a + 1) bs.length = x :: bs
    rw [ih _ _ hw, Ram.read_writeBytes_outside bs _ (a + 1) a hw (by omega), Ram.read_write m a a x h, if_pos rfl]

end Sys2Proof.Machine
end

