-- ==== Sys2Proof/Laws/Work.lean ====
section
/-! SUPPORT. Laws/Work.lean: what the work of orders, of the journal and of the deadline list can do to a state, said
once for every operation (`Does`): what it never touches (`State.still`), and the laws that it keeps. -/

namespace Sys2Proof.Machine

/-! ## Causes -/

theorem Cause.settled_reset : Cause.reset.settled = true := rfl

theorem Cause.settled_fire (c : Cause) : c.fire.settled = true := by
  unfold Cause.fire Cause.settled
  split
  · simp
  · rename_i h
    cases hp : c.pending <;> cases he : c.enabled <;> cases hi : c.inService <;> simp_all

theorem Cause.settled_raise (c : Cause) : c.raise.settled = true := Cause.settled_fire _

theorem State.causesSettled_iff (s : State) : s.causesSettled ↔ ∀ i, (s.cause i).settled = true := by
  unfold State.causesSettled State.cause
  rw [List.all_eq_true]
  constructor
  · intro h i
    rw [getD_eq]
    by_cases hi : i < 13
    · simpa [hi] using h (s.nu.causes[i]) (by simp)
    · simp [hi, Cause.settled_reset]
  · intro h x hx
    obtain ⟨i, hi, rfl⟩ := List.getElem_of_mem hx
    have := h i
    rw [getD_eq] at this
    simpa [show i < 13 by simpa using hi] using this

theorem State.causesSettled_setCause {s : State} (b : Nat) {x : Cause} (h : s.causesSettled) (hx : x.settled = true) :
    (s.setCause b x).causesSettled := by
  rw [State.causesSettled_iff] at h ⊢
  intro i
  rw [State.cause_setCause]
  split
  · exact hx
  · exact h i

theorem Cause.settled_together (c : Cause) {d : Cause} (h : d.settled = true) : (c.together d).settled = true := by
  unfold Cause.together
  split
  · rfl
  · exact h

theorem State.causesSettled_together (s : State) {t : State} (h : t.causesSettled) : (s.together t).causesSettled := by
  rw [State.causesSettled_iff] at h ⊢
  intro i
  rw [State.cause_together]
  exact Cause.settled_together _ (h i)

/-! ## What work never touches -/

/-- The engine state up to the end of STOPPING. -/
def EngineState.upToStop : EngineState → EngineState
  | .stopping => .stopped
  | e => e

/-- What no work of orders, of the journal or of the deadline list touches. -/
structure Still where
  engine : EngineState
  held : EngineState
  served : Bool
  inReset : Option ResetCause
  cause : ResetCause
  strap : Bool
  provisioning : Bool
  startAt : Option StartPoint
  ended : Bool
  deferredCmds : List PortCommand
  summaryOn : Bool
  lastCmd : Option PortCommand
  lastOutcome : PortOutcome
  lastOffset : Nat
  cmdCount : Half
  supplyWarn : Bool
  supplySafe : Bool
  plan : Option Plan
  kept : Bool
  fallback : Bool
  lossStart : Option Nat
  internalStart : Option Nat
  unitsA : List (Nat × NvUnit)
  unitsB : List (Nat × NvUnit)
  stateA : BankState
  stateB : BankState
  current : Option Bank
  epoch : Word
  used : Nat
  next : Nat
  lastSeq : Word
  hot : Bool
  wasHot : Bool
  tm : Tm
  clock : Nat
  pending : List Instr

def State.still (s : State) : Still where
  engine := s.wp.engine.upToStop
  held := s.wp.held
  served := s.wp.served
  inReset := s.wp.inReset
  cause := s.wp.cause
  strap := s.wp.strap
  provisioning := s.wp.provisioning
  startAt := s.wp.startAt
  ended := s.wp.ended
  deferredCmds := s.wp.deferredCmds
  summaryOn := s.wp.summaryOn
  lastCmd := s.wp.lastCmd
  lastOutcome := s.wp.lastOutcome
  lastOffset := s.wp.lastOffset
  cmdCount := s.wp.cmdCount
  supplyWarn := s.wp.supplyWarn
  supplySafe := s.wp.supplySafe
  plan := s.od.plan
  kept := s.tu.kept
  fallback := s.tu.fallback
  lossStart := s.tu.lossStart
  internalStart := s.tu.internalStart
  unitsA := s.ju.unitsA
  unitsB := s.ju.unitsB
  stateA := s.ju.stateA
  stateB := s.ju.stateB
  current := s.ju.current
  epoch := s.ju.epoch
  used := s.ju.used
  next := s.ju.next
  lastSeq := s.ju.lastSeq
  hot := s.ju.hot
  wasHot := s.ju.wasHot
  tm := s.tm
  clock := s.clock
  pending := s.pending

/-- `t` is a state that work can leave of `s`. -/
structure Does (s t : State) : Prop where
  still : t.still = s.still
  ram : s.ramCanonical → t.ramCanonical
  causes : s.causesSettled → t.causesSettled
  list : s.listKept → t.listKept
  counters : s.countersLawful → t.countersLawful

theorem Does.refl (s : State) : Does s s := ⟨rfl, id, id, id, id⟩

theorem Does.trans {s t u : State} (h : Does s t) (k : Does t u) : Does s u :=
  ⟨k.still.trans h.still, fun x => k.ram (h.ram x), fun x => k.causes (h.causes x), fun x => k.list (h.list x),
    fun x => k.counters (h.counters x)⟩

/-- The events of a step taken together keep what the step keeps (R179). -/
theorem Does.together {s t : State} (h : Does s t) (r : State) : Does s (r.together t) :=
  h.trans ⟨rfl, id, State.causesSettled_together r, id, id⟩

/-- `Does.trans` with the last operation first. -/
theorem Does.of {s t u : State} (k : Does t u) (h : Does s t) : Does s u := h.trans k

/-- An update that shows in none of the laws is work. -/
theorem Does.of_eq {s t : State} (h1 : t.still = s.still) (h2 : t.wp.ram = s.wp.ram) (h3 : t.nu.causes = s.nu.causes)
    (h4 : t.tu.deadlines = s.tu.deadlines) (h5 : t.kt = s.kt) : Does s t where
  still := h1
  ram := by intro h; unfold State.ramCanonical at *; rwa [h2]
  causes := by intro h; unfold State.causesSettled at *; rwa [h3]
  list := by intro h; unfold State.listKept at *; rwa [h4]
  counters := State.countersLawful_kt h5

/-- A change of the Cipher Unit is work. -/
theorem Does.withXu {s t : State} (h : Does s t) (x : Xu) : Does s { t with xu := x } :=
  h.trans (Does.of_eq rfl rfl rfl rfl rfl)

theorem Does.foldl {α : Type} {f : State → α → State} (h : ∀ s a, Does s (f s a)) (l : List α) (s : State) :
    Does s (l.foldl f s) := by
  induction l generalizing s with
  | nil => exact Does.refl s
  | cons a l ih => exact (h s a).trans (ih _)

theorem Does.ite {s a b : State} {p : Prop} [Decidable p] (ha : Does s a) (hb : Does s b) :
    Does s (if p then a else b) := by split <;> assumption

/-! ## Plain updates -/

theorem State.setSlot_does (s : State) (n : Nat) (r : SlotRec) (hr : (s.slot n).lawful → r.lawful) :
    Does s (s.setSlot n r) :=
  ⟨rfl, id, id, id, fun h => h.setSlot (hr (h n))⟩
theorem State.setCtx_does (s : State) (c : Nat) (x : Option Ctx) : Does s (s.setCtx c x) := Does.of_eq rfl rfl rfl rfl rfl
theorem State.modCtx_does (s : State) (c : Nat) (f : Ctx → Ctx) : Does s (s.modCtx c f) := Does.of_eq rfl rfl rfl rfl rfl
theorem State.setLane_does (s : State) (n : Nat) (l : LaneState) : Does s (s.setLane n l) := Does.of_eq rfl rfl rfl rfl rfl
theorem State.setCell_does (s : State) (n : Nat) (x : OrderCell) : Does s (s.setCell n x) := Does.of_eq rfl rfl rfl rfl rfl
theorem State.setCoalescing_does (s : State) (n : Nat) (x : Coalescing) : Does s (s.setCoalescing n x) :=
  Does.of_eq rfl rfl rfl rfl rfl
theorem State.modGen_does (s : State) (n : Nat) (k : Half) (f : Gen → Gen)
    (hf : ∀ g, (s.slot n).cls = some .frame → (s.slot n).find k = some g → g.ctr.Lawful (s.slot n).policy.hard →
      (f g).ctr.Lawful (s.slot n).policy.hard) : Does s (s.modGen n k f) :=
  State.setSlot_does s n _ fun h => h.updGen hf
theorem State.setOrphans_does (s : State) : Does s s.setOrphans :=
  ⟨rfl, id, id, id, fun h => h.map fun _ hr => hr.of_same rfl rfl rfl rfl rfl⟩

theorem State.raise_does (s : State) (b : Nat) : Does s (s.raise b) :=
  ⟨rfl, id, fun h => State.causesSettled_setCause b h (Cause.settled_raise _), id, id⟩

theorem State.countCompletion_does (s : State) (n : Nat) : Does s (s.countCompletion n) := by
  unfold State.countCompletion
  split
  · exact Does.refl s
  · dsimp only
    exact Does.ite ((State.setCoalescing_does ..).trans (State.raise_does ..)) (State.setCoalescing_does ..)

theorem State.enter_stopped_does (s : State) (h : s.wp.engine = .stopping) : Does s (s.enter .stopped) :=
  (State.raise_does _ bitEngine).of ⟨by simp [State.still, h, EngineState.upToStop], id, id, id, id⟩

/-! ## The waiting list -/

theorem State.joinUp_does (s : State) : Does s s.joinUp := Does.of_eq rfl rfl rfl rfl rfl

theorem State.handOver_does (s : State) (b : RecBody) (o : Owner) : Does s (s.handOver b o) := by
  unfold State.handOver
  exact Does.ite (Does.refl s) ((State.joinUp_does _).of (Does.of_eq rfl rfl rfl rfl rfl))

theorem State.dropWaiting_does (s : State) (p : Rec → Bool) : Does s (s.dropWaiting p) :=
  (State.joinUp_does _).of (Does.of_eq rfl rfl rfl rfl rfl)

theorem State.dropMarks_does (s : State) (n : Nat) (l : List Gen) : Does s (s.dropMarks n l) :=
  State.dropWaiting_does s _

theorem State.placeOrUpdate_does (s : State) (p : Rec → Bool) (b : RecBody) (o : Owner) :
    Does s (s.placeOrUpdate p b o) := by
  unfold State.placeOrUpdate
  exact Does.ite (Does.of_eq rfl rfl rfl rfl rfl) (State.handOver_does ..)

theorem State.deadlineImage_does (s : State) (n : Nat) : Does s (s.deadlineImage n) := State.placeOrUpdate_does ..

theorem State.timeMark_does (s : State) : Does s s.timeMark := State.placeOrUpdate_does ..

theorem State.counterMark_does (s : State) (n : Nat) (g : Half) : Does s (s.counterMark n g) := by
  unfold State.counterMark
  split
  · exact Does.refl s
  · exact State.placeOrUpdate_does ..

theorem State.requestReservation_does (s : State) (n : Nat) (g : Half) : Does s (s.requestReservation n g) :=
  (State.modGen_does _ _ _ _ fun _ _ _ h => h.reserve).trans (State.counterMark_does ..)

theorem State.requestMark_does (s : State) (n : Nat) (g : Half) (m : Nat) : Does s (s.requestMark n g m) :=
  (State.modGen_does _ _ _ _ fun _ _ _ h => h.requestMark m).trans (State.counterMark_does ..)

theorem State.settleBudgets_does (s : State) : Does s s.settleBudgets := Does.of_eq rfl rfl rfl rfl rfl

/-! ## The deadline list -/

theorem Deadline.before_total {d e : Deadline} (h : d.before e = false) (k : ¬(d.slot = e.slot ∧ d.kind = e.kind)) :
    e.before d = true := by
  have ord : d.kind.order = e.kind.order → d.kind = e.kind := by
    cases d.kind <;> cases e.kind <;> simp [DeadlineKind.order]
  simp only [Deadline.before, Bool.or_eq_false_iff, Bool.and_eq_false_iff, decide_eq_false_iff_not,
    Bool.or_eq_true, Bool.and_eq_true, decide_eq_true_eq, beq_iff_eq, beq_eq_false_iff_ne] at *
  by_cases h1 : d.due = e.due
  · by_cases h2 : d.slot = e.slot
    · have : d.kind.order ≠ e.kind.order := fun x => k ⟨h2, ord x⟩
      omega
    · omega
  · omega

theorem Deadline.before_trans {d e f : Deadline} (h : d.before e = true) (k : e.before f = true) :
    d.before f = true := by
  simp only [Deadline.before, Bool.or_eq_true, Bool.and_eq_true, decide_eq_true_eq, beq_iff_eq] at *
  omega

theorem mem_insertDeadline {d x : Deadline} {l : List Deadline} : x ∈ insertDeadline d l ↔ x = d ∨ x ∈ l := by
  induction l with
  | nil => simp [insertDeadline]
  | cons e rest ih =>
    simp only [insertDeadline]
    split <;> simp [ih]
    tauto

/-- An entry whose slot and kind are not in the list goes to its place in list order. -/
theorem pairwise_insertDeadline {d : Deadline} {l : List Deadline} (h : l.Pairwise Deadline.apart)
    (k : ∀ x ∈ l, ¬(x.slot = d.slot ∧ x.kind = d.kind)) : (insertDeadline d l).Pairwise Deadline.apart := by
  induction l with
  | nil => simp [insertDeadline]
  | cons e rest ih =>
    rw [List.pairwise_cons] at h
    have ke := k e (by simp)
    have kd : ¬(d.slot = e.slot ∧ d.kind = e.kind) := fun x => ke ⟨x.1.symm, x.2.symm⟩
    simp only [insertDeadline]
    split
    · rename_i hd
      refine List.pairwise_cons.2 ⟨?_, List.pairwise_cons.2 h⟩
      intro x hx
      rcases List.mem_cons.1 hx with rfl | hx
      · exact ⟨hd, kd⟩
      · exact ⟨Deadline.before_trans hd (h.1 x hx).1,
          fun y => k x (by simp [hx]) ⟨y.1.symm, y.2.symm⟩⟩
    · rename_i hd
      refine List.pairwise_cons.2 ⟨?_, ih h.2 fun x hx => k x (by simp [hx])⟩
      intro x hx
      rcases mem_insertDeadline.1 hx with rfl | hx
      · exact ⟨Deadline.before_total (by simpa using hd) kd, ke⟩
      · exact h.1 x hx

theorem State.setDeferred_does (s : State) (n : Nat) (k : DeadlineKind) (v : Bool) : Does s (s.setDeferred n k v) :=
  State.setSlot_does s n _ fun h => h.of_same rfl rfl rfl rfl rfl

theorem State.removeDeadline_does (s : State) (n : Nat) (k : DeadlineKind) : Does s (s.removeDeadline n k) :=
  Does.trans (State.setDeferred_does s n k false) ⟨rfl, id, id, fun h => List.Pairwise.filter _ h, id⟩

theorem State.setDeadline_does (s : State) (n : Nat) (k : DeadlineKind) (due : Nat) :
    Does s (s.setDeadline n k due) := by
  refine ⟨rfl, id, id, fun h => pairwise_insertDeadline (List.Pairwise.filter _ h) ?_,
    (State.removeDeadline_does s n k).counters⟩
  intro x hx
  have := (List.mem_filter.1 hx).2
  intro ⟨h1, h2⟩
  simp [h1, h2] at this

theorem State.removeAllDeadlines_does (s : State) (n : Nat) : Does s (s.removeAllDeadlines n) :=
  (((State.removeDeadline_does ..).trans (State.removeDeadline_does ..)).trans (State.removeDeadline_does ..)).trans
    (State.removeDeadline_does ..)

theorem State.act_does (s : State) (n : Nat) (k : DeadlineKind) : Does s (s.act n k) := by
  unfold State.act
  cases k <;> dsimp only
  · split
    · exact Does.refl s
    · refine (((State.setSlot_does _ _ _ fun h => ?_).trans (State.dropMarks_does ..)).trans
        (State.deadlineImage_does ..)).trans (State.raise_does ..)
      exact h.of_roles rfl rfl (fun g hg => ⟨g, hg, rfl⟩) (fun _ hg => nomatch hg) fun _ hg => hg
  · split
    · exact Does.refl s
    · refine ((State.setSlot_does _ _ _ fun h => ?_).trans (State.dropMarks_does ..)).trans (State.deadlineImage_does ..)
      exact h.of_roles rfl rfl (fun g hg => ⟨g, hg, rfl⟩) (fun _ hg => hg) fun _ hg => nomatch hg
  · split
    · exact Does.refl s
    · rename_i g hg
      refine Does.ite (Does.refl s)
        (((State.setSlot_does _ _ _ fun h => ?_).trans (State.deadlineImage_does ..)).trans (State.raise_does ..))
      exact h.of_roles rfl rfl (fun _ e => ⟨g, hg, by cases e; rfl⟩) (fun _ e => e) fun _ e => e
  · split
    · exact Does.refl s
    · refine Does.ite (Does.refl s) (((State.setSlot_does _ _ _ fun h => ?_).trans
        (State.deadlineImage_does ..)).trans (State.raise_does ..))
      exact h.of_same rfl rfl rfl rfl rfl

theorem State.takeDeferred_does (s : State) (n : Nat) : Does s (s.takeDeferred n) :=
  Does.foldl (fun s _ => Does.ite ((State.setDeferred_does ..).trans (State.act_does ..)) (Does.refl s)) _ s

theorem State.fireLoop_does (k : Nat) (s : State) : Does s (State.fireLoop k s) := by
  induction k generalizing s with
  | zero => exact Does.refl s
  | succ k ih =>
    unfold State.fireLoop
    split
    · exact Does.refl s
    · rename_i d rest hd
      refine Does.ite (Does.refl s) (Does.trans (t := { s with tu := { s.tu with deadlines := rest } }) ?_ ?_)
      · exact ⟨rfl, id, id, fun h => (List.pairwise_cons.1 (by rw [← hd]; exact h)).2, id⟩
      · exact Does.trans (Does.ite (State.setDeferred_does ..) (State.act_does ..)) (ih _)

theorem State.fireDue_does (s : State) : Does s s.fireDue := by
  unfold State.fireDue
  exact Does.ite ((State.fireLoop_does ..).together s) (Does.refl s)

theorem State.setTime_does (s : State) (t : Nat) : Does s (s.setTime t).1 := by
  unfold State.setTime
  dsimp only
  split
  · exact (Does.of_eq rfl rfl rfl rfl rfl : Does s { s with tu := { s.tu with now := t, uncertain := false } }).trans
      ((State.fireDue_does _).trans (State.timeMark_does _))
  · split
    · exact (State.timeMark_does _).of (Does.of_eq rfl rfl rfl rfl rfl)
    · refine (State.raise_does _ bitTime).of ((State.timeMark_does _).of ?_)
      exact Does.of_eq (by simp [State.still]) (by simp) (by simp) (by simp) (by simp)

theorem State.currentDeadlines_does (s : State) (n : Nat) : Does s (s.currentDeadlines n) := by
  unfold State.currentDeadlines
  dsimp only
  split
  · exact Does.refl s
  · split
    · refine Does.of (State.removeDeadline_does ..) ?_
      split
      · exact State.removeDeadline_does ..
      · exact State.setDeadline_does ..
    · refine Does.of (State.setDeadline_does ..) ?_
      split
      · exact State.removeDeadline_does ..
      · exact State.setDeadline_does ..

theorem State.changeDeadlines_does (s : State) (n : Nat) (ch : Change) : Does s (s.changeDeadlines n ch) := by
  unfold State.changeDeadlines
  dsimp only
  split
  · exact Does.refl s
  · exact State.currentDeadlines_does ..
  · exact State.currentDeadlines_does ..
  · exact Does.refl s
  · exact State.removeAllDeadlines_does ..
  · split
    · exact Does.refl s
    · exact State.setDeadline_does ..
  · split
    · exact ((State.removeDeadline_does ..).trans (State.removeDeadline_does ..)).trans (State.currentDeadlines_does ..)
    · exact ((State.removeDeadline_does ..).trans (State.setDeadline_does ..)).trans (State.currentDeadlines_does ..)
  · exact State.removeDeadline_does ..
  · exact Does.refl s

theorem State.commitChange_does (s : State) (n : Nat) (ch : Change) (t : Nat) : Does s (s.commitChange n ch t) := by
  unfold State.commitChange
  dsimp only
  refine Does.trans ((((State.setSlot_does _ _ _ fun h => ch.apply_lawful t h).trans (State.dropMarks_does ..)).trans (State.setOrphans_does _)).trans
    ((State.changeDeadlines_does ..).trans (State.fireDue_does _))) (Does.ite (State.raise_does ..) (Does.refl _))

theorem State.toTamperGroup_does (s : State) (b : RecBody) : Does s (s.toTamperGroup b) := by
  unfold State.toTamperGroup
  exact Does.ite (Does.refl s) (Does.of_eq rfl rfl rfl rfl rfl)

theorem State.eraseSlot_does (s : State) (n : Nat) : Does s (s.eraseSlot n) := by
  unfold State.eraseSlot
  exact Does.ite ((((State.setSlot_does _ _ _ fun _ => SlotRec.lawful.erase _).trans (State.removeAllDeadlines_does ..)).trans
    (State.dropWaiting_does ..)).trans (State.toTamperGroup_does ..)) (Does.refl s)

end Sys2Proof.Machine
end

