-- ==== Sys2Proof/Laws/Orders.lean ====
section
/-! SUPPORT. Laws/Orders.lean: `Does` for the work of the Journal Unit, for the ways in which orders go on and end, and
for the dispatcher. -/

namespace Sys2Proof.Machine

/-! ## The Journal Unit -/

theorem State.beginGroup_does (s : State) (l : List Rec) (a b : Bool) : Does s (s.beginGroup l a b) := by
  unfold State.beginGroup
  split
  · exact Does.refl s
  · exact (State.settleBudgets_does _).of (Does.of_eq rfl rfl rfl rfl rfl)

theorem State.beginCompaction_does (s : State) : Does s s.beginCompaction := Does.of_eq rfl rfl rfl rfl rfl

theorem State.beginCompStep_does (s : State) (c : Compaction) : Does s (s.beginCompStep c) := by
  unfold State.beginCompStep
  dsimp only
  split <;> exact Does.of_eq rfl rfl rfl rfl rfl

theorem State.beginErase_does (s : State) : Does s s.beginErase := by
  unfold State.beginErase
  exact Does.ite (Does.of_eq rfl rfl rfl rfl rfl) (Does.refl s)

theorem State.eraseKick_does (s : State) : Does s s.eraseKick := by
  unfold State.eraseKick
  exact Does.ite (State.beginErase_does s) (Does.refl s)

theorem State.compactIfDue_does (s : State) : Does s s.compactIfDue := by
  unfold State.compactIfDue
  exact Does.ite (State.beginCompaction_does s) (Does.refl s)

theorem State.makeDue_does (s : State) : Does s s.makeDue := Does.of_eq rfl rfl rfl rfl rfl

theorem State.choose_does (s : State) : Does s s.choose := by
  have due : Does s s.makeDue.compactIfDue := (State.compactIfDue_does _).of (State.makeDue_does s)
  have grp : ∀ (t : State) (l : List Rec) (a b : Bool), Does s t → Does s (t.beginGroup l a b) :=
    fun t l a b h => (State.beginGroup_does t l a b).of h
  unfold State.choose
  split
  · dsimp only
    refine Does.ite (Does.ite (grp _ _ _ _ ?_) due) (Does.ite (grp _ _ _ _ ?_) due) <;> exact Does.of_eq rfl rfl rfl rfl rfl
  · refine Does.ite (grp _ _ _ _ ?_) due
    exact Does.of_eq rfl rfl rfl rfl rfl
  · dsimp only
    have hc : Does s s.compactIfDue := State.compactIfDue_does s
    refine Does.ite hc (Does.ite hc (Does.ite ?_ ?_))
    · refine (State.joinUp_does _).of ((State.beginGroup_does _ _ _ _).of ?_)
      refine hc.trans ?_
      exact Does.of_eq rfl rfl rfl rfl rfl
    · exact (State.compactIfDue_does _).of ((State.makeDue_does _).of hc)

theorem State.kick_does (s : State) : Does s s.kick := by
  unfold State.kick
  refine Does.ite ((State.eraseKick_does _).of (Does.ite (Does.refl s) ?_)) (Does.refl s)
  split
  · exact Does.ite (State.beginCompStep_does ..) (Does.refl s)
  · exact Does.ite (State.choose_does s) (Does.refl s)

/-! ## The cipher queue -/

theorem State.takeCounter_does (s : State) (c : Nat) : Does s (s.takeCounter c) := by
  unfold State.takeCounter
  split
  · exact Does.refl s
  · rename_i x _
    dsimp only
    split
    · exact Does.refl s
    · rename_i g hg
      split
      · exact Does.refl s
      · rename_i hk
        have h0 : ∀ f, Does s ((s.modCtx c f).modGen x.order.slot.toNat g.number
            fun g => { g with ctr := g.ctr.takeValue }) := fun f =>
          (State.modGen_does _ _ _ _ fun a _ ha h => by
            obtain rfl : g = a := Option.some.inj ((SlotRec.find_current hg).symm.trans ha)
            exact h.takeValue (by omega)).of (State.modCtx_does s c f)
        have h1 : ∀ t : State, Does s t → Does s (t.requestReservation x.order.slot.toNat g.number) :=
          fun t h => (State.requestReservation_does ..).of h
        have h2 : ∀ t : State, Does s t → Does s (((t.setSlot x.order.slot.toNat
            { t.slot x.order.slot.toNat with renewDue := true }).removeDeadline x.order.slot.toNat .renew).raise
            bitCounterLow) := by
          intro t h
          refine (State.raise_does ..).of ((State.removeDeadline_does ..).of ((State.setSlot_does _ _ _ fun hr => ?_).of h))
          exact hr.of_same rfl rfl rfl rfl rfl
        split
        · exact h2 _ (Does.ite (h1 _ (h0 _)) (h0 _))
        · exact Does.ite (h1 _ (h0 _)) (h0 _)

theorem State.beginService_does (s : State) (q : Request) : Does s (s.beginService q) := by
  unfold State.beginService
  dsimp only
  have h1 : Does s (if q.op = CipherOp.protect then s.takeCounter q.ctx else s) :=
    Does.ite (State.takeCounter_does ..) (Does.refl s)
  have h2 : ∀ t : State, Does s t → ∀ f : Ctx → Ctx, Does s (if q.op = CipherOp.tokenCheck then t.modCtx q.ctx f else t) :=
    fun t h f => Does.ite ((State.modCtx_does ..).of h) h
  exact Does.withXu (h2 _ h1 _) _

theorem State.cipherKick_does (s : State) : Does s s.cipherKick := by
  unfold State.cipherKick
  split
  · exact (State.beginService_does ..).of (Does.of_eq rfl rfl rfl rfl rfl)
  · exact Does.refl s

theorem State.giveFault_does (s : State) (k : FaultKind) (a b : Nat) : Does s (s.giveFault k a b) := by
  unfold State.giveFault
  refine (State.raise_does _ bitFault).of (Does.of_eq rfl rfl ?_ rfl rfl)
  dsimp only
  split <;> rfl

theorem State.countTest_does (s : State) (h : Bool) (a b : Nat) : Does s (s.countTest h a b) := by
  unfold State.countTest
  exact Does.ite ((Does.refl s).withXu _) ((State.giveFault_does ..).of ((Does.refl s).withXu _))

theorem State.abandon_does (s : State) : Does s s.abandon := by
  unfold State.abandon
  split
  · exact Does.refl s
  · rename_i sv _
    extract_lets _ s1 n _ s2
    have h1 : Does s s1 := (Does.refl s).withXu _
    have h2 : Does s s2 := h1.withXu _
    refine Does.ite ?_ h1
    split
    · exact h2
    · exact (State.countTest_does ..).of h2

theorem State.dropRequest_does (s : State) (c : Nat) : Does s (s.dropRequest c) := by
  unfold State.dropRequest
  exact Does.withXu (Does.ite (State.abandon_does s) (Does.refl s)) _

/-! ## Completion -/

theorem State.writeRam_does (s : State) (a : Nat) (l : List Byte) :
    Does s { s with wp := { s.wp with ram := Ram.writeBytes s.wp.ram a l } } :=
  ⟨rfl, fun h => Ram.wf_writeBytes l _ a h, id, id, id⟩

theorem State.writeOutput_does (s : State) (x : Ctx) (code : Code) : Does s (s.writeOutput x code) := by
  unfold State.writeOutput
  exact Does.ite (State.writeRam_does ..) (Does.refl s)

theorem State.writeResult_does (s : State) (x : Ctx) (code : Code) (res : Res) : Does s (s.writeResult x code res) :=
  State.setCell_does ..

theorem State.countDone_does (s : State) (n : Nat) : Does s (s.countDone n) := by
  unfold State.countDone
  exact Does.ite ((State.countCompletion_does ..).of (State.setLane_does ..)) (State.setLane_does ..)

theorem State.release_does (s : State) (c : Nat) (x : Ctx) : Does s (s.release c x) := by
  unfold State.release
  split
  · exact Does.refl s
  · refine (State.takeDeferred_does ..).of (Does.ite ?_ ?_)
    · exact (State.eraseSlot_does ..).of (State.modCtx_does ..)
    · exact State.modCtx_does ..

theorem State.freeCtx_does (s : State) (c : Nat) : Does s (s.freeCtx c) := Does.of_eq rfl rfl rfl rfl rfl

theorem State.complete_does (s : State) (c : Nat) (code : Code) (res : Res) : Does s (s.complete c code res) := by
  unfold State.complete
  split
  · exact Does.refl s
  · exact (State.freeCtx_does ..).of ((State.release_does ..).of ((State.countDone_does ..).of
      ((State.writeResult_does ..).of (State.writeOutput_does ..))))

theorem State.endOrder_does (s : State) (c : Nat) (code : Code) : Does s (s.endOrder c code) := by
  unfold State.endOrder
  split
  · exact Does.refl s
  · exact (State.complete_does ..).of ((State.dropRequest_does ..).of (State.dropWaiting_does ..))

theorem State.completeSync_does (s : State) (c : Nat) : Does s (s.completeSync c) := by
  unfold State.completeSync
  split
  · exact Does.refl s
  · exact State.complete_does ..

theorem State.abortAll_does (s : State) : Does s s.abortAll := by
  unfold State.abortAll
  refine Does.of (Does.foldl (fun s c => ?_) _ _) ((State.abandon_does s).withXu _)
  exact Does.ite (State.modCtx_does ..) (Does.ite (State.modCtx_does ..) (State.endOrder_does ..))

/-! ## Waits -/

theorem State.refuse_does (s : State) (c : Nat) (code : Code) : Does s (s.refuse c code) := State.complete_does ..

theorem State.placeRequest_does (s : State) (c : Nat) (op : CipherOp) : Does s (s.placeRequest c op) := by
  unfold State.placeRequest
  split
  · exact Does.refl s
  · refine Does.ite (State.endOrder_does ..) ((State.cipherKick_does _).of ?_)
    exact Does.withXu (State.modCtx_does s c _) _

theorem State.placeRecord_does (s : State) (c : Nat) (ch : Change) : Does s (s.placeRecord c ch) := by
  unfold State.placeRecord
  split
  · exact Does.refl s
  · refine Does.ite (State.endOrder_does ..) (Does.ite (State.endOrder_does ..) ?_)
    dsimp only
    split
    · exact (State.handOver_does ..).of (State.modCtx_does ..)
    · exact (State.handOver_does ..).of ((State.dropWaiting_does ..).of (State.modCtx_does ..))
    · exact (State.handOver_does ..).of (State.modCtx_does ..)

theorem State.beginWait_does (s : State) (c : Nat) (w : WaitPoint) (request : State → State)
    (h : ∀ t, Does t (request t)) : Does s (s.beginWait c w request) := by
  unfold State.beginWait
  split
  · exact Does.refl s
  · exact Does.ite (State.endOrder_does ..) (Does.ite (State.endOrder_does ..)
      ((State.settleBudgets_does _).of ((h _).of (State.modCtx_does ..))))

theorem State.counterStep_does (s : State) (c : Nat) : Does s (s.counterStep c) := by
  unfold State.counterStep
  split
  · exact Does.refl s
  · dsimp only
    split
    · exact Does.refl s
    · refine Does.ite (State.complete_does ..) (Does.ite ?_ (State.placeRequest_does ..))
      exact State.beginWait_does _ _ _ _ fun t => Does.ite (Does.refl t) (State.requestReservation_does ..)

/-- The window takes a value that is at or below the durable mark (R61). -/
theorem State.finishAdmit_does (s : State) (c : Nat)
    (h : ∀ x g, s.ctx c = some x → (s.slot x.order.slot.toNat).find x.genNo = some g → x.value ≤ g.ctr.durMark) :
    Does s (s.finishAdmit c) := by
  unfold State.finishAdmit
  split
  · exact Does.refl s
  · rename_i x hx
    have h0 : Does s (s.modGen x.order.slot.toNat x.genNo fun g => { g with ctr := g.ctr.admitted x.value }) :=
      State.modGen_does _ _ _ _ fun g _ hg hk => hk.admitted (h x g hx hg)
    refine Does.ite (State.complete_does ..) ((State.complete_does ..).of ?_)
    split
    · exact h0
    · exact Does.ite ((State.requestMark_does ..).of h0) h0

theorem State.admitVerified_does (s : State) (c : Nat) : Does s (s.admitVerified c) := by
  unfold State.admitVerified
  split
  · exact Does.refl s
  · rename_i x hx
    dsimp only
    split
    · exact Does.refl s
    · rename_i g hg
      split
      · exact Does.ite (State.endOrder_does ..) (State.placeRecord_does ..)
      · split
        · exact State.beginWait_does _ _ _ _ fun t => Does.ite (Does.refl t) (State.requestMark_does ..)
        · refine State.finishAdmit_does s c fun y a hy ha => ?_
          obtain rfl : x = y := Option.some.inj (hx.symm.trans hy)
          obtain rfl : g = a := Option.some.inj (hg.symm.trans ha)
          omega

/-! ## The order kinds -/

theorem startDefineSlot_does (c : Nat) (x : Ctx) (s : State) : Does s (startDefineSlot c x s) := by
  unfold startDefineSlot
  dsimp only
  split
  · exact State.refuse_does ..
  · exact State.placeRecord_does ..
  · exact Does.refl s

theorem startInstallAnchor_does (c : Nat) (x : Ctx) (s : State) : Does s (startInstallAnchor c x s) := by
  unfold startInstallAnchor
  dsimp only
  split
  · exact State.refuse_does ..
  · exact (State.placeRequest_does ..).of ((State.modCtx_does ..).of (State.writeRam_does ..))
  · exact Does.refl s

theorem startReadSlot_does (c : Nat) (x : Ctx) (s : State) : Does s (startReadSlot c x s) := by
  unfold startReadSlot
  exact Does.ite (State.complete_does ..) ((State.complete_does ..).of (State.modCtx_does ..))

theorem startSetPolicy_does (c : Nat) (x : Ctx) (s : State) : Does s (startSetPolicy c x s) := by
  unfold startSetPolicy
  split
  · exact State.refuse_does ..
  · exact State.placeRecord_does ..

theorem startAdopt_does (c : Nat) (x : Ctx) (s : State) : Does s (startAdopt c x s) := by
  unfold startAdopt
  dsimp only
  split
  · exact State.refuse_does ..
  · exact State.placeRecord_does ..
  · exact Does.refl s

theorem startRetireSlot_does (c : Nat) (x : Ctx) (s : State) : Does s (startRetireSlot c x s) := by
  unfold startRetireSlot
  exact Does.ite (State.refuse_does ..) (State.placeRecord_does ..)

theorem startRenewLocal_does (c : Nat) (x : Ctx) (s : State) : Does s (startRenewLocal c x s) := by
  unfold startRenewLocal
  dsimp only
  split
  · exact State.refuse_does ..
  · refine Does.ite ((State.complete_does ..).of (State.modCtx_does ..)) ?_
    exact (State.placeRequest_does ..).of ((State.modCtx_does ..).of (State.modCtx_does ..))
  · exact Does.refl s

theorem startRenewRemote_does (c : Nat) (x : Ctx) (s : State) : Does s (startRenewRemote c x s) := by
  unfold startRenewRemote
  dsimp only
  split
  · exact State.refuse_does ..
  · refine Does.ite ((State.refuse_does ..).of (State.modCtx_does ..)) ?_
    split
    · exact (State.refuse_does ..).of (State.modCtx_does ..)
    · exact (State.placeRequest_does ..).of ((State.modCtx_does ..).of (State.modCtx_does ..))
    · exact State.modCtx_does ..

theorem startRenewConfirm_does (c : Nat) (x : Ctx) (s : State) : Does s (startRenewConfirm c x s) := by
  unfold startRenewConfirm
  split
  · exact State.refuse_does ..
  · exact (State.placeRecord_does ..).of (State.modCtx_does ..)

theorem startRenewCancel_does (c : Nat) (x : Ctx) (s : State) : Does s (startRenewCancel c x s) := by
  unfold startRenewCancel
  split
  · exact State.refuse_does ..
  · exact (State.placeRecord_does ..).of (State.modCtx_does ..)

theorem startProtectFrame_does (c : Nat) (x : Ctx) (s : State) : Does s (startProtectFrame c x s) := by
  unfold startProtectFrame
  refine Does.ite (State.refuse_does ..) (Does.ite (State.refuse_does ..) ?_)
  split
  · exact State.refuse_does ..
  · refine Does.ite (State.complete_does ..) (Does.ite (State.complete_does ..) ?_)
    exact (State.counterStep_does ..).of (State.modCtx_does ..)

theorem startAdmitFrame_does (c : Nat) (x : Ctx) (s : State) : Does s (startAdmitFrame c x s) := by
  unfold startAdmitFrame
  refine Does.ite (State.refuse_does ..) (Does.ite (State.refuse_does ..) ?_)
  split
  · exact State.refuse_does ..
  · refine Does.ite (State.refuse_does ..) (Does.ite (State.refuse_does ..) (Does.ite (State.complete_does ..) ?_))
    split
    · exact State.complete_does ..
    · exact (State.placeRequest_does ..).of (State.modCtx_does ..)

theorem startSetTime_does (c : Nat) (x : Ctx) (s : State) : Does s (startSetTime c x s) :=
  (State.complete_does ..).of (State.setTime_does ..)

theorem startSync_does (c : Nat) (x : Ctx) (s : State) : Does s (startSync c x s) := by
  unfold startSync
  exact Does.ite (State.complete_does ..) (State.modCtx_does ..)

theorem startUnlock_does (c : Nat) (x : Ctx) (s : State) : Does s (startUnlock c x s) := by
  unfold startUnlock
  refine Does.ite (State.refuse_does ..) (Does.ite (State.complete_does ..) ?_)
  split
  · exact State.refuse_does ..
  · split
    · exact State.refuse_does ..
    · exact Does.ite (State.refuse_does ..) ((State.placeRequest_does ..).of (State.modCtx_does ..))

theorem State.startOrder_does (s : State) (c : Nat) : Does s (s.startOrder c) := by
  unfold State.startOrder
  split
  · exact Does.refl s
  · split
    · exact State.refuse_does ..
    · split
      · exact Does.refl s
      · exact startDefineSlot_does ..
      · exact startInstallAnchor_does ..
      · exact startReadSlot_does ..
      · exact startSetPolicy_does ..
      · exact startAdopt_does ..
      · exact startRetireSlot_does ..
      · exact startRenewLocal_does ..
      · exact startRenewRemote_does ..
      · exact startRenewConfirm_does ..
      · exact startRenewCancel_does ..
      · exact startProtectFrame_does ..
      · exact startAdmitFrame_does ..
      · exact startSetTime_does ..
      · exact startSync_does ..
      · exact startUnlock_does ..

/-! ## The dispatcher -/

theorem State.look_does (s : State) (n : Nat) : Does s (s.look n) := by
  unfold State.look
  refine Does.ite ?_ (Does.refl s)
  split
  · exact State.setLane_does ..
  · exact State.setLane_does ..
  · exact Does.refl s

theorem State.looks_does (s : State) : Does s s.looks := Does.foldl (fun _ _ => State.look_does ..) _ s

theorem State.refill_does (s : State) : Does s s.refill := by
  refine Does.foldl (fun s n => ?_) _ s
  split
  · exact Does.refl s
  · exact State.setLane_does ..

theorem State.arbiterChoice_does {s t : State} {n : Nat} (h : s.arbiterChoice = some (t, n)) : Does s t := by
  unfold State.arbiterChoice at h
  dsimp only at h
  split at h
  · cases h
  · rw [Option.map_eq_some_iff] at h
    obtain ⟨m, -, hm⟩ := h
    cases hm
    exact Does.ite (Does.refl s) (State.refill_does s)

theorem State.take_does (s : State) (n c : Nat) (p : PlanLane) : Does s (s.take n c p) := by
  unfold State.take
  dsimp only
  refine (State.startOrder_does _ _).of ((State.setLane_does _ _ _).of ((State.setCtx_does _ _ _).of ?_))
  exact State.setCell_does _ _ _

theorem State.lookAndTake_does (s : State) : Does s s.lookAndTake.1 := by
  unfold State.lookAndTake
  split
  · have hl : Does s s.looks := State.looks_does s
    generalize s.looks = t at *
    dsimp only
    split
    · rename_i hc
      have hc := hl.trans (State.arbiterChoice_does hc)
      split
      · exact hc
      · exact (State.kick_does _).of ((State.take_does _ _ _ _).of hc)
    · exact hl
  · exact Does.refl s

theorem State.arbitrate_does (k : Nat) (s : State) : Does s (State.arbitrate k s) := by
  induction k generalizing s with
  | zero => exact Does.refl s
  | succ k ih =>
    unfold State.arbitrate
    have h := State.lookAndTake_does s
    split
    · rename_i heq
      rw [heq] at h
      exact (ih _).of h
    · rename_i heq
      rwa [heq] at h

theorem State.settle_does (s : State) : Does s s.settle := by
  unfold State.settle
  split
  · rename_i h
    rw [Bool.and_eq_true, beq_iff_eq] at h
    refine Does.of (State.enter_stopped_does _ ?_) (Does.of_eq rfl rfl rfl rfl rfl)
    exact h.1
  · exact Does.refl s

theorem State.pump_does (k : Nat) (s : State) : Does s (State.pump k s) := by
  induction k generalizing s with
  | zero => exact Does.refl s
  | succ k ih =>
    unfold State.pump
    split
    · exact Does.refl s
    · exact (ih _).of ((State.arbitrate_does ..).of (State.completeSync_does ..))

theorem State.serve_does (s : State) : Does s s.serve :=
  (State.settle_does _).of ((State.pump_does ..).of (State.arbitrate_does ..))

theorem State.wantScan_does (s : State) (w : Nat → Bool) : Does s (s.wantScan w) :=
  Does.foldl (fun s _ => Does.ite (State.setLane_does ..) (Does.refl s)) _ s

end Sys2Proof.Machine
end

