-- ==== Sys2Proof/Laws/Events.lean ====
section
/-! SUPPORT. Laws/Events.lean: the laws that every operation keeps (`Keeps`), for commits, replay, start-up, the ports,
tamper events and the supply handshake; and that none of them touches the queue of commands. -/

namespace Sys2Proof.Machine

/-- `t` has the laws that `s` has, and the same commands waiting. -/
structure Keeps (s t : State) : Prop where
  pending : t.pending = s.pending
  ram : s.ramCanonical → t.ramCanonical
  causes : s.causesSettled → t.causesSettled
  list : s.listKept → t.listKept
  counters : s.countersLawful → t.countersLawful

theorem Does.keeps {s t : State} (h : Does s t) : Keeps s t :=
  ⟨congrArg Still.pending h.still, h.ram, h.causes, h.list, h.counters⟩

theorem Keeps.refl (s : State) : Keeps s s := ⟨rfl, id, id, id, id⟩

theorem Keeps.trans {s t u : State} (h : Keeps s t) (k : Keeps t u) : Keeps s u :=
  ⟨k.pending.trans h.pending, fun x => k.ram (h.ram x), fun x => k.causes (h.causes x), fun x => k.list (h.list x),
    fun x => k.counters (h.counters x)⟩

/-- `Keeps.trans` with the last operation first. -/
theorem Keeps.of {s t u : State} (k : Keeps t u) (h : Keeps s t) : Keeps s u := h.trans k

theorem Keeps.of_eq {s t : State} (h1 : t.pending = s.pending) (h2 : t.wp.ram = s.wp.ram)
    (h3 : t.nu.causes = s.nu.causes) (h4 : t.tu.deadlines = s.tu.deadlines) (h5 : t.kt = s.kt) : Keeps s t where
  pending := h1
  ram := by intro h; unfold State.ramCanonical at *; rwa [h2]
  causes := by intro h; unfold State.causesSettled at *; rwa [h3]
  list := by intro h; unfold State.listKept at *; rwa [h4]
  counters := State.countersLawful_kt h5

/-- The events of a step taken together keep what the step keeps (R179). -/
theorem Keeps.together {s t : State} (h : Keeps s t) (r : State) : Keeps s (r.together t) :=
  h.trans ⟨rfl, id, State.causesSettled_together r, id, id⟩

theorem Keeps.foldl {α : Type} {f : State → α → State} (h : ∀ s a, Keeps s (f s a)) (l : List α) (s : State) :
    Keeps s (l.foldl f s) := by
  induction l generalizing s with
  | nil => exact Keeps.refl s
  | cons a l ih => exact (h s a).trans (ih _)

theorem Keeps.ite {s a b : State} {p : Prop} [Decidable p] (ha : Keeps s a) (hb : Keeps s b) :
    Keeps s (if p then a else b) := by split <;> assumption

/-- A change of the Window Port that leaves its RAM. -/
theorem Keeps.withWp {s t : State} (h : Keeps s t) (x : Wp) (hx : x.ram = t.wp.ram) : Keeps s { t with wp := x } :=
  h.trans (Keeps.of_eq rfl hx rfl rfl rfl)

theorem Keeps.withOd {s t : State} (h : Keeps s t) (x : Od) : Keeps s { t with od := x } :=
  h.trans (Keeps.of_eq rfl rfl rfl rfl rfl)

/-- Every slot record changed to one that is lawful where it was. -/
theorem Keeps.mapKt {s t : State} (h : Keeps s t) {f : SlotRec → SlotRec} (hf : ∀ r : SlotRec, r.lawful → (f r).lawful) :
    Keeps s { t with kt := t.kt.map f } :=
  h.trans ⟨rfl, id, id, id, fun k => k.map hf⟩

theorem Keeps.withXu {s t : State} (h : Keeps s t) (x : Xu) : Keeps s { t with xu := x } :=
  h.trans (Keeps.of_eq rfl rfl rfl rfl rfl)

/-- A change of the Time Unit that leaves its list. -/
theorem Keeps.withTu {s t : State} (h : Keeps s t) (x : Tu) (hx : x.deadlines = t.tu.deadlines) :
    Keeps s { t with tu := x } :=
  h.trans (Keeps.of_eq rfl rfl rfl hx rfl)

theorem Keeps.withJu {s t : State} (h : Keeps s t) (x : Ju) : Keeps s { t with ju := x } :=
  h.trans (Keeps.of_eq rfl rfl rfl rfl rfl)

theorem Keeps.withTm {s t : State} (h : Keeps s t) (x : Tm) : Keeps s { t with tm := x } :=
  h.trans (Keeps.of_eq rfl rfl rfl rfl rfl)

/-! ## Notices and the engine state -/

theorem State.raise_keeps (s : State) (b : Nat) : Keeps s (s.raise b) := (State.raise_does s b).keeps

theorem State.enter_keeps (s : State) (e : EngineState) : Keeps s (s.enter e) :=
  (State.raise_keeps _ bitEngine).of ((Keeps.refl s).withWp { s.wp with engine := e } rfl)

theorem State.giveFault_keeps (s : State) (k : FaultKind) (a b : Nat) : Keeps s (s.giveFault k a b) :=
  (State.giveFault_does s k a b).keeps

theorem Keeps.mapCauses {s : State} {t : State} (h1 : t.pending = s.pending) (h2 : t.wp.ram = s.wp.ram)
    (h4 : t.tu.deadlines = s.tu.deadlines) (h5 : t.kt = s.kt)
    (h3 : ∀ i, i < 13 → (s.cause i).settled = true → (t.cause i).settled = true) : Keeps s t where
  pending := h1
  ram := by intro h; unfold State.ramCanonical at *; rwa [h2]
  causes := by
    intro h
    rw [State.causesSettled_iff] at h ⊢
    intro i
    by_cases hi : i < 13
    · exact h3 i hi (h i)
    · simp [State.cause, getD_eq, hi, Cause.settled_reset]
  list := by intro h; unfold State.listKept at *; rwa [h4]
  counters := State.countersLawful_kt h5

theorem State.acknowledge_keeps (s : State) (g : Nat) : Keeps s (s.acknowledge g) := by
  refine Keeps.mapCauses rfl rfl rfl rfl fun i hi h => ?_
  simp only [State.acknowledge, State.cause, getD_eq, Vector.getElem?_map] at h ⊢
  simp only [Vector.getElem?_eq_getElem hi, Option.map_some, Option.getD_some] at h ⊢
  split
  · exact Cause.settled_fire _
  · exact h

theorem State.clearCoalescing_keeps (s : State) : Keeps s s.clearCoalescing := Keeps.of_eq rfl rfl rfl rfl rfl

theorem State.clearLaneNotices_keeps (s : State) : Keeps s s.clearLaneNotices := by
  refine Keeps.mapCauses rfl rfl rfl rfl fun i hi h => ?_
  simp only [State.clearLaneNotices, State.cause, getD_eq, Vector.getElem?_eq_getElem hi, Option.getD_some,
    Vector.getElem_mapFinIdx] at h ⊢
  split
  · simp [Cause.clear, Cause.settled]
  · exact h

theorem State.applyNotices_keeps (s : State) : Keeps s s.applyNotices := by
  refine Keeps.mapCauses rfl rfl rfl rfl fun i hi h => ?_
  simp only [State.applyNotices, State.clearCoalescing, State.cause, getD_eq, Vector.getElem?_eq_getElem hi,
    Option.getD_some, Vector.getElem_mapFinIdx]
  exact Cause.settled_fire _

theorem State.emptyFaults_keeps (s : State) : Keeps s s.emptyFaults := Keeps.of_eq rfl rfl rfl rfl rfl

theorem State.setTamper_keeps (s : State) (i : TamperInput) (x : TamperState) : Keeps s (s.setTamper i x) := by
  cases i <;> exact Keeps.of_eq rfl rfl rfl rfl rfl

theorem State.setUnits_keeps (s : State) (bk : Bank) (l : List (Nat × NvUnit)) : Keeps s (s.setUnits bk l) := by
  cases bk <;> exact Keeps.of_eq rfl rfl rfl rfl rfl

theorem State.setBankState_keeps (s : State) (bk : Bank) (x : BankState) : Keeps s (s.setBankState bk x) := by
  cases bk <;> exact Keeps.of_eq rfl rfl rfl rfl rfl

theorem State.serve_keeps (s : State) : Keeps s s.serve := (State.serve_does s).keeps

theorem State.safePoint_keeps (s : State) : Keeps s s.safePoint := by
  unfold State.safePoint
  exact Keeps.ite (Keeps.of_eq rfl rfl rfl rfl rfl) (Keeps.refl s)

theorem State.finish_keeps (s : State) : Keeps s s.finish :=
  (State.safePoint_keeps _).of (State.kick_does s).keeps

/-! ## Tamper events -/

theorem State.eraseAt_does (s : State) (n : Nat) : Does s (s.eraseAt n) := by
  unfold State.eraseAt
  split
  · exact State.eraseSlot_does ..
  · refine Does.ite ?_ (Does.refl s)
    exact Does.ite (State.modCtx_does ..) ((State.endOrder_does ..).of (State.modCtx_does ..))

theorem State.eraseAll_does (s : State) : Does s s.eraseAll := Does.foldl (fun _ _ => State.eraseAt_does ..) _ s

theorem State.lockOrders_does (s : State) : Does s s.lockOrders := by
  refine Does.foldl (fun s c => ?_) _ s
  split
  · exact Does.refl s
  · refine Does.ite ?_ (Does.refl s)
    split
    · exact State.endOrder_does ..
    · exact State.endOrder_does ..
    · exact Does.refl s

theorem State.takeEvent_keeps (s : State) (i : TamperInput) (n t : Nat) : Keeps s (s.takeEvent i n t) := by
  unfold State.takeEvent
  extract_lets x s1 a _ s2 s3 s4 s5
  have h1 : Keeps s s1 := (State.raise_keeps _ bitTamper).of (State.setTamper_keeps ..)
  have h2 : Keeps s1 s2 := Keeps.ite (Keeps.of_eq rfl rfl rfl rfl rfl) (Keeps.refl _)
  have h3 : Does s2 s3 := State.toTamperGroup_does ..
  have h4 : Does s3 s4 := Does.ite (State.eraseAll_does _) (Does.refl _)
  have h5 : Does s4 s5 := Does.ite (State.lockOrders_does _) (Does.refl _)
  exact (h1.trans h2).trans
    (((h3.trans h4).trans h5).trans ((State.serve_does _).of (State.cipherKick_does _))).keeps

theorem State.tamperEvent_keeps (s : State) (i : TamperInput) : Keeps s (s.tamperEvent i) := by
  unfold State.tamperEvent
  extract_lets x s1 t
  have h1 : Keeps s s1 := State.setTamper_keeps ..
  refine h1.trans (Keeps.ite (State.takeEvent_keeps ..) ?_)
  exact (Keeps.refl s1).withTm _

theorem State.takeHeld_keeps (s : State) : Keeps s s.takeHeld := by
  unfold State.takeHeld
  exact Keeps.of (Keeps.foldl (fun s h => State.takeEvent_keeps ..) _ _) ((Keeps.refl s).withTm _)

/-! ## Commits and the failure of the array -/

theorem State.raiseDurable_does (s : State) (n : Nat) (g : Half) (a b : Nat) : Does s (s.raiseDurable n g a b) := by
  unfold State.raiseDurable
  exact Does.ite (State.modGen_does _ _ _ _ fun _ _ _ h => h.commit a b) (Does.refl s)

theorem State.commitCounters_does (s : State) (r : Rec) : Does s (s.commitCounters r) := by
  unfold State.commitCounters
  split
  · exact State.raiseDurable_does ..
  · exact Does.ite (Does.foldl (fun _ _ => State.raiseDurable_does ..) _ s) (Does.refl s)
  · exact Does.refl s

theorem State.commitTable_does (s : State) (r : Rec) : Does s (s.commitTable r) := by
  unfold State.commitTable
  split
  · split
    · exact Does.refl s
    · split
      · exact Does.refl s
      · exact (State.modCtx_does ..).of (State.commitChange_does ..)
  · exact Does.refl s

theorem State.noteRaise_does (s : State) (r : Rec) : Does s (s.noteRaise r) := by
  unfold State.noteRaise
  split
  · exact State.modCtx_does ..
  · exact Does.refl s

theorem State.completeCommitted_keeps (s : State) (c : Nat) : Keeps s (s.completeCommitted c) := by
  unfold State.completeCommitted
  split
  · exact Keeps.refl s
  · rename_i x _
    generalize x.change = o
    have plain : ∀ code res, Keeps s (s.complete c code res) := fun _ _ => (State.complete_does ..).keeps
    cases o with
    | none => exact Keeps.refl s
    | some ch =>
      cases ch with
      | promote v =>
        cases v with
        | none => exact plain _ _
        | some v => exact Keeps.ite (plain _ _) (plain _ _)
      | unlock => exact Keeps.ite ((State.complete_does ..).keeps.of ((Keeps.refl s).withTm _)) (plain _ _)
      | _ => exact plain _ _

theorem State.resume_does (s : State) (c : Nat) (r : Rec) : Does s (s.resume c r) := by
  unfold State.resume
  split
  · exact Does.refl s
  · rename_i x hx
    dsimp only
    split
    · rename_i g hcar hg
      split
      · exact (State.counterStep_does ..).of (State.modCtx_does ..)
      · split
        · rename_i hk
          refine State.finishAdmit_does s c fun y a hy ha => ?_
          obtain rfl : x = y := Option.some.inj (hx.symm.trans hy)
          obtain rfl : g = a := Option.some.inj (hg.symm.trans ha)
          exact hk.2
        · exact Does.refl s
    · exact Does.refl s

theorem State.releaseRec_keeps (s : State) (r : Rec) : Keeps s (s.releaseRec r) := by
  unfold State.releaseRec
  refine Keeps.of (Keeps.foldl (fun s c => ?_) _ _) ?_
  · exact Keeps.ite ((State.serve_does _).of (State.resume_does ..)).keeps (Keeps.refl s)
  · split
    · exact (State.serve_keeps _).of (State.completeCommitted_keeps ..)
    · exact (State.serve_keeps _).of (State.completeCommitted_keeps ..)
    · exact Keeps.refl s

theorem State.commitGroup_keeps (s : State) (g : Group) : Keeps s (s.commitGroup g) := by
  unfold State.commitGroup
  extract_lets n _ s1 s2 s3 s4
  have h1 : Keeps s s1 := (Keeps.refl s).withJu _
  have h2 : Keeps s1 s2 := Keeps.foldl (fun _ _ => (State.commitCounters_does ..).keeps) _ _
  have h3 : Keeps s2 s3 :=
    (Keeps.foldl (fun _ _ => ((State.commitTable_does ..).of (State.noteRaise_does ..)).keeps) _ _).together s2
  have h4 : Keeps s3 s4 := Keeps.foldl (fun _ _ => State.releaseRec_keeps ..) _ _
  exact (((h1.trans h2).trans h3).trans h4).withJu _

theorem State.commitBase_keeps (s : State) (c : Compaction) : Keeps s (s.commitBase c) := by
  unfold State.commitBase
  extract_lets old _ s1 s2 s3 s4
  have h1 : Keeps s s1 := (Keeps.refl s).withJu _
  have h2 : Keeps s1 s2 := by
    show Keeps s1 (match old with | none => s1 | some bk => s1.setBankState bk .spent)
    cases old
    · exact Keeps.refl _
    · exact State.setBankState_keeps ..
  have h3 : Keeps s2 s3 := Keeps.foldl (fun _ _ => (State.commitCounters_does ..).keeps) _ _
  have h4 : Keeps s3 s4 := Keeps.foldl (fun _ _ => State.releaseRec_keeps ..) _ _
  exact (((h1.trans h2).trans h3).trans h4).withJu _

theorem State.stopJournal_keeps (s : State) : Keeps s s.stopJournal := by
  unfold State.stopJournal
  dsimp only
  split
  · exact (Keeps.refl s).withJu _
  · exact (State.setBankState_keeps ..).withJu _

theorem State.failStartUp_keeps (s : State) : Keeps s s.failStartUp := by
  unfold State.failStartUp
  split
  · extract_lets _ s1 tu tu'
    have h1 : Keeps s s1 := Keeps.ite (Keeps.refl s) ((State.takeHeld_keeps _).of ((Keeps.refl s).withTm _))
    have h2 : tu'.deadlines = s1.tu.deadlines := by
      show (if tu.kept then tu else _).deadlines = _
      split <;> rfl
    exact (h1.withTu tu' h2).withWp _ rfl
  · exact Keeps.refl s

theorem State.enterFailed_keeps (s : State) : Keeps s s.enterFailed := by
  unfold State.enterFailed
  extract_lets served _ s2 _ s3 s4 _ s5 s6 s7
  have h2 : Keeps s s2 := (State.enter_keeps _ .failed).of ((Keeps.refl s).withWp _ rfl)
  have h3 : Keeps s2 s3 := Keeps.ite (Keeps.refl s2) ((Keeps.refl s2).withOd _)
  have h4 : Keeps s3 s4 := State.stopJournal_keeps _
  have h5 : Keeps s4 s5 := Keeps.ite ((Keeps.refl s4).withWp _ rfl) (Keeps.refl s4)
  have h6 : Keeps s5 s6 := State.failStartUp_keeps _
  have h7 : Keeps s6 s7 :=
    Keeps.foldl (fun s c => Keeps.ite (State.endOrder_does ..).keeps (Keeps.refl s)) _ _
  exact (((((h2.trans h3).trans h4).trans h5).trans h6).trans h7).trans (State.serve_keeps _)

theorem State.nvFatal_keeps (s : State) (a b : Nat) : Keeps s (s.nvFatal a b) :=
  (State.enterFailed_keeps _).of (State.giveFault_keeps ..)

theorem State.noteRead_keeps (s : State) (bk : Bank) (n : Nat) (u : NvUnit) : Keeps s (s.noteRead bk n u) := by
  unfold State.noteRead
  split
  · exact State.giveFault_keeps ..
  · exact Keeps.refl s

theorem State.stepFailed_keeps (s : State) (st : Step) (got : NvUnit) : Keeps s (s.stepFailed st got) := by
  unfold State.stepFailed
  extract_lets t fatal
  have h1 : Keeps s t := State.noteRead_keeps ..
  have h2 : Keeps s fatal :=
    (State.enterFailed_keeps _).of ((h1.trans (State.giveFault_keeps ..)).together s)
  split
  · exact Keeps.ite h2 (h1.withJu _)
  · exact h2
  · exact h2

theorem State.stepDone_keeps (s : State) (st : Step) : Keeps s (s.stepDone st) := by
  have h0 : Keeps s { s with ju := { s.ju with step := none } } := (Keeps.refl s).withJu _
  unfold State.stepDone
  split
  · exact State.commitGroup_keeps ..
  · split
    · exact Keeps.refl s
    · dsimp only
      split
      · exact (State.setBankState_keeps ..).of h0
      · exact (State.commitBase_keeps ..).of h0
      · exact h0
  · refine Keeps.ite ((State.setBankState_keeps ..).of h0) (Keeps.ite ?_ h0)
    exact (State.setBankState_keeps _ .b .erased).of (h0.withJu _)

theorem State.unitEnds_keeps (s : State) (x : Option NvUnit) : Keeps s (s.unitEnds x) := by
  unfold State.unitEnds
  split
  · exact Keeps.refl s
  · split
    · exact Keeps.refl s
    · extract_lets got s1
      have h1 : Keeps s s1 := State.setUnits_keeps ..
      exact h1.trans (Keeps.ite (State.stepFailed_keeps ..) (Keeps.ite (State.stepDone_keeps ..)
        ((Keeps.refl s1).withJu _)))

/-! ## Replay -/

theorem State.reportCorrected_keeps (s : State) (bk : Bank) (a b : Nat) : Keeps s (s.reportCorrected bk a b) := by
  unfold State.reportCorrected
  exact Keeps.foldl (fun _ _ => State.noteRead_keeps ..) _ _

theorem State.readHead_keeps (s : State) (bk : Bank) : Keeps s (s.readHead bk) := by
  unfold State.readHead
  have h1 : Keeps s (s.reportCorrected bk 0 1) := State.reportCorrected_keeps ..
  exact h1.trans (Keeps.ite (State.reportCorrected_keeps ..) (Keeps.refl _))

theorem State.readArray_keeps (s : State) : Keeps s s.readArray :=
  (State.reportCorrected_keeps ..).of (State.reportCorrected_keeps ..)

theorem State.putAside_keeps (s : State) (bk : Bank) : Keeps s (s.putAside bk) := State.setBankState_keeps ..

theorem State.chooseBank_keeps (s : State) : Keeps s s.chooseBank := by
  unfold State.chooseBank
  extract_lets s1 select s2
  have h1 : Keeps s s1 := (State.readHead_keeps _ .b).of (State.readHead_keeps s .a)
  have hs : ∀ t bk e, Keeps t (select t bk e) := fun t bk e =>
    ((State.putAside_keeps _ bk.other).of ((State.setBankState_keeps _ bk .active).of
      (State.reportCorrected_keeps ..))).trans ⟨rfl, id, id, id, id⟩
  have h2 : Keeps s1 s2 := (State.putAside_keeps ..).of ((State.putAside_keeps ..).of (State.readArray_keeps s1))
  refine h1.trans ?_
  split
  · exact Keeps.ite (hs _ _ _) (hs _ _ _)
  · exact hs _ _ _
  · exact hs _ _ _
  · refine h2.trans (Keeps.ite ((Keeps.refl s2).withWp _ rfl) (Keeps.ite ((Keeps.refl s2).withWp _ rfl) ?_))
    exact State.nvFatal_keeps ..

/-- A generation that an image restores is lawful under the hard limit of the image (R67, R122). -/
theorem mergeGen_lawful {cls : Option SlotClass} (h : cls = some .frame) (hard : Nat) (held : SlotRec) (g : Gen) :
    (mergeGen cls hard held g).ctr.Lawful hard := by
  subst h
  exact Counters.Lawful.restart (Nat.min_le_right ..)

theorem State.replay_keeps (s : State) (r : Replayed) : Keeps s (s.replay r) := by
  unfold State.replay
  split
  · refine (State.setSlot_does _ _ _ fun _ => SlotRec.lawful_mapGens fun hc g _ => ?_).keeps
    exact mergeGen_lawful hc _ _ _
  · refine Keeps.ite (State.modGen_does _ _ _ _ fun g _ _ h => ?_).keeps (Keeps.refl s)
    have := h.ceil
    have := h.hard
    exact Counters.Lawful.restart (by dsimp only; omega)
  · exact (Keeps.refl s).withJu _
  · exact (Keeps.refl s).withJu _

theorem State.judgeStop_keeps (s : State) (bk : Bank) (p : Nat) : Keeps s (s.judgeStop bk p) := by
  unfold State.judgeStop
  extract_lets l next s1 _ s2
  have hn : ∀ t, Keeps t (next t) := fun t => (Keeps.refl t).withWp _ rfl
  have h1 : Keeps s s1 := State.reportCorrected_keeps ..
  have h2 : Keeps s1 s2 := (Keeps.refl s1).withJu _
  refine Keeps.ite (hn s) ((h1.trans h2).trans (Keeps.ite (hn s2) ((hn _).of ?_)))
  exact (State.giveFault_keeps _ .nvGroupLost bk.code p).of ((Keeps.refl s2).withJu _)

theorem State.applyGroup_keeps (s : State) : Keeps s s.applyGroup := by
  unfold State.applyGroup
  split
  · exact Keeps.refl s
  · dsimp only
    split
    · exact (State.judgeStop_keeps ..).of (State.reportCorrected_keeps ..)
    · split
      · refine (State.reportCorrected_keeps ..).trans (Keeps.ite ?_ (State.judgeStop_keeps ..))
        exact (Keeps.foldl (fun _ _ => State.replay_keeps ..) _ _).withJu _
      · exact (State.judgeStop_keeps ..).of (State.reportCorrected_keeps ..)

theorem salvage_keeps (l : List (Nat × NvUnit)) (last k q : Nat) (s : State) : Keeps s (salvage l last k q s) := by
  induction k generalizing q s with
  | zero => exact Keeps.refl s
  | succ k ih =>
    unfold salvage
    refine Keeps.ite (Keeps.refl s) ?_
    split
    · exact ih _ _
    · dsimp only
      split
      · exact ih _ _
      · split
        · exact (ih _ _).of (State.replay_keeps ..)
        · refine (ih _ _).of (Keeps.foldl (fun s g => ?_) _ _)
          exact Keeps.ite (State.replay_keeps ..) (Keeps.refl s)
        · exact ih _ _

theorem State.recover_keeps (s : State) : Keeps s s.recover := by
  unfold State.recover
  split
  · exact Keeps.refl s
  · extract_lets l last s1
    have h1 : Keeps s s1 := (salvage_keeps ..).of (State.reportCorrected_keeps ..)
    refine h1.mapKt fun r hr => ?_
    split
    · exact SlotRec.lawful_mapGens fun _ g _ => Counters.Lawful.recover ..
    · exact hr

/-! ## Meter time -/

theorem State.countSecond_keeps (s : State) : Keeps s s.countSecond := by
  unfold State.countSecond
  split
  · extract_lets _ s1
    have h1 : Keeps s s1 := (State.fireDue_does _).keeps.of ((Keeps.refl s).withTu _ rfl)
    exact h1.trans (Keeps.ite (State.timeMark_does _).keeps (Keeps.refl s1))
  · exact Keeps.refl s

/-! ## The ports -/

theorem State.portResult_keeps (s : State) (x : PortCommand) (o : PortOutcome) (n : Nat) :
    Keeps s (s.portResult x o n) := Keeps.of_eq rfl rfl rfl rfl rfl

theorem State.startLanes_keeps (s : State) (p : Plan) : Keeps s (s.startLanes p) := by
  unfold State.startLanes
  refine (State.enter_keeps _ .running).of (Keeps.withOd (Keeps.foldl (fun s n => ?_) _ _) _)
  split
  · exact Keeps.refl s
  · exact (State.setLane_does ..).keeps

theorem State.portStart_keeps (s : State) : Keeps s s.portStart := by
  unfold State.portStart
  split
  · exact State.portResult_keeps ..
  · exact (State.finish_keeps _).of ((State.serve_keeps _).of ((State.startLanes_keeps ..).of
      (State.portResult_keeps ..)))
  · exact State.portResult_keeps ..

theorem State.portStop_keeps (s : State) : Keeps s s.portStop := by
  unfold State.portStop
  split
  · exact State.portResult_keeps ..
  · extract_lets t1 _ t2 t3
    have h2 : Keeps s t2 := (State.clearLaneNotices_keeps _).of
      (Keeps.withOd ((State.enter_keeps _ .stopping).of (State.portResult_keeps ..)) _)
    have h3 : Keeps s t3 := Keeps.ite ((h2.trans (State.settle_does _).keeps).together s) h2
    exact h3.trans ((State.finish_keeps _).of ((State.serve_keeps _).of (State.abortAll_does _).keeps))
  · exact State.portResult_keeps ..

theorem State.applyFilter_keeps (s : State) (i : TamperInput) : Keeps s (s.applyFilter i) := by
  unfold State.applyFilter
  split
  · exact Keeps.ite (State.tamperEvent_keeps ..) (Keeps.refl s)
  · exact Keeps.refl s

theorem State.portApply_keeps (s : State) : Keeps s s.portApply := by
  unfold State.portApply
  split
  · split
    · exact State.portResult_keeps ..
    · refine (State.finish_keeps _).of (Keeps.together ((State.applyFilter_keeps _ .field).of
        ((State.applyFilter_keeps _ .cover).of ((State.applyNotices_keeps _).of
          ((State.refill_does _).keeps.of (Keeps.withOd ?_ _))))) s)
      exact State.portResult_keeps ..
  · exact State.portResult_keeps ..

theorem State.portClear_keeps (s : State) : Keeps s s.portClear := by
  unfold State.portClear
  exact ((State.emptyFaults_keeps _).of (State.portResult_keeps ..)).withJu _

theorem State.portCommand_keeps (s : State) (x : PortCommand) : Keeps s (s.portCommand x) := by
  cases x
  · exact State.portStart_keeps s
  · exact State.portStop_keeps s
  · exact State.portApply_keeps s
  · exact State.portClear_keeps s

theorem State.writeCommand_keeps (s : State) (x : PortCommand) : Keeps s (s.writeCommand x) := by
  unfold State.writeCommand
  exact Keeps.ite (Keeps.refl s) (Keeps.ite ((Keeps.refl s).withWp _ rfl) (State.portCommand_keeps ..))

theorem State.writeNudge_keeps (s : State) (v : Half) : Keeps s (s.writeNudge v) := by
  unfold State.writeNudge
  exact Keeps.ite (Keeps.refl s) ((State.finish_keeps _).of ((State.serve_keeps _).of (State.wantScan_does ..).keeps))

theorem State.writeAcknowledge_keeps (s : State) (v : Half) : Keeps s (s.writeAcknowledge v) := by
  unfold State.writeAcknowledge
  exact Keeps.ite (Keeps.refl s) (State.acknowledge_keeps ..)

theorem State.writeWindow_keeps (s : State) (a : Nat) (v : Half) : Keeps s (s.writeWindow a v) := by
  unfold State.writeWindow
  refine Keeps.ite (Keeps.refl s) (Keeps.ite ?_ (Keeps.ite (State.setCell_does ..).keeps (Keeps.refl s)))
  exact ⟨rfl, fun h => Ram.wf_write _ _ _ (Ram.wf_write _ _ _ h), id, id, id⟩

theorem State.post_keeps (s : State) (k : Kind) (n : Nat) (o : OrderFields) : Keeps s (s.post k n o) := by
  unfold State.post
  refine Keeps.ite (Keeps.refl s) ?_
  split
  · exact Keeps.refl s
  · split
    · exact Keeps.refl s
    · exact (State.finish_keeps _).of ((State.serve_keeps _).of ((State.wantScan_does ..).keeps.of
        (State.setCell_does ..).keeps))

/-! ## Start-up -/

/-- What `rebuildSlot` does to the list: it adds entries of its slot alone, each of a kind of its own. -/
theorem State.rebuildSlot_list (s : State) (n : Nat) (h : s.listKept) (k : ∀ d ∈ s.tu.deadlines, d.slot ≠ n) :
    (s.rebuildSlot n).listKept ∧ (∀ d ∈ (s.rebuildSlot n).tu.deadlines, d ∈ s.tu.deadlines ∨ d.slot = n) ∧
    (s.rebuildSlot n).pending = s.pending ∧ (s.rebuildSlot n).wp = s.wp ∧ (s.rebuildSlot n).nu = s.nu ∧
    (s.rebuildSlot n).kt = s.kt := by
  -- the entries so far are those of the other slots and of a list of kinds
  let P (ks : List DeadlineKind) (t : State) : Prop :=
    t.listKept ∧ (∀ d ∈ t.tu.deadlines, d ∈ s.tu.deadlines ∨ d.slot = n ∧ d.kind ∈ ks) ∧
    t.pending = s.pending ∧ t.wp = s.wp ∧ t.nu = s.nu ∧ t.kt = s.kt
  have put : ∀ (ks : List DeadlineKind) (t : State) (x : DeadlineKind) (due : Nat), P ks t → x ∉ ks →
      P (x :: ks) { t with tu := { t.tu with deadlines := insertDeadline ⟨due, n, x⟩ t.tu.deadlines } } := by
    intro ks t x due ⟨p1, p2, p3⟩ hx
    refine ⟨pairwise_insertDeadline p1 ?_, ?_, p3⟩
    · rintro d hd ⟨e1, e2⟩
      rcases p2 d hd with h1 | h1
      · exact k d h1 e1
      · exact hx ((show d.kind = x from e2) ▸ h1.2)
    · intro d hd
      rcases mem_insertDeadline.1 hd with rfl | hd
      · exact Or.inr ⟨rfl, by simp⟩
      · rcases p2 d hd with h1 | h1
        · exact Or.inl h1
        · exact Or.inr ⟨h1.1, by simp [h1.2]⟩
  have wide : ∀ (ks : List DeadlineKind) (t : State) (x : DeadlineKind), P ks t → P (x :: ks) t := by
    intro ks t x ⟨p1, p2, p3⟩
    refine ⟨p1, fun d hd => ?_, p3⟩
    rcases p2 d hd with h1 | h1
    · exact Or.inl h1
    · exact Or.inr ⟨h1.1, by simp [h1.2]⟩
  have start : P [] s := ⟨h, fun d hd => Or.inl hd, rfl, rfl, rfl, rfl⟩
  suffices hP : P [.grace, .confirm, .expire, .renew] (s.rebuildSlot n) by
    obtain ⟨p1, p2, p3⟩ := hP
    exact ⟨p1, fun d hd => (p2 d hd).imp id And.left, p3⟩
  unfold State.rebuildSlot
  extract_lets r put' t1 t2
  have hput : ∀ t x due, put' t x due =
      { t with tu := { t.tu with deadlines := insertDeadline ⟨due, n, x⟩ t.tu.deadlines } } := fun _ _ _ => rfl
  have h1 : P [.expire, .renew] t1 := by
    show P _ (match r.current with | none => s | some g => _)
    split
    · exact wide _ _ _ (wide _ _ _ start)
    · rename_i g _
      have ha : P [.renew] (if r.renewDue then s else put' s .renew g.renewAt) := by
        split
        · exact wide _ _ _ start
        · rw [hput]; exact put _ _ _ _ start (by simp)
      dsimp only
      split
      · exact wide _ _ _ ha
      · rw [hput]; exact put _ _ _ _ ha (by simp)
  have h2 : P [.confirm, .expire, .renew] t2 := by
    show P _ (match r.staged with | none => t1 | some g => put' t1 .confirm _)
    split
    · exact wide _ _ _ h1
    · rw [hput]; exact put _ _ _ _ h1 (by simp)
  split
  · exact wide _ _ _ (wide _ _ _ (wide _ _ _ (wide _ _ _ start)))
  · split
    · exact wide _ _ _ h2
    · rw [hput]; exact put _ _ _ _ h2 (by simp)

theorem State.rebuild_keeps (s : State) :
    Keeps s ((List.range 64).foldl State.rebuildSlot { s with tu := { s.tu with deadlines := [] } }) := by
  generalize h0 : ({ s with tu := { s.tu with deadlines := [] } } : State) = s0
  have key : ∀ m, (((List.range m).foldl State.rebuildSlot s0).listKept ∧
      (∀ d ∈ ((List.range m).foldl State.rebuildSlot s0).tu.deadlines, d.slot < m)) ∧
      ((List.range m).foldl State.rebuildSlot s0).pending = s.pending ∧
      ((List.range m).foldl State.rebuildSlot s0).wp = s.wp ∧ ((List.range m).foldl State.rebuildSlot s0).nu = s.nu ∧
      ((List.range m).foldl State.rebuildSlot s0).kt = s.kt := by
    intro m
    induction m with
    | zero => subst h0; exact ⟨⟨List.Pairwise.nil, by simp⟩, rfl, rfl, rfl, rfl⟩
    | succ m ih =>
      obtain ⟨⟨i1, i2⟩, i3, i4, i5, i6⟩ := ih
      rw [List.range_succ, List.foldl_append, List.foldl_cons, List.foldl_nil]
      obtain ⟨r1, r2, r3, r4, r5, r6⟩ := State.rebuildSlot_list _ m i1 fun d hd => by have := i2 d hd; omega
      refine ⟨⟨r1, fun d hd => ?_⟩, r3.trans i3, r4.trans i4, r5.trans i5, r6.trans i6⟩
      rcases r2 d hd with h | h
      · have := i2 d h; omega
      · omega
  obtain ⟨⟨i1, -⟩, i3, i4, i5, i6⟩ := key 64
  exact ⟨i3, fun h => by unfold State.ramCanonical at *; rwa [i4], fun h => by unfold State.causesSettled at *; rwa [i5],
    fun _ => i1, State.countersLawful_kt i6⟩

theorem State.goTo_keeps (s : State) (p : StartPoint) : Keeps s (s.goTo p) := (Keeps.refl s).withWp _ rfl

theorem State.bootErase_keeps (s : State) : Keeps s s.bootErase.1 := by
  unfold State.bootErase
  split
  · exact Keeps.refl s
  · split
    · exact State.goTo_keeps ..
    · split
      · exact Keeps.refl s
      · exact (Keeps.refl s).withJu _

theorem State.bootEmptyBase_keeps (s : State) : Keeps s s.bootEmptyBase.1 := by
  unfold State.bootEmptyBase
  split
  · exact State.goTo_keeps ..
  · split
    · exact Keeps.refl s
    · dsimp only
      split
      · exact Keeps.refl s
      · exact (Keeps.refl s).withJu _

theorem State.bootCompaction_keeps (s : State) : Keeps s s.bootCompaction.1 := by
  unfold State.bootCompaction
  split
  · exact State.goTo_keeps ..
  · split
    · exact Keeps.refl s
    · split
      · exact (State.beginCompStep_does ..).keeps
      · dsimp only
        split
        · exact ((State.beginCompaction_does _).of (State.makeDue_does _)).keeps
        · exact ((State.beginErase_does _).of (State.makeDue_does _)).keeps

theorem State.endStartUp_keeps (s : State) : Keeps s s.endStartUp := by
  unfold State.endStartUp
  extract_lets _ s1 s2
  have h1 : Keeps s s1 := (Keeps.refl s).withWp _ rfl
  have h2 : Keeps s1 s2 := (State.fireDue_does _).keeps.of (State.enter_keeps ..)
  exact (h1.trans h2).trans (Keeps.ite (State.makeDue_does _).keeps (Keeps.refl _))

theorem State.bootStep_keeps (s : State) (p : StartPoint) : Keeps s (s.bootStep p).1 := by
  cases p <;> unfold State.bootStep <;> dsimp only
  · refine Keeps.of (Keeps.foldl (fun _ _ => State.portCommand_keeps ..) _ _) ((State.goTo_keeps _ .step2).of ?_)
    exact (Keeps.refl s).withWp _ rfl
  · refine (State.goTo_keeps _ .choosing).of ?_
    exact (Keeps.refl s).withWp _ rfl
  · exact State.chooseBank_keeps s
  · exact State.applyGroup_keeps s
  · exact State.bootErase_keeps s
  · exact State.bootEmptyBase_keeps s
  · refine (State.goTo_keeps _ .step5).of (Keeps.mapKt ((State.setOrphans_does _).keeps.of ?_)
      fun _ hr => hr.of_same rfl rfl rfl rfl rfl)
    exact Keeps.ite (State.recover_keeps s) (Keeps.refl s)
  · exact (State.goTo_keeps ..).of (State.rebuild_keeps s)
  · refine (State.goTo_keeps _ .step7).of ((State.takeHeld_keeps _).of ?_)
    exact (Keeps.refl s).withTm _
  · refine (State.goTo_keeps _ .step8).of ?_
    exact (Keeps.refl s).withTu _ rfl
  · exact State.bootCompaction_keeps s
  · refine (State.goTo_keeps _ .step10).of ?_
    exact (Keeps.refl s).withWp _ rfl
  · exact State.endStartUp_keeps s

theorem State.runBoot_keeps (k : Nat) (s : State) : Keeps s (State.runBoot k s) := by
  induction k generalizing s with
  | zero => exact Keeps.refl s
  | succ k ih =>
    unfold State.runBoot
    split
    · split
      · exact Keeps.refl s
      · rename_i p _
        split
        · exact (Keeps.refl s).withWp _ rfl
        · have h := (State.bootStep_keeps (s.passPart p) p).of ((Keeps.refl s).withWp _ rfl)
          split
          · rename_i heq
            rw [heq] at h
            exact (ih _).of h
          · rename_i heq
            rwa [heq] at h
    · exact Keeps.refl s

theorem State.goOn_keeps (s : State) : Keeps s s.goOn := by
  unfold State.goOn
  exact Keeps.ite ((State.finish_keeps _).of (State.runBoot_keeps ..)) (State.finish_keeps s)

/-! ## The supply handshake -/

theorem State.holdBoot_keeps (s : State) : Keeps s s.holdBoot := by
  unfold State.holdBoot
  split
  · exact (State.bootStep_keeps ..).of (State.bootStep_keeps ..)
  · exact Keeps.refl s
  · exact Keeps.refl s
  · exact Keeps.refl s
  · exact Keeps.refl s
  · exact Keeps.refl s
  · exact State.bootStep_keeps ..
  · exact Keeps.refl s

theorem State.enterHoldover_keeps (s : State) : Keeps s s.enterHoldover := by
  unfold State.enterHoldover
  extract_lets held _ s1 s2 _ s3 s4 s5
  have h1 : Keeps s s1 := (State.enter_keeps _ .holdover).of ((Keeps.refl s).withWp _ rfl)
  have h2 : Keeps s1 s2 := Keeps.ite (State.clearLaneNotices_keeps _) (Keeps.refl _)
  have h3 : Keeps s2 s3 := (Keeps.refl s2).withJu _
  have h4 : Keeps s3 s4 := (State.serve_keeps _).of (State.abortAll_does _).keeps
  have h5 : Keeps s4 s5 := Keeps.ite (State.holdBoot_keeps _) (Keeps.refl _)
  exact ((((h1.trans h2).trans h3).trans h4).trans h5).trans (State.finish_keeps _)

theorem State.leaveHoldover_keeps (s : State) : Keeps s s.leaveHoldover := by
  unfold State.leaveHoldover
  split
  · exact State.enter_keeps ..
  · refine Keeps.ite ((State.enter_keeps _ .stopped).of ?_) ((State.enter_keeps _ .stopping).of ?_) <;>
      exact (Keeps.refl s).withOd _

/-! ## Resets, the supply line and the ends of cipher requests -/

theorem State.reset_countersLawful : State.reset.countersLawful := by
  intro n
  show (State.reset.kt.getD n SlotRec.empty).lawful
  rw [getD_eq]
  by_cases h : n < 64
  · have : State.reset.kt[n]? = some SlotRec.empty := by
      show (Vector.replicate 64 SlotRec.empty)[n]? = _
      rw [Vector.getElem?_eq_getElem h, Vector.getElem_replicate]
    rw [this]
    exact SlotRec.lawful_empty
  · rw [Vector.getElem?_eq_none (by omega)]
    exact SlotRec.lawful_empty

theorem State.afterReset_keeps (s : State) (b : Boot) (c : ResetCause) : Keeps s (s.afterReset b c) where
  pending := rfl
  ram := fun _ => rfl
  causes := fun _ => by show State.reset.nu.causes.toList.all Cause.settled = true; decide
  list := fun _ => List.Pairwise.nil
  counters := fun _ => State.reset_countersLawful

theorem State.holdReset_keeps (s : State) (b : Boot) (c : ResetCause) : Keeps s (s.holdReset b c) where
  pending := rfl
  ram := fun _ => rfl
  causes := fun _ => by show State.reset.nu.causes.toList.all Cause.settled = true; decide
  list := fun _ => List.Pairwise.nil
  counters := fun _ => State.reset_countersLawful

theorem State.leaveReset_keeps (s : State) (b : Boot) (c : ResetCause) : Keeps s (s.leaveReset b c) := by
  unfold State.leaveReset
  exact Keeps.ite ((State.enterHoldover_keeps _).of (State.afterReset_keeps ..))
    ((State.goOn_keeps _).of (State.afterReset_keeps ..))

theorem State.endService_keeps (s : State) (op : CipherOp) (go : State → Nat → Ctx → Service → State)
    (h : ∀ t c x v, Keeps t (go t c x v)) : Keeps s (s.endService op go) := by
  unfold State.endService
  split
  · exact Keeps.refl s
  · split
    · split
      · exact Keeps.refl s
      · refine (State.finish_keeps _).of ((State.serve_keeps _).of ((State.cipherKick_does _).keeps.of
          ((h _ _ _ _).of ((State.modCtx_does _ _ _).keeps.of ?_))))
        exact (Keeps.refl s).withXu _
    · exact Keeps.refl s

theorem State.warnAsserted_keeps (s : State) : Keeps s s.warnAsserted := by
  unfold State.warnAsserted
  refine Keeps.ite (Keeps.refl s) ?_
  extract_lets _ t
  have h : Keeps s t := (Keeps.refl s).withWp _ rfl
  refine h.trans (Keeps.ite (Keeps.refl t) ?_)
  split
  · exact (Keeps.refl t).withWp _ rfl
  · exact Keeps.refl t
  · exact State.enterHoldover_keeps t

theorem State.warnNegated_keeps (s : State) : Keeps s s.warnNegated := by
  unfold State.warnNegated
  refine Keeps.ite (Keeps.refl s) ?_
  extract_lets _ t
  have h : Keeps s t := (Keeps.refl s).withWp _ rfl
  exact h.trans (Keeps.ite (Keeps.refl t)
    (Keeps.ite ((State.goOn_keeps _).of (State.leaveHoldover_keeps _)) (Keeps.refl t)))

end Sys2Proof.Machine
end

