-- ==== Sys2Proof/Laws/Quiet.lean ====
section
/-! SUPPORT. Laws/Quiet.lean: what the Journal Unit's taking up of work leaves (`Kicked`), what follows an event when
nothing is ready (`serve`), a completion as one update, and an order posted in a quiet lane as one update. -/

namespace Sys2Proof.Machine

/-! ## The Journal Unit takes up work -/

theorem State.SameArray.refl (s : State) : s.SameArray s := ⟨rfl, rfl, rfl, rfl, rfl, rfl, rfl, rfl, rfl, rfl, rfl⟩

theorem State.SameArray.trans {s t u : State} (h : s.SameArray t) (k : t.SameArray u) : s.SameArray u :=
  ⟨k.1.trans h.1, k.2.trans h.2, k.3.trans h.3, k.4.trans h.4, k.5.trans h.5, k.6.trans h.6, k.7.trans h.7,
    k.8.trans h.8, k.9.trans h.9, k.10.trans h.10, k.11.trans h.11⟩

/-- What is in the array is still under every work of orders. -/
theorem Does.array {s t : State} (h : Does s t) : s.SameArray t :=
  ⟨congrArg Still.unitsA h.still, congrArg Still.unitsB h.still, congrArg Still.stateA h.still,
    congrArg Still.stateB h.still, congrArg Still.current h.still, congrArg Still.epoch h.still,
    congrArg Still.used h.still, congrArg Still.next h.still, congrArg Still.lastSeq h.still,
    congrArg Still.hot h.still, congrArg Still.wasHot h.still⟩

/-- `t` is `s` with the Journal Unit's work and the budgets of orders changed. -/
structure Kicked (s t : State) : Prop where
  wp : t.wp = s.wp
  kt : t.kt = s.kt
  xu : t.xu = s.xu
  tu : t.tu = s.tu
  tm : t.tm = s.tm
  nu : t.nu = s.nu
  clock : t.clock = s.clock
  pending : t.pending = s.pending
  plan : t.od.plan = s.od.plan
  lanes : t.od.lanes = s.od.lanes
  timer : t.od.scanTimer = s.od.scanTimer
  array : s.SameArray t
  ctxs : ∀ c, ∃ f : Ctx → Bool, t.ctx c = (s.ctx c).map fun x => { x with budgetApplies := f x }

theorem Kicked.refl (s : State) : Kicked s s where
  wp := rfl
  kt := rfl
  xu := rfl
  tu := rfl
  tm := rfl
  nu := rfl
  clock := rfl
  pending := rfl
  plan := rfl
  lanes := rfl
  timer := rfl
  array := State.SameArray.refl s
  ctxs c := ⟨fun x => x.budgetApplies, by cases s.ctx c <;> rfl⟩

theorem Kicked.trans {s t u : State} (h : Kicked s t) (k : Kicked t u) : Kicked s u where
  wp := k.wp.trans h.wp
  kt := k.kt.trans h.kt
  xu := k.xu.trans h.xu
  tu := k.tu.trans h.tu
  tm := k.tm.trans h.tm
  nu := k.nu.trans h.nu
  clock := k.clock.trans h.clock
  pending := k.pending.trans h.pending
  plan := k.plan.trans h.plan
  lanes := k.lanes.trans h.lanes
  timer := k.timer.trans h.timer
  array := h.array.trans k.array
  ctxs c := by
    obtain ⟨f, hf⟩ := h.ctxs c
    obtain ⟨g, hg⟩ := k.ctxs c
    refine ⟨fun x => g { x with budgetApplies := f x }, ?_⟩
    rw [hg, hf]
    cases s.ctx c <;> rfl

theorem Kicked.of {s t u : State} (k : Kicked t u) (h : Kicked s t) : Kicked s u := h.trans k

/-- A change of the Journal Unit that leaves the array. -/
theorem Kicked.withJu {s t : State} (h : Kicked s t) (j : Ju) (hj : t.SameArray { t with ju := j }) :
    Kicked s { t with ju := j } :=
  h.trans { Kicked.refl t with array := hj }

theorem Kicked.ite {s a b : State} {p : Prop} [Decidable p] (ha : Kicked s a) (hb : Kicked s b) :
    Kicked s (if p then a else b) := by split <;> assumption

theorem Kicked.ctx {s t : State} (h : Kicked s t) {c : Nat} {x : Ctx} (hx : s.ctx c = some x) :
    ∃ b, t.ctx c = some { x with budgetApplies := b } := by
  obtain ⟨f, hf⟩ := h.ctxs c
  exact ⟨f x, by rw [hf, hx]; rfl⟩

theorem Kicked.ctx_none {s t : State} (h : Kicked s t) {c : Nat} (hx : s.ctx c = none) : t.ctx c = none := by
  obtain ⟨f, hf⟩ := h.ctxs c
  rw [hf, hx]; rfl

theorem Kicked.core {s t : State} (h : Kicked s t) (c : Nat) : (t.ctx c).map Ctx.core = (s.ctx c).map Ctx.core := by
  obtain ⟨f, hf⟩ := h.ctxs c
  rw [hf]
  cases s.ctx c <;> rfl

theorem Kicked.isSync {s t : State} (h : Kicked s t) (c : Nat) : t.isSync c = s.isSync c := by
  obtain ⟨f, hf⟩ := h.ctxs c
  unfold State.isSync
  rw [hf]
  cases s.ctx c <;> rfl

theorem Kicked.cell {s t : State} (h : Kicked s t) (n : Nat) : t.cell n = s.cell n := by
  unfold State.cell; rw [h.wp]

theorem Kicked.lane {s t : State} (h : Kicked s t) (n : Nat) : t.lane n = s.lane n := by
  unfold State.lane; rw [h.lanes]

theorem Kicked.slot {s t : State} (h : Kicked s t) (n : Nat) : t.slot n = s.slot n := by
  unfold State.slot; rw [h.kt]

theorem Kicked.planLane {s t : State} (h : Kicked s t) (n : Nat) : t.planLane n = s.planLane n := by
  unfold State.planLane; rw [h.plan]

theorem State.settleBudgets_kicked (s : State) : Kicked s s.settleBudgets := by
  refine { Kicked.refl s with array := ⟨rfl, rfl, rfl, rfl, rfl, rfl, rfl, rfl, rfl, rfl, rfl⟩, ctxs := fun c => ?_ }
  by_cases hc : c < 4
  · refine ⟨fun x => x.budgetApplies && !(((s.programming ++ (match s.ju.failed with | some g => g.recs | none => [])).any
      fun r => r.ofOrder c) || s.satisfies x (s.programming ++ (match s.ju.failed with | some g => g.recs | none => []))),
      ?_⟩
    simp only [State.settleBudgets, State.ctx, getD_eq, Vector.getElem?_eq_getElem hc, Option.getD_some,
      Vector.getElem_mapFinIdx]
    cases s.od.ctxs[c] with
    | none => rfl
    | some x =>
      simp only [Option.map_some, Option.some.injEq]
      generalize (List.any _ _ || State.satisfies _ _ _ : Bool) = b
      cases b <;> simp
  · exact ⟨fun _ => false, by
      rw [State.ctx_none_of_le _ _ (by omega), State.ctx_none_of_le _ _ (by omega)]; rfl⟩

theorem State.joinUp_kicked (s : State) : Kicked s s.joinUp := (Kicked.refl s).withJu _ ⟨rfl, rfl, rfl, rfl, rfl, rfl, rfl, rfl, rfl, rfl, rfl⟩

theorem State.beginGroup_kicked (s : State) (l : List Rec) (a b : Bool) : Kicked s (s.beginGroup l a b) := by
  unfold State.beginGroup
  split
  · exact Kicked.refl s
  · exact (State.settleBudgets_kicked _).of ((Kicked.refl s).withJu _ ⟨rfl, rfl, rfl, rfl, rfl, rfl, rfl, rfl, rfl, rfl, rfl⟩)

theorem State.beginCompaction_kicked (s : State) : Kicked s s.beginCompaction :=
  (Kicked.refl s).withJu _ ⟨rfl, rfl, rfl, rfl, rfl, rfl, rfl, rfl, rfl, rfl, rfl⟩

theorem State.beginCompStep_kicked (s : State) (c : Compaction) : Kicked s (s.beginCompStep c) := by
  unfold State.beginCompStep
  dsimp only
  split <;> exact (Kicked.refl s).withJu _ ⟨rfl, rfl, rfl, rfl, rfl, rfl, rfl, rfl, rfl, rfl, rfl⟩

theorem State.eraseKick_kicked (s : State) : Kicked s s.eraseKick := by
  unfold State.eraseKick State.beginErase
  exact Kicked.ite (Kicked.ite ((Kicked.refl s).withJu _ ⟨rfl, rfl, rfl, rfl, rfl, rfl, rfl, rfl, rfl, rfl, rfl⟩) (Kicked.refl s)) (Kicked.refl s)

theorem State.compactIfDue_kicked (s : State) : Kicked s s.compactIfDue := by
  unfold State.compactIfDue
  exact Kicked.ite (State.beginCompaction_kicked s) (Kicked.refl s)

theorem State.makeDue_kicked (s : State) : Kicked s s.makeDue := (Kicked.refl s).withJu _ ⟨rfl, rfl, rfl, rfl, rfl, rfl, rfl, rfl, rfl, rfl, rfl⟩

theorem State.choose_kicked (s : State) : Kicked s s.choose := by
  have due : Kicked s s.makeDue.compactIfDue := (State.compactIfDue_kicked _).of (State.makeDue_kicked s)
  have grp : ∀ (j : Ju) (l : List Rec) (a b : Bool), s.SameArray { s with ju := j } →
      Kicked s (State.beginGroup { s with ju := j } l a b) :=
    fun j l a b hj => (State.beginGroup_kicked _ l a b).of ((Kicked.refl s).withJu j hj)
  unfold State.choose
  split
  · dsimp only
    exact Kicked.ite (Kicked.ite (grp _ _ _ _ ⟨rfl, rfl, rfl, rfl, rfl, rfl, rfl, rfl, rfl, rfl, rfl⟩) due)
      (Kicked.ite (grp _ _ _ _ ⟨rfl, rfl, rfl, rfl, rfl, rfl, rfl, rfl, rfl, rfl, rfl⟩) due)
  · exact Kicked.ite (grp _ _ _ _ ⟨rfl, rfl, rfl, rfl, rfl, rfl, rfl, rfl, rfl, rfl, rfl⟩) due
  · dsimp only
    have hc : Kicked s s.compactIfDue := State.compactIfDue_kicked s
    refine Kicked.ite hc (Kicked.ite hc (Kicked.ite ?_ ?_))
    · refine (State.joinUp_kicked _).of ((State.beginGroup_kicked _ _ _ _).of ?_)
      exact hc.withJu _ ⟨rfl, rfl, rfl, rfl, rfl, rfl, rfl, rfl, rfl, rfl, rfl⟩
    · exact (State.compactIfDue_kicked _).of ((State.makeDue_kicked _).of hc)

theorem State.kick_kicked (s : State) : Kicked s s.kick := by
  unfold State.kick
  refine Kicked.ite ((State.eraseKick_kicked _).of (Kicked.ite (Kicked.refl s) ?_)) (Kicked.refl s)
  split
  · exact Kicked.ite (State.beginCompStep_kicked ..) (Kicked.refl s)
  · exact Kicked.ite (State.choose_kicked s) (Kicked.refl s)

/-- Outside HOLDOVER every command ends with the Journal Unit's work alone. -/
theorem State.finish_kicked (s : State) (h : s.wp.engine ≠ .holdover) : Kicked s s.finish := by
  have hk := State.kick_kicked s
  unfold State.finish State.safePoint
  rw [hk.wp]
  simp [h, hk]

/-! ## A record once given stays given -/

/-- `t` is `s` in all that a record which joins the open group takes from the state. -/
structure State.JoinsAs (s t : State) : Prop where
  kt : t.kt = s.kt
  tu : t.tu = s.tu
  changes : ∀ c, ((t.ctx c).bind fun x => x.change) = (s.ctx c).bind fun x => x.change

theorem State.JoinsAs.trans {s t u : State} (h : s.JoinsAs t) (k : t.JoinsAs u) : s.JoinsAs u :=
  ⟨k.kt.trans h.kt, k.tu.trans h.tu, fun c => (k.changes c).trans (h.changes c)⟩

theorem Kicked.joins {s t : State} (k : Kicked s t) : s.JoinsAs t where
  kt := k.kt
  tu := k.tu
  changes c := by
    obtain ⟨f, hf⟩ := k.ctxs c
    rw [hf]
    cases s.ctx c <;> rfl

/-- A kind of records that joining the open group does not leave. -/
def State.Joins (s : State) (p : Rec → Bool) : Prop := ∀ t, s.JoinsAs t → ∀ r, p r = true → p (t.joinRec r) = true

theorem State.Joins.of {s t : State} {p : Rec → Bool} (h : s.Joins p) (k : s.JoinsAs t) : t.Joins p :=
  fun _ k' => h _ (k.trans k')

theorem State.holdsRecord_iff (s : State) (p : Rec → Bool) :
    s.holdsRecord p = (s.ju.waiting.any p || s.programming.any p) := by
  unfold State.holdsRecord
  rw [List.any_append]

/-- The list keeps every kind of records that joining does not leave. -/
theorem joinUp_any {s : State} {p : Rec → Bool} (hj : s.Joins p) (h : s.ju.waiting.any p = true) :
    s.joinUp.ju.waiting.any p = true := by
  rw [List.any_eq_true] at h ⊢
  obtain ⟨r, hr, hp⟩ := h
  obtain ⟨i, hi, rfl⟩ := List.mem_iff_getElem.mp hr
  refine ⟨_, List.getElem_mem (by unfold State.joinUp; simpa using hi : i < s.joinUp.ju.waiting.length), ?_⟩
  unfold State.joinUp
  simp only [List.getElem_mapIdx]
  split
  · exact hj s (Kicked.refl s).joins _ hp
  · exact hp

theorem State.holdsRecord_congr {s t : State} (p : Rec → Bool) (h1 : t.ju.waiting = s.ju.waiting) (h2 : t.ju.step = s.ju.step) :
    t.holdsRecord p = s.holdsRecord p := by
  unfold State.holdsRecord State.programming
  rw [h1, h2]

theorem State.waiting_of_holds {s : State} {p : Rec → Bool} (h : s.holdsRecord p = true) (h0 : s.ju.step = none) :
    s.ju.waiting.any p = true := by
  rw [State.holdsRecord_iff] at h
  have : s.programming = [] := by unfold State.programming; rw [h0]
  simpa [this] using h

/-- A state whose waiting list is that of another, which programs no group, holds the records held there. -/
theorem State.holdsRecord_waiting {s t : State} {p : Rec → Bool} (h : s.holdsRecord p = true) (h0 : s.ju.step = none)
    (h1 : t.ju.waiting = s.ju.waiting) : t.holdsRecord p = true := by
  rw [State.holdsRecord_iff, h1, State.waiting_of_holds h h0]
  rfl

theorem State.compactIfDue_waiting (s : State) : s.compactIfDue.ju.waiting = s.ju.waiting := by
  unfold State.compactIfDue
  split <;> rfl

theorem State.beginGroup_waiting (s : State) (l : List Rec) (a b : Bool) :
    (s.beginGroup l a b).ju.waiting = s.ju.waiting := by
  unfold State.beginGroup
  split <;> rfl

theorem State.beginGroup_programming (s : State) (l : List Rec) (b : Bool) (h : s.ju.current ≠ none) :
    (s.beginGroup l false b).programming = l := by
  unfold State.beginGroup
  split
  · contradiction
  · rfl

theorem State.choose_holds {s : State} {p : Rec → Bool} (hj : s.Joins p) (h : s.holdsRecord p = true)
    (h0 : s.ju.step = none) : s.choose.holdsRecord p = true := by
  have grp : ∀ (t : State) l a b, t.ju.waiting = s.ju.waiting → (t.beginGroup l a b).holdsRecord p = true :=
    fun t l a b ht => State.holdsRecord_waiting h h0 ((State.beginGroup_waiting ..).trans ht)
  have due : s.makeDue.compactIfDue.holdsRecord p = true :=
    State.holdsRecord_waiting h h0 (State.compactIfDue_waiting _)
  unfold State.choose
  split
  · dsimp only
    split
    · split
      · exact grp _ _ _ _ rfl
      · exact due
    · split
      · exact grp _ _ _ _ rfl
      · exact due
  · split
    · exact grp _ _ _ _ rfl
    · exact due
  · dsimp only
    have hc : s.compactIfDue.holdsRecord p = true := State.holdsRecord_waiting h h0 (State.compactIfDue_waiting _)
    split
    · exact hc
    · split
      · exact hc
      · split
        · have hw : s.compactIfDue.ju.waiting.any p = true := by
            rw [State.compactIfDue_waiting]
            exact State.waiting_of_holds h h0
          have hcur : s.compactIfDue.ju.current ≠ none := by
            rename_i hf
            unfold State.fits at hf
            intro hn
            rw [hn] at hf
            simp at hf
          have hjt : s.compactIfDue.Joins p := hj.of (State.compactIfDue_kicked s).joins
          generalize s.compactIfDue = t at *
          have ht : t.ju.waiting.take t.openGroup.length = t.openGroup := by
            unfold State.openGroup
            rw [List.length_take, List.take_eq_take_iff]
            omega
          obtain ⟨v, hv⟩ : ∃ v : State, v = { t with ju := { t.ju with waiting := t.ju.waiting.drop t.openGroup.length } } := ⟨_, rfl⟩
          rw [← hv]
          have kv : Kicked t v := by
            rw [hv]; exact (Kicked.refl t).withJu _ ⟨rfl, rfl, rfl, rfl, rfl, rfl, rfl, rfl, rfl, rfl, rfl⟩
          rw [State.holdsRecord_iff]
          have hp : (v.beginGroup t.openGroup false false).joinUp.programming = t.openGroup :=
            State.beginGroup_programming v t.openGroup false (by rwa [hv])
          rw [hp]
          rw [← List.take_append_drop t.openGroup.length t.ju.waiting, List.any_append, Bool.or_eq_true, ht] at hw
          rcases hw with hw | hw
          · rw [hw, Bool.or_true]
          · rw [joinUp_any (hjt.of ((State.beginGroup_kicked v _ _ _).of kv).joins) (by rw [State.beginGroup_waiting, hv]; exact hw), Bool.true_or]
        · exact State.holdsRecord_waiting hc
            (by
              rename_i hx _ _
              unfold State.compactIfDue at hx ⊢
              split at hx
              · exact absurd rfl hx
              · split
                · contradiction
                · exact h0)
            (State.compactIfDue_waiting _)

theorem State.kick_holds {s : State} {p : Rec → Bool} (hj : s.Joins p) (h : s.holdsRecord p = true) :
    s.kick.holdsRecord p = true := by
  have ek : ∀ t : State, t.eraseKick.holdsRecord p = t.holdsRecord p := by
    intro t
    apply State.holdsRecord_congr <;> (unfold State.eraseKick State.beginErase; split <;> (try split) <;> rfl)
  unfold State.kick
  split
  · rw [ek]
    split
    · exact h
    · rename_i h0
      have h0 : s.ju.step = none := by simpa using h0
      split
      · split
        · refine State.holdsRecord_waiting h h0 ?_
          unfold State.beginCompStep
          dsimp only
          split <;> rfl
        · exact h
      · split
        · exact State.choose_holds hj h h0
        · exact h
  · exact h

theorem State.finish_holds {s : State} {p : Rec → Bool} (hj : s.Joins p) (h : s.holdsRecord p = true) :
    s.finish.holdsRecord p = true := by
  have := State.kick_holds hj h
  unfold State.finish State.safePoint
  split
  · exact this
  · exact this

/-- A record handed over is held, as it stands or as it has joined. -/
theorem State.handOver_holds {s : State} {p : Rec → Bool} {b : RecBody} {w : Owner} (he : s.wp.engine ≠ .failed)
    (hj : s.Joins p) (hp : p ⟨b, w, false, 0⟩ = true) : (s.handOver b w).holdsRecord p = true := by
  unfold State.handOver
  rw [if_neg he, State.holdsRecord_iff, joinUp_any, Bool.true_or]
  · exact hj.of ⟨rfl, rfl, fun _ => rfl⟩
  · simp [hp]

/-- A record placed, or brought up to date, is held. -/
theorem State.placeOrUpdate_holds {s : State} {p q : Rec → Bool} {b : RecBody} {w : Owner} (he : s.wp.engine ≠ .failed)
    (hj : s.Joins p) (hp : p ⟨b, w, false, 0⟩ = true) (hq : ∀ r, q r = true → p { r with body := b } = true) :
    (s.placeOrUpdate q b w).holdsRecord p = true := by
  unfold State.placeOrUpdate
  split
  · next h =>
    rw [State.holdsRecord_iff, Bool.or_eq_true]
    left
    rw [List.any_eq_true] at h ⊢
    obtain ⟨r, hr, h⟩ := h
    exact ⟨_, List.mem_map_of_mem hr, by rw [if_pos h]; exact hq r h⟩
  · exact State.handOver_holds he hj hp

/-- The record of an order's change stays that record as it joins. -/
theorem State.recordFor_joins {u s : State} {c n : Nat} {ch : Change} (hc : (u.ctx c).bind (fun x => x.change) = some ch)
    (h1 : u.kt = s.kt) (h2 : u.tu = s.tu) : u.Joins (s.recordFor c n ch) := by
  intro t k r h
  have hct : (t.ctx c).bind (fun x => x.change) = some ch := (k.changes c).trans hc
  have hs : t.slot n = s.slot n := by unfold State.slot; rw [k.kt, h1]
  have hn : t.tu.now = s.tu.now := by rw [k.tu, h2]
  unfold State.recordFor at h ⊢
  rw [Bool.and_eq_true] at h ⊢
  obtain ⟨-, h⟩ := h
  refine ⟨by show (!true || t.tu.now == s.tu.now) = true; simp [hn], ?_⟩
  obtain ⟨b, w, j, tm⟩ := r
  unfold State.joinRec
  cases ch with
  | unlock =>
    simp only [Bool.and_eq_true, beq_iff_eq] at h ⊢
    obtain ⟨rfl, rfl⟩ := h
    exact ⟨rfl, rfl⟩
  | _ =>
    simp only [Bool.and_eq_true, beq_iff_eq] at h ⊢
    obtain ⟨rfl, rfl⟩ := h
    simp [hct, hs, hn]

/-- A record that is no image joins with its body as it is. -/
theorem State.joins_body (s : State) {b : RecBody} (hb : ∀ n r, b ≠ .image n r) : s.Joins fun r => r.body == b := by
  intro t _ r h
  have h : r.body = b := by simpa using h
  unfold State.joinRec
  simp only [beq_iff_eq]
  subst h
  split
  · next e => exact absurd e (hb _ _)
  · next e => exact absurd e (hb _ _)
  · rfl

/-- A COUNTER_MARK of a generation present is held after it is placed (R58). -/
theorem State.counterMark_holds {s : State} {n : Nat} {gen : Half} {g : Gen} (he : s.wp.engine ≠ .failed)
    (hg : (s.slot n).find gen = some g) :
    (s.counterMark n gen).holdsRecord (fun r => r.body == .counterMark n gen g.ctr.ceil g.ctr.reqMark) = true := by
  unfold State.counterMark
  rw [hg]
  refine State.placeOrUpdate_holds he (s.joins_body fun _ _ h => RecBody.noConfusion h) (beq_self_eq_true _) fun r _ => beq_self_eq_true _

/-- A TIME_MARK of meter time is held after it is placed (R91). -/
theorem State.timeMark_holds {s : State} (he : s.wp.engine ≠ .failed) :
    s.timeMark.holdsRecord (fun r => r.body == .timeMark s.tu.now) = true := by
  unfold State.timeMark
  refine State.placeOrUpdate_holds he (s.joins_body fun _ _ h => RecBody.noConfusion h) (beq_self_eq_true _) fun r _ => beq_self_eq_true _

/-- A record placed, or brought up to date, leaves the records held that are not of its sort. -/
theorem State.placeOrUpdate_keeps {s : State} {p q : Rec → Bool} {b : RecBody} {w : Owner} (hj : s.Joins p)
    (hq : ∀ r, q r = true → p r = false) (h : s.holdsRecord p = true) : (s.placeOrUpdate q b w).holdsRecord p = true := by
  rw [State.holdsRecord_iff, Bool.or_eq_true] at h
  have hprog : ∀ t : State, t.ju.step = s.ju.step → t.programming = s.programming := by
    intro t ht; unfold State.programming; rw [ht]
  unfold State.placeOrUpdate
  split
  · rw [State.holdsRecord_iff, Bool.or_eq_true]
    refine h.imp (fun h => ?_) id
    rw [List.any_eq_true] at h ⊢
    obtain ⟨r, hr, hp⟩ := h
    refine ⟨_, List.mem_map_of_mem hr, ?_⟩
    split
    · next hk => rw [hq r hk] at hp; cases hp
    · exact hp
  · unfold State.handOver
    split
    · rw [State.holdsRecord_iff, Bool.or_eq_true]; exact h
    · rw [State.holdsRecord_iff, Bool.or_eq_true]
      refine h.imp (fun h => ?_) id
      refine joinUp_any (hj.of ⟨rfl, rfl, fun _ => rfl⟩) ?_
      rw [List.any_append, Bool.or_eq_true]
      exact Or.inl h

theorem SlotRec.withCounters_twice (r t : SlotRec) : (r.withCounters t).withCounters t = r.withCounters t := by
  have key : ∀ f : Gen → Gen, (∀ g, f (f g) = f g) → (r.mapGens f).mapGens f = r.mapGens f := by
    intro f hf
    have : ∀ o : Option Gen, Option.map f (Option.map f o) = Option.map f o := by
      intro o; cases o <;> simp [hf]
    unfold SlotRec.mapGens
    simp only [this]
  refine key _ fun g => ?_
  cases h : t.find g.number <;> simp [h]

/-- The image that a deadline action gave stays that image as it joins. -/
theorem State.actionImage_joins {s : State} {n : Nat} {r : SlotRec} (h : s.slot n = r) : s.Joins (Rec.isActionImage n r) := by
  intro t k q hq
  have ht : t.slot n = r := by rw [← h]; unfold State.slot; rw [k.kt]
  obtain ⟨b, w, j, tm⟩ := q
  unfold Rec.isActionImage at hq ⊢
  unfold State.joinRec
  simp only [Bool.and_eq_true, Bool.or_eq_true, beq_iff_eq] at hq ⊢
  obtain ⟨rfl, rfl | rfl⟩ := hq
  · exact ⟨rfl, Or.inr (by dsimp only; rw [ht])⟩
  · exact ⟨rfl, Or.inr (by dsimp only; rw [ht, SlotRec.withCounters_twice])⟩

/-- The image of a slot that a deadline action changed is held after it is placed (R99). -/
theorem State.deadlineImage_holds {s : State} {n : Nat} (he : s.wp.engine ≠ .failed) :
    (s.deadlineImage n).holdsRecord (Rec.isActionImage n (s.slot n)) = true := by
  unfold State.deadlineImage
  refine State.placeOrUpdate_holds he (State.actionImage_joins rfl) (by simp [Rec.isActionImage]) fun r hr => ?_
  unfold Rec.isDeadlineImage at hr
  split at hr
  · next h _ => simp [Rec.isActionImage, h]
  · cases hr

/-! ## What follows when nothing is ready -/

theorem range4 : List.range 4 = [0, 1, 2, 3] := rfl

theorem State.looked_false {s : State} {n : Nat} (h : (s.lane n).scanWanted = false) : s.looked n = false := by
  unfold State.looked
  simp [h]

theorem State.look_of_not {s : State} {n : Nat} (h : s.looked n = false) : s.look n = s := by
  unfold State.look
  simp [h]

theorem State.arbiterChoice_none {s : State} (h : ∀ n, s.readyLane n = false) : s.arbiterChoice = none := by
  unfold State.arbiterChoice
  simp [h]

/-- No lane is looked at: the arbiter does nothing. -/
theorem State.arbitrate_idle (k : Nat) (s : State) (h : ∀ n, (s.lane n).scanWanted = false) :
    State.arbitrate k s = s := by
  have hl : s.looks = s := by
    unfold State.looks
    rw [range4]
    simp [State.look_of_not, State.looked_false, h]
  have hr : ∀ n, s.readyLane n = false := fun n => by unfold State.readyLane; simp [State.looked_false (h n)]
  have : s.lookAndTake = (s, false) := by
    unfold State.lookAndTake
    rw [hl]
    dsimp only
    rw [State.arbiterChoice_none hr]
    split
    · cases s.freeContext <;> rfl
    · rfl
  cases k with
  | zero => rfl
  | succ k =>
    unfold State.arbitrate
    rw [this]

theorem State.pump_idle (k : Nat) (s : State) (h : ∀ c, s.isSync c = false) : State.pump k s = s := by
  cases k with
  | zero => rfl
  | succ k =>
    have : s.readySync = none := by
      unfold State.readySync
      rw [List.find?_eq_none]
      intro c _ hc
      have := h c
      unfold State.isSync at this
      cases hx : s.ctx c with
      | none => simp [hx] at hc
      | some x => simp_all
    unfold State.pump
    rw [this]

theorem State.settle_idle {s : State} (h : s.wp.engine ≠ .stopping) : s.settle = s := by
  unfold State.settle
  simp [h]

/-- Nothing follows. -/
theorem State.serve_idle {s : State} (h : s.NoFollower) : s.serve = s := by
  unfold State.serve
  rw [State.arbitrate_idle _ _ h.lanes, State.pump_idle _ _ h.syncs, State.settle_idle h.engine]

/-- One lane is looked at, in RUNNING, and its cursor cell is not POSTED: its scan-wanted flag is cleared, and no more
is done. -/
theorem State.arbitrate_look (k : Nat) (s : State) (n : Nat) (h0 : s.taking = true) (hp : s.planLane n ≠ none)
    (hn : n < 4) (h1 : (s.lane n).scanWanted = true) (h2 : ∀ m, m ≠ n → (s.lane m).scanWanted = false)
    (h3 : (s.cell (s.lane n).cursor).state ≠ 1) :
    State.arbitrate (k + 1) s = s.setLane n { s.lane n with scanWanted := false } := by
  have hlook : s.look n = s.setLane n { s.lane n with scanWanted := false } := by
    unfold State.look
    have : s.looked n = true := by
      unfold State.looked
      cases hq : s.planLane n with
      | none => exact absurd hq hp
      | some q => simp [h1]
    rw [if_pos this]
    unfold State.condition State.judge
    split
    · rfl
    · rfl
    · rename_i h4 h5
      exfalso
      revert h4 h5
      rw [if_neg h3]
      split <;> simp
  generalize ht : s.setLane n { s.lane n with scanWanted := false } = t at *
  have hoff : ∀ m, (t.lane m).scanWanted = false := by
    intro m
    rw [← ht, State.lane_setLane]
    split
    · rfl
    · rename_i hm
      exact h2 m (fun hmn => hm ⟨hmn.symm, hn⟩)
  have hlooks : s.looks = t := by
    have one : ∀ m, t.look m = t := fun m => State.look_of_not (State.looked_false (hoff m))
    have two : ∀ m, m ≠ n → s.look m = s := fun m hm => State.look_of_not (State.looked_false (h2 m hm))
    unfold State.looks
    rw [range4]
    simp only [List.foldl_cons, List.foldl_nil]
    have hn' : n = 0 ∨ n = 1 ∨ n = 2 ∨ n = 3 := by omega
    rcases hn' with rfl | rfl | rfl | rfl <;> simp [one, two, hlook]
  have hr : ∀ m, t.readyLane m = false := fun m => by unfold State.readyLane; simp [State.looked_false (hoff m)]
  have : s.lookAndTake = (t, false) := by
    unfold State.lookAndTake
    rw [hlooks, if_pos h0]
    dsimp only
    rw [State.arbiterChoice_none hr]
    cases t.freeContext <;> rfl
  unfold State.arbitrate
  rw [this]

/-! ## A completion as one update -/

/-- A slot with nothing deferred takes no action at the end of a hold. -/
theorem State.takeDeferred_none {s : State} {n : Nat} (h : (s.slot n).deferred = Deferred.none) :
    s.takeDeferred n = s := by
  unfold State.takeDeferred
  simp [List.foldl, h, Deferred.has, Deferred.none]

theorem setCtx_setCtx (s : State) (c : Nat) (x y : Option Ctx) : (s.setCtx c x).setCtx c y = s.setCtx c y := by
  simp [State.setCtx]

/-- The order of a context forgotten, with every SYNC that waited for it. -/
theorem State.freeCtx_modCtx (s : State) (c : Nat) (f : Ctx → Ctx) : (s.modCtx c f).freeCtx c = s.freeCtx c := by
  unfold State.freeCtx State.modCtx State.setCtx
  dsimp only
  congr 2
  apply Vector.ext
  intro i hi
  simp only [Vector.getElem_setIfInBounds, Vector.getElem_map]
  by_cases h : c = i
  · simp [h]
  · simp [h]

/-- The completion sequence of an order that a deferred action or an erase does not follow (R174). -/
theorem State.complete_plain {s : State} {c : Nat} {x : Ctx} (h : s.Plain c x) (code : Code) (res : Res) :
    s.complete c code res = ((((s.writeOutput x code).writeResult x code res).countDone x.lane).freeCtx c) := by
  have slots : ∀ n, (((s.writeOutput x code).writeResult x code res).countDone x.lane).slot n = s.slot n := by
    intro n
    have h1 : ((s.writeOutput x code).writeResult x code res).kt = s.kt := by
      unfold State.writeResult State.writeOutput
      split <;> rfl
    have h2 : ∀ (t : State) m, (t.countDone m).kt = t.kt := by
      intro t m
      unfold State.countDone State.countCompletion
      dsimp only
      split
      · split
        · rfl
        · split <;> rfl
      · rfl
    unfold State.slot
    rw [h2, h1]
  unfold State.complete
  rw [h.ctx]
  dsimp only
  unfold State.release
  split
  · rfl
  · rename_i n hn
    simp only [h.erase, Bool.false_eq_true, if_false]
    rw [State.takeDeferred_none, State.freeCtx_modCtx]
    rw [State.slot_modCtx, slots]
    exact h.deferred n hn

end Sys2Proof.Machine
end

