-- ==== Sys2Proof/Laws/Posting.lean ====
section
/-! SUPPORT. Laws/Posting.lean: an order posted in a quiet lane: the state in which its checks begin, and what follows
them. -/

namespace Sys2Proof.Machine

/-! ## The credits -/

theorem State.refill_eq (s : State) : s.refill = { s with od := { s.od with lanes := s.refill.od.lanes } } := by
  have key : ∀ (l : List Nat) (t : State), l.foldl (fun s n =>
      match s.planLane n with
      | none => s
      | some p => s.setLane n { s.lane n with credits := p.weight }) t =
      { t with od := { t.od with lanes := (l.foldl (fun s n =>
        match s.planLane n with
        | none => s
        | some p => s.setLane n { s.lane n with credits := p.weight }) t).od.lanes } } := by
    intro l
    induction l with
    | nil => intro t; rfl
    | cons a l ih =>
      intro t
      rw [List.foldl_cons]
      split
      · exact ih t
      · rw [ih]
        rfl
  exact key _ s

theorem State.refill_planLane (s : State) (n : Nat) : s.refill.planLane n = s.planLane n := by
  rw [State.refill_eq]; rfl

/-- A refill changes credits alone; an enabled lane's become its weight (R167). -/
theorem State.refill_lane (s : State) (n : Nat) (hn : n < 4) : s.refill.lane n =
    match s.planLane n with
    | none => s.lane n
    | some p => { s.lane n with credits := p.weight } := by
  have key : ∀ (l : List Nat) (t : State), l.Nodup → (∀ m, t.planLane m = s.planLane m) →
      (l.foldl (fun s n =>
        match s.planLane n with
        | none => s
        | some p => s.setLane n { s.lane n with credits := p.weight }) t).lane n =
      if n ∈ l then
        (match s.planLane n with
        | none => t.lane n
        | some p => { t.lane n with credits := p.weight })
      else t.lane n := by
    intro l
    induction l with
    | nil => intro t _ _; rfl
    | cons a l ih =>
      intro t hl hp
      rw [List.nodup_cons] at hl
      rw [List.foldl_cons]
      cases hq : t.planLane a with
      | none =>
        refine (ih t hl.2 hp).trans ?_
        by_cases ha : n = a
        · subst ha
          simp [hl.1, ← hp, hq]
        · simp [ha]
      | some q =>
        refine (ih (t.setLane a { t.lane a with credits := q.weight }) hl.2 hp).trans ?_
        rw [State.lane_setLane]
        by_cases ha : n = a
        · subst ha
          simp [hl.1, ← hp, hq, hn]
        · simp [ha, Ne.symm ha]
  have := key (List.range 4) s (by decide) (fun _ => rfl)
  rw [if_pos (by simpa using hn)] at this
  exact this

/-! ## The take -/

/-- The state in which the checks of an order posted in a quiet lane begin. -/
def State.takenIn (s : State) (lane : Nat) (p : PlanLane) (k : Byte) (o : OrderFields) : State :=
  let cur := (s.lane lane).cursor
  let cell : OrderCell := { s.cell cur with state := 1, kind := k, order := o }
  let u := (s.setCell cur cell).setLane lane { s.lane lane with scanWanted := true }
  let v := if 0 < (s.lane lane).credits then u else u.refill
  ((v.setCell cur { cell with state := 2 }).setCtx 0
    (some (freshCtx lane cur k o s.clock p.budget (s.copyParent k o)))).setLane lane
    { v.lane lane with cursor := p.next cur, credits := (v.lane lane).credits - 1 }

/-- What stands in the state in which the checks begin. -/
structure Taken (s t : State) (lane : Nat) (p : PlanLane) (k : Byte) (o : OrderFields) : Prop where
  wp : t.wp = { s.wp with cells := t.wp.cells }
  cell : t.cell (s.lane lane).cursor = { s.cell (s.lane lane).cursor with state := 2, kind := k, order := o }
  cells : ∀ n, n ≠ (s.lane lane).cursor → t.cell n = s.cell n
  ctx : t.ctx 0 = some (freshCtx lane (s.lane lane).cursor k o s.clock p.budget (s.copyParent k o))
  ctxs : ∀ c, c ≠ 0 → t.ctx c = none
  ring : (t.lane lane).cursor = p.next (s.lane lane).cursor ∧ (t.lane lane).scanWanted = true ∧
    (t.lane lane).done = (s.lane lane).done
  lanes : ∀ n, n ≠ lane → t.lane n = { s.lane n with credits := (t.lane n).credits }
  plan : t.od.plan = s.od.plan
  timer : t.od.scanTimer = s.od.scanTimer
  kt : t.kt = s.kt
  xu : t.xu = s.xu
  tu : t.tu = s.tu
  ju : t.ju = s.ju
  tm : t.tm = s.tm
  nu : t.nu = s.nu
  clock : t.clock = s.clock
  pending : t.pending = s.pending

theorem State.taken_takenIn {s : State} {lane : Nat} {p : PlanLane} (h : s.QuietLane lane p) (k : Byte) (o : OrderFields) :
    Taken s (s.takenIn lane p k o) lane p k o := by
  have hb := h.bound
  have hh := h.high
  unfold State.takenIn
  extract_lets cur _ cell _ u v
  have hcur : cur < 128 := by show (s.lane lane).cursor < 128; omega
  have hv : v = { u with od := { u.od with lanes := v.od.lanes } } := by
    show (if 0 < (s.lane lane).credits then u else u.refill) = _
    have : v = if 0 < (s.lane lane).credits then u else u.refill := rfl
    rw [this]
    split
    · rfl
    · exact State.refill_eq u
  have hvl : ∀ n, n < 4 → v.lane n = { u.lane n with credits := (v.lane n).credits } := by
    intro n hn
    have : v = if 0 < (s.lane lane).credits then u else u.refill := rfl
    rw [this]
    split
    · rfl
    · rw [State.refill_lane u n hn]
      split <;> rfl
  have hul : ∀ n, u.lane n = if n = lane then { s.lane lane with scanWanted := true } else s.lane n := by
    intro n
    show (State.setLane _ _ _).lane n = _
    rw [State.lane_setLane]
    by_cases hn : n = lane
    · subst hn
      rw [if_pos ⟨rfl, h.small⟩, if_pos rfl]
    · simp [hn, Ne.symm hn]
  have vwp : v.wp = u.wp := by rw [hv]
  have vctx : ∀ c, v.ctx c = s.ctx c := by intro c; rw [hv]; rfl
  have vcell : ∀ n, v.cell n = u.cell n := by intro n; rw [hv]; rfl
  have ucell : ∀ n, u.cell n = if n = cur then cell else s.cell n := by
    intro n
    show ((s.setCell cur cell).setLane lane _).cell n = _
    rw [State.cell_setLane, State.cell_setCell]
    by_cases hn : n = cur
    · simp [hn, hcur]
    · simp [hn, Ne.symm hn]
  have l4 : ∀ n, ¬n < 4 → ∀ t : State, t.lane n = LaneState.reset := by
    intro n hn t
    simp [State.lane, getD_eq, hn]
  exact {
    wp := by
      rw [State.setLane_wp, State.setCtx_wp]
      simp only [State.setCell, vwp]
      rfl
    cell := by
      rw [State.cell_setLane, State.cell_setCtx, State.cell_setCell, if_pos ⟨rfl, hcur⟩]
    cells := by
      intro n hn
      rw [State.cell_setLane, State.cell_setCtx, State.cell_setCell, if_neg (fun x => hn x.1.symm), vcell, ucell,
        if_neg hn]
    ctx := by rw [State.ctx_setLane, State.ctx_setCtx, if_pos ⟨rfl, by decide⟩]
    ctxs := by
      intro c hc
      rw [State.ctx_setLane, State.ctx_setCtx, if_neg (fun x => hc x.1.symm), State.ctx_setCell, vctx]
      exact h.ctxs c
    ring := by
      rw [State.lane_setLane, if_pos ⟨rfl, h.small⟩]
      refine ⟨rfl, ?_, ?_⟩
      · show (v.lane lane).scanWanted = true
        rw [hvl lane h.small, hul, if_pos rfl]
      · show (v.lane lane).done = _
        rw [hvl lane h.small, hul, if_pos rfl]
    lanes := by
      intro n hn
      rw [State.lane_setLane, if_neg (fun x => hn x.1.symm), State.lane_setCtx, State.lane_setCell]
      by_cases h4 : n < 4
      · rw [hvl n h4, hul, if_neg hn]
      · rw [l4 n h4, l4 n h4]
    plan := by simp; rw [hv]; rfl
    timer := by simp; rw [hv]; rfl
    kt := by simp; rw [hv]; rfl
    xu := by simp; rw [hv]; rfl
    tu := by simp; rw [hv]; rfl
    ju := by simp; rw [hv]; rfl
    tm := by simp; rw [hv]; rfl
    nu := by simp; rw [hv]; rfl
    clock := by simp; rw [hv]; rfl
    pending := by simp; rw [hv]; rfl }

/-! ## The post -/

theorem State.holder_none {s : State} (h : ∀ c, s.ctx c = none) (n : Nat) : s.holder n = none := by
  unfold State.holder
  rw [List.find?_eq_none]
  intro c _
  rw [h c]
  simp

theorem PlanLane.ringCell_zero (p : PlanLane) (c : Nat) (h1 : p.first ≤ c) (h2 : c < p.first + p.count) :
    p.ringCell c 0 = c := by
  unfold PlanLane.ringCell
  rw [Nat.add_zero, Nat.mod_eq_of_lt (by omega)]
  omega

theorem State.wantScan_one (s : State) (lane : Nat) (hl : lane < 4) (p : PlanLane) (hp : s.planLane lane = some p) :
    (s.wantScan (· == lane)) = s.setLane lane { s.lane lane with scanWanted := true } := by
  unfold State.wantScan
  rw [range4]
  have h4 : lane = 0 ∨ lane = 1 ∨ lane = 2 ∨ lane = 3 := by omega
  rcases h4 with rfl | rfl | rfl | rfl <;> simp [hp]

/-- An order of kind `k` posted at the cursor of a lane, and the lane nudged. -/
def State.postedIn (s : State) (lane : Nat) (k : Byte) (o : OrderFields) : State :=
  (s.setCell (s.lane lane).cursor { s.cell (s.lane lane).cursor with state := 1, kind := k, order := o }).setLane lane
    { s.lane lane with scanWanted := true }

/-- Posting in a quiet lane puts the order in the cell at the cursor. -/
theorem State.post_posted {s : State} {lane : Nat} {p : PlanLane} (h : s.QuietLane lane p) (htak : s.taking = true) (k : Kind) (o : OrderFields) :
    s.post k lane o = (s.postedIn lane k.code o).serve.finish := by
  have hb := h.bound
  have hh := h.high
  have hcur : (s.lane lane).cursor < 128 := by omega
  have hclosed : s.windowClosed = false := by
    unfold State.windowClosed
    rw [h.after.1, h.after.2]
    rfl
  have hpc : s.postCell lane p = some (s.lane lane).cursor := by
    unfold State.postCell
    rw [htak, if_pos rfl]
    dsimp only
    have hz := PlanLane.ringCell_zero p _ h.low h.high
    have : (List.range p.count).find? (fun i => (s.cell (p.ringCell (s.lane lane).cursor i)).state ≠ 1) = some 0 := by
      obtain ⟨m, hm⟩ : ∃ m, p.count = m + 1 := ⟨p.count - 1, by have := h.count; omega⟩
      rw [hm, List.range_succ_eq_map, List.find?_cons_of_pos]
      rw [hz, h.free]
      decide
    rw [this]
    dsimp only
    rw [hz, if_pos h.free]
  unfold State.post
  rw [hclosed, h.plan]
  simp only [Bool.false_eq_true, if_false]
  rw [hpc]
  dsimp only
  rw [State.wantScan_one (s.setCell _ _) lane h.small p h.plan]
  rfl

/-- A nudge of a quiet lane whose cell at the cursor has been posted (R164). -/
theorem State.nudge_posted {s : State} {lane : Nat} {p : PlanLane} (h : s.QuietLane lane p) (k : Byte) (o : OrderFields) :
    State.writeNudge (s.setCell (s.lane lane).cursor { s.cell (s.lane lane).cursor with state := 1, kind := k, order := o })
      (BitVec.ofNat 16 (2 ^ lane)) = (s.postedIn lane k o).serve.finish := by
  unfold State.writeNudge
  rw [if_neg (by show ¬ (s.wp.inReset.isSome = true); rw [h.after.1]; decide)]
  obtain ⟨u, hu⟩ : ∃ u, u = s.setCell (s.lane lane).cursor { s.cell (s.lane lane).cursor with state := 1, kind := k, order := o } := ⟨_, rfl⟩
  have hw := State.wantScan_one u lane h.small p (by rw [hu]; exact h.plan)
  have e : (u.wantScan fun n => (BitVec.ofNat 16 (2 ^ lane)).getLsbD n) = u.wantScan (· == lane) := by
    unfold State.wantScan
    rw [range4]
    have h4 : lane = 0 ∨ lane = 1 ∨ lane = 2 ∨ lane = 3 := by have := h.small; omega
    rcases h4 with rfl | rfl | rfl | rfl <;> rfl
  rw [← hu, e, hw, hu]
  rfl

/-- What a quiet lane shows after the post. -/
theorem State.postedIn_sees {s : State} {lane : Nat} {p : PlanLane} (h : s.QuietLane lane p) (htak : s.taking = true) (k : Byte) (o : OrderFields) :
    let u := s.postedIn lane k o
    (∀ n, u.lane n = if n = lane then { s.lane lane with scanWanted := true } else s.lane n) ∧
    u.cell (s.lane lane).cursor = { s.cell (s.lane lane).cursor with state := 1, kind := k, order := o } ∧
    u.taking = true ∧ (∀ n, u.planLane n = s.planLane n) ∧ u.looks = u ∧ u.freeContext = some 0 ∧
    u.arbiterChoice = some (if 0 < (s.lane lane).credits then u else u.refill, lane) := by
  have hcur : (s.lane lane).cursor < 128 := by have := h.bound; have := h.high; omega
  dsimp only
  generalize hu : s.postedIn lane k o = u
  have ul : ∀ n, u.lane n = if n = lane then { s.lane lane with scanWanted := true } else s.lane n := by
    intro n
    rw [← hu, State.postedIn, State.lane_setLane]
    by_cases hn : n = lane
    · subst hn; simp [h.small]
    · simp [hn, Ne.symm hn]
  have up : ∀ n, u.planLane n = s.planLane n := by intro n; rw [← hu]; rfl
  have uctx : ∀ c, u.ctx c = none := by intro c; rw [← hu]; exact h.ctxs c
  have ucell : u.cell (s.lane lane).cursor = { s.cell (s.lane lane).cursor with state := 1, kind := k, order := o } := by
    rw [← hu, State.postedIn, State.cell_setLane, State.cell_setCell, if_pos ⟨rfl, hcur⟩]
  have utak : u.taking = true := by rw [← hu]; exact htak
  have ulook : u.looked lane = true := by
    unfold State.looked
    rw [up, h.plan, ul]
    simp
  have unot : ∀ n, n ≠ lane → u.looked n = false := by
    intro n hn
    apply State.looked_false
    rw [ul, if_neg hn]
    exact h.others n hn
  have ucond : u.condition lane = .ready := by
    unfold State.condition
    rw [ul, if_pos rfl]
    show u.judge (u.cell (s.lane lane).cursor) = _
    rw [ucell]
    unfold State.judge
    simp only [BitVec.reduceEq, if_true, if_false]
    split
    · rfl
    · unfold State.isHeld
      rw [State.holder_none uctx]
      rfl
  have ulooks : u.looks = u := by
    have one : ∀ n, u.look n = u := by
      intro n
      by_cases hn : n = lane
      · subst hn
        unfold State.look
        rw [if_pos ulook, ucond]
      · exact State.look_of_not (unot n hn)
    unfold State.looks
    rw [range4]
    simp [one]
  have ufree : u.freeContext = some 0 := by
    unfold State.freeContext
    rw [range4]
    simp [uctx]
  have uready : (List.range 4).filter u.readyLane = [lane] := by
    have r1 : u.readyLane lane = true := by unfold State.readyLane; rw [ulook, ucond]; rfl
    have r2 : ∀ n, n ≠ lane → u.readyLane n = false := by intro n hn; unfold State.readyLane; rw [unot n hn]; rfl
    rw [range4]
    have h4 : lane = 0 ∨ lane = 1 ∨ lane = 2 ∨ lane = 3 := by have := h.small; omega
    rcases h4 with rfl | rfl | rfl | rfl <;> simp [r1, r2]
  have uchoice : u.arbiterChoice = some (if 0 < (s.lane lane).credits then u else u.refill, lane) := by
    unfold State.arbiterChoice
    rw [uready]
    have hc : (u.lane lane).credits = (s.lane lane).credits := by rw [ul, if_pos rfl]
    by_cases h0 : 0 < (s.lane lane).credits
    · simp [hc, h0]
    · have : (u.refill.lane lane).credits = p.weight := by
        rw [State.refill_lane u lane h.small, up, h.plan]
      have hw := h.weight
      simp [hc, h0, this]
      omega
  exact ⟨ul, ucell, utak, up, ulooks, ufree, uchoice⟩

/-- The take of the order posted in a quiet lane. -/
theorem State.postedIn_taken {s : State} {lane : Nat} {p : PlanLane} (h : s.QuietLane lane p) (htak : s.taking = true) (k : Byte) (o : OrderFields) :
    (s.postedIn lane k o).lookAndTake = (((s.takenIn lane p k o).startOrder 0).kick, true) := by
  have sees := State.postedIn_sees h htak k o
  dsimp only at sees
  generalize hu : s.postedIn lane k o = u at sees ⊢
  obtain ⟨ul, ucell, utak, up, ulooks, ufree, uchoice⟩ := sees
  have uclock : u.clock = s.clock := by rw [← hu]; rfl
  have uslot : ∀ n, u.slot n = s.slot n := by intro n; rw [← hu]; rfl
  unfold State.lookAndTake
  rw [utak, if_pos rfl, ulooks]
  dsimp only
  rw [ufree, uchoice]
  dsimp only
  generalize hv : (if 0 < (s.lane lane).credits then u else u.refill) = v
  have vplan : v.planLane lane = some p := by
    rw [← hv]
    split
    · rw [up, h.plan]
    · rw [State.refill_planLane, up, h.plan]
  obtain ⟨v1, v2⟩ : v = { u with od := { u.od with lanes := v.od.lanes } } ∧ (v.lane lane).cursor = (s.lane lane).cursor := by
    rw [← hv]
    split
    · exact ⟨rfl, by rw [ul, if_pos rfl]⟩
    · refine ⟨State.refill_eq u, ?_⟩
      rw [State.refill_lane u lane h.small, up, h.plan, ul, if_pos rfl]
  have vcell : v.cell (s.lane lane).cursor = u.cell (s.lane lane).cursor := by rw [v1]; rfl
  have vclock : v.clock = s.clock := by rw [v1]; exact uclock
  have vslot : ∀ n, v.slot n = s.slot n := by intro n; rw [v1]; exact uslot n
  have vcopy : v.copyParent k o = s.copyParent k o := by
    unfold State.copyParent
    simp only [vslot]
  rw [vplan]
  dsimp only
  refine Prod.ext (congrArg State.kick ?_) rfl
  unfold State.take
  dsimp only
  rw [v2, vcell, ucell]
  dsimp only
  rw [vclock, vcopy]
  unfold State.takenIn
  dsimp only
  rw [show (s.setCell (s.lane lane).cursor { s.cell (s.lane lane).cursor with state := 1, kind := k, order := o }).setLane lane
    { s.lane lane with scanWanted := true } = u from hu, hv]

/-- The cell at the cursor, posted in a quiet lane, is taken into context 0, and its checks begin. -/
theorem State.post_quiet {s : State} {lane : Nat} {p : PlanLane} (h : s.QuietLane lane p) (htak : s.taking = true) (k : Byte)
    (o : OrderFields) : (s.postedIn lane k o).serve.finish =
      (((State.arbitrate 128 ((s.takenIn lane p k o).startOrder 0).kick).pump 132).settle).finish := by
  have ustep := State.postedIn_taken h htak k o
  generalize s.postedIn lane k o = u at *
  refine congrArg State.finish ?_
  unfold State.serve
  have h129 : State.arbitrate 129 u = State.arbitrate 128 ((s.takenIn lane p k o).startOrder 0).kick := by
    show State.arbitrate (128 + 1) u = _
    conv_lhs => unfold State.arbitrate
    rw [ustep]
  rw [h129]

/-- What follows the checks of an order posted in a quiet lane: one look at the lane, and the end of the command. -/
theorem State.post_end {s u : State} {lane : Nat} {p : PlanLane} (h : s.QuietLane lane p) (htak : s.taking = true) (k : Byte)
    (o : OrderFields) (hu : (s.takenIn lane p k o).startOrder 0 = u) (he : u.taking = true) (hp : u.od.plan = s.od.plan)
    (hc : ∀ n, n ≠ (s.lane lane).cursor → u.cell n = s.cell n)
    (hl : (u.lane lane).cursor = p.next (s.lane lane).cursor ∧ (u.lane lane).scanWanted = true)
    (hs : ∀ n, n ≠ lane → (u.lane n).scanWanted = false) (hy : ∀ c, u.isSync c = false) :
    (s.postedIn lane k o).serve.finish = (u.kick.setLane lane { u.lane lane with scanWanted := false }).finish := by
  rw [State.post_quiet h htak, hu]
  have hk := State.kick_kicked u
  generalize u.kick = w at *
  have hnext : p.next (s.lane lane).cursor ≠ (s.lane lane).cursor := by
    have := h.count
    have := h.low
    have := h.high
    unfold PlanLane.next
    split <;> omega
  rw [← hk.lane lane]
  have ha := State.arbitrate_look 127 w lane (by unfold State.taking; rw [hk.wp]; exact he)
    (by
      rw [hk.planLane]
      unfold State.planLane
      rw [hp]
      have := h.plan
      unfold State.planLane at this
      rw [this]
      simp)
    h.small (by rw [hk.lane]; exact hl.2) (fun m hm => by rw [hk.lane]; exact hs m hm)
    (by
      rw [hk.lane, hl.1, hk.cell, hc _ hnext]
      exact h.next)
  rw [show State.arbitrate 128 w = State.arbitrate (127 + 1) w from rfl, ha]
  rw [State.pump_idle _ _ (fun c => by
    have := hy c
    rw [← hk.isSync] at this
    exact this)]
  rw [State.settle_idle]
  show w.wp.engine ≠ _
  rw [hk.wp]
  intro hc
  unfold State.taking at he
  rw [hc] at he
  cases he

end Sys2Proof.Machine
end

