-- ==== Sys2Proof/Laws/Flight.lean ====
section
/-! SUPPORT. Laws/Flight.lean: how an order posted in a quiet lane comes out of its checks: in flight, or complete. -/

namespace Sys2Proof.Machine

/-! ## Readers under equal parts -/

theorem State.ctx_congr {s t : State} (h : t.od = s.od) (c : Nat) : t.ctx c = s.ctx c := by
  unfold State.ctx; rw [h]

theorem State.lane_congr {s t : State} (h : t.od = s.od) (n : Nat) : t.lane n = s.lane n := by
  unfold State.lane; rw [h]

theorem State.slot_congr {s t : State} (h : t.kt = s.kt) (n : Nat) : t.slot n = s.slot n := by
  unfold State.slot; rw [h]

theorem State.planLane_congr {s t : State} (h : t.od.plan = s.od.plan) (n : Nat) : t.planLane n = s.planLane n := by
  unfold State.planLane; rw [h]

theorem State.cell_congr {s t : State} (h : t.wp.cells = s.wp.cells) (n : Nat) : t.cell n = s.cell n := by
  unfold State.cell; rw [h]

/-- A counted completion changes the Notice Unit by what that unit, the plan and the clock hold. -/
theorem State.countCompletion_nu {s t : State} (hp : t.od.plan = s.od.plan) (hn : t.nu = s.nu) (hc : t.clock = s.clock)
    (n : Nat) : (t.countCompletion n).nu = (s.countCompletion n).nu := by
  unfold State.countCompletion State.raise State.setCause State.cause State.setCoalescing State.coalescing
  rw [State.planLane_congr hp, hn, hc]
  split
  · exact hn
  · dsimp only
    split <;> rfl

theorem State.countCompletion_rest (s : State) (n : Nat) :
    s.countCompletion n = { s with nu := (s.countCompletion n).nu } := by
  unfold State.countCompletion
  split
  · rfl
  · dsimp only
    split <;> rfl

/-! ## An order that goes on -/

/-- `u` is `T` with the order `x` in context `c`; the RAM, the tables and the journal's list may differ. -/
structure Onward (T u : State) (c : Nat) (x : Ctx) : Prop where
  small : c < 4
  od : u.od = (T.setCtx c (some x)).od
  wp : u.wp = { T.wp with ram := u.wp.ram }
  array : T.SameArray u
  tm : u.tm = T.tm
  clock : u.clock = T.clock
  pending : u.pending = T.pending

theorem Onward.ctx {T u : State} {c : Nat} {x : Ctx} (h : Onward T u c x) : u.ctx c = some x := by
  rw [State.ctx_congr h.od, State.ctx_setCtx, if_pos ⟨rfl, h.small⟩]

theorem Onward.ctxs {T u : State} {c : Nat} {x : Ctx} (h : Onward T u c x) {d : Nat} (hd : d ≠ c) : u.ctx d = T.ctx d := by
  rw [State.ctx_congr h.od, State.ctx_setCtx, if_neg (fun k => hd k.1.symm)]

theorem Onward.lane {T u : State} {c : Nat} {x : Ctx} (h : Onward T u c x) (n : Nat) : u.lane n = T.lane n := by
  rw [State.lane_congr h.od]; rfl

theorem Onward.cell {T u : State} {c : Nat} {x : Ctx} (h : Onward T u c x) (n : Nat) : u.cell n = T.cell n := by
  apply State.cell_congr; rw [h.wp]

theorem Onward.plan {T u : State} {c : Nat} {x : Ctx} (h : Onward T u c x) : u.od.plan = T.od.plan := by rw [h.od]; rfl

theorem Onward.timer {T u : State} {c : Nat} {x : Ctx} (h : Onward T u c x) : u.od.scanTimer = T.od.scanTimer := by rw [h.od]; rfl

/-- The order of context 0 changed. -/
theorem Onward.mod {T u : State} {c : Nat} {x : Ctx} (h : Onward T u c x) (f : Ctx → Ctx) : Onward T (u.modCtx c f) c (f x) where
  small := h.small
  od := by
    unfold State.modCtx
    rw [h.ctx]
    unfold State.setCtx
    rw [h.od]
    simp [State.setCtx]
  wp := h.wp
  array := h.array.trans ⟨rfl, rfl, rfl, rfl, rfl, rfl, rfl, rfl, rfl, rfl, rfl⟩
  tm := h.tm
  clock := h.clock
  pending := h.pending

/-- A change of the slots, of time, of the notices or of the Cipher Unit. -/
theorem Onward.tables {T u v : State} {c : Nat} {x : Ctx} (h : Onward T u c x) (h1 : v.od = u.od) (h2 : v.wp = u.wp)
    (h3 : u.SameArray v) (h4 : v.tm = u.tm) (h5 : v.clock = u.clock) (h6 : v.pending = u.pending) : Onward T v c x where
  small := h.small
  od := h1.trans h.od
  wp := by rw [h2]; exact h.wp
  array := h.array.trans h3
  tm := h4.trans h.tm
  clock := h5.trans h.clock
  pending := h6.trans h.pending

/-- A change of the RAM. -/
theorem Onward.ram {T u : State} {c : Nat} {x : Ctx} (h : Onward T u c x) (m : List Host.Cell) :
    Onward T { u with wp := { u.wp with ram := m } } c x where
  small := h.small
  od := h.od
  wp := by rw [h.wp]
  array := h.array.trans ⟨rfl, rfl, rfl, rfl, rfl, rfl, rfl, rfl, rfl, rfl, rfl⟩
  tm := h.tm
  clock := h.clock
  pending := h.pending

/-- The order as the take makes it goes on. -/
theorem Taken.onward {s T : State} {lane : Nat} {p : PlanLane} {k : Byte} {o : OrderFields}
    (h : Taken s T lane p k o) :
    Onward T T 0 (freshCtx lane (s.lane lane).cursor k o s.clock p.budget (s.copyParent k o)) where
  small := by decide
  od := by
    have := h.ctx
    unfold State.ctx at this
    rw [getD_eq] at this
    have e : T.od.ctxs.setIfInBounds 0 (some (freshCtx lane (s.lane lane).cursor k o s.clock p.budget
        (s.copyParent k o))) = T.od.ctxs := by
      apply Vector.ext
      intro i hi
      rw [Vector.getElem_setIfInBounds]
      split
      · subst_vars
        simpa using this.symm
      · rfl
    unfold State.setCtx
    rw [e]
  wp := rfl
  array := State.SameArray.refl T
  tm := rfl
  clock := rfl
  pending := rfl

/-- The marks of the order copy that no check changes. -/
structure Ctx.Copy (x : Ctx) (s : State) (lane : Nat) (p : PlanLane) (k : Byte) (o : OrderFields) : Prop where
  copy : x.lane = lane ∧ x.cell = (s.lane lane).cursor ∧ x.kind = k ∧ x.order = o
  held : x.held = heldSlot k o
  take : x.takeTime = s.clock ∧ x.budget = 10 * p.budget ∧ x.late = false
  wait : x.wait ≠ .predecessors
  erase : x.erasePending = false

/-- What follows an order that goes on from its checks in flight. -/
structure Flown (s t u : State) (lane : Nat) (p : PlanLane) (k : Kind) (o : OrderFields) (x : Ctx) : Prop where
  flight : ∃ b, s.InFlight t lane p k o { x with budgetApplies := b }
  kt : t.kt = u.kt
  tu : t.tu = u.tu
  nu : t.nu = u.nu
  xu : t.xu = u.xu
  ram : t.wp.ram = u.wp.ram
  given : ∀ q, u.Joins q → u.holdsRecord q = true → t.holdsRecord q = true

/-- The frame of an order that goes on. -/
theorem Onward.frame {s T u v : State} {lane : Nat} {p : PlanLane} {k : Byte} {o : OrderFields} {x : Ctx}
    (h : s.QuietLane lane p) (hT : Taken s T lane p k o) (g : Onward T u 0 x) (hv : Kicked u v) :
    s.OrderFrame v lane (s.lane lane).cursor 0 where
  port := by
    rw [hv.wp, g.wp]
    show _ = { s.wp with ram := u.wp.ram, cells := T.wp.cells }
    rw [hT.wp]
  cells n hn := by rw [hv.cell, g.cell, hT.cells n hn]
  lanes n hn := by
    rw [hv.lane, g.lane]
    exact hT.lanes n hn
  ctxs c hc := by rw [hv.core, g.ctxs hc, hT.ctxs c hc, h.ctxs c]
  plan := by rw [hv.plan, g.plan, hT.plan]
  timer := by rw [hv.timer, g.timer, hT.timer]
  array := by
    have : s.SameArray T := by constructor <;> rw [hT.ju]
    exact this.trans (g.array.trans hv.array)
  tamper := by rw [hv.tm, g.tm, hT.tm]
  clock := by rw [hv.clock, g.clock, hT.clock]
  pending := by rw [hv.pending, g.pending, hT.pending]

theorem State.OrderFrame.look {s v : State} {lane c x : Nat} (h : s.OrderFrame v lane c x) (l : LaneState) :
    s.OrderFrame (v.setLane lane l) lane c x where
  port := h.port
  cells := h.cells
  lanes n hn := by
    rw [State.lane_setLane, if_neg (fun k => hn k.1.symm)]
    exact h.lanes n hn
  ctxs := h.ctxs
  plan := h.plan
  timer := h.timer
  array := h.array.trans ⟨rfl, rfl, rfl, rfl, rfl, rfl, rfl, rfl, rfl, rfl, rfl⟩
  tamper := h.tamper
  clock := h.clock
  pending := h.pending

theorem State.OrderFrame.kicked {s v w : State} {lane c x : Nat} (h : s.OrderFrame v lane c x) (k : Kicked v w) :
    s.OrderFrame w lane c x where
  port := by rw [k.wp]; exact h.port
  cells n hn := (k.cell n).trans (h.cells n hn)
  lanes n hn := by rw [k.lane]; exact h.lanes n hn
  ctxs d hd := (k.core d).trans (h.ctxs d hd)
  plan := k.plan.trans h.plan
  timer := k.timer.trans h.timer
  array := h.array.trans k.array
  tamper := k.tm.trans h.tamper
  clock := k.clock.trans h.clock
  pending := k.pending.trans h.pending

theorem State.Quiet.taking {s : State} {lane : Nat} {p : PlanLane} (h : s.Quiet lane p) : s.taking = true := by
  unfold State.taking
  rw [h.running]
  rfl

/-- An order posted in a quiet lane whose checks leave it in flight. -/
theorem State.post_onward {s T u : State} {lane : Nat} {p : PlanLane} {k : Kind} {o : OrderFields} {x : Ctx}
    (h : s.Quiet lane p) (hT : s.takenIn lane p k.code o = T) (hu : T.startOrder 0 = u) (g : Onward T u 0 x)
    (hx : x.Copy s lane p k.code o) : Flown s (s.post k lane o) u lane p k o x := by
  have tk := State.taken_takenIn h.toQuietLane k.code o
  rw [hT] at tk
  have heng : u.wp.engine = .running := by rw [g.wp, tk.wp]; exact h.running
  have hsync : ∀ c, u.isSync c = false := by
    intro c
    unfold State.isSync
    by_cases hc : c = 0
    · subst hc
      rw [g.ctx]
      have := hx.wait
      cases hw : x.wait <;> simp_all
    · rw [g.ctxs hc, tk.ctxs c hc]; rfl
  have hl : (u.lane lane).cursor = p.next (s.lane lane).cursor ∧ (u.lane lane).scanWanted = true := by
    rw [g.lane]; exact ⟨tk.ring.1, tk.ring.2.1⟩
  rw [State.post_posted h.toQuietLane h.taking, State.post_end h.toQuietLane h.taking k.code o (by rw [hT, hu])
    (by unfold State.taking; rw [heng]; rfl) (by rw [g.plan, tk.plan])
    (fun n hn => by rw [g.cell, tk.cells n hn]) hl
    (fun n hn => by
      rw [g.lane, tk.lanes n hn]
      exact h.others n hn) hsync]
  have k1 := State.kick_kicked u
  have g1 := fun q => State.kick_holds (s := u) (p := q)
  generalize u.kick = w at *
  have k2 : Kicked (w.setLane lane { u.lane lane with scanWanted := false })
      (w.setLane lane { u.lane lane with scanWanted := false }).finish :=
    State.finish_kicked _ (by rw [State.setLane_wp, k1.wp, heng]; decide)
  have g2 := fun q => State.finish_holds (s := w.setLane lane { u.lane lane with scanWanted := false }) (p := q)
  generalize (w.setLane lane { u.lane lane with scanWanted := false }).finish = t at *
  obtain ⟨b1, c1⟩ := k1.ctx g.ctx
  obtain ⟨b2, c2⟩ := k2.ctx (c := 0) (x := { x with budgetApplies := b1 }) (by rw [State.ctx_setLane, c1])
  have fr := (((Onward.frame h.toQuietLane tk g k1).look { u.lane lane with scanWanted := false }).kicked k2)
  exact {
    flight := ⟨b2, {
      ctx := c2
      copy := hx.copy
      held := hx.held
      take := hx.take
      cell := by
        rw [k2.cell, State.cell_setLane, k1.cell, g.cell, tk.cell]
      ring := by
        rw [k2.lane, State.lane_setLane, if_pos ⟨rfl, h.small⟩]
        refine ⟨hl.1, rfl, ?_⟩
        show (u.lane lane).done = _
        rw [g.lane]; exact tk.ring.2.2
      frame := fr }⟩
    kt := by rw [k2.kt, State.setLane_kt, k1.kt]
    tu := by rw [k2.tu, State.setLane_tu, k1.tu]
    nu := by rw [k2.nu, State.setLane_nu, k1.nu]
    xu := by rw [k2.xu, State.setLane_xu, k1.xu]
    ram := by rw [k2.wp, State.setLane_wp, k1.wp]
    given := fun q hj hg => g2 q (hj.of (k1.joins.trans ⟨rfl, rfl, fun _ => rfl⟩)) (g1 q hj hg) }

/-! ## An order that completes at once -/

/-- A completion in RUNNING that a deferred action or an erase does not follow, part by part. -/
structure Completed (u v : State) (c : Nat) (x : Ctx) (code : Code) (res : Res) : Prop where
  wp : v.wp = { u.wp with
    ram := if code = .ok then Ram.writeBytes u.wp.ram x.order.output.addr x.output else u.wp.ram
    cells := v.wp.cells }
  cell : v.cell x.cell = { u.cell x.cell with
    state := 3
    order := { (u.cell x.cell).order with tag := x.order.tag }
    result := resultOf code res u.tu.now }
  cells : ∀ n, n ≠ x.cell → v.cell n = u.cell n
  lane : v.lane x.lane = { u.lane x.lane with done := (u.lane x.lane).done + 1 }
  lanes : ∀ n, n ≠ x.lane → v.lane n = u.lane n
  ctx : v.ctx c = none
  ctxs : ∀ d, d ≠ c → v.ctx d = (u.ctx d).map fun y => { y with preds := y.preds.filter (· ≠ c) }
  plan : v.od.plan = u.od.plan
  timer : v.od.scanTimer = u.od.scanTimer
  kt : v.kt = u.kt
  xu : v.xu = u.xu
  tu : v.tu = u.tu
  ju : v.ju = u.ju
  tm : v.tm = u.tm
  notices : v.nu = if u.taking then (u.countCompletion x.lane).nu else u.nu
  clock : v.clock = u.clock
  pending : v.pending = u.pending

theorem Completed.taken {u v : State} {c : Nat} {x : Ctx} {code : Code} {res : Res} (h : Completed u v c x code res)
    (ht : u.taking = true) : v.nu = (u.countCompletion x.lane).nu := by
  rw [h.notices, if_pos ht]

theorem Completed.nu {u v : State} {c : Nat} {x : Ctx} {code : Code} {res : Res} (h : Completed u v c x code res)
    (he : u.wp.engine = .running) : v.nu = (u.countCompletion x.lane).nu := by
  rw [h.notices, if_pos (by unfold State.taking; simp [he])]

theorem State.complete_completed {u : State} {c : Nat} {x : Ctx} (h : u.Plain c x)
    (code : Code) (res : Res) : Completed u (u.complete c code res) c x code res := by
  rw [State.complete_plain h]
  have hw : u.writeOutput x code = { u with wp := { u.wp with
      ram := if code = .ok then Ram.writeBytes u.wp.ram x.order.output.addr x.output else u.wp.ram } } := by
    unfold State.writeOutput
    split
    · rfl
    · rfl
  generalize hm : (if code = .ok then Ram.writeBytes u.wp.ram x.order.output.addr x.output else u.wp.ram) = m at *
  rw [hw]
  generalize hv : State.writeResult { u with wp := { u.wp with ram := m } } x code res = v
  have vcell : ∀ n, v.cell n = if n = x.cell then { u.cell x.cell with
      state := 3
      order := { (u.cell x.cell).order with tag := x.order.tag }
      result := resultOf code res u.tu.now } else u.cell n := by
    intro n
    rw [← hv]
    unfold State.writeResult
    rw [State.cell_setCell]
    by_cases hn : n = x.cell
    · subst hn; rw [if_pos ⟨rfl, h.cell⟩, if_pos rfl]; rfl
    · rw [if_neg (fun k => hn k.1.symm), if_neg hn]; rfl
  have vwp : v.wp = { u.wp with ram := m, cells := v.wp.cells } := by rw [← hv]; rfl
  have vod : v.od = u.od := by rw [← hv]; rfl
  have vnu : v.nu = u.nu := by rw [← hv]; rfl
  have vclock : v.clock = u.clock := by rw [← hv]; rfl
  have vkt : v.kt = u.kt := by rw [← hv]; rfl
  have vxu : v.xu = u.xu := by rw [← hv]; rfl
  have vtu : v.tu = u.tu := by rw [← hv]; rfl
  have vju : v.ju = u.ju := by rw [← hv]; rfl
  have vtm : v.tm = u.tm := by rw [← hv]; rfl
  have vpd : v.pending = u.pending := by rw [← hv]; rfl
  clear hw hv
  unfold State.countDone
  dsimp only
  have hk : (v.setLane x.lane { v.lane x.lane with done := (v.lane x.lane).done + 1 }).taking = u.taking := by
    unfold State.taking
    rw [State.setLane_wp, vwp]
  rw [hk]
  generalize hq : v.setLane x.lane { v.lane x.lane with done := (v.lane x.lane).done + 1 } = q
  have hn : (q.countCompletion x.lane).nu = (u.countCompletion x.lane).nu :=
    State.countCompletion_nu (by rw [← hq, State.setLane_plan, vod]) (by rw [← hq, State.setLane_nu, vnu])
      (by rw [← hq, State.setLane_clock, vclock]) _
  have qnu : q.nu = u.nu := by rw [← hq, State.setLane_nu, vnu]
  obtain ⟨ν, hν⟩ : ∃ ν, ν = if u.taking then (u.countCompletion x.lane).nu else u.nu := ⟨_, rfl⟩
  have hr : (if u.taking then q.countCompletion x.lane else q) = { q with nu := ν } := by
    rw [hν]
    split
    · rw [State.countCompletion_rest q x.lane, hn]
    · rw [← qnu]
  rw [hr]
  have qwp : q.wp = v.wp := by rw [← hq]; rfl
  have qlane : ∀ n, q.lane n = if n = x.lane then { u.lane x.lane with done := (u.lane x.lane).done + 1 } else u.lane n := by
    intro n
    rw [← hq, State.lane_setLane]
    by_cases hn : n = x.lane
    · subst hn
      rw [if_pos ⟨rfl, h.lane⟩, if_pos rfl, State.lane_congr vod]
    · rw [if_neg (fun k => hn k.1.symm), if_neg hn, State.lane_congr vod]
  have qctx : ∀ d, q.ctx d = u.ctx d := by
    intro d
    rw [← hq, State.ctx_setLane, State.ctx_congr vod]
  exact {
    wp := by show q.wp = _; rw [qwp, vwp, hm]; rfl
    cell := by
      show q.cell _ = _
      rw [State.cell_congr (s := v) (by rw [qwp]), vcell, if_pos rfl]
    cells := fun n hn => by
      show q.cell _ = _
      rw [State.cell_congr (s := v) (by rw [qwp]), vcell, if_neg hn]
    lane := by show q.lane _ = _; rw [qlane, if_pos rfl]
    lanes := fun n hn => by show q.lane _ = _; rw [qlane, if_neg hn]
    ctx := by
      unfold State.freeCtx State.ctx
      rw [getD_set, if_pos ⟨rfl, h.small⟩]
    ctxs := fun d hd => by
      rw [← qctx]
      unfold State.freeCtx State.ctx
      rw [getD_set, if_neg (fun k => hd k.1.symm)]
      simp only [getD_eq, Vector.getElem?_map]
      cases q.od.ctxs[d]? <;> rfl
    plan := by show q.od.plan = _; rw [← hq, State.setLane_plan, vod]
    timer := by show q.od.scanTimer = _; rw [← hq, State.setLane_timer, vod]
    kt := by show q.kt = _; rw [← hq]; exact vkt
    xu := by show q.xu = _; rw [← hq]; exact vxu
    tu := by show q.tu = _; rw [← hq]; exact vtu
    ju := by show q.ju = _; rw [← hq]; exact vju
    tm := by show q.tm = _; rw [← hq]; exact vtm
    notices := hν
    clock := by show q.clock = _; rw [← hq]; exact vclock
    pending := by show q.pending = _; rw [← hq]; exact vpd }

/-- What follows an order that its checks complete. -/
structure Landed (s t u : State) (lane : Nat) (p : PlanLane) (k : Byte) (o : OrderFields) (x : Ctx) (code : Code)
    (res : Res) : Prop where
  done : s.DoneAtOnce t lane p k o code res
  kt : t.kt = u.kt
  tu : t.tu = u.tu
  nu : t.nu = (u.countCompletion lane).nu
  xu : t.xu = u.xu
  ram : t.wp.ram = if code = .ok then Ram.writeBytes u.wp.ram o.output.addr x.output else u.wp.ram
  given : ∀ b, (∀ n r, b ≠ .image n r) → u.holdsRecord (fun q => q.body == b) = true →
    t.holdsRecord (fun q => q.body == b) = true

/-- An order posted in a quiet lane that its checks complete; `u` is the state in which it completes. -/
theorem State.post_complete {s T u : State} {lane : Nat} {p : PlanLane} {k : Byte} {o : OrderFields} {x : Ctx}
    {code : Code} {res : Res} (h : s.QuietLane lane p) (ht : s.taking = true) (hT : s.takenIn lane p k o = T)
    (hu : T.startOrder 0 = u.complete 0 code res) (g : Onward T u 0 x) (hx : x.Copy s lane p k o)
    (hd : ∀ n, heldSlot k o = some n → (u.slot n).deferred = Deferred.none) :
    Landed s (s.postedIn lane k o).serve.finish u lane p k o x code res := by
  have tk := State.taken_takenIn h k o
  rw [hT] at tk
  obtain ⟨x1, x2, x3, x4⟩ := hx.copy
  have hcur : (s.lane lane).cursor < 128 := by have := h.high; have := h.bound; omega
  have pl : u.Plain 0 x := {
    ctx := g.ctx
    small := by decide
    lane := by rw [x1]; exact h.small
    cell := by rw [x2]; exact hcur
    erase := hx.erase
    deferred := fun n hn => hd n (by rw [← hx.held]; exact hn) }
  have uwp : u.wp = { s.wp with ram := u.wp.ram, cells := T.wp.cells } := by rw [g.wp, tk.wp]
  have heng : u.taking = true := by unfold State.taking; rw [uwp]; exact ht
  have cm := State.complete_completed pl code res
  generalize hv : u.complete 0 code res = v at *
  have vnone : ∀ c, v.ctx c = none := by
    intro c
    by_cases hc : c = 0
    · subst hc; exact cm.ctx
    · rw [cm.ctxs c hc, g.ctxs hc, tk.ctxs c hc]; rfl
  have cml : v.lane lane = { u.lane lane with done := (u.lane lane).done + 1 } := by
    have := cm.lane; rw [x1] at this; exact this
  have cmls : ∀ n, n ≠ lane → v.lane n = u.lane n := by
    intro n hn
    exact cm.lanes n (by rw [x1]; exact hn)
  have hl : (v.lane lane).cursor = p.next (s.lane lane).cursor ∧ (v.lane lane).scanWanted = true := by
    rw [cml, g.lane]
    exact ⟨tk.ring.1, tk.ring.2.1⟩
  rw [State.post_end h ht k o (by rw [hT, hu]) (by unfold State.taking; rw [cm.wp]; exact heng) (by rw [cm.plan, g.plan, tk.plan])
    (fun n hn => by rw [cm.cells n (by rw [x2]; exact hn), g.cell, tk.cells n hn]) hl
    (fun n hn => by
      rw [cmls n hn, g.lane, tk.lanes n hn]
      exact h.others n hn)
    (fun c => by unfold State.isSync; rw [vnone]; rfl)]
  have k1 := State.kick_kicked v
  have g1 := fun q => State.kick_holds (s := v) (p := q)
  generalize v.kick = w at *
  have k2 : Kicked (w.setLane lane { v.lane lane with scanWanted := false })
      (w.setLane lane { v.lane lane with scanWanted := false }).finish :=
    State.finish_kicked _ (by
        rw [State.setLane_wp, k1.wp, cm.wp]
        show u.wp.engine ≠ _
        intro hc
        unfold State.taking at heng
        rw [hc] at heng
        cases heng)
  have g2 := fun q => State.finish_holds (s := w.setLane lane { v.lane lane with scanWanted := false }) (p := q)
  generalize (w.setLane lane { v.lane lane with scanWanted := false }).finish = t at *
  have fr : s.OrderFrame v lane (s.lane lane).cursor 0 := {
    port := by rw [cm.wp, uwp]
    cells := fun n hn => by rw [cm.cells n (by rw [x2]; exact hn), g.cell, tk.cells n hn]
    lanes := fun n hn => by
      rw [cmls n hn, g.lane]
      exact tk.lanes n hn
    ctxs := fun c hc => by rw [vnone, h.ctxs]
    plan := by rw [cm.plan, g.plan, tk.plan]
    timer := by rw [cm.timer, g.timer, tk.timer]
    array := by
      have e1 : s.SameArray T := by constructor <;> rw [tk.ju]
      have e2 : u.SameArray v := by constructor <;> rw [cm.ju]
      exact e1.trans (g.array.trans e2)
    tamper := by rw [cm.tm, g.tm, tk.tm]
    clock := by rw [cm.clock, g.clock, tk.clock]
    pending := by rw [cm.pending, g.pending, tk.pending] }
  have ttu : t.tu = u.tu := by rw [k2.tu, State.setLane_tu, k1.tu, cm.tu]
  exact {
    done := {
      cell := by
        rw [k2.cell, State.cell_setLane, k1.cell, ttu]
        have := cm.cell
        rw [x2, x4] at this
        rw [this, g.cell, tk.cell]
      ctx := k2.ctx_none (by rw [State.ctx_setLane]; exact k1.ctx_none (vnone 0))
      ring := by
        rw [k2.lane, State.lane_setLane, if_pos ⟨rfl, h.small⟩]
        refine ⟨hl.1, rfl, ?_⟩
        show (v.lane lane).done = _
        rw [cml]
        show (u.lane lane).done + 1 = _
        rw [g.lane, tk.ring.2.2]
      frame := ((fr.kicked k1).look _).kicked k2 }
    kt := by rw [k2.kt, State.setLane_kt, k1.kt, cm.kt]
    tu := ttu
    nu := by rw [k2.nu, State.setLane_nu, k1.nu, cm.taken heng, x1]
    xu := by rw [k2.xu, State.setLane_xu, k1.xu, cm.xu]
    ram := by
      rw [k2.wp, State.setLane_wp, k1.wp, cm.wp, x4]
    given := fun b hb hg => g2 _ (State.joins_body _ hb) (g1 _ (State.joins_body _ hb)
      ((State.holdsRecord_congr (s := u) _ (by rw [cm.ju]) (by rw [cm.ju])).trans hg)) }

/-- An order posted in a quiet lane that its checks complete. -/
theorem State.post_landed {s T u : State} {lane : Nat} {p : PlanLane} {k : Kind} {o : OrderFields} {x : Ctx}
    {code : Code} {res : Res} (h : s.Quiet lane p) (hT : s.takenIn lane p k.code o = T)
    (hu : T.startOrder 0 = u.complete 0 code res) (g : Onward T u 0 x) (hx : x.Copy s lane p k.code o)
    (hd : ∀ n, heldSlot k.code o = some n → (u.slot n).deferred = Deferred.none) :
    Landed s (s.post k lane o) u lane p k.code o x code res := by
  rw [State.post_posted h.toQuietLane h.taking]
  exact State.post_complete h.toQuietLane h.taking hT hu g hx hd

/-! ## The checks of a posted order -/

theorem Kind.ofCode_code (k : Kind) : Kind.ofCode k.code = some k := by cases k <;> rfl

theorem heldSlot_names {k : Byte} {o : OrderFields} {n : Nat} (h : heldSlot k o = some n) :
    n = o.slot.toNat ∧ n < 64 := by
  unfold heldSlot at h
  split at h
  · cases h
  · split at h
    · rename_i hh
      simp at hh h
      omega
    · simp at h

/-- The order as the take makes it has the marks of an order copy. -/
theorem freshCtx_copy (s : State) (lane : Nat) (p : PlanLane) (k : Byte) (o : OrderFields) (q : Option ParentCopy) :
    (freshCtx lane (s.lane lane).cursor k o s.clock p.budget q).Copy s lane p k o where
  copy := ⟨rfl, rfl, rfl, rfl⟩
  held := rfl
  take := ⟨rfl, rfl, rfl⟩
  wait := fun h => by cases h
  erase := rfl

/-- The common checks of a posted order read the engine, the lockdown state, and the order. -/
theorem State.commonCheck_eq {T : State} (he : T.wp.engine = .running) {x : Ctx} {k : Kind} {o : OrderFields}
    (hk : x.kind = k.code) (ho : x.order = o) : T.commonCheck x =
      firstFailure [(!k.namesSlot || decide (o.slot.toNat < 64), .badSlot), (extentsGood k o, .badExtent),
        (!T.tm.lockdown || !k.refusedLocked, .locked)] := by
  unfold State.commonCheck Ctx.kindOf
  rw [hk, Kind.ofCode_code, he, ho]
  rfl

theorem State.commonCheck_none {s T : State} {k : Kind} {o : OrderFields} (hp : s.PassesCommon k o) (he : T.wp.engine = .running)
    (ht : T.tm = s.tm) {x : Ctx} (hk : x.kind = k.code) (ho : x.order = o) : T.commonCheck x = none := by
  rw [State.commonCheck_eq he hk ho, ht]
  have h1 := hp.slot
  have h3 := hp.unlocked
  unfold firstFailure
  rw [hp.extents]
  cases hn : k.namesSlot <;> cases hl : k.refusedLocked <;> cases hd : s.tm.lockdown <;> simp_all [firstFailure]

/-! ## The waits -/

/-- What handing a record over leaves. -/
theorem handOver_onward {T u : State} {c : Nat} {x : Ctx} (g : Onward T u c x) (b : RecBody) (w : Owner) :
    Onward T (u.handOver b w) c x := by
  unfold State.handOver
  split
  · exact g
  · exact g.tables rfl rfl ⟨rfl, rfl, rfl, rfl, rfl, rfl, rfl, rfl, rfl, rfl, rfl⟩ rfl rfl rfl

theorem handOver_rest (u : State) (b : RecBody) (w : Owner) : (u.handOver b w).kt = u.kt ∧ (u.handOver b w).tu = u.tu ∧
    (u.handOver b w).nu = u.nu ∧ (u.handOver b w).xu = u.xu ∧ (u.handOver b w).wp = u.wp := by
  unfold State.handOver
  split <;> exact ⟨rfl, rfl, rfl, rfl, rfl⟩

/-- A durable order that has passed its checks goes on to wait for its group. -/
theorem placeRecord_onward {T u : State} {c : Nat} {x : Ctx} (g : Onward T u c x) (he : u.wp.engine = .running)
    (hl : x.late = false) (ch : Change) :
    let v := u.placeRecord c ch
    Onward T v c { x with wait := .group, change := some ch } ∧ v.kt = u.kt ∧ v.tu = u.tu ∧ v.nu = u.nu ∧ v.xu = u.xu ∧
      v.wp = u.wp ∧ v.Joins (u.recordFor c x.order.slot.toNat ch) ∧
      v.holdsRecord (u.recordFor c x.order.slot.toNat ch) = true := by
  dsimp only
  have gm := g.mod fun x => { x with wait := .group, change := some ch }
  have hn : (u.modCtx c fun x => { x with wait := .group, change := some ch }).wp.engine ≠ .failed := by
    rw [State.modCtx_wp, he]; decide
  unfold State.placeRecord
  rw [g.ctx]
  dsimp only
  rw [if_neg (by rw [hl]; decide), if_neg (by rw [he]; decide)]
  have key : ∀ (v : State) b (w : Owner), Onward T v c { x with wait := .group, change := some ch } →
      (v.kt = u.kt ∧ v.tu = u.tu ∧ v.nu = u.nu ∧ v.xu = u.xu ∧ v.wp = u.wp) → v.wp.engine ≠ .failed →
      u.recordFor c x.order.slot.toNat ch ⟨b, w, false, 0⟩ = true →
      Onward T (v.handOver b w) c { x with wait := .group, change := some ch } ∧ (v.handOver b w).kt = u.kt ∧
      (v.handOver b w).tu = u.tu ∧ (v.handOver b w).nu = u.nu ∧ (v.handOver b w).xu = u.xu ∧
      (v.handOver b w).wp = u.wp ∧ (v.handOver b w).Joins (u.recordFor c x.order.slot.toNat ch) ∧
      (v.handOver b w).holdsRecord (u.recordFor c x.order.slot.toNat ch) = true := by
    intro v b w hv hr hf hw
    obtain ⟨r1, r2, r3, r4, r5⟩ := handOver_rest v b w
    have hj : ∀ {v'}, Onward T v' c { x with wait := .group, change := some ch } → v'.kt = u.kt → v'.tu = u.tu →
        v'.Joins (u.recordFor c x.order.slot.toNat ch) := fun g' h1 h2 => State.recordFor_joins (by rw [g'.ctx]; rfl) h1 h2
    exact ⟨handOver_onward hv b w, r1.trans hr.1, r2.trans hr.2.1, r3.trans hr.2.2.1, r4.trans hr.2.2.2.1,
      r5.trans hr.2.2.2.2, hj (handOver_onward hv b w) (r1.trans hr.1) (r2.trans hr.2.1),
      State.handOver_holds hf (hj hv hr.1 hr.2.1) hw⟩
  generalize hm : (u.modCtx c fun x => { x with wait := .group, change := some ch }) = m at *
  have hr : m.kt = u.kt ∧ m.tu = u.tu ∧ m.nu = u.nu ∧ m.xu = u.xu ∧ m.wp = u.wp := by
    rw [← hm]; exact ⟨rfl, rfl, rfl, rfl, rfl⟩
  have hs : m.slot = u.slot := by unfold State.slot; rw [hr.1]
  have ht : m.tm = u.tm := by rw [← hm]; rfl
  cases ch with
  | unlock => exact key m _ _ gm hr hn (by rw [hr.2.1, ht]; simp [State.recordFor])
  | retire =>
    dsimp only
    refine key _ _ _ ?_ hr hn (by simp [State.recordFor, Change.apply])
    exact gm.tables rfl rfl ⟨rfl, rfl, rfl, rfl, rfl, rfl, rfl, rfl, rfl, rfl, rfl⟩ rfl rfl rfl
  | _ => exact key m _ _ gm hr hn (by rw [hr.2.1, hs]; simp [State.recordFor])

theorem recordFor_congr {s u : State} {c n : Nat} {ch : Change} (h1 : u.kt = s.kt) (h2 : u.tu = s.tu) (h3 : u.tm = s.tm) :
    u.recordFor c n ch = s.recordFor c n ch := by
  funext r
  unfold State.recordFor State.slot
  rw [h1, h2, h3]

/-- A durable order posted in a quiet lane whose checks hand its record over. -/
theorem State.post_handedOver {s T u : State} {lane : Nat} {p : PlanLane} {k : Kind} {o : OrderFields} {x : Ctx}
    (h : s.Quiet lane p) (hT : s.takenIn lane p k.code o = T) (g : Onward T u 0 x) (hx : x.Copy s lane p k.code o)
    (ht : s.SameTables u) (hr : u.wp.ram = s.wp.ram) (hxu : u.xu = s.xu) (ch : Change)
    (hu : T.startOrder 0 = u.placeRecord 0 ch) :
    ∃ y, s.InFlight (s.post k lane o) lane p k o y ∧ s.HandedOver (s.post k lane o) y ch ∧ y.genNo = x.genNo := by
  have tk := State.taken_takenIn h.toQuietLane k.code o
  rw [hT] at tk
  have he : u.wp.engine = .running := by rw [g.wp, tk.wp]; exact h.running
  obtain ⟨p1, p2, p3, p4, p5, p6, p7, p8⟩ := placeRecord_onward g he hx.take.2.2 ch
  have f := State.post_onward h hT hu p1
    ⟨hx.copy, hx.held, hx.take, fun hc => (nomatch hc), hx.erase⟩
  obtain ⟨b, hb⟩ := f.flight
  exact ⟨_, hb, {
    wait := rfl
    change := rfl
    given := by
      have := f.given _ p7 p8
      rwa [recordFor_congr (s := s) ht.slots ht.time (g.tm.trans tk.tm)] at this
    tables := ⟨(f.kt.trans p2).trans ht.slots, (f.tu.trans p3).trans ht.time, (f.nu.trans p4).trans ht.notices⟩
    ram := by rw [f.ram, p6, hr]
    cipher := by rw [f.xu, p5, hxu] }, rfl⟩

/-! ## The projected tree where no order is in flight -/

theorem State.projected_plain {s : State} (h : ∀ c x, s.ctx c = some x → x.change = none) (n : Nat) :
    s.projected n = ((s.slot n).cls, (s.slot n).parent) := by
  unfold State.projected
  dsimp only
  have : ((s.holder n).bind fun c => (s.ctx c).bind fun x => x.change) = none := by
    cases hh : s.holder n with
    | none => rfl
    | some c =>
      cases hc : s.ctx c with
      | none => simp [hc]
      | some x => simp [hc, h c x hc]
  rw [this]

theorem Taken.onBoth {s T : State} {lane : Nat} {p : PlanLane} {k : Byte} {o : OrderFields}
    (h : s.QuietLane lane p) (tk : Taken s T lane p k o) (f : (Nat → Node) → Bool) : T.onBoth f = s.onBoth f := by
  have h1 : T.tableNode = s.tableNode := by
    funext n
    unfold State.tableNode
    rw [State.slot_congr tk.kt]
  have hs : ∀ n, s.projected n = ((s.slot n).cls, (s.slot n).parent) :=
    State.projected_plain fun c x hx => by rw [h.ctxs c] at hx; cases hx
  have hT : ∀ n, T.projected n = ((s.slot n).cls, (s.slot n).parent) := by
    intro n
    rw [← State.slot_congr tk.kt]
    refine State.projected_plain (fun c x hx => ?_) n
    by_cases hc : c = 0
    · subst hc
      rw [tk.ctx] at hx
      cases hx
      rfl
    · rw [tk.ctxs c hc] at hx; cases hx
  have h2 : T.projNode = s.projNode := by
    funext n
    unfold State.projNode
    simp only [hs, hT]
  unfold State.onBoth
  rw [h1, h2]

theorem Taken.poolFree {s T : State} {lane : Nat} {p : PlanLane} {k : Byte} {o : OrderFields}
    (h : s.QuietLane lane p) (tk : Taken s T lane p k o) : T.poolFree = s.poolFree := by
  unfold State.poolFree State.poolInUse State.poolClaimed
  rw [tk.kt]
  simp [range4, h.ctxs, tk.ctx, tk.ctxs, freshCtx]

/-! ## The Cipher Unit -/

/-- What a request reads as it begins service. -/
def serviceOf (s : State) (c : Nat) (op : CipherOp) (x : Ctx) : Service where
  ctx := c
  op := op
  assoc := if op = .protect || op = .verify then s.readExtent x.order.assoc else []
  input := if op = .protect || op = .verify then s.readExtent x.order.input else []
  nonce :=
    if op = .protect then frameNonce Config.serial x.genNo x.value
    else if op = .verify then frameNonce x.order.sender x.genNo x.value else 0
  challenge := s.tm.seq

/-- A request other than PROTECT or TOKEN_CHECK begins service by reading. -/
theorem beginService_read {s : State} {c : Nat} {op : CipherOp} {x : Ctx} (h : s.ctx c = some x) (h1 : op ≠ .protect)
    (h2 : op ≠ .tokenCheck) :
    s.beginService ⟨c, op⟩ = { s with xu := { s.xu with service := some (serviceOf s c op x) } } := by
  unfold State.beginService
  dsimp only
  rw [if_neg h1, if_neg h2, h]
  rfl

/-- A TOKEN_CHECK request takes the challenge as it begins service. -/
theorem beginService_token {s : State} {c : Nat} {x : Ctx} (h : s.ctx c = some x) :
    s.beginService ⟨c, .tokenCheck⟩ = { (s.modCtx c fun x => { x with challenge := s.tm.seq }) with
      xu := { s.xu with service := some (serviceOf s c .tokenCheck x) } } := by
  unfold State.beginService
  simp only [reduceCtorEq, if_false, if_true]
  have : (s.modCtx c fun x => { x with challenge := s.tm.seq }).ctx c = some { x with challenge := s.tm.seq } := by
    rw [State.ctx_modCtx]; simp [h]
  rw [this]
  rfl

/-- A PROTECT request takes its counter value as it begins service. -/
theorem beginService_protect {s t : State} {c : Nat} {x : Ctx} (h : s.takeCounter c = t) (hx : t.ctx c = some x) :
    s.beginService ⟨c, .protect⟩ = { t with xu := { t.xu with service := some (serviceOf t c .protect x) } } := by
  unfold State.beginService
  simp only [reduceCtorEq, if_false, if_true, h, hx]
  rfl

/-- The first request of an idle Cipher Unit begins service. -/
theorem cipherKick_idle (m : State) (h : m.xu.service = none) (hq : m.xu.queue = []) (q : Request) :
    State.cipherKick { m with xu := { m.xu with queue := m.xu.queue ++ [q] } } = m.beginService q := by
  obtain ⟨wp, od, kt, ⟨a, b, c, d, e⟩, tu, ju, tm, nu, clock, pending⟩ := m
  cases h
  cases hq
  rfl

/-- A request placed while the Cipher Unit is idle begins service at once. -/
theorem placeRequest_idle {s : State} {c : Nat} {x : Ctx} (h : s.ctx c = some x) (hl : x.late = false)
    (hi : s.xu.service = none ∧ s.xu.queue = []) (op : CipherOp) :
    s.placeRequest c op = (s.modCtx c fun x => { x with wait := .cipherQueue }).beginService ⟨c, op⟩ := by
  unfold State.placeRequest
  rw [h]
  dsimp only
  rw [if_neg (by rw [hl]; decide)]
  exact cipherKick_idle (s.modCtx c fun x => { x with wait := .cipherQueue }) hi.1 hi.2 _

/-- A request other than PROTECT or TOKEN_CHECK placed while the Cipher Unit is idle begins service at once. -/
theorem placeRequest_onward {T u : State} {c : Nat} {x : Ctx} (g : Onward T u c x) (hl : x.late = false)
    (hi : u.xu.service = none ∧ u.xu.queue = []) (op : CipherOp) (h1 : op ≠ .protect) (h2 : op ≠ .tokenCheck) :
    let v := u.placeRequest c op
    Onward T v c { x with wait := .cipherQueue } ∧ v.kt = u.kt ∧ v.tu = u.tu ∧ v.nu = u.nu ∧ v.wp = u.wp ∧
      v.xu = { u.xu with service := some (serviceOf u c op x) } := by
  dsimp only
  have gm := g.mod fun x => { x with wait := .cipherQueue }
  rw [placeRequest_idle g.ctx hl hi, beginService_read gm.ctx h1 h2]
  exact ⟨gm.tables rfl rfl ⟨rfl, rfl, rfl, rfl, rfl, rfl, rfl, rfl, rfl, rfl, rfl⟩ rfl rfl rfl, rfl, rfl, rfl, rfl, rfl⟩

/-! ## The start of an order by its kind -/

/-- What an order of a kind does once it has passed the common checks. -/
def startKind (k : Kind) (c : Nat) (x : Ctx) (T : State) : State :=
  match k with
  | .defineSlot => startDefineSlot c x T
  | .installAnchor => startInstallAnchor c x T
  | .readSlot => startReadSlot c x T
  | .setPolicy => startSetPolicy c x T
  | .adopt => startAdopt c x T
  | .retireSlot => startRetireSlot c x T
  | .renewLocal => startRenewLocal c x T
  | .renewRemote => startRenewRemote c x T
  | .renewConfirm => startRenewConfirm c x T
  | .renewCancel => startRenewCancel c x T
  | .protectFrame => startProtectFrame c x T
  | .admitFrame => startAdmitFrame c x T
  | .setTime => startSetTime c x T
  | .sync => startSync c x T
  | .unlock => startUnlock c x T

theorem startOrder_kind {T : State} {c : Nat} {x : Ctx} (hx : T.ctx c = some x) (hc : T.commonCheck x = none) (k : Kind)
    (hk : x.kind = k.code) : T.startOrder c = startKind k c x T := by
  unfold State.startOrder
  rw [hx]
  dsimp only
  rw [hc]
  dsimp only
  unfold Ctx.kindOf
  rw [hk, Kind.ofCode_code]
  cases k <;> rfl

/-- An order posted in a quiet lane that passes the common checks comes to the checks of its kind. -/
theorem State.startOrder_taken {s T : State} {lane : Nat} {p : PlanLane} {k : Kind} {o : OrderFields}
    (h : s.Quiet lane p) (tk : Taken s T lane p k.code o) (hp : s.PassesCommon k o) : T.startOrder 0 =
      startKind k 0 (freshCtx lane (s.lane lane).cursor k.code o s.clock p.budget (s.copyParent k.code o)) T :=
  startOrder_kind tk.ctx (State.commonCheck_none hp (by rw [tk.wp]; exact h.running) tk.tm rfl rfl) k rfl

theorem Taken.same {s T : State} {lane : Nat} {p : PlanLane} {k : Byte} {o : OrderFields} (tk : Taken s T lane p k o) :
    s.SameTables T := ⟨tk.kt, tk.tu, tk.nu⟩

theorem Taken.ram {s T : State} {lane : Nat} {p : PlanLane} {k : Byte} {o : OrderFields} (tk : Taken s T lane p k o) :
    T.wp.ram = s.wp.ram := by rw [tk.wp]

/-- A cell posted at the cursor of a quiet lane that completes at once, with no change before its completion and no
output. -/
theorem State.posted_ends {s T : State} {lane : Nat} {p : PlanLane} {k : Byte} {o : OrderFields} {code : Code} {res : Res}
    (h : s.QuietLane lane p) (ht : s.taking = true) (hT : s.takenIn lane p k o = T)
    (hu : T.startOrder 0 = T.complete 0 code res)
    (hd : ∀ n, heldSlot k o = some n → (s.slot n).deferred = Deferred.none) :
    s.EndsAtOnce (s.postedIn lane k o).serve.finish lane p k o code res := by
  have tk := State.taken_takenIn h k o
  rw [hT] at tk
  have l := State.post_complete h ht hT hu tk.onward (freshCtx_copy s lane p k o _)
    (fun n hn => by rw [State.slot_congr tk.kt]; exact hd n hn)
  exact {
    done := l.done
    slots := l.kt.trans tk.kt
    time := l.tu.trans tk.tu
    notices := l.nu.trans (State.countCompletion_nu tk.plan tk.nu tk.clock lane)
    cipher := l.xu.trans tk.xu
    ram := by
      rw [l.ram, tk.ram]
      split <;> rfl }

/-- An order posted in a quiet lane that completes at once, with no change before its completion and no output. -/
theorem State.post_ends {s T : State} {lane : Nat} {p : PlanLane} {k : Kind} {o : OrderFields} {code : Code} {res : Res}
    (h : s.QuietLane lane p) (ht : s.taking = true) (hT : s.takenIn lane p k.code o = T)
    (hu : T.startOrder 0 = T.complete 0 code res)
    (hd : ∀ n, heldSlot k.code o = some n → (s.slot n).deferred = Deferred.none) :
    s.EndsAtOnce (s.post k lane o) lane p k.code o code res := by
  rw [State.post_posted h ht]
  exact State.posted_ends h ht hT hu hd

/-- An order posted in a quiet lane whose checks place a request of the idle Cipher Unit, other than PROTECT or
TOKEN_CHECK. -/
theorem State.post_requested {s T u : State} {lane : Nat} {p : PlanLane} {k : Kind} {o : OrderFields} {x : Ctx}
    (h : s.Quiet lane p) (hT : s.takenIn lane p k.code o = T) (g : Onward T u 0 x) (hx : x.Copy s lane p k.code o)
    (hi : s.cipherIdle) (hxu : u.xu = s.xu) (ht : s.SameTables u) (op : CipherOp) (h1 : op ≠ .protect)
    (h2 : op ≠ .tokenCheck) (hu : T.startOrder 0 = u.placeRequest 0 op) :
    (∃ b, s.InFlight (s.post k lane o) lane p k o { x with wait := .cipherQueue, budgetApplies := b }) ∧
      s.RequestBegun (s.post k lane o) op (serviceOf u 0 op x) ∧ s.SameTables (s.post k lane o) ∧
      (s.post k lane o).wp.ram = u.wp.ram := by
  obtain ⟨p1, p2, p3, p4, p5, p6⟩ := placeRequest_onward g hx.take.2.2 (by rw [hxu]; exact hi) op h1 h2
  have f := State.post_onward h hT hu p1 ⟨hx.copy, hx.held, hx.take, fun hc => (nomatch hc), hx.erase⟩
  exact ⟨f.flight, ⟨by rw [f.xu, p6, hxu], rfl, rfl⟩,
    ⟨(f.kt.trans p2).trans ht.slots, (f.tu.trans p3).trans ht.time, (f.nu.trans p4).trans ht.notices⟩,
    by rw [f.ram, p5]⟩

theorem Taken.readExtent {s T : State} {lane : Nat} {p : PlanLane} {k : Byte} {o : OrderFields}
    (tk : Taken s T lane p k o) (e : Extent) : T.readExtent e = s.readExtent e := by
  unfold State.readExtent
  rw [tk.ram]

/-- The first failure of two lists of checks, one after the other. -/
theorem firstFailure_append (l m : List (Bool × Code)) : firstFailure (l ++ m) = (firstFailure l).or (firstFailure m) := by
  induction l with
  | nil => rfl
  | cons a l ih =>
    obtain ⟨b, c⟩ := a
    show (if b = true then firstFailure (l ++ m) else some c) = (if b = true then firstFailure l else some c).or _
    cases b
    · rfl
    · exact ih

/-- An order whose own copy is changed before it completes at once. -/
theorem State.post_ends_mod {s T : State} {lane : Nat} {p : PlanLane} {k : Kind} {o : OrderFields} {code : Code} {res : Res}
    (h : s.Quiet lane p) (hT : s.takenIn lane p k.code o = T) (f : Ctx → Ctx)
    (hf : ∀ y : Ctx, (f y).lane = y.lane ∧ (f y).cell = y.cell ∧ (f y).kind = y.kind ∧ (f y).order = y.order ∧
      (f y).held = y.held ∧ (f y).takeTime = y.takeTime ∧ (f y).budget = y.budget ∧ (f y).late = y.late ∧
      (f y).wait = y.wait ∧ (f y).erasePending = y.erasePending ∧ (f y).output = y.output)
    (hu : T.startOrder 0 = (T.modCtx 0 f).complete 0 code res) (hd : (s.slot o.slot.toNat).deferred = Deferred.none) :
    s.EndsAtOnce (s.post k lane o) lane p k.code o code res := by
  have tk := State.taken_takenIn h.toQuietLane k.code o
  rw [hT] at tk
  have hx := freshCtx_copy s lane p k.code o (s.copyParent k.code o)
  have on := tk.onward.mod f
  obtain ⟨f1, f2, f3, f4, f5, f6, f7, f8, f9, f10, f11⟩ := hf (freshCtx lane (s.lane lane).cursor k.code o s.clock p.budget (s.copyParent k.code o))
  have hout : (freshCtx lane (s.lane lane).cursor k.code o s.clock p.budget (s.copyParent k.code o)).output = [] := rfl
  generalize freshCtx lane (s.lane lane).cursor k.code o s.clock p.budget (s.copyParent k.code o) = x at *
  have l := State.post_landed h hT hu on ⟨by rw [f1, f2, f3, f4]; exact hx.copy, by rw [f5]; exact hx.held,
      by rw [f6, f7, f8]; exact hx.take, by rw [f9]; exact hx.wait, by rw [f10]; exact hx.erase⟩
    (fun n hn => by rw [State.slot_modCtx, State.slot_congr tk.kt, (heldSlot_names hn).1]; exact hd)
  refine ⟨l.done, l.kt.trans tk.kt, l.tu.trans tk.tu, ?_, l.xu.trans tk.xu, ?_⟩
  · rw [l.nu]; exact State.countCompletion_nu (by exact tk.plan) (by exact tk.nu) (by exact tk.clock) lane
  · rw [l.ram, f11, hout, State.modCtx_wp, tk.ram]
    split <;> rfl

/-- A wait for the journal that begins in RUNNING, of an order that is not late. -/
theorem beginWait_onward {T u : State} {c : Nat} {x : Ctx} (g : Onward T u c x) (he : u.wp.engine = .running)
    (hl : x.late = false) (w : WaitPoint) (req : State → State) :
    u.beginWait c w req = (req (u.modCtx c fun x => { x with wait := w })).settleBudgets := by
  unfold State.beginWait
  rw [g.ctx]
  dsimp only
  rw [if_neg (by rw [hl]; decide), if_neg (by rw [he]; decide)]

/-- The budgets settled, with no other order in flight. -/
theorem Onward.settle {T u : State} {c : Nat} {x : Ctx} (g : Onward T u c x) (ho : ∀ d, d ≠ c → T.ctx d = none) :
    ∃ b, Onward T u.settleBudgets c { x with budgetApplies := b } := by
  have k := State.settleBudgets_kicked u
  obtain ⟨f, hf⟩ := k.ctxs c
  refine ⟨f x, {
    small := g.small
    od := ?_
    wp := g.wp
    array := g.array.trans k.array
    tm := g.tm
    clock := g.clock
    pending := g.pending }⟩
  have hu : u.settleBudgets.od = { u.od with ctxs := u.settleBudgets.od.ctxs } := rfl
  rw [hu, g.od]
  unfold State.setCtx
  dsimp only
  have : u.settleBudgets.od.ctxs = T.od.ctxs.setIfInBounds c (some { x with budgetApplies := f x }) := by
    apply Vector.ext
    intro i hi
    have e1 : u.settleBudgets.od.ctxs[i] = u.settleBudgets.ctx i := by simp [State.ctx, getD_eq, hi]
    rw [e1, Vector.getElem_setIfInBounds]
    split
    · subst_vars
      rw [hf, g.ctx]; rfl
    · rename_i hne
      obtain ⟨f', hf'⟩ := k.ctxs i
      have e2 : T.od.ctxs[i] = T.ctx i := by simp [State.ctx, getD_eq, hi]
      rw [hf', g.ctxs (fun hc => hne hc.symm), e2, ho i (fun hc => hne hc.symm)]
      rfl
  rw [this]

end Sys2Proof.Machine
end

