-- ==== Sys2Proof/Laws/Taking.lean ====
section
/-! SUPPORT. Laws/Taking.lean: what handing records over leaves (`Listed`), what a PROTECT request takes as it begins
service, and a deadline list with nothing due. -/

namespace Sys2Proof.Machine


theorem sameArray_ju {s t : State} (h : t.ju = s.ju) : s.SameArray t := by constructor <;> rw [h]

/-- `t` is `s` but for the Journal Unit's lists. -/
structure Listed (s t : State) : Prop where
  wp : t.wp = s.wp
  od : t.od = s.od
  kt : t.kt = s.kt
  xu : t.xu = s.xu
  tu : t.tu = s.tu
  tm : t.tm = s.tm
  nu : t.nu = s.nu
  clock : t.clock = s.clock
  pending : t.pending = s.pending
  array : s.SameArray t

theorem Listed.refl (s : State) : Listed s s := ⟨rfl, rfl, rfl, rfl, rfl, rfl, rfl, rfl, rfl, State.SameArray.refl s⟩

theorem handOver_listed (s : State) (b : RecBody) (w : Owner) : Listed s (s.handOver b w) := by
  unfold State.handOver
  split
  · exact Listed.refl s
  · exact ⟨rfl, rfl, rfl, rfl, rfl, rfl, rfl, rfl, rfl, ⟨rfl, rfl, rfl, rfl, rfl, rfl, rfl, rfl, rfl, rfl, rfl⟩⟩

theorem placeOrUpdate_listed (s : State) (p : Rec → Bool) (b : RecBody) (w : Owner) : Listed s (s.placeOrUpdate p b w) := by
  unfold State.placeOrUpdate
  split
  · exact ⟨rfl, rfl, rfl, rfl, rfl, rfl, rfl, rfl, rfl, ⟨rfl, rfl, rfl, rfl, rfl, rfl, rfl, rfl, rfl, rfl, rfl⟩⟩
  · exact handOver_listed s b w

theorem counterMark_listed (s : State) (n : Nat) (g : Half) : Listed s (s.counterMark n g) := by
  unfold State.counterMark
  split
  · exact Listed.refl s
  · exact placeOrUpdate_listed ..

theorem timeMark_listed (s : State) : Listed s s.timeMark := placeOrUpdate_listed ..

theorem deadlineImage_listed (s : State) (n : Nat) : Listed s (s.deadlineImage n) := placeOrUpdate_listed ..

theorem dropWaiting_listed (s : State) (p : Rec → Bool) : Listed s (s.dropWaiting p) :=
  ⟨rfl, rfl, rfl, rfl, rfl, rfl, rfl, rfl, rfl, ⟨rfl, rfl, rfl, rfl, rfl, rfl, rfl, rfl, rfl, rfl, rfl⟩⟩

theorem Onward.listed {T u v : State} {c : Nat} {x : Ctx} (g : Onward T u c x) (h : Listed u v) : Onward T v c x :=
  g.tables h.od h.wp h.array h.tm h.clock h.pending

/-- The RENEW entry of a slot removed. -/
theorem State.removeDeadline_eq (s : State) (n : Nat) (k : DeadlineKind) :
    s.removeDeadline n k = { (s.setDeferred n k false) with
      tu := { s.tu with deadlines := s.tu.deadlines.filter fun d => !(d.slot == n && d.kind == k) } } := rfl

/-- The slots and the tables as PROTECT_FRAME's request leaves them when it begins service (R56). -/
theorem takeCounter_onward {T u : State} {c : Nat} {x : Ctx} (h : Onward T u c x) {r : SlotRec} {g : Gen} (n : Nat)
    (hn : x.order.slot.toNat = n) (hlt : n < 64) (hr : u.slot n = r) (hc : r.current = some g)
    (hnx : g.ctr.next < g.ctr.durCeil) :
    let back := g.ctr.durCeil - g.ctr.next ≤ 1024 ∧ g.ctr.reserving = false ∧ g.ctr.durCeil < r.policy.hard + 1
    let low := r.policy.soft ≤ g.ctr.next ∧ r.renewDue = false
    let v := u.takeCounter c
    Onward T v c { x with value := g.ctr.next, taken := true, genNo := g.number } ∧
    v.slot n = { r with
        current := some { g with
          ctr := if back then g.ctr.takeValue.reserve r.policy.hard else g.ctr.takeValue }
        renewDue := if low then true else r.renewDue
        deferred := if low then r.deferred.set .renew false else r.deferred } ∧
    (∀ m, m ≠ n → v.slot m = u.slot m) ∧
    v.tu = { u.tu with deadlines := if low then u.tu.deadlines.filter fun d => !(d.slot == n && d.kind == .renew)
      else u.tu.deadlines } ∧
    v.nu = (if low then u.raise bitCounterLow else u).nu ∧ v.xu = u.xu ∧ v.wp = u.wp ∧
    (back → u.wp.engine ≠ .failed → v.holdsRecord (fun q => q.body ==
      .counterMark n g.number (min (g.ctr.durCeil + 4096) (r.policy.hard + 1)) g.ctr.reqMark) = true) := by
  intro back low
  unfold State.takeCounter
  rw [h.ctx]
  dsimp only
  rw [hn, hr, hc]
  dsimp only
  rw [if_neg (by omega)]
  have m1 := h.mod fun x => { x with value := g.ctr.next, taken := true, genNo := g.number }
  generalize hu1 : (u.modCtx c fun x => { x with value := g.ctr.next, taken := true, genNo := g.number }) = u1 at *
  have s1 : ∀ m, u1.slot m = u.slot m := by rw [← hu1]; intro m; rfl
  have a1 : u1.tu = u.tu ∧ u1.nu = u.nu ∧ u1.xu = u.xu ∧ u1.wp = u.wp := by rw [← hu1]; exact ⟨rfl, rfl, rfl, rfl⟩
  -- the value taken
  have e2 : u1.modGen n g.number (fun g => { g with ctr := g.ctr.takeValue }) =
      u1.setSlot n { r with current := some { g with ctr := g.ctr.takeValue } } := by
    unfold State.modGen
    rw [s1, hr, SlotRec.updGen_current hc]
  rw [e2]
  generalize hg2 : ({ g with ctr := g.ctr.takeValue } : Gen) = g2 at *
  have gn : g2.number = g.number := by rw [← hg2]
  generalize hu2 : u1.setSlot n { r with current := some g2 } = u2 at *
  have m2 : Onward T u2 c _ := m1.tables (v := u2) (by rw [← hu2]; rfl) (by rw [← hu2]; rfl) (sameArray_ju (by rw [← hu2]; rfl)) (by rw [← hu2]; rfl) (by rw [← hu2]; rfl) (by rw [← hu2]; rfl)
  have s2 : ∀ m, u2.slot m = if m = n then { r with current := some g2 } else u.slot m := by
    intro m
    rw [← hu2, State.slot_setSlot]
    by_cases hm : m = n
    · subst hm; simp [hlt]
    · simp [hm, Ne.symm hm, s1]
  have a2 : u2.tu = u.tu ∧ u2.nu = u.nu ∧ u2.xu = u.xu ∧ u2.wp = u.wp := by rw [← hu2]; exact a1
  -- the reservation
  have hback : (decide (g.ctr.durCeil - g.ctr.next ≤ 1024) && !g.ctr.reserving && decide (g.ctr.durCeil < r.policy.hard + 1)) = decide back := by
    simp only [back]
    cases g.ctr.reserving <;> simp
  rw [hback]
  have key : ∃ u3, (if decide back = true then u2.requestReservation n g.number else u2) = u3 ∧
      Onward T u3 c { x with value := g.ctr.next, taken := true, genNo := g.number } ∧
      (∀ m, u3.slot m = if m = n then { r with current := some { g with
        ctr := if back then g.ctr.takeValue.reserve r.policy.hard else g.ctr.takeValue } } else u.slot m) ∧
      (u3.tu = u.tu ∧ u3.nu = u.nu ∧ u3.xu = u.xu ∧ u3.wp = u.wp) ∧
      (back → u.wp.engine ≠ .failed → u3.holdsRecord (fun q => q.body ==
        .counterMark n g.number (min (g.ctr.durCeil + 4096) (r.policy.hard + 1)) g.ctr.reqMark) = true) := by
    refine ⟨_, rfl, ?_⟩
    by_cases hb : back
    · simp only [hb, decide_true, if_true]
      unfold State.requestReservation
      dsimp only
      have hl := counterMark_listed (u2.modGen n g.number fun g => { g with ctr := g.ctr.reserve (u2.slot n).policy.hard }) n g.number
      have e3 : (u2.modGen n g.number fun g => { g with ctr := g.ctr.reserve (u2.slot n).policy.hard }) =
          u2.setSlot n { r with current := some { g2 with ctr := g2.ctr.reserve r.policy.hard } } := by
        unfold State.modGen
        rw [s2, if_pos rfl, ← gn]
        exact congrArg _ (SlotRec.updGen_current rfl _)
      rw [e3] at hl ⊢
      have hm : u.wp.engine ≠ .failed → _ := fun he => State.counterMark_holds (s := u2.setSlot n { r with current := some { g2 with ctr := g2.ctr.reserve r.policy.hard } })
        (n := n) (gen := g.number) (g := { g2 with ctr := g2.ctr.reserve r.policy.hard })
        (by show u2.wp.engine ≠ _; rw [a2.2.2.2]; exact he)
        (by rw [State.slot_setSlot, if_pos ⟨rfl, hlt⟩, ← gn]; exact SlotRec.find_current (r := { r with current := some { g2 with ctr := g2.ctr.reserve r.policy.hard } }) (g := { g2 with ctr := g2.ctr.reserve r.policy.hard }) rfl)
      generalize (u2.setSlot n { r with current := some { g2 with ctr := g2.ctr.reserve r.policy.hard } }).counterMark n g.number = u3 at *
      refine ⟨(m2.tables (v := u2.setSlot n _) rfl rfl (sameArray_ju rfl) rfl rfl rfl).listed hl, ?_, ?_⟩
      · intro m
        rw [State.slot_congr hl.kt, State.slot_setSlot, s2]
        by_cases hm : m = n
        · subst hm; rw [if_pos ⟨rfl, hlt⟩, if_pos rfl, ← hg2]
        · rw [if_neg (fun k => hm k.1.symm), if_neg hm, if_neg hm]
      · rw [hl.tu, hl.nu, hl.xu, hl.wp]
        refine ⟨a2, fun _ he => ?_⟩
        have := hm he
        rw [← hg2] at this
        exact this
    · simp only [hb, decide_false, if_false, Bool.false_eq_true]
      refine ⟨m2, ?_, a2, fun h => absurd h id⟩
      intro m; exact (s2 m).trans (by rw [← hg2])
  obtain ⟨u3, hu3, m3, s3, a3, hm3⟩ := key
  rw [hu3]
  have hlow : (decide (r.policy.soft ≤ g.ctr.next) && !r.renewDue) = decide low := by
    simp only [low]; cases r.renewDue <;> simp
  rw [hlow]
  by_cases hl : low
  · simp only [hl, decide_true, if_true]
    generalize hg3 : ({ g with ctr := if back then g.ctr.takeValue.reserve r.policy.hard else g.ctr.takeValue } : Gen) = g3 at *
    rw [s3, if_pos rfl]
    rw [State.removeDeadline_eq]
    have ss : ∀ m, (State.setDeferred (u3.setSlot n { r with current := some g3, renewDue := true }) n .renew false).slot m =
        if m = n then { r with current := some g3, renewDue := true, deferred := r.deferred.set .renew false } else u.slot m := by
      intro m
      unfold State.setDeferred
      simp only [State.slot_setSlot]
      by_cases hm : m = n
      · subst hm; simp [hlt]
      · simp [hm, Ne.symm hm, s3]
    refine ⟨m3.tables rfl rfl (sameArray_ju rfl) rfl rfl rfl, ?_, ?_, ?_, ?_, ?_, ?_, fun hb he => ?_⟩
    · refine (ss n).trans ?_
      rw [if_pos rfl]
    · intro m hm
      refine (ss m).trans ?_
      rw [if_neg hm]
    · rw [← a3.1]; rfl
    · have : ∀ a b : State, a.nu = b.nu → (a.raise bitCounterLow).nu = (b.raise bitCounterLow).nu := by
        intro a b h; unfold State.raise State.setCause State.cause; rw [h]
      exact this _ _ a3.2.1
    · exact a3.2.2.1
    · exact a3.2.2.2
    · exact (State.holdsRecord_congr (s := u3) _ rfl rfl).trans (hm3 hb he)
  · simp only [hl, decide_false, if_false, Bool.false_eq_true]
    refine ⟨m3, ?_, ?_, ?_, a3.2.1, a3.2.2.1, a3.2.2.2, hm3⟩
    · have := s3 n; rw [if_pos rfl] at this; exact this
    · intro m hm; rw [s3, if_neg hm]
    · exact a3.1

/-- An ADMIT_FRAME that is admitted: the window takes the value, a further mark is requested near the durable one, and
the order completes OK with its plaintext (R63, R65, R77). -/
theorem finishAdmit_eq {T u : State} {c : Nat} {x : Ctx} (h : Onward T u c x) {r : SlotRec} {g : Gen} (n : Nat)
    (hn : x.order.slot.toNat = n) (hlt : n < 64) (hr : u.slot n = r) (hg : r.find x.genNo = some g)
    (hl : u.tm.lockdown = false) :
    let k := g.ctr.admitted x.value
    let near := k.durMark - k.top ≤ 1024 ∧ k.marking = false ∧ k.durMark < maxWord
    ∃ z, u.finishAdmit c = z.complete c .ok { x.endRes .ok with outLen := x.output.length } ∧ Onward T z c x ∧
      z.slot n = r.updGen x.genNo (fun g => { g with ctr := if near then k.requestMark (markFor k.durMark) else k }) ∧
      (∀ m, m ≠ n → z.slot m = u.slot m) ∧ z.tu = u.tu ∧ z.nu = u.nu ∧ z.xu = u.xu ∧ z.wp = u.wp ∧
      (near → u.wp.engine ≠ .failed → z.holdsRecord (fun q => q.body ==
        .counterMark n x.genNo k.ceil (max k.reqMark (markFor k.durMark))) = true) := by
  intro k near
  obtain ⟨w, hw⟩ : ∃ w, w = u.modGen n x.genNo (fun g => { g with ctr := g.ctr.admitted x.value }) := ⟨_, rfl⟩
  have gw : Onward T w c x := h.tables (v := w) (by rw [hw]; rfl) (by rw [hw]; rfl) (sameArray_ju (by rw [hw]; rfl))
    (by rw [hw]; rfl) (by rw [hw]; rfl) (by rw [hw]; rfl)
  have ws : ∀ m, w.slot m = if m = n then r.updGen x.genNo (fun g => { g with ctr := g.ctr.admitted x.value })
      else u.slot m := by
    intro m
    rw [hw]
    unfold State.modGen
    rw [State.slot_setSlot]
    by_cases hm : m = n
    · subst hm; rw [if_pos ⟨rfl, hlt⟩, if_pos rfl, hr]
    · rw [if_neg (fun k => hm k.1.symm), if_neg hm]
  have wfind : (w.slot n).find x.genNo = some { g with ctr := k } := by
    rw [ws, if_pos rfl]
    exact SlotRec.find_updGen hg _ rfl
  have w1 : w.tu = u.tu ∧ w.nu = u.nu ∧ w.xu = u.xu ∧ w.wp = u.wp := by rw [hw]; exact ⟨rfl, rfl, rfl, rfl⟩
  have hnear : (decide (k.durMark - k.top ≤ 1024) && !k.marking && decide (k.durMark < maxWord)) = decide near := by
    simp only [near]; cases k.marking <;> simp
  have hfin : u.finishAdmit c = State.complete (if decide near then w.requestMark n x.genNo (markFor k.durMark) else w) c
      .ok { x.endRes .ok with outLen := x.output.length } := by
    unfold State.finishAdmit
    rw [h.ctx]
    dsimp only
    rw [if_neg (by rw [hl]; decide), hn, ← hw, wfind]
    dsimp only
    rw [hnear]
  refine ⟨_, hfin, ?_⟩
  by_cases hne : near
  · simp only [hne, decide_true, if_true]
    unfold State.requestMark
    have e3 : (w.modGen n x.genNo fun g => { g with ctr := g.ctr.requestMark (markFor k.durMark) }).slot n =
        r.updGen x.genNo (fun g => { g with ctr := k.requestMark (markFor k.durMark) }) := by
      unfold State.modGen
      rw [State.slot_setSlot, if_pos ⟨rfl, hlt⟩, ws, if_pos rfl, SlotRec.updGen_updGen (f := fun g => { g with ctr := g.ctr.admitted x.value }) (fun _ => rfl)]
      exact SlotRec.updGen_at hg rfl
    have hl := counterMark_listed (w.modGen n x.genNo fun g => { g with ctr := g.ctr.requestMark (markFor k.durMark) }) n x.genNo
    have hm : u.wp.engine ≠ .failed → _ := fun he => State.counterMark_holds
      (s := w.modGen n x.genNo fun g => { g with ctr := g.ctr.requestMark (markFor k.durMark) }) (n := n) (gen := x.genNo)
      (g := { g with ctr := k.requestMark (markFor k.durMark) }) (by show w.wp.engine ≠ _; rw [w1.2.2.2]; exact he)
      (by rw [e3]; exact SlotRec.find_updGen hg (fun g => { g with ctr := k.requestMark (markFor k.durMark) }) rfl)
    have gm : Onward T (w.modGen n x.genNo fun g => { g with ctr := g.ctr.requestMark (markFor k.durMark) }) c x :=
      gw.tables rfl rfl (sameArray_ju rfl) rfl rfl rfl
    have em : ∀ m, m ≠ n → (w.modGen n x.genNo fun g => { g with ctr := g.ctr.requestMark (markFor k.durMark) }).slot m = u.slot m := by
      intro m hm
      unfold State.modGen
      rw [State.slot_setSlot, if_neg (fun k => hm k.1.symm), ws, if_neg hm]
    have e4 : (w.modGen n x.genNo fun g => { g with ctr := g.ctr.requestMark (markFor k.durMark) }).tu = u.tu ∧
        (w.modGen n x.genNo fun g => { g with ctr := g.ctr.requestMark (markFor k.durMark) }).nu = u.nu ∧
        (w.modGen n x.genNo fun g => { g with ctr := g.ctr.requestMark (markFor k.durMark) }).xu = u.xu ∧
        (w.modGen n x.genNo fun g => { g with ctr := g.ctr.requestMark (markFor k.durMark) }).wp = u.wp := w1
    generalize (w.modGen n x.genNo fun g => { g with ctr := g.ctr.requestMark (markFor k.durMark) }) = v at *
    exact ⟨gm.listed hl, by rw [State.slot_congr hl.kt]; exact e3, fun m hm => by rw [State.slot_congr hl.kt]; exact em m hm,
      hl.tu.trans e4.1, hl.nu.trans e4.2.1, hl.xu.trans e4.2.2.1, hl.wp.trans e4.2.2.2, fun _ he => hm he⟩
  · simp only [hne, decide_false, if_false, Bool.false_eq_true]
    refine ⟨gw, ?_, fun m hm => by rw [ws, if_neg hm], w1.1, w1.2.1, w1.2.2.1, w1.2.2.2, fun h => absurd h id⟩
    rw [ws, if_pos rfl]
    exact SlotRec.updGen_at hg rfl

/-- No entry is due: nothing fires. -/
theorem State.fireDue_none {s : State} (h : s.noneDue s.tu.now) : s.fireDue = s := by
  unfold State.fireDue
  split
  · cases hd : s.tu.deadlines with
    | nil => exact State.together_same rfl
    | cons d rest =>
      rw [List.length_cons]
      unfold State.fireLoop
      rw [hd]
      dsimp only
      rw [if_pos (h d (by rw [hd]; exact List.mem_cons_self))]
      exact State.together_same rfl
  · rfl

theorem heldSlot_deferred {s : State} {k : Kind} {o : OrderFields} (hd : (s.slot o.slot.toNat).deferred = Deferred.none) :
    ∀ n, heldSlot k.code o = some n → (s.slot n).deferred = Deferred.none := by
  intro n hn
  rw [(heldSlot_names hn).1]
  exact hd

end Sys2Proof.Machine
end

