-- ==== Sys2Proof/Laws/Serving.lean ====
section
/-! SUPPORT. Laws/Serving.lean: what the end of a cipher request leads to in a state where nothing follows it: the order goes
on, hands its record over, or completes. -/

namespace Sys2Proof.Machine

/-- The state in which the order of the request that ends goes on. -/
def State.served (s : State) (c : Nat) : State :=
  State.modCtx { s with xu := { s.xu with service := none } } c fun x => { x with wait := .none }

@[simp] theorem State.served_tm (s : State) (c : Nat) : (s.served c).tm = s.tm := rfl
@[simp] theorem State.served_tu (s : State) (c : Nat) : (s.served c).tu = s.tu := rfl
@[simp] theorem State.served_nu (s : State) (c : Nat) : (s.served c).nu = s.nu := rfl
@[simp] theorem State.served_kt (s : State) (c : Nat) : (s.served c).kt = s.kt := rfl
@[simp] theorem State.served_wp (s : State) (c : Nat) : (s.served c).wp = s.wp := rfl
@[simp] theorem State.served_xu (s : State) (c : Nat) : (s.served c).xu = { s.xu with service := none } := rfl
@[simp] theorem State.served_slot (s : State) (c n : Nat) : (s.served c).slot n = s.slot n := rfl

/-- The order of a request that ends, with nothing waiting. -/
theorem State.Serving.begun {s : State} {c : Nat} {x : Ctx} {v : Service} {op : CipherOp} (h : s.Serving c x v op) :
    Onward s (s.served c) c
      { x with wait := .none } := by
  have h0 : Onward s { s with xu := { s.xu with service := none } } c x := {
    small := h.plain.small
    od := by
      have := h.plain.ctx
      unfold State.ctx at this
      rw [getD_eq] at this
      have e : s.od.ctxs.setIfInBounds c (some x) = s.od.ctxs := by
        apply Vector.ext
        intro i hi
        rw [Vector.getElem_setIfInBounds]
        split
        · subst_vars
          simpa [h.plain.small] using this.symm
        · rfl
      unfold State.setCtx
      rw [e]
    wp := rfl
    array := ⟨rfl, rfl, rfl, rfl, rfl, rfl, rfl, rfl, rfl, rfl, rfl⟩
    tm := rfl
    clock := rfl
    pending := rfl }
  exact h0.mod _

theorem State.endService_eq {s : State} {c : Nat} {x : Ctx} {v : Service} {op : CipherOp} (h : s.Serving c x v op)
    (go : State → Nat → Ctx → Service → State) : s.endService op go =
      ((go (s.served c)
        c x v).cipherKick.serve).finish := by
  unfold State.endService
  rw [h.service]
  dsimp only
  rw [if_pos h.op, h.ctx, h.plain.ctx]
  rfl

theorem State.cipherKick_none {s : State} (h : s.xu.queue = []) : s.cipherKick = s := by
  unfold State.cipherKick
  rw [h]
  cases s.xu.service <;> rfl

/-- An order that goes on, in a state that the Journal Unit has taken further. -/
theorem Onward.goesOn {s u t : State} {c : Nat} {y : Ctx} (g : Onward s u c y) (k : Kicked u t) (ht : s.SameTables u)
    (hr : u.wp.ram = s.wp.ram) : s.GoesOn t c y where
  ctx := by rw [k.core, g.ctx]; rfl
  cell := by rw [k.cell, g.cell]
  ring := by rw [k.lane, g.lane]
  ram := by rw [k.wp, hr]
  tables := ⟨k.kt.trans ht.slots, k.tu.trans ht.time, k.nu.trans ht.notices⟩
  frame := {
    port := by rw [k.wp, g.wp]
    cells := fun n _ => by rw [k.cell, g.cell]
    lanes := fun n _ => by rw [k.lane, g.lane]
    ctxs := fun d hd => by rw [k.core, g.ctxs hd]
    plan := k.plan.trans g.plan
    timer := k.timer.trans g.timer
    array := g.array.trans k.array
    tamper := k.tm.trans g.tm
    clock := k.clock.trans g.clock
    pending := k.pending.trans g.pending }

/-- The order goes on. -/
theorem State.Serving.goesOn {s u : State} {c : Nat} {x y : Ctx} {v : Service} {op : CipherOp} (h : s.Serving c x v op)
    (go : State → Nat → Ctx → Service → State)
    (hu : go (s.served c) c x v = u)
    (g : Onward s u c y) (hy : y.wait ≠ .predecessors) (_hyl : y.lane = x.lane) (_hyc : y.cell = x.cell)
    (hq : u.xu.queue = []) (ht : s.SameTables u)
    (hr : u.wp.ram = s.wp.ram) :
    s.GoesOn (s.endService op go) c y ∧ (s.endService op go).xu = u.xu ∧
      (∀ q, u.Joins q → u.holdsRecord q = true → (s.endService op go).holdsRecord q = true) := by
  rw [State.endService_eq h, hu, State.cipherKick_none hq]
  have eng : u.wp.engine = .running := by rw [g.wp]; exact h.running
  rw [State.serve_idle {
    lanes := fun n => by rw [g.lane]; exact h.follower.lanes n
    syncs := fun d => by
      by_cases hd : d = c
      · subst hd
        unfold State.isSync
        rw [g.ctx]
        cases hw : y.wait <;> simp_all
      · have := h.follower.syncs d
        unfold State.isSync at this ⊢
        rw [g.ctxs hd]; exact this
    engine := by rw [eng]; decide }]
  have k := State.finish_kicked u (by rw [eng]; decide)
  have kg := fun q => State.finish_holds (s := u) (p := q)
  generalize u.finish = t at *
  exact ⟨g.goesOn k ht hr, k.xu, kg⟩

/-- The order completes. -/
theorem State.Serving.ends {s u : State} {c : Nat} {x y : Ctx} {v : Service} {op : CipherOp} {code : Code} {res : Res}
    (h : s.Serving c x v op) (go : State → Nat → Ctx → Service → State)
    (hu : go (s.served c) c x v =
      u.complete c code res)
    (g : Onward s u c y) (hyl : y.lane = x.lane) (hyc : y.cell = x.cell) (hyo : y.order = x.order)
    (hyh : y.held = x.held) (hye : y.erasePending = false) (hq : u.xu.queue = []) (hnow : u.tu = s.tu)
    (hdf : ∀ n, x.held = some n → (u.slot n).deferred = Deferred.none) :
    let t := s.endService op go
    s.OrderEnds t c x code res ∧ t.kt = u.kt ∧ t.tu = s.tu ∧ t.nu = (u.countCompletion x.lane).nu ∧ t.xu = u.xu ∧
      t.wp.ram = (if code = .ok then Ram.writeBytes u.wp.ram x.order.output.addr y.output else u.wp.ram) ∧
      (∀ b, (∀ n r, b ≠ .image n r) → u.holdsRecord (fun q => q.body == b) = true →
        t.holdsRecord (fun q => q.body == b) = true) := by
  intro t
  have ht : t = s.endService op go := rfl
  rw [State.endService_eq h, hu] at ht
  have eng : u.wp.engine = .running := by rw [g.wp]; exact h.running
  have pl : u.Plain c y := {
    ctx := g.ctx
    small := g.small
    lane := by rw [hyl]; exact h.plain.lane
    cell := by rw [hyc]; exact h.plain.cell
    erase := hye
    deferred := fun n hn => hdf n (by rw [← hyh]; exact hn) }
  have cm := State.complete_completed pl code res
  generalize u.complete c code res = w at *
  have cl : w.lane x.lane = { s.lane x.lane with done := (s.lane x.lane).done + 1 } := by
    have := cm.lane
    rw [hyl] at this
    rw [this, g.lane]
  have cls : ∀ n, n ≠ x.lane → w.lane n = s.lane n := by
    intro n hn
    rw [cm.lanes n (by rw [hyl]; exact hn), g.lane]
  rw [State.cipherKick_none (by rw [cm.xu]; exact hq), State.serve_idle {
    lanes := fun n => by
      by_cases hn : n = x.lane
      · subst hn; rw [cl]; exact h.follower.lanes _
      · rw [cls n hn]; exact h.follower.lanes n
    syncs := fun d => by
      by_cases hd : d = c
      · subst hd
        unfold State.isSync
        rw [cm.ctx]; rfl
      · have := h.follower.syncs d
        unfold State.isSync at this ⊢
        rw [cm.ctxs d hd, g.ctxs hd]
        cases hx : s.ctx d <;> simp_all
    engine := by rw [cm.wp]; show u.wp.engine ≠ _; rw [eng]; decide }] at ht
  have k := State.finish_kicked w (by rw [cm.wp]; show u.wp.engine ≠ _; rw [eng]; decide)
  have kg := fun q => State.finish_holds (s := w) (p := q)
  rw [← ht] at k kg
  clear ht
  clear_value t
  exact ⟨{
    cell := by
      rw [k.cell]
      have := cm.cell
      rw [hyc, hyo] at this
      rw [this, g.cell, hnow]
    ctx := k.ctx_none cm.ctx
    ring := by rw [k.lane, cl]
    frame := {
      port := by rw [k.wp, cm.wp, g.wp]
      cells := fun n hn => by rw [k.cell, cm.cells n (by rw [hyc]; exact hn), g.cell]
      lanes := fun n hn => by rw [k.lane, cls n hn]
      ctxs := fun d hd => by
        rw [k.core, cm.ctxs d hd, g.ctxs hd]
        cases s.ctx d <;> rfl
      plan := k.plan.trans (cm.plan.trans g.plan)
      timer := k.timer.trans (cm.timer.trans g.timer)
      array := (g.array.trans (sameArray_ju cm.ju)).trans k.array
      tamper := k.tm.trans (cm.tm.trans g.tm)
      clock := k.clock.trans (cm.clock.trans g.clock)
      pending := k.pending.trans (cm.pending.trans g.pending) } },
    k.kt.trans cm.kt, k.tu.trans (cm.tu.trans hnow), by rw [k.nu, cm.nu eng, hyl], k.xu.trans cm.xu,
    by rw [k.wp, cm.wp, hyo], fun b hb hu => kg _ (State.joins_body w hb)
      ((State.holdsRecord_congr _ (by rw [cm.ju]) (by rw [cm.ju])).trans hu)⟩

/-- The order of a request that ends completes and nothing else changes. -/
theorem State.Serving.endsPlainly {s : State} {c : Nat} {x : Ctx} {v : Service} {op : CipherOp} {code : Code} {res : Res}
    (h : s.Serving c x v op) (go : State → Nat → Ctx → Service → State) (f : Ctx → Ctx)
    (hf : ∀ y : Ctx, (f y).lane = y.lane ∧ (f y).cell = y.cell ∧ (f y).order = y.order ∧ (f y).held = y.held ∧ (f y).erasePending = y.erasePending)
    (hu : go (s.served c) c x v =
      (State.modCtx (s.served c) c f).complete c code res) :
    s.EndsPlainly (s.endService op go) c x code res ∧
      (s.endService op go).wp.ram = if code = .ok then Ram.writeBytes s.wp.ram x.order.output.addr (f { x with wait := .none }).output else s.wp.ram := by
  obtain ⟨f1, f2, f3, f4, f5⟩ := hf { x with wait := .none }
  obtain ⟨a1, a2, a3, a4, a5, a6, -⟩ := h.ends go hu (h.begun.mod f) f1 f2 f3 f4 (by rw [f5]; exact h.plain.erase) h.queue rfl
    (fun n hn => h.plain.deferred n hn)
  exact ⟨⟨a1, a2, a3, by rw [a4]; exact State.countCompletion_nu (by rfl) (by rfl) (by rfl) _, a5⟩, by rw [a6]; rfl⟩

theorem modCtx_id (s : State) (c : Nat) : s.modCtx c id = s := by
  unfold State.modCtx State.setCtx
  have : s.od.ctxs.setIfInBounds c (Option.map id (s.ctx c)) = s.od.ctxs := by
    apply Vector.ext
    intro i hi
    rw [Vector.getElem_setIfInBounds]
    split
    · subst_vars; simp [State.ctx, getD_eq, hi]
    · rfl
  rw [this]

theorem placeRecord_serving {s u : State} {c : Nat} {x y : Ctx} {v : Service} {op : CipherOp} (h : s.Serving c x v op)
    (go : State → Nat → Ctx → Service → State) (ch : Change)
    (hu : go (s.served c) c x v = u.placeRecord c ch)
    (g : Onward s u c y) (hyl : y.lane = x.lane) (hyc : y.cell = x.cell) (hyt : y.late = false)
    (hux : u.xu = { s.xu with service := none }) (ht : s.SameTables u) (hr : u.wp.ram = s.wp.ram) :
    (s.endService op go).holdsRecord (s.recordFor c y.order.slot.toNat ch) = true ∧ (s.endService op go).xu = { s.xu with service := none } ∧
    s.GoesOn (s.endService op go) c { y with wait := .group, change := some ch } := by
  obtain ⟨p1, p2, p3, p4, p5, p6, p7, p8⟩ := placeRecord_onward g (by rw [g.wp]; exact h.running) hyt ch
  obtain ⟨a1, a2, a3⟩ := h.goesOn go hu p1 (fun hc => (nomatch hc)) hyl hyc (by rw [p5, hux]; exact h.queue)
    ⟨p2.trans ht.slots, p3.trans ht.time, p4.trans ht.notices⟩ (by rw [p6, hr])
  exact ⟨by rw [← recordFor_congr ht.slots ht.time g.tm]; exact a3 _ p7 p8, by rw [a2, p5, hux], a1⟩

end Sys2Proof.Machine
end

