-- ==== Sys2Proof/Laws/Lanes.lean ====
section
/-! SUPPORT. Laws/Lanes.lean: what a pass over the four lanes does, lane by lane: the looks, the scan-wanted flags, the
refill, and START. -/

namespace Sys2Proof.Machine

/-- The lanes replaced. -/
def State.withLanes (s : State) (l : Vector LaneState 4) : State := { s with od := { s.od with lanes := l } }

theorem State.withLanes_self (s : State) : s.withLanes s.od.lanes = s := rfl

theorem State.withLanes_withLanes (s : State) (l m : Vector LaneState 4) : (s.withLanes l).withLanes m = s.withLanes m := rfl

@[simp] theorem State.withLanes_planLane (s : State) (l : Vector LaneState 4) (n : Nat) :
    (s.withLanes l).planLane n = s.planLane n := rfl

@[simp] theorem State.withLanes_cell (s : State) (l : Vector LaneState 4) (n : Nat) : (s.withLanes l).cell n = s.cell n := rfl

@[simp] theorem State.withLanes_ctx (s : State) (l : Vector LaneState 4) (n : Nat) : (s.withLanes l).ctx n = s.ctx n := rfl

theorem State.withLanes_lane (s : State) (l : Vector LaneState 4) {n : Nat} (h : n < 4) : (s.withLanes l).lane n = l[n] := by
  unfold State.withLanes State.lane
  simp [getD_eq, h]

theorem State.planLane_lt {s : State} {n : Nat} {p : PlanLane} (h : s.planLane n = some p) : n < 4 := by
  by_contra hn
  unfold State.planLane at h
  split at h
  · cases h
  · rw [Vector.getElem?_eq_none (by omega)] at h; cases h

theorem State.lane_ge (s : State) {n : Nat} (h : 4 ≤ n) : s.lane n = LaneState.reset := by
  unfold State.lane
  rw [getD_eq, Vector.getElem?_eq_none h]; rfl

/-- A lane set to what it is. -/
theorem State.withLanes_set_self (s : State) (l : Vector LaneState 4) (n : Nat) (x : LaneState)
    (h : n < 4 → x = (s.withLanes l).lane n) : (s.withLanes l).setLane n x = s.withLanes l := by
  unfold State.setLane
  have : (s.withLanes l).od.lanes.setIfInBounds n x = l := by
    apply Vector.ext
    intro i hi
    rw [Vector.getElem_setIfInBounds]
    split
    · subst_vars
      rw [h hi, State.withLanes_lane _ _ hi]
    · rfl
  rw [this]; rfl

/-- A pass over the lanes in which each lane's part depends on that lane alone. -/
theorem State.foldl_lanes (s : State) (f : State → Nat → State) (g : Nat → LaneState → LaneState)
    (hf : ∀ l n, n < 4 → f (s.withLanes l) n = (s.withLanes l).setLane n (g n ((s.withLanes l).lane n))) :
    (List.range 4).foldl f s = s.withLanes (s.od.lanes.mapFinIdx fun i l _ => g i l) := by
  have step : ∀ l n, n < 4 → f (s.withLanes l) n = s.withLanes (l.setIfInBounds n (g n ((s.withLanes l).lane n))) := by
    intro l n hn
    rw [hf l n hn]; rfl
  rw [range4]
  simp only [List.foldl_cons, List.foldl_nil]
  rw [← State.withLanes_self s, step _ 0 (by omega), step _ 1 (by omega), step _ 2 (by omega), step _ 3 (by omega),
    State.withLanes_withLanes]
  congr 1
  apply Vector.ext
  intro i hi
  have h4 : i = 0 ∨ i = 1 ∨ i = 2 ∨ i = 3 := by omega
  rcases h4 with rfl | rfl | rfl | rfl <;> simp [State.withLanes_lane] <;> rfl

theorem State.lane_mapped (s : State) (g : Nat → LaneState → LaneState) {n : Nat} (h : n < 4) :
    (s.withLanes (s.od.lanes.mapFinIdx fun i l _ => g i l)).lane n = g n (s.lane n) := by
  rw [State.withLanes_lane _ _ h, Vector.getElem_mapFinIdx]
  unfold State.lane
  simp [getD_eq, h]

theorem State.judge_posted (s : State) {cell : OrderCell} (h : cell.state = 1) :
    s.judge cell ≠ .empty ∧ s.judge cell ≠ .full := by
  unfold State.judge
  rw [if_neg (by rw [h]; decide), if_pos h]
  split
  · decide
  · split <;> decide

theorem State.judge_other (s : State) {cell : OrderCell} (h : cell.state ≠ 1) :
    s.judge cell = .empty ∨ s.judge cell = .full := by
  unfold State.judge
  by_cases h3 : cell.state = 0
  · left; rw [if_pos h3]
  · right; rw [if_neg h3, if_neg h]

/-- The looks (R163): a lane that is looked at and is empty or full is no longer wanted. -/
theorem State.looks_eq (s : State) : s.looks = s.withLanes (s.od.lanes.mapFinIdx fun i l _ =>
    if ((s.planLane i).isSome && l.scanWanted) && decide ((s.cell l.cursor).state ≠ 1) then { l with scanWanted := false }
    else l) := by
  unfold State.looks
  refine State.foldl_lanes s State.look (fun i l =>
    if ((s.planLane i).isSome && l.scanWanted) && decide ((s.cell l.cursor).state ≠ 1) then { l with scanWanted := false }
    else l) ?_
  intro l n hn
  unfold State.look
  by_cases h1 : (s.withLanes l).looked n = true
  · rw [if_pos h1]
    have h1' := h1
    unfold State.looked at h1'
    simp only [State.withLanes_planLane] at h1'
    by_cases h2 : (s.cell ((s.withLanes l).lane n).cursor).state = 1
    · have := State.judge_posted (s.withLanes l) (cell := (s.withLanes l).cell ((s.withLanes l).lane n).cursor) h2
      rw [if_neg (by simp [h2]), State.withLanes_set_self _ _ _ _ (fun _ => rfl)]
      unfold State.condition
      split <;> simp_all
    · have := State.judge_other (s.withLanes l) (cell := (s.withLanes l).cell ((s.withLanes l).lane n).cursor) h2
      rw [if_pos (by rw [h1']; simpa using h2)]
      unfold State.condition
      rcases this with h | h <;> rw [h]
  · rw [if_neg h1]
    unfold State.looked at h1
    simp only [State.withLanes_planLane] at h1
    rw [State.withLanes_set_self _ _ _ _ (fun _ => by
      rw [if_neg]; intro h; simp only [Bool.and_eq_true] at h h1; exact h1 h.1)]

/-- The scan-wanted flags that a mask sets (R164). -/
theorem State.wantScan_eq (s : State) (want : Nat → Bool) : s.wantScan want = s.withLanes (s.od.lanes.mapFinIdx fun i l _ =>
    if want i && (s.planLane i).isSome then { l with scanWanted := true } else l) := by
  unfold State.wantScan
  refine State.foldl_lanes s _ (fun i l => if want i && (s.planLane i).isSome then { l with scanWanted := true } else l) ?_
  intro l n hn
  dsimp only
  rw [State.withLanes_planLane]
  split
  · rfl
  · rw [State.withLanes_set_self _ _ _ _ (fun _ => rfl)]

/-- Where no context is free or no lane is ready after the looks, the arbiter makes the looks alone. -/
theorem State.arbitrate_looks (k : Nat) (s : State) (h0 : s.taking = true)
    (h : s.freeContext = none ∨ ∀ n, s.looks.readyLane n = false) : State.arbitrate (k + 1) s = s.looks := by
  have : s.lookAndTake = (s.looks, false) := by
    unfold State.lookAndTake
    rw [if_pos h0]
    dsimp only
    rcases h with h | h
    · have : s.looks.freeContext = none := by
        rw [State.looks_eq]; exact h
      rw [this]
    · rw [State.arbiterChoice_none h]
      cases s.looks.freeContext <;> rfl
  unfold State.arbitrate
  rw [this]

theorem State.arbitrate_not_taking (k : Nat) (s : State) (h : s.taking = false) : State.arbitrate k s = s := by
  cases k with
  | zero => rfl
  | succ k =>
    unfold State.arbitrate State.lookAndTake
    rw [if_neg (by simp [h])]

theorem State.pump_none (k : Nat) (s : State) (h : s.readySync = none) : State.pump k s = s := by
  cases k with
  | zero => rfl
  | succ k => unfold State.pump; rw [h]

/-- `finish` leaves everything but the Journal Unit's work. -/
theorem Kicked.takenUp {s t : State} (k : Kicked s t) : s.TakenUp t where
  window := k.wp
  plan := k.plan
  lanes := k.lanes
  timer := k.timer
  ctxs := k.core
  slots := k.kt
  cipher := k.xu
  time := k.tu
  array := k.array
  tamper := k.tm
  notices := k.nu
  clock := k.clock
  pending := k.pending

end Sys2Proof.Machine
end

