-- ==== Sys2Proof/Laws/Ending.lean ====
section
/-! SUPPORT. Laws/Ending.lean: orders that are withdrawn, aborted or failed, and the passage through STOPPING. -/

namespace Sys2Proof.Machine

theorem State.modCtx_none {s : State} {c : Nat} (h : s.ctx c = none) (f : Ctx → Ctx) : s.modCtx c f = s := by
  have : s.modCtx c f = s.modCtx c id := by unfold State.modCtx; rw [h]; rfl
  rw [this, modCtx_id]

theorem State.endOrder_none {s : State} {c : Nat} (h : s.ctx c = none) (code : Code) : s.endOrder c code = s := by
  unfold State.endOrder; rw [h]

/-! ## The request in service is abandoned (R81) -/

/-- With nothing in service, nothing is abandoned. -/
theorem State.abandon_none {s : State} (h : s.xu.service = none) : s.abandon = s := by
  unfold State.abandon; rw [h]

/-- A service that is no health test of an enabled source only goes. -/
theorem State.abandon_plain {s : State} (h : ∀ v, s.xu.service = some v → v.op ≠ .generate ∨ s.xu.disabled = true) :
    s.abandon = { s with xu := { s.xu with service := none } } := by
  unfold State.abandon
  split
  · next hv => rw [← hv]
  · next v hv =>
    dsimp only
    rw [if_neg]
    rintro ⟨h1, h2⟩
    rcases h v hv with h | h
    · exact h h1
    · rw [h] at h2; cases h2

theorem State.countTest_eq (s : State) (b : Bool) (lane cell : Nat) :
    ∃ x n, s.countTest b lane cell = { s with xu := x, nu := n } ∧ x.service = s.xu.service ∧ x.queue = s.xu.queue := by
  unfold State.countTest
  split
  · exact ⟨_, _, rfl, rfl, rfl⟩
  · exact ⟨_, _, rfl, rfl, rfl⟩

/-- All that abandoning changes: the service goes, and a health test may count, with its fault (R81, R82). -/
theorem State.abandon_eq (s : State) :
    ∃ x n, s.abandon = { s with xu := x, nu := n } ∧ x.service = none ∧ x.queue = s.xu.queue := by
  unfold State.abandon
  split
  · next h => exact ⟨s.xu, s.nu, rfl, h, rfl⟩
  · dsimp only
    split
    · split
      · exact ⟨_, _, rfl, rfl, rfl⟩
      · obtain ⟨x, n, h, h1, h2⟩ := State.countTest_eq { s with xu := { s.xu with service := none, cuts := s.xu.cuts + 1 } } ‹_› _ _
        exact ⟨x, n, h, h1, h2⟩
    · exact ⟨_, _, rfl, rfl, rfl⟩

/-- What abandoning leaves depends on the Cipher Unit, the notices, meter time and where the orders in flight stand. -/
theorem State.abandon_congr {s t : State} (hx : t.xu = s.xu) (hn : t.nu = s.nu) (ht : t.tu = s.tu)
    (hc : ∀ c, (t.ctx c).map (fun x => (x.lane, x.cell)) = (s.ctx c).map fun x => (x.lane, x.cell)) : t.abandon = { t with xu := s.abandon.xu, nu := s.abandon.nu } := by
  obtain ⟨wp, od, kt, xu, tu, ju, tm, nu, clock, pending⟩ := t
  dsimp only at hx hn ht
  subst hx hn ht
  unfold State.abandon
  dsimp only
  cases s.xu.service with
  | none => rfl
  | some v =>
    dsimp only
    split
    · cases Config.testEnded s.xu.cuts with
      | none => rfl
      | some b =>
        have e1 : ∀ (u : State) (x : Xu) (n : Nat), State.ctx { u with xu := x } n = u.ctx n := fun _ _ _ => rfl
        dsimp only
        have h1 := hc v.ctx
        have h2 := e1 s { s.xu with service := none, cuts := s.xu.cuts + 1 } v.ctx
        have h3 := e1 ⟨wp, od, kt, s.xu, s.tu, ju, tm, s.nu, clock, pending⟩
          { s.xu with service := none, cuts := s.xu.cuts + 1 } v.ctx
        dsimp only at h3
        rw [h2, h3]
        generalize State.ctx ⟨wp, od, kt, s.xu, s.tu, ju, tm, s.nu, clock, pending⟩ v.ctx = x at *
        generalize s.ctx v.ctx = y at *
        have e : (x.elim 0 fun x => x.lane) = (y.elim 0 fun x => x.lane) ∧
            (x.elim 0 fun x => x.cell) = (y.elim 0 fun x => x.cell) := by
          cases x <;> cases y <;> first | exact ⟨rfl, rfl⟩ | (cases h1) | skip
          simp only [Option.map_some, Option.some.injEq, Prod.mk.injEq] at h1
          exact h1
        rw [e.1, e.2]
        cases b <;> rfl
    · rfl

/-- What is dropped from the waiting list and the Cipher Unit as an order ends. -/
theorem State.dropOrder_eq (s : State) (c : Nat) : ∃ l x n, (s.dropWaiting fun r => r.ofOrder c).dropRequest c =
    { s with ju := { s.ju with waiting := l }, xu := x, nu := n } ∧ x.queue = s.xu.queue.filter (fun q => q.ctx ≠ c) := by
  obtain ⟨l, w⟩ : ∃ l, s.dropWaiting (fun r => r.ofOrder c) = { s with ju := { s.ju with waiting := l } } := ⟨_, rfl⟩
  rw [w]
  unfold State.dropRequest
  dsimp only
  split
  · obtain ⟨x, n, h, _, h2⟩ := State.abandon_eq { s with ju := { s.ju with waiting := l } }
    rw [h]
    exact ⟨_, _, _, rfl, by rw [h2]⟩
  · exact ⟨_, _, _, rfl, rfl⟩

/-- What an order that ends without success leaves of the notices: those of its completion, after the abandoning of its
request where it is in service (R81). -/
theorem State.dropOrder_nu (s : State) (c : Nat) : ((s.dropWaiting fun r => r.ofOrder c).dropRequest c).nu =
    (if s.inService c then s.abandon else s).nu := by
  obtain ⟨l, w⟩ : ∃ l, s.dropWaiting (fun r => r.ofOrder c) = { s with ju := { s.ju with waiting := l } } := ⟨_, rfl⟩
  rw [w]
  unfold State.dropRequest
  have e : State.inService { s with ju := { s.ju with waiting := l } } c = s.inService c := rfl
  rw [e]
  split
  · rw [State.abandon_congr (s := s) (t := { s with ju := { s.ju with waiting := l } }) rfl rfl rfl fun _ => rfl]
  · rfl

/-- An order that ends without success completes over a state in which only its records and its request have gone. -/
theorem State.endOrder_completed {s : State} {c : Nat} {x : Ctx} (h : s.Plain c x) (code : Code) :
    ∃ u l y n, u = { s with ju := { s.ju with waiting := l }, xu := y, nu := n } ∧
      n = (if s.inService c then s.abandon else s).nu ∧ y.queue = s.xu.queue.filter (fun q => q.ctx ≠ c) ∧
      Completed u (s.endOrder c code) c x code (x.endRes code) := by
  obtain ⟨l, y, n, e, hy⟩ := State.dropOrder_eq s c
  have e' : s.endOrder c code = ((s.dropWaiting fun r => r.ofOrder c).dropRequest c).complete c code (x.endRes code) := by
    unfold State.endOrder; rw [h.ctx]
  have hn := s.dropOrder_nu c
  rw [e] at hn
  rw [e', e]
  exact ⟨_, l, y, n, rfl, hn, hy, State.complete_completed (u := { s with ju := { s.ju with waiting := l }, xu := y, nu := n })
    ⟨h.ctx, h.small, h.lane, h.cell, h.erase, h.deferred⟩ code _⟩

/-- An order whose request is not in service leaves the notices and the random source as they are. -/
theorem State.endOrder_waiting {s : State} {c : Nat} {x : Ctx} (h : s.Plain c x) (hi : s.inService c = false) (code : Code) :
    ∃ u l, u = { s with ju := { s.ju with waiting := l }, xu := { s.xu with queue := s.xu.queue.filter fun q => q.ctx ≠ c } } ∧
      Completed u (s.endOrder c code) c x code (x.endRes code) := by
  have e' : s.endOrder c code = ((s.dropWaiting fun r => r.ofOrder c).dropRequest c).complete c code (x.endRes code) := by
    unfold State.endOrder; rw [h.ctx]
  obtain ⟨l, w⟩ : ∃ l, s.dropWaiting (fun r => r.ofOrder c) = { s with ju := { s.ju with waiting := l } } := ⟨_, rfl⟩
  have e : (s.dropWaiting fun r => r.ofOrder c).dropRequest c = { s with
      ju := { s.ju with waiting := l }, xu := { s.xu with queue := s.xu.queue.filter fun q => q.ctx ≠ c } } := by
    rw [w]
    unfold State.dropRequest
    rw [if_neg (by show ¬ s.inService c = true; rw [hi]; decide)]
  rw [e', e]
  exact ⟨_, l, rfl, State.complete_completed (u := { s with
      ju := { s.ju with waiting := l }, xu := { s.xu with queue := s.xu.queue.filter fun q => q.ctx ≠ c } })
    ⟨h.ctx, h.small, h.lane, h.cell, h.erase, h.deferred⟩ code _⟩

/-- The Cipher Unit gives up all it has: the service is abandoned, and the queue is emptied (R81). -/
def State.cleared (s : State) : State := { s.abandon with xu := { s.abandon.xu with queue := [] } }

theorem State.cleared_eq (s : State) :
    ∃ x n, s.cleared = { s with xu := x, nu := n } ∧ x.service = none ∧ x.queue = [] := by
  obtain ⟨x, n, h, h1, _⟩ := State.abandon_eq s
  unfold State.cleared
  rw [h]
  exact ⟨_, _, rfl, h1, rfl⟩

/-- With no order in flight, nothing is aborted but the requests of the Cipher Unit. -/
theorem State.abortAll_none {s : State} (h : ∀ c, s.ctx c = none) : s.abortAll = s.cleared := by
  unfold State.abortAll
  rw [range4]
  have hc : ∀ c, s.cleared.ctx c = none := by
    obtain ⟨x, n, e, _⟩ := s.cleared_eq
    rw [e]; exact h
  show [0, 1, 2, 3].foldl _ s.cleared = _
  generalize s.cleared = u at *
  have step : ∀ c, (if u.isSync c then u.modCtx c fun x => { x with endAborted := true }
      else if u.finishing c then u.modCtx c fun x => { x with budgetApplies := false }
      else u.endOrder c .aborted) = u := by
    intro c
    rw [State.modCtx_none (hc c), State.modCtx_none (hc c), State.endOrder_none (hc c)]
    split
    · rfl
    · split <;> rfl
  simp only [List.foldl_cons, List.foldl_nil, step]

/-- With one order in flight, which waits for a cipher request, it alone is aborted. -/
theorem State.abortAll_one {s : State} {c : Nat} {x : Ctx} (h : s.Plain c x) (ho : ∀ d, d ≠ c → s.ctx d = none)
    (hw : x.wait = .cipherQueue) (hf : s.finishing c = false) :
    s.abortAll = s.cleared.endOrder c .aborted := by
  unfold State.abortAll
  show (List.range 4).foldl _ s.cleared = _
  obtain ⟨y, n, e, e1, _⟩ := s.cleared_eq
  generalize s.cleared = u at *
  have pl : u.Plain c x := by rw [e]; exact ⟨h.ctx, h.small, h.lane, h.cell, h.erase, h.deferred⟩
  have ho' : ∀ d, d ≠ c → u.ctx d = none := by rw [e]; exact ho
  have hf' : u.finishing c = false := by rw [e]; exact hf
  obtain ⟨w, l, hw1, cm⟩ := State.endOrder_waiting pl (by unfold State.inService; rw [e]; dsimp only; rw [e1]; rfl) .aborted
  have hv : ∀ d, (u.endOrder c .aborted).ctx d = none := by
    intro d
    by_cases hd : d = c
    · rw [hd]; exact cm.ctx
    · rw [cm.ctxs d hd, hw1]
      show (u.ctx d).map _ = none
      rw [ho' d hd]; rfl
  have step : ∀ (t : State) d, t.ctx d = none → (if t.isSync d then t.modCtx d fun x => { x with endAborted := true }
      else if t.finishing d then t.modCtx d fun x => { x with budgetApplies := false }
      else t.endOrder d .aborted) = t := by
    intro t d ht
    rw [State.modCtx_none ht, State.modCtx_none ht, State.endOrder_none ht]
    split
    · rfl
    · split <;> rfl
  have mid : (if u.isSync c then u.modCtx c fun x => { x with endAborted := true }
      else if u.finishing c then u.modCtx c fun x => { x with budgetApplies := false }
      else u.endOrder c .aborted) = u.endOrder c .aborted := by
    rw [if_neg (by unfold State.isSync; rw [pl.ctx]; simp [hw]), if_neg (by simp [hf'])]
  rw [range4]
  have h4 : c = 0 ∨ c = 1 ∨ c = 2 ∨ c = 3 := by have := h.small; omega
  simp only [List.foldl_cons, List.foldl_nil]
  rcases h4 with rfl | rfl | rfl | rfl
  · rw [mid, step _ 1 (hv 1), step _ 2 (hv 2), step _ 3 (hv 3)]
  · rw [step u 0 (ho' 0 (by decide)), mid, step _ 2 (hv 2), step _ 3 (hv 3)]
  · rw [step u 0 (ho' 0 (by decide)), step u 1 (ho' 1 (by decide)), mid, step _ 3 (hv 3)]
  · rw [step u 0 (ho' 0 (by decide)), step u 1 (ho' 1 (by decide)), step u 2 (ho' 2 (by decide)), mid]

/-- A STOPPING with no order left ends. -/
theorem State.serve_stopping {s : State} (he : s.wp.engine = .stopping) (h : ∀ c, s.ctx c = none) :
    s.serve = State.enter { s with od := { s.od with scanTimer := none } } .stopped := by
  unfold State.serve
  rw [State.arbitrate_not_taking _ _ (by unfold State.taking; rw [he]; rfl),
    State.pump_idle _ _ (fun c => by unfold State.isSync; rw [h c]; rfl)]
  unfold State.settle
  rw [if_pos]
  unfold State.busy
  simp [he, h]

/-- In an engine state in which no order is taken, and with no order in flight, nothing is served. -/
theorem State.serve_none {s : State} (h0 : s.taking = false) (he : s.wp.engine ≠ .stopping) (h : ∀ c, s.ctx c = none) :
    s.serve = s := by
  unfold State.serve
  rw [State.arbitrate_not_taking _ _ h0, State.pump_idle _ _ (fun c => by unfold State.isSync; rw [h c]; rfl),
    State.settle_idle he]

/-! ## The array's events -/

theorem State.goOn_settled {s : State} (h : s.wp.startAt = none) : s.goOn = s.finish := by
  unfold State.goOn State.startingUp
  rw [h]; rfl

theorem unitAt_filter (l : List (Nat × NvUnit)) (k n : Nat) :
    unitAt (l.filter fun x => decide (x.1 ≠ k)) n = if n = k then .erased else unitAt l n := by
  induction l with
  | nil => simp [unitAt]
  | cons x l ih =>
    obtain ⟨a, u⟩ := x
    by_cases ha : a = k
    · rw [List.filter_cons_of_neg (by simp [ha]), ih]
      by_cases hn : n = k
      · simp [hn]
      · rw [if_neg hn, if_neg hn, unitAt, if_neg (by omega)]
    · rw [List.filter_cons_of_pos (by simp [ha]), unitAt, ih]
      by_cases hn : n = k
      · rw [if_neg (by omega), if_pos hn, if_pos hn]
      · rw [if_neg hn, if_neg hn, unitAt]

theorem unitAt_append (l m : List (Nat × NvUnit)) (n : Nat) (h : unitAt l n = .erased) (hl : ∀ u, (n, u) ∉ l) :
    unitAt (l ++ m) n = unitAt m n := by
  induction l with
  | nil => rfl
  | cons x l ih =>
    obtain ⟨a, u⟩ := x
    have ha : a ≠ n := fun e => hl u (by subst e; exact List.mem_cons_self)
    rw [List.cons_append, unitAt, if_neg ha]
    rw [unitAt, if_neg ha] at h
    exact ih h (fun u hu => hl u (List.mem_cons_of_mem _ hu))

theorem unitAt_append_left (l m : List (Nat × NvUnit)) (n : Nat) (hm : ∀ x ∈ m, x.1 ≠ n) :
    unitAt (l ++ m) n = unitAt l n := by
  induction l with
  | nil =>
    induction m with
    | nil => rfl
    | cons x m ih =>
      obtain ⟨a, u⟩ := x
      show (if a = n then u else unitAt m n) = _
      rw [if_neg (hm (a, u) List.mem_cons_self)]
      exact ih (fun x hx => hm x (List.mem_cons_of_mem _ hx))
  | cons x l ih =>
    obtain ⟨a, u⟩ := x
    rw [List.cons_append, unitAt, unitAt, ih]

/-- A bank reads the unit that was replaced, and every other as before. -/
theorem unitAt_setUnit (l : List (Nat × NvUnit)) (k n : Nat) (u : NvUnit) :
    unitAt (setUnit l k u) n = if n = k then u else unitAt l n := by
  unfold setUnit
  by_cases hn : n = k
  · subst hn
    rw [if_pos rfl, unitAt_append _ _ _ (by rw [unitAt_filter, if_pos rfl]) (by simp)]
    split
    · simp_all [unitAt]
    · simp [unitAt]
  · rw [if_neg hn, unitAt_append_left _ _ _ (by split <;> simp; omega), unitAt_filter, if_neg hn]

theorem State.units_setUnits (s : State) (bk : Bank) (l : List (Nat × NvUnit)) : (s.setUnits bk l).units bk = l := by
  cases bk <;> rfl

theorem State.units_setUnits_other (s : State) (bk : Bank) (l : List (Nat × NvUnit)) :
    (s.setUnits bk l).units bk.other = s.units bk.other := by
  cases bk <;> rfl

/-- What entering FAILED leaves, with no order in flight (R120, R159). -/
def State.failed (s : State) : State :=
  { s with
    wp := { s.wp with
      engine := .failed, served := decide (s.wp.engine = .running), supplySafe := s.wp.supplySafe || s.wp.supplyWarn }
    od := { s.od with scanTimer := if s.wp.engine = .running then s.od.scanTimer else none }
    nu := (s.raise bitEngine).nu
    ju := { s.ju with
      activity := .idle, erasing := none, waiting := [], step := none, failed := none, tamper := none
      emptyLeft := [], due := false } }

theorem State.enterFailed_eq {s : State} (h : s.Settled) (hc : s.ju.comp = none) (ho : ∀ c, s.ctx c = none) :
    s.enterFailed = s.failed := by
  unfold State.enterFailed
  dsimp only
  have e1 : ∀ (t : State), t.ju.comp = none → t.stopJournal = { t with ju := { t.ju with
      activity := .idle, erasing := none, waiting := [], step := none, failed := none, tamper := none
      emptyLeft := [], due := false } } := by
    intro t ht
    unfold State.stopJournal
    simp only [ht]
  have e2 : ∀ (t : State), (∀ c, t.ctx c = none) → (List.range 4).foldl (fun s c =>
    if (s.ctx c).any Ctx.onJournal then s.endOrder c .storeFailed else s) t = t := by
    intro t ht
    rw [range4]
    simp [ht]
  have hs : ∀ t : State, t.wp.startAt = none → t.failStartUp = t := by
    intro t ht
    unfold State.failStartUp State.startingUp
    rw [ht]; rfl
  have key : ∀ t : State, (∀ n, (t.lane n).scanWanted = false) → (∀ c, t.ctx c = none) → t.wp.engine = .failed → t.serve = t := by
    intro t h1 h2 h3
    exact State.serve_idle ⟨h1, fun c => by unfold State.isSync; rw [h2]; rfl, by rw [h3]; decide⟩
  have e3 : ∀ t : State, (if t.wp.supplyWarn = true then { t with wp := { t.wp with supplySafe := true } } else t) =
      { t with wp := { t.wp with supplySafe := t.wp.supplySafe || t.wp.supplyWarn } } := by
    intro t
    cases hw : t.wp.supplyWarn
    · rw [if_neg Bool.false_ne_true, Bool.or_false]
    · rw [if_pos rfl, Bool.or_true]
  by_cases hr : s.wp.engine = .running
  · have hr' : (s.wp.engine == EngineState.running) = true := by rw [hr]; rfl
    rw [hr', if_pos rfl, e1 _ (by exact hc), e3, hs _ (by exact h.after.2), e2 _ (by exact ho),
      key _ (by exact h.follower.lanes) (by exact ho) (by rfl)]
    unfold State.failed
    rw [if_pos hr, decide_eq_true hr]
    rfl
  · have hr' : (s.wp.engine == EngineState.running) = false := by simpa using hr
    rw [hr', if_neg Bool.false_ne_true, e1 _ (by exact hc), e3, hs _ (by exact h.after.2), e2 _ (by exact ho),
      key _ (by exact h.follower.lanes) (by exact ho) (by rfl)]
    unfold State.failed
    rw [if_neg hr, decide_eq_false hr]
    rfl

/-- NV_FATAL with no order in flight (R120, R159). -/
theorem State.nvFatal_eq {s : State} (h : s.Settled) (hc : s.ju.comp = none) (ho : ∀ c, s.ctx c = none) (a b : Nat) :
    s.nvFatal a b = (s.giveFault .nvFatal a b).failed :=
  State.enterFailed_eq ⟨h.after, ⟨h.follower.lanes, h.follower.syncs, h.follower.engine⟩, h.supply⟩ hc ho

/-- In FAILED a command ends with nothing more. -/
theorem State.finish_failed {s : State} (h : s.wp.engine = .failed) : s.finish = s := by
  unfold State.finish State.kick State.journalRuns State.safePoint
  rw [h]
  simp [h]

/-! ## Orders that end -/

/-- Nothing follows a completion that is followed by nothing. -/
theorem Completed.noFollower {V w : State} {c : Nat} {y : Ctx} {code : Code} {res : Res} (cm : Completed V w c y code res)
    (h1 : ∀ n, (V.lane n).scanWanted = false) (h2 : ∀ d, d ≠ c → V.isSync d = false) (h3 : V.wp.engine ≠ .stopping) : w.NoFollower where
  lanes n := by
    by_cases hn : n = y.lane
    · subst hn; rw [cm.lane]; exact h1 _
    · rw [cm.lanes n hn]; exact h1 n
  syncs d := by
    by_cases hd : d = c
    · subst hd
      unfold State.isSync
      rw [cm.ctx]; rfl
    · have := h2 d hd
      unfold State.isSync at this ⊢
      rw [cm.ctxs d hd]
      cases hx : V.ctx d <;> simp_all
  engine := by rw [cm.wp]; exact h3

/-- A completion ends its order. -/
theorem Completed.orderEnds {S V w t : State} {c : Nat} {x y : Ctx} {code : Code} {res : Res} (g : Onward S V c y)
    (cm : Completed V w c y code res) (k : Kicked w t) (hyl : y.lane = x.lane) (hyc : y.cell = x.cell) (hyo : y.order = x.order)
    (hnow : V.tu.now = S.tu.now) : S.OrderEnds t c x code res where
  cell := by
    rw [k.cell]
    have := cm.cell
    rw [hyc, hyo] at this
    rw [this, g.cell]
    unfold resultOf
    rw [hnow]
  ctx := k.ctx_none cm.ctx
  ring := by
    rw [k.lane]
    have := cm.lane
    rw [hyl] at this
    rw [this, g.lane]
  frame := {
    port := by rw [k.wp, cm.wp, g.wp]
    cells := fun n hn => by rw [k.cell, cm.cells n (by rw [hyc]; exact hn), g.cell]
    lanes := fun n hn => by rw [k.lane, cm.lanes n (by rw [hyl]; exact hn), g.lane]
    ctxs := fun d hd => by
      rw [k.core, cm.ctxs d hd, g.ctxs hd]
      cases S.ctx d <;> rfl
    plan := k.plan.trans (cm.plan.trans g.plan)
    timer := k.timer.trans (cm.timer.trans g.timer)
    array := (g.array.trans (sameArray_ju cm.ju)).trans k.array
    tamper := k.tm.trans (cm.tm.trans g.tm)
    clock := k.clock.trans (cm.clock.trans g.clock)
    pending := k.pending.trans (cm.pending.trans g.pending) }

/-- A state is itself with the order it has. -/
theorem Onward.refl {s : State} {c : Nat} {x : Ctx} (h : s.ctx c = some x) (hc : c < 4) : Onward s s c x where
  small := hc
  od := by
    unfold State.ctx at h
    rw [getD_eq] at h
    have e : s.od.ctxs.setIfInBounds c (some x) = s.od.ctxs := by
      apply Vector.ext
      intro i hi
      rw [Vector.getElem_setIfInBounds]
      split
      · subst_vars
        simpa [hc] using h.symm
      · rfl
    unfold State.setCtx
    rw [e]
  wp := rfl
  array := ⟨rfl, rfl, rfl, rfl, rfl, rfl, rfl, rfl, rfl, rfl, rfl⟩
  tm := rfl
  clock := rfl
  pending := rfl

/-! ## Time -/

/-- A change of time and of the notices beside the Journal Unit's work. -/
theorem Kicked.both {s t : State} (k : Kicked s t) (x : Tu) (n : Nu) :
    Kicked { s with tu := x, nu := n } { t with tu := x, nu := n } where
  wp := k.wp
  kt := k.kt
  xu := k.xu
  tu := rfl
  tm := k.tm
  nu := rfl
  clock := k.clock
  pending := k.pending
  plan := k.plan
  lanes := k.lanes
  timer := k.timer
  array := ⟨k.array.1, k.array.2, k.array.3, k.array.4, k.array.5, k.array.6, k.array.7, k.array.8, k.array.9, k.array.10, k.array.11⟩
  ctxs := k.ctxs

theorem State.placeOrUpdate_kicked (s : State) (p : Rec → Bool) (b : RecBody) (o : Owner) : Kicked s (s.placeOrUpdate p b o) := by
  unfold State.placeOrUpdate
  split
  · exact (Kicked.refl s).withJu _ ⟨rfl, rfl, rfl, rfl, rfl, rfl, rfl, rfl, rfl, rfl, rfl⟩
  · unfold State.handOver
    split
    · exact Kicked.refl s
    · exact (State.joinUp_kicked _).of ((Kicked.refl s).withJu _ ⟨rfl, rfl, rfl, rfl, rfl, rfl, rfl, rfl, rfl, rfl, rfl⟩)

/-- A counted second that makes nothing due (R88, R91). -/
theorem State.countSecond_kicked {s : State} (h : s.noneDue (s.tu.now + 1)) (hn : s.tu.now ≤ maxWord) :
    Kicked { s with tu := { s.tu with now := min (s.tu.now + 1) maxWord } } s.countSecond := by
  unfold State.countSecond
  by_cases h1 : s.tu.now < maxWord
  · rw [if_pos h1]
    have hm : min (s.tu.now + 1) maxWord = s.tu.now + 1 := by omega
    rw [hm]
    dsimp only
    rw [State.fireDue_none (s := { s with tu := { s.tu with now := s.tu.now + 1 } }) h]
    split
    · exact State.placeOrUpdate_kicked _ _ _ _
    · exact Kicked.refl _
  · rw [if_neg h1]
    have hm : min (s.tu.now + 1) maxWord = s.tu.now := by omega
    rw [hm]
    exact Kicked.refl s

theorem State.raise_eq (s : State) (b : Nat) : s.raise b = { s with nu := (s.raise b).nu } := rfl
theorem State.raise_nu {s t : State} (b : Nat) (h : s.nu = t.nu) : (s.raise b).nu = (t.raise b).nu := by
  unfold State.raise State.setCause State.cause; rw [h]

theorem Kicked.into {s u v : State} {T X : Tu} {N : Nu} (k : Kicked { s with tu := T } u)
    (h : v = { u with tu := X, nu := N }) (hh : v.wp.engine ≠ .holdover) : Kicked { s with tu := X, nu := N } v.finish := by
  refine (State.finish_kicked v hh).of ?_
  rw [h]
  exact Kicked.both k X N


end Sys2Proof.Machine
end

