-- ==== Sys2Proof/Laws/Commits.lean ====
section
/-! SUPPORT. Laws/Commits.lean: what the commit of a change leaves of the slots, the orphaned flags and the deadline list. -/

namespace Sys2Proof.Machine

/-- An order left as it is. -/
theorem State.modCtx_same {s : State} {c : Nat} {x : Ctx} (h : s.ctx c = some x) {f : Ctx → Ctx} (hf : f x = x) :
    s.modCtx c f = s := by
  have : s.modCtx c f = s.modCtx c id := by unfold State.modCtx; rw [h]; show s.setCtx c (some (f x)) = s.setCtx c (some x); rw [hf]
  rw [this, modCtx_id]

/-- A slot given its own record. -/
theorem State.setSlot_same {s : State} {n : Nat} {r : SlotRec} (h : s.slot n = r) : s.setSlot n r = s := by
  unfold State.setSlot
  have : s.kt.setIfInBounds n r = s.kt := by
    apply Vector.ext
    intro i hi
    rw [Vector.getElem_setIfInBounds]
    split
    · subst_vars
      unfold State.slot
      simp [Vector.getD, hi]
    · rfl
  rw [this]

/-- A deferred kind taken away where nothing is deferred. -/
theorem State.setDeferred_none {s : State} {n : Nat} (h : (s.slot n).deferred = Deferred.none) (k : DeadlineKind) :
    s.setDeferred n k false = s := by
  unfold State.setDeferred
  apply State.setSlot_same
  generalize s.slot n = r at *
  cases r
  dsimp only at h
  subst h
  cases k <;> rfl

/-- An entry removed of a slot with nothing deferred (R95). -/
theorem State.removeDeadline_none {s : State} {n : Nat} (h : (s.slot n).deferred = Deferred.none) (k : DeadlineKind) :
    s.removeDeadline n k = { s with tu := { s.tu with deadlines := s.tu.deadlines.filter fun d => !(d.slot == n && d.kind == k) } } := by
  unfold State.removeDeadline
  rw [State.setDeferred_none h]

/-- An entry set of a slot with nothing deferred (R95). -/
theorem State.setDeadline_none {s : State} {n : Nat} (h : (s.slot n).deferred = Deferred.none) (k : DeadlineKind) (due : Nat) :
    s.setDeadline n k due = { s with tu := { s.tu with deadlines := insertDeadline ⟨due, n, k⟩ (s.tu.deadlines.filter fun d => !(d.slot == n && d.kind == k)) } } := by
  unfold State.setDeadline
  rw [State.removeDeadline_none h]

/-- The list that a change leaves (R41, R95). -/
theorem State.changeDeadlines_none {s : State} {n : Nat} (h : (s.slot n).deferred = Deferred.none) (ch : Change) :
    s.changeDeadlines n ch = { s with tu := { s.tu with deadlines := listAfter n (s.slot n) ch s.tu.deadlines } } := by
  have cur : ∀ t : State, t.kt = s.kt → t.currentDeadlines n = { t with tu := { t.tu with deadlines :=
      match (s.slot n).current with
      | none => t.tu.deadlines
      | some g =>
        let l := if (s.slot n).renewDue then t.tu.deadlines.filter fun d => !(d.slot == n && d.kind == .renew) else insertDeadline ⟨g.renewAt, n, .renew⟩ (t.tu.deadlines.filter fun d => !(d.slot == n && d.kind == .renew))
        if g.expired then l.filter fun d => !(d.slot == n && d.kind == .expire) else insertDeadline ⟨g.expiresAt, n, .expire⟩ (l.filter fun d => !(d.slot == n && d.kind == .expire)) } } := by
    intro t ht
    have hs : t.slot n = s.slot n := State.slot_congr ht n
    unfold State.currentDeadlines
    rw [hs]
    dsimp only
    cases hc : (s.slot n).current with
    | none => rfl
    | some g =>
      have hd : (t.slot n).deferred = Deferred.none := by rw [hs]; exact h
      dsimp only
      cases hr : (s.slot n).renewDue
      · rw [if_neg Bool.false_ne_true, State.setDeadline_none hd]
        cases he : g.expired
        · rw [if_neg Bool.false_ne_true, State.setDeadline_none (by exact hd)]; rfl
        · rw [if_pos rfl, State.removeDeadline_none (by exact hd)]; rfl
      · rw [if_pos rfl, State.removeDeadline_none hd]
        cases he : g.expired
        · rw [if_neg Bool.false_ne_true, State.setDeadline_none (by exact hd)]; rfl
        · rw [if_pos rfl, State.removeDeadline_none (by exact hd)]; rfl
  cases ch with
  | define => rfl
  | install => exact cur s rfl
  | setPolicy => exact cur s rfl
  | adopt => rfl
  | unlock => rfl
  | retire =>
    show s.removeAllDeadlines n = _
    unfold State.removeAllDeadlines
    have rm : ∀ (t : State) k, t.kt = s.kt → t.removeDeadline n k = { t with tu := { t.tu with deadlines := t.tu.deadlines.filter fun d => !(d.slot == n && d.kind == k) } } :=
      fun t k ht => State.removeDeadline_none (by rw [State.slot_congr ht]; exact h) k
    rw [rm _ .confirm (by rfl), rm _ .grace (by rfl), rm _ .expire (by rfl), rm _ .renew (by rfl)]
    dsimp only
    unfold listAfter
    dsimp only
    simp only [List.filter_filter]
    congr 3
    funext d
    cases hd : d.slot == n <;> cases d.kind <;> simp
  | stage =>
    unfold State.changeDeadlines listAfter
    dsimp only
    cases (s.slot n).staged with
    | none => rfl
    | some g => exact State.setDeadline_none h _ _
  | cancel => exact State.removeDeadline_none h _
  | promote =>
    unfold State.changeDeadlines
    dsimp only
    rw [State.removeDeadline_none h]
    cases ho : (s.slot n).outgoing with
    | none =>
      dsimp only
      rw [State.removeDeadline_none (by exact h), cur _ (by rfl)]
      unfold listAfter
      rw [ho]
      all_goals rfl
    | some g =>
      dsimp only
      rw [State.setDeadline_none (by exact h), cur _ (by rfl)]
      unfold listAfter
      rw [ho]
      all_goals rfl

/-- No change defers anything. -/
theorem Change.apply_deferred (ch : Change) (t : Nat) {r : SlotRec} (h : r.deferred = Deferred.none) :
    (ch.apply t r).deferred = Deferred.none := by
  cases ch <;> first | rfl | exact h | skip
  · show (r.setPolicy _).deferred = _
    unfold SlotRec.setPolicy
    cases r.cls with
    | none => exact h
    | some c => cases c <;> exact h
  · show (r.promote _ _).deferred = _
    unfold SlotRec.promote
    split <;> exact h

theorem State.joinUp_eq (s : State) : ∃ l, s.joinUp = { s with ju := { s.ju with waiting := l } } := ⟨_, rfl⟩
theorem State.dropMarks_eq (s : State) (n : Nat) (l : List Gen) : ∃ w, s.dropMarks n l = { s with ju := { s.ju with waiting := w } } := ⟨_, rfl⟩

/-- The orphaned flags (R11). -/
theorem State.slot_orphans (s : State) {n : Nat} (hn : n < 64) : s.setOrphans.slot n = (s.slot n).orphanedBy s.slot := by
  unfold State.setOrphans
  show (s.kt.map _).getD n _ = _
  have : n < s.kt.size := hn
  simp [Vector.getD, hn]
  unfold SlotRec.orphanedBy
  have : s.slot n = s.kt[n] := by unfold State.slot; simp [Vector.getD, hn]
  rw [this]
  all_goals rfl

/-- A slot after one was set. -/
theorem State.slot_afterSet (s : State) {n m : Nat} (r : SlotRec) (hn : n < 64) : (s.setSlot n r).slot m = if m = n then r else s.slot m := by
  unfold State.setSlot State.slot
  by_cases hm : m = n
  · subst hm
    simp [Vector.getD, hn]
  · rw [if_neg hm]
    have hm' : n ≠ m := fun e => hm e.symm
    by_cases h64 : m < 64
    · simp [Vector.getD, h64, hm']
    · simp [Vector.getD, h64]

/-! ## The counters that a commit makes durable (R59) -/

theorem SlotRec.raiseDurable_deferred (r : SlotRec) (gen : Half) (c m : Nat) :
    (r.raiseDurable gen c m).deferred = r.deferred := by
  unfold SlotRec.raiseDurable; split <;> simp

theorem SlotRec.madeDurable_deferred (r : SlotRec) (n : Nat) (b : RecBody) : (r.madeDurable n b).deferred = r.deferred := by
  unfold SlotRec.madeDurable
  cases b with
  | counterMark m gen c k =>
    dsimp only
    split
    · exact SlotRec.raiseDurable_deferred ..
    · rfl
  | image m img =>
    dsimp only
    split
    · generalize img.gens = l
      induction l generalizing r with
      | nil => rfl
      | cons g l ih => rw [List.foldl_cons, ih, SlotRec.raiseDurable_deferred]
    · rfl
  | timeMark | note => rfl

/-- The durable values of one generation raised change the key table alone, at the slot alone (R59). -/
theorem State.raiseDurable_eq (s : State) (slot : Nat) (gen : Half) (c m : Nat) :
    s.raiseDurable slot gen c m = s.setSlot slot ((s.slot slot).raiseDurable gen c m) := by
  unfold State.raiseDurable SlotRec.raiseDurable
  dsimp only
  split
  · rfl
  · rw [State.setSlot_same rfl]

/-- An EMPTY slot has no durable values. -/
theorem SlotRec.raiseDurable_empty (gen : Half) (c m : Nat) : SlotRec.empty.raiseDurable gen c m = SlotRec.empty := rfl

theorem State.slot_raiseDurable (s : State) (slot n : Nat) (gen : Half) (c m : Nat) :
    (s.raiseDurable slot gen c m).slot n = if slot = n then (s.slot n).raiseDurable gen c m else s.slot n := by
  rw [State.raiseDurable_eq, State.slot_setSlot]
  by_cases h : slot = n
  · subst h
    by_cases h64 : slot < 64
    · rw [if_pos ⟨rfl, h64⟩, if_pos rfl]
    · have e : s.slot slot = SlotRec.empty := by unfold State.slot; simp [Vector.getD, h64]
      rw [if_neg (fun k => h64 k.2), if_pos rfl, e, SlotRec.raiseDurable_empty]
  · rw [if_neg (fun k => h k.1), if_neg h]

/-- The counters of a record made durable: the key table alone changes, each slot as `SlotRec.madeDurable` says. -/
theorem State.commitCounters_eq (s : State) (r : Rec) :
    ∃ k, s.commitCounters r = { s with kt := k } ∧
      ∀ n, (s.commitCounters r).slot n = (s.slot n).madeDurable n r.body := by
  unfold State.commitCounters SlotRec.madeDurable
  cases r.body with
  | counterMark slot gen c m =>
    exact ⟨_, State.raiseDurable_eq .., fun n => State.slot_raiseDurable ..⟩
  | image slot img =>
    dsimp only
    by_cases hc : img.cls = some .frame
    · simp only [if_pos hc]
      generalize img.gens = l
      induction l generalizing s with
      | nil => exact ⟨s.kt, rfl, fun n => by split <;> rfl⟩
      | cons g l ih =>
        obtain ⟨k, h1, h2⟩ := ih (s.raiseDurable slot g.number g.ctr.ceil g.ctr.reqMark)
        refine ⟨k, ?_, fun n => ?_⟩
        · rw [List.foldl_cons, h1, State.raiseDurable_eq]; rfl
        · rw [List.foldl_cons, h2, State.slot_raiseDurable]
          by_cases hn : slot = n
          · simp [hn, hc]
          · simp [hn]
    · simp only [if_neg hc]
      exact ⟨s.kt, rfl, fun n => by simp [hc]⟩
  | timeMark | note => exact ⟨s.kt, rfl, fun _ => rfl⟩

/-- The counters of all records of a group made durable. -/
theorem State.commitCounters_all (s : State) (l : List Rec) :
    ∃ k, l.foldl State.commitCounters s = { s with kt := k } ∧
      ∀ n, (l.foldl State.commitCounters s).slot n = l.foldl (fun q r => q.madeDurable n r.body) (s.slot n) := by
  induction l generalizing s with
  | nil => exact ⟨s.kt, rfl, fun _ => rfl⟩
  | cons r l ih =>
    obtain ⟨k, h1, h2⟩ := s.commitCounters_eq r
    obtain ⟨k', h3, h4⟩ := ih (s.commitCounters r)
    refine ⟨k', ?_, fun n => ?_⟩
    · rw [List.foldl_cons, h3, h1]
    · rw [List.foldl_cons, List.foldl_cons, h4, h2]

/-! ## The table change -/

/-- What a committed change leaves of a slot, where no deadline falls due (R13, R95). -/
theorem State.commitChange_none {s : State} {n : Nat} {ch : Change} {t : Nat} (hn : n < 64) (h : (s.slot n).deferred = Deferred.none)
    (hd : ∀ d ∈ listAfter n (ch.apply t (s.slot n)) ch s.tu.deadlines, s.tu.now < d.due) :
    ∃ k w, s.commitChange n ch t = { s with
      kt := k, ju := { s.ju with waiting := w }
      tu := { s.tu with deadlines := listAfter n (ch.apply t (s.slot n)) ch s.tu.deadlines }
      nu := (if ch.lowAt (s.slot n) then s.raise bitCounterLow else s).nu } ∧
      ∀ m, m < 64 → k.getD m SlotRec.empty =
        (if m = n then ch.apply t (s.slot n) else s.slot m).orphanedBy fun m => if m = n then ch.apply t (s.slot n) else s.slot m := by
  have hdef := Change.apply_deferred ch t h
  have e0 : s.commitChange n ch t = (let u := (State.changeDeadlines ((s.setSlot n (ch.apply t (s.slot n))).dropMarks n
      (discarded (s.slot n) (ch.apply t (s.slot n)))).setOrphans n ch).fireDue
      if ch.lowAt (s.slot n) then u.raise bitCounterLow else u) := by
    cases ch <;> rfl
  rw [e0]
  dsimp only
  generalize ch.lowAt (s.slot n) = low
  generalize ch.apply t (s.slot n) = r at *
  obtain ⟨w, hw⟩ := State.dropMarks_eq (s.setSlot n r) n (discarded (s.slot n) r)
  rw [hw]
  obtain ⟨v, hv⟩ : ∃ v : State, v = { s.setSlot n r with ju := { (s.setSlot n r).ju with waiting := w } } := ⟨_, rfl⟩
  rw [← hv]
  have vs : v.slot = fun m => if m = n then r else s.slot m := by
    funext m
    rw [hv]; exact State.slot_afterSet s r hn
  have os : ∀ m, m < 64 → v.setOrphans.slot m = (if m = n then r else s.slot m).orphanedBy fun m => if m = n then r else s.slot m := by
    intro m hm
    rw [State.slot_orphans v hm, vs]
  have on := os n hn
  rw [if_pos rfl] at on
  rw [State.changeDeadlines_none (by rw [on]; exact hdef)]
  have hl : listAfter n (v.setOrphans.slot n) ch v.setOrphans.tu.deadlines = listAfter n r ch s.tu.deadlines := by
    rw [on, show v.setOrphans.tu = s.tu by rw [hv]; rfl]
    cases ch <;> rfl
  rw [hl, State.fireDue_none (by
    intro d hd'
    show v.tu.now < _
    rw [hv]
    exact hd d hd')]
  refine ⟨v.setOrphans.kt, w, ?_, os⟩
  cases low
  · rw [if_neg Bool.false_ne_true, if_neg Bool.false_ne_true, hv]
    rfl
  · rw [if_pos rfl, if_pos rfl, State.raise_eq, State.raise_nu (t := s) _ (by rw [hv]; rfl), hv]
    rfl

theorem committedRes_pool (x : Ctx) (ch : Change) (b : Bool) : committedRes { x with poolClaim := b } ch = committedRes x ch := by
  unfold committedRes
  cases ch <;> rfl

/-! ## Releases, deadlines and tamper erases -/

/-- A record releases no order that does not wait for it. -/
theorem State.releaseOthers {s : State} (h : ∀ c x, s.ctx c = some x → x.wait ≠ .reservation ∧ x.wait ≠ .mark) (r : Rec) :
    (List.range 4).foldl (fun s c =>
    if (s.ctx c).any fun x => x.wait == .reservation || x.wait == .mark then (s.resume c r).serve else s) s = s := by
  have : ∀ c, ((s.ctx c).any fun x => x.wait == .reservation || x.wait == .mark) = false := by
    intro c
    cases hx : s.ctx c with
    | none => rfl
    | some x => obtain ⟨h1, h2⟩ := h c x hx; simp [h1, h2]
  rw [range4]
  simp only [List.foldl_cons, List.foldl_nil]
  simp [this]

/-- A record releases the one order that waits for a reservation or a mark. -/
theorem State.releaseOne {s : State} {c : Nat} {x : Ctx} (hc : c < 4) (hx : s.ctx c = some x)
    (hw : x.wait = .reservation ∨ x.wait = .mark)
    (ho : ∀ d y, d ≠ c → s.ctx d = some y → y.wait ≠ .reservation ∧ y.wait ≠ .mark) (r : Rec)
    (h2 : ∀ d y, (s.resume c r).serve.ctx d = some y → y.wait ≠ .reservation ∧ y.wait ≠ .mark) :
    (List.range 4).foldl (fun s c =>
      if (s.ctx c).any fun x => x.wait == .reservation || x.wait == .mark then (s.resume c r).serve else s) s =
    (s.resume c r).serve := by
  have no : ∀ (t : State) d, (∀ y, t.ctx d = some y → y.wait ≠ .reservation ∧ y.wait ≠ .mark) →
      ((t.ctx d).any fun x => x.wait == .reservation || x.wait == .mark) = false := by
    intro t d h
    cases hd : t.ctx d with
    | none => rfl
    | some y => obtain ⟨h1, h2⟩ := h y hd; simp [h1, h2]
  have yes : ((s.ctx c).any fun x => x.wait == .reservation || x.wait == .mark) = true := by
    rw [hx]
    rcases hw with h | h <;> simp [h]
  have skip : ∀ d, d ≠ c → ((s.ctx d).any fun x => x.wait == .reservation || x.wait == .mark) = false :=
    fun d hd => no s d fun y => ho d y hd
  have after : ∀ d, (((s.resume c r).serve.ctx d).any fun x => x.wait == .reservation || x.wait == .mark) = false :=
    fun d => no _ d (h2 d)
  rw [range4]
  simp only [List.foldl_cons, List.foldl_nil]
  have h4 : c = 0 ∨ c = 1 ∨ c = 2 ∨ c = 3 := by omega
  rcases h4 with rfl | rfl | rfl | rfl <;> simp [skip, yes, after]

theorem Kicked.raise {s t : State} (k : Kicked s t) (b : Nat) : Kicked (s.raise b) (t.raise b) :=
  { Kicked.both k t.tu (t.raise b).nu with
    tu := k.tu
    nu := State.raise_nu b k.nu
    array := ⟨k.array.1, k.array.2, k.array.3, k.array.4, k.array.5, k.array.6, k.array.7, k.array.8, k.array.9, k.array.10, k.array.11⟩ }

theorem State.dropMarks_kicked (s : State) (n : Nat) (l : List Gen) : Kicked s (s.dropMarks n l) :=
  (State.joinUp_kicked _).of ((Kicked.refl s).withJu _ ⟨rfl, rfl, rfl, rfl, rfl, rfl, rfl, rfl, rfl, rfl, rfl⟩)

/-- What the action of a deadline leaves (R98, R99): at most one event. -/
theorem State.act_kicked (s : State) (n : Nat) (k : DeadlineKind) :
    ∃ r N, Kicked { s.setSlot n r with nu := N } (s.act n k) ∧ (N = s.nu ∨ ∃ b, N = (s.raise b).nu) ∧
      (k = .confirm → (s.slot n).staged ≠ none → r = { s.slot n with staged := none } ∧ N = (s.raise bitRenewFailed).nu) ∧
      (k = .grace → (s.slot n).outgoing ≠ none → r = { s.slot n with outgoing := none } ∧ N = s.nu) ∧
      (∀ g, k = .expire → (s.slot n).current = some g → g.expired = false →
        r = { s.slot n with current := some { g with expired := true } } ∧ N = (s.raise bitKeyExpired).nu) ∧
      (k = .renew → (s.slot n).current ≠ none → (s.slot n).renewDue = false →
        r = { s.slot n with renewDue := true } ∧ N = (s.raise bitRenewDue).nu) := by
  have same : Kicked { s.setSlot n (s.slot n) with nu := s.nu } s := by rw [State.setSlot_same rfl]; exact Kicked.refl s
  have img : ∀ t : State, Kicked t (t.deadlineImage n) := fun t => State.placeOrUpdate_kicked ..
  have one : ∀ r, Kicked (s.setSlot n r) (State.deadlineImage (s.setSlot n r) n) := fun r => img _
  unfold State.act
  dsimp only
  cases k with
  | confirm =>
    dsimp only
    cases h : (s.slot n).staged with
    | none => exact ⟨_, _, same, Or.inl rfl, (fun _ c => absurd rfl c), nofun, nofun, nofun⟩
    | some g =>
      refine ⟨{ s.slot n with staged := none }, (s.raise bitRenewFailed).nu, ?_, Or.inr ⟨_, rfl⟩, (fun _ _ => ⟨rfl, rfl⟩), nofun, nofun, nofun⟩
      exact Kicked.raise ((img _).of (State.dropMarks_kicked _ n [g])) bitRenewFailed
  | grace =>
    dsimp only
    cases h : (s.slot n).outgoing with
    | none => exact ⟨_, _, same, Or.inl rfl, nofun, (fun _ c => absurd rfl c), nofun, nofun⟩
    | some g =>
      refine ⟨{ s.slot n with outgoing := none }, s.nu, ?_, Or.inl rfl, nofun, (fun _ _ => ⟨rfl, rfl⟩), nofun, nofun⟩
      exact (img _).of (State.dropMarks_kicked _ n [g])
  | expire =>
    dsimp only
    cases h : (s.slot n).current with
    | none => exact ⟨_, _, same, Or.inl rfl, nofun, nofun, nofun, nofun⟩
    | some g =>
      dsimp only
      split
      · rename_i he
        exact ⟨_, _, same, Or.inl rfl, nofun, nofun, (fun g' _ h' h'' => by cases h'; rw [he] at h''; cases h''), nofun⟩
      · refine ⟨{ s.slot n with current := some { g with expired := true } }, (s.raise bitKeyExpired).nu, ?_, Or.inr ⟨_, rfl⟩, nofun, nofun, (fun g' _ h' _ => by cases h'; exact ⟨rfl, rfl⟩), nofun⟩
        exact Kicked.raise (one _) bitKeyExpired
  | renew =>
    dsimp only
    cases h : (s.slot n).current with
    | none => exact ⟨_, _, same, Or.inl rfl, nofun, nofun, nofun, (fun _ c => absurd rfl c)⟩
    | some g =>
      dsimp only
      split
      · rename_i he
        exact ⟨_, _, same, Or.inl rfl, nofun, nofun, nofun, (fun _ _ h'' => by rw [he] at h''; cases h'')⟩
      · refine ⟨{ s.slot n with renewDue := true, current := some g }, (s.raise bitRenewDue).nu, ?_, Or.inr ⟨_, rfl⟩, nofun, nofun, nofun, (fun _ _ _ => ⟨rfl, rfl⟩)⟩
        exact Kicked.raise (one _) bitRenewDue

/-- An action that changes its slot leaves an image of it (R99). -/
theorem State.act_holds {s : State} {n : Nat} {k : DeadlineKind} (he : s.wp.engine ≠ .failed)
    (h : (k = .confirm ∧ (s.slot n).staged ≠ none) ∨ (k = .grace ∧ (s.slot n).outgoing ≠ none) ∨
      (∃ g, k = .expire ∧ (s.slot n).current = some g ∧ g.expired = false) ∨
      (k = .renew ∧ (s.slot n).current ≠ none ∧ (s.slot n).renewDue = false)) :
    (s.act n k).holdsRecord (Rec.isActionImage n ((s.act n k).slot n)) = true := by
  have img : ∀ t : State, t.wp.engine ≠ .failed →
      (t.deadlineImage n).holdsRecord (Rec.isActionImage n ((t.deadlineImage n).slot n)) = true := by
    intro t ht
    have := State.deadlineImage_holds (n := n) ht
    rwa [← State.slot_congr (deadlineImage_listed t n).kt] at this
  unfold State.act
  dsimp only
  rcases h with ⟨rfl, h⟩ | ⟨rfl, h⟩ | ⟨g, rfl, h, hx⟩ | ⟨rfl, h, hx⟩
  · obtain ⟨g, hg⟩ := Option.ne_none_iff_exists'.mp h
    rw [hg]
    exact img _ he
  · obtain ⟨g, hg⟩ := Option.ne_none_iff_exists'.mp h
    rw [hg]
    exact img _ he
  · rw [h]
    dsimp only
    rw [hx]
    exact img _ he
  · obtain ⟨g, hg⟩ := Option.ne_none_iff_exists'.mp h
    rw [hg]
    dsimp only
    rw [hx]
    exact img _ he

/-- Records that no order placed change no table and raise no notice at the commit (R112). -/
theorem State.notes_free (l : List Rec) (t : State) (h : ∀ r ∈ l, ∀ c, r.owner ≠ .order c ∧ r.owner ≠ .unlock c) :
    l.foldl (fun s r => (s.noteRaise r).commitTable r) t = t := by
  induction l generalizing t with
  | nil => rfl
  | cons r l ih =>
    rw [List.foldl_cons]
    have e : (t.noteRaise r).commitTable r = t := by
      have ho := h r List.mem_cons_self
      unfold State.commitTable State.noteRaise
      cases hr : r.owner with
      | order c => exact absurd hr (ho c).1
      | _ => rfl
    rw [e]
    exact ih t fun r hr => h r (List.mem_cons_of_mem _ hr)

/-- A record that no order placed releases the waits alone (R55, R64). -/
theorem State.release_free (r : Rec) (t : State) (h : ∀ c, r.owner ≠ .order c ∧ r.owner ≠ .unlock c) :
    t.releaseRec r = (List.range 4).foldl (fun s c =>
      if (s.ctx c).any fun x => x.wait == .reservation || x.wait == .mark then (s.resume c r).serve else s) t := by
  unfold State.releaseRec
  cases hr : r.owner with
  | order c => exact absurd hr (h c).1
  | unlock c => exact absurd hr (h c).2
  | _ => rfl

theorem State.releases_free (l : List Rec) (t : State) (h : ∀ r ∈ l, ∀ c, r.owner ≠ .order c ∧ r.owner ≠ .unlock c)
    (hw : ∀ d y, t.ctx d = some y → y.wait ≠ .reservation ∧ y.wait ≠ .mark) : l.foldl State.releaseRec t = t := by
  induction l generalizing t with
  | nil => rfl
  | cons r l ih =>
    rw [List.foldl_cons, State.release_free r t (h r List.mem_cons_self), State.releaseOthers hw]
    exact ih t (fun r hr => h r (List.mem_cons_of_mem _ hr)) hw

/-- A request placed while another is in service only waits (R74). -/
theorem State.cipherKick_busy {s : State} {v : Service} (h : s.xu.service = some v) : s.cipherKick = s := by
  unfold State.cipherKick
  split
  · rename_i e _
    rw [h] at e
    cases e
  · rfl

theorem RecBody.counterMark_carries (n : Nat) (gen : Half) (c m : Nat) :
    (RecBody.counterMark n gen c m).carries n gen = some (c, m) := by
  show (if n = n ∧ gen = gen then some (c, m) else none) = _
  rw [if_pos ⟨rfl, rfl⟩]

/-- The commit of the reservation that a PROTECT_FRAME waits for: where its CURRENT generation has a value left, it
places its request (R55, R56). -/
theorem State.resume_reservation {v : State} {c : Nat} {x : Ctx} {r : Rec} {k : Gen} {p : Nat × Nat} (hx : v.ctx c = some x)
    (hw : x.wait = .reservation) (hr : r.body.carries x.order.slot.toNat x.genNo = some p)
    (hc : (v.slot x.order.slot.toNat).current = some k) (hk : k.number = x.genNo)
    (hh : k.ctr.next ≤ (v.slot x.order.slot.toNat).policy.hard) (hn : k.ctr.next < k.ctr.durCeil) :
    v.resume c r = (v.modCtx c fun x => { x with wait := .none }).placeRequest c .protect := by
  obtain ⟨a, b⟩ := p
  have hf : (v.slot x.order.slot.toNat).find x.genNo = some k := by rw [← hk]; exact SlotRec.find_current hc
  unfold State.resume
  rw [hx]
  dsimp only
  rw [hr, hf]
  dsimp only
  rw [if_pos ⟨hw, hn⟩]
  unfold State.counterStep
  rw [State.ctx_modCtx, if_pos rfl, hx, Option.map_some]
  dsimp only
  rw [State.slot_modCtx, hc]
  dsimp only
  rw [if_neg (by omega), if_neg (by omega)]

/-- The commit of the mark that an ADMIT_FRAME waits for: where it reaches the value, the value is admitted (R64, R65). -/
theorem State.resume_mark {v : State} {c : Nat} {x : Ctx} {r : Rec} {k : Gen} {p : Nat × Nat} (hx : v.ctx c = some x)
    (hw : x.wait = .mark) (hr : r.body.carries x.order.slot.toNat x.genNo = some p)
    (hf : (v.slot x.order.slot.toNat).find x.genNo = some k) (hn : x.value ≤ k.ctr.durMark) :
    v.resume c r = v.finishAdmit c := by
  obtain ⟨a, b⟩ := p
  unfold State.resume
  rw [hx]
  dsimp only
  rw [hr, hf]
  dsimp only
  rw [if_neg (by rw [hw]; simp), if_pos ⟨hw, hn⟩]

/-- A record with a body stands in the tamper group that waits (R113, R145). -/
def State.inTamperGroup (s : State) (b : RecBody) : Bool := (s.ju.tamper.getD []).any fun r => r.body == b

/-- A body that stays where a SLOT_IMAGE of slot `n` joins its tamper group (R145). -/
def RecBody.staysFor (b : RecBody) (n : Nat) : Prop := ∀ r, b ≠ .image n r

/-- `u` is `s` after an erase action at the slots that a mask names (R143); the tamper group has taken the SLOT_IMAGE of
each erased slot (R145). -/
structure ErasedBy (s u : State) (p : Nat → Bool) : Prop where
  wp : u.wp = s.wp
  od : u.od = s.od
  xu : u.xu = s.xu
  tm : u.tm = s.tm
  nu : u.nu = s.nu
  clock : u.clock = s.clock
  pending : u.pending = s.pending
  tu : u.tu = { s.tu with deadlines := s.tu.deadlines.filter fun d => !(p d.slot && (s.slot d.slot).erasable) }
  array : s.SameArray u
  slots : ∀ n, u.slot n = if p n && (s.slot n).erasable then (s.slot n).erase else s.slot n
  images : ∀ n, (p n && (s.slot n).erasable) = true → u.inTamperGroup (.image n (u.slot n)) = true
  keeps : ∀ b : RecBody, (∀ n, p n = true → b.staysFor n) → s.inTamperGroup b = true → u.inTamperGroup b = true

theorem SlotRec.empty_erasable : SlotRec.empty.erasable = false := rfl

theorem State.erasable_small {s : State} {n : Nat} (h : (s.slot n).erasable = true) : n < 64 := by
  rcases Nat.lt_or_ge n 64 with h64 | h64
  · exact h64
  · have : s.slot n = SlotRec.empty := by unfold State.slot; simp [Vector.getD, h64]
    rw [this] at h
    cases h

theorem State.removeAllDeadlines_none {s : State} {n : Nat} (h : (s.slot n).deferred = Deferred.none) :
    s.removeAllDeadlines n = { s with tu := { s.tu with deadlines := s.tu.deadlines.filter fun d => !(d.slot == n) } } := by
  have := State.changeDeadlines_none h .retire
  exact this

/-- A record joins the tamper group: it stands there, and what it does not replace stays (R113, R145). -/
theorem State.toTamperGroup_eq {s : State} (h : s.wp.engine = .running) (b : RecBody) :
    ∃ t, s.toTamperGroup b = { s with ju := { s.ju with tamper := t } } ∧
      (t.getD []).any (fun r => r.body == b) = true ∧
      ∀ n r, b = .image n r → ∀ q : RecBody, q.staysFor n → s.inTamperGroup q = true →
        (t.getD []).any (fun r => r.body == q) = true := by
  unfold State.toTamperGroup
  rw [if_neg (by rw [h]; decide)]
  refine ⟨_, rfl, ?_, ?_⟩
  · rw [Option.getD_some]
    split
    · next hs =>
      obtain ⟨r, hr, hsr⟩ := List.any_eq_true.mp hs
      rw [List.any_eq_true]
      exact ⟨_, List.mem_map.mpr ⟨r, hr, rfl⟩, by rw [if_pos hsr]; exact beq_self_eq_true b⟩
    · rw [List.any_append, Bool.or_eq_true]
      right
      simp
  · rintro n r rfl q hq hh
    obtain ⟨w, hw, hwq⟩ := List.any_eq_true.mp hh
    have hwq : w.body = q := by simpa using hwq
    rw [Option.getD_some]
    split
    · rw [List.any_eq_true]
      refine ⟨_, List.mem_map.mpr ⟨w, hw, rfl⟩, ?_⟩
      rw [if_neg]
      · simpa using hwq
      · dsimp only
        rw [hwq]
        cases q with
        | image m x =>
          have : m ≠ n := fun e => hq x (by rw [e])
          simpa using this
        | _ => exact Bool.false_ne_true
    · rw [List.any_append, Bool.or_eq_true]
      left
      rw [List.any_eq_true]
      exact ⟨w, hw, by simpa using hwq⟩

theorem State.eraseSlot_by {s : State} (h : s.wp.engine = .running) (n : Nat) : ErasedBy s (s.eraseSlot n) (· == n) := by
  unfold State.eraseSlot
  dsimp only
  cases he : (s.slot n).erasable
  · rw [if_neg Bool.false_ne_true]
    refine ⟨rfl, rfl, rfl, rfl, rfl, rfl, rfl, ?_, State.SameArray.refl s, fun m => ?_, fun m hm => ?_, fun _ _ hb => hb⟩
    · have : (s.tu.deadlines.filter fun d => !((d.slot == n) && (s.slot d.slot).erasable)) = s.tu.deadlines := by
        rw [List.filter_eq_self]
        intro d _
        by_cases hd : d.slot = n
        · rw [hd, he]; simp
        · simp [hd]
      rw [this]
    · by_cases hm : m = n
      · rw [hm, he]; simp
      · simp [hm]
    · have : m = n := by simp at hm; exact hm.1
      rw [this, he] at hm
      simp at hm
  · rw [if_pos rfl]
    have hn := State.erasable_small he
    have hd : ((s.setSlot n (s.slot n).erase).slot n).deferred = Deferred.none := by
      rw [State.slot_setSlot, if_pos ⟨rfl, hn⟩]; rfl
    rw [State.removeAllDeadlines_none hd]
    obtain ⟨v, hv⟩ : ∃ v : State, v = { s.setSlot n (s.slot n).erase with tu := { s.tu with deadlines := s.tu.deadlines.filter fun d => !(d.slot == n) } } := ⟨_, rfl⟩
    have e1 : ({ s.setSlot n (s.slot n).erase with tu := { (s.setSlot n (s.slot n).erase).tu with deadlines := (s.setSlot n (s.slot n).erase).tu.deadlines.filter fun d => !(d.slot == n) } } : State) = v := by rw [hv]; rfl
    rw [e1]
    have dw : ∀ p, ∃ w, v.dropWaiting p = { v with ju := { v.ju with waiting := w } } := fun p => ⟨_, rfl⟩
    generalize (fun w : Rec => w.isDeadlineImage n || (s.slot n).gens.any fun g => w.isMarkOf n g.number) = p
    obtain ⟨w, hw⟩ := dw p
    rw [hw]
    obtain ⟨t, ht, ht1, ht2⟩ := State.toTamperGroup_eq (s := { v with ju := { v.ju with waiting := w } }) (by show v.wp.engine = _; rw [hv]; exact h) (.image n (State.slot { v with ju := { v.ju with waiting := w } } n))
    rw [ht]
    refine ⟨by rw [hv]; rfl, by rw [hv]; rfl, by rw [hv]; rfl, by rw [hv]; rfl, by rw [hv]; rfl, by rw [hv]; rfl, by rw [hv]; rfl, ?_, ?_, fun m => ?_, fun m hm => ?_, fun q hq hh => ?_⟩
    · have : (s.tu.deadlines.filter fun d => !((d.slot == n) && (s.slot d.slot).erasable)) = s.tu.deadlines.filter fun d => !(d.slot == n) := by
        apply List.filter_congr
        intro d _
        by_cases hd : d.slot = n
        · rw [hd, he]; simp
        · simp [hd]
      rw [this, hv]
    · rw [hv]; exact ⟨rfl, rfl, rfl, rfl, rfl, rfl, rfl, rfl, rfl, rfl, rfl⟩
    · rw [hv]
      show (s.setSlot n (s.slot n).erase).slot m = _
      rw [State.slot_setSlot]
      by_cases hm : m = n
      · subst hm; simp [hn, he]
      · have : n ≠ m := fun e => hm e.symm
        simp [hm, this]
    · have : m = n := by simp at hm; exact hm.1
      rw [this]
      exact ht1
    · refine ht2 n _ rfl q (hq n (beq_self_eq_true n)) ?_
      rw [hv]
      exact hh

/-- Erase actions at disjoint slots. -/
theorem ErasedBy.trans {s u v : State} {p q : Nat → Bool} (h : ErasedBy s u p) (k : ErasedBy u v q) (hpq : ∀ n, p n = true → q n = false) :
    ErasedBy s v (fun n => p n || q n) := by
  have sl : ∀ n, (q n && (u.slot n).erasable) = (q n && (s.slot n).erasable) := by
    intro n
    cases hq : q n with
    | false => rfl
    | true =>
      have : p n = false := by cases hp : p n; rfl; rw [hpq n hp] at hq; cases hq
      rw [h.slots, this]; rfl
  refine ⟨k.wp.trans h.wp, k.od.trans h.od, k.xu.trans h.xu, k.tm.trans h.tm, k.nu.trans h.nu, k.clock.trans h.clock,
    k.pending.trans h.pending, ?_, h.array.trans k.array, fun n => ?_, fun n hn => ?_, fun b hb hh => ?_⟩
  · rw [k.tu, h.tu]
    dsimp only
    have : ∀ l m, l = m → ({ s.tu with deadlines := l } : Tu) = { s.tu with deadlines := m } := fun _ _ e => by rw [e]
    apply this
    rw [List.filter_filter]
    apply List.filter_congr
    intro d _
    rw [sl]
    cases p d.slot <;> cases q d.slot <;> cases (s.slot d.slot).erasable <;> rfl
  · rw [k.slots, sl]
    cases hq : q n
    · rw [h.slots]; simp
    · have : p n = false := by cases hp : p n; rfl; rw [hpq n hp] at hq; cases hq
      have hu : u.slot n = s.slot n := by rw [h.slots, this]; rfl
      rw [hu, this]
      rfl
  · have hp : (p n && (s.slot n).erasable) = true ∨ (q n && (u.slot n).erasable) = true := by
      rw [sl]; simp at hn ⊢; tauto
    rcases hp with hp | hp
    · have hq : q n = false := hpq n (by simp at hp; exact hp.1)
      have hv : v.slot n = u.slot n := by rw [k.slots, hq]; rfl
      rw [hv]
      refine k.keeps _ (fun m hm r e => ?_) (h.images n hp)
      injection e with e1
      rw [← e1, hq] at hm
      cases hm
    · exact k.images n hp
  · exact k.keeps b (fun n hn => hb n (by simp [hn])) (h.keeps b (fun n hn => hb n (by simp [hn])) hh)

/-- The erase action, with no order in flight (R143). -/
theorem State.eraseAll_by {s : State} (h : s.wp.engine = .running) (hc : ∀ c, s.ctx c = none) :
    ErasedBy s s.eraseAll (fun _ => true) := by
  have key : ∀ k, ErasedBy s ((List.range k).foldl State.eraseAt s) (fun n => decide (n < k)) := by
    intro k
    induction k with
    | zero =>
      refine ⟨rfl, rfl, rfl, rfl, rfl, rfl, rfl, ?_, State.SameArray.refl s, fun n => ?_, fun n hn => ?_, fun _ _ hb => hb⟩
      · have : (s.tu.deadlines.filter fun d => !(decide (d.slot < 0) && (s.slot d.slot).erasable)) = s.tu.deadlines := by
          rw [List.filter_eq_self]; intro d _; simp
        rw [this]
        rfl
      · simp
      · simp at hn
    | succ k ih =>
      rw [List.range_succ, List.foldl_append]
      generalize (List.range k).foldl State.eraseAt s = u at *
      show ErasedBy s (u.eraseAt k) _
      have uh : u.holder k = none := State.holder_none (fun c => by
        unfold State.ctx; rw [ih.od]; exact hc c) k
      have : u.eraseAt k = u.eraseSlot k := by unfold State.eraseAt; rw [uh]
      rw [this]
      have e := ih.trans (State.eraseSlot_by (s := u) (by rw [ih.wp]; exact h) k) (by
        intro n hn
        have : n < k := by simpa using hn
        simp; omega)
      have : (fun n => decide (n < k) || (n == k)) = fun n => decide (n < k + 1) := by
        funext n
        rw [Bool.eq_iff_iff]; simp; omega
      rw [this] at e
      exact e
  have e := key 64
  have sl : ∀ n, (decide (n < 64) && (s.slot n).erasable) = (true && (s.slot n).erasable) := by
    intro n
    cases he : (s.slot n).erasable
    · simp
    · simp [State.erasable_small he]
  obtain ⟨a1, a2, a3, a4, a5, a6, a7, e1, e2, e3, e4, e5⟩ := e
  simp only [sl] at e1 e3 e4
  exact ⟨a1, a2, a3, a4, a5, a6, a7, e1, e2, e3, e4, fun b hb => e5 b fun n _ => hb n rfl⟩

/-! ## The tamper group as the Journal Unit takes it up -/

theorem State.beginTamperGroup_holds {s : State} {p : Rec → Bool} {l : List Rec} (r : Bool)
    (hp : ∀ q, p q = true → p (s.stampNote q) = true) (h : l.any p = true) (hf : s.fits (groupSize l) = true) :
    (State.beginGroup { s with ju := { s.ju with tamper := none } } l true r).holdsTamperRecord p = true := by
  unfold State.fits at hf
  obtain ⟨bk, hb⟩ : ∃ bk, s.ju.current = some bk := by
    cases hc : s.ju.current with
    | none => rw [hc] at hf; simp at hf
    | some bk => exact ⟨bk, rfl⟩
  unfold State.beginGroup
  dsimp only
  rw [hb]
  unfold State.holdsTamperRecord
  rw [List.any_append, Bool.or_eq_true]
  right
  show (l.map s.stampNote).any p = true
  obtain ⟨w, hw, hwp⟩ := List.any_eq_true.mp h
  exact List.any_eq_true.mpr ⟨_, List.mem_map.mpr ⟨w, hw, rfl⟩, hp w hwp⟩

/-- What stands in the tamper group stands there, or in the group that is programmed, when the Journal Unit has taken up
what it can, but that the notes have taken the lockdown state in force (R111, R113, R145). -/
theorem State.finish_tamper {s : State} {p : Rec → Bool} (hp : ∀ q, p q = true → p (s.stampNote q) = true)
    (h : (s.ju.tamper.getD []).any p = true) : s.finish.holdsTamperRecord p = true := by
  have keep : ∀ t : State, t.ju.tamper = s.ju.tamper → t.holdsTamperRecord p = true := by
    intro t ht
    unfold State.holdsTamperRecord
    rw [ht, List.any_append, h, Bool.true_or]
  have due : ∀ t : State, t.ju.tamper = s.ju.tamper → t.compactIfDue.ju.tamper = s.ju.tamper := by
    intro t ht
    unfold State.compactIfDue
    split <;> exact ht
  have grp : ∀ (t : State) l a b, t.ju.tamper = s.ju.tamper → (t.beginGroup l a b).ju.tamper = s.ju.tamper := by
    intro t l a b ht
    unfold State.beginGroup
    split
    · exact ht
    · exact ht
  have cho : s.choose.holdsTamperRecord p = true := by
    unfold State.choose
    split
    · dsimp only
      split
      · split
        · next hf => exact State.beginTamperGroup_holds false hp h hf
        · exact keep _ (due _ rfl)
      · split
        · exact keep _ (grp _ _ _ _ rfl)
        · exact keep _ (due _ rfl)
    · next recs _ hr =>
      rw [hr, Option.getD_some] at h
      split
      · next hf => exact State.beginTamperGroup_holds false hp h hf
      · exact keep _ (due _ rfl)
    · next hr => rw [hr] at h; cases h
  have ek : ∀ t : State, t.holdsTamperRecord p = true → t.eraseKick.holdsTamperRecord p = true := by
    intro t ht
    unfold State.eraseKick State.beginErase
    split
    · split
      · exact ht
      · exact ht
    · exact ht
  have kk : s.kick.holdsTamperRecord p = true := by
    unfold State.kick
    split
    · refine ek _ ?_
      split
      · exact keep _ rfl
      · split
        · split
          · refine keep _ ?_
            unfold State.beginCompStep
            dsimp only
            split <;> rfl
          · exact keep _ rfl
        · split
          · exact cho
          · exact keep _ rfl
    · exact keep _ rfl
  unfold State.finish State.safePoint
  split
  · exact kk
  · exact kk


end Sys2Proof.Machine
end

