-- ==== Sys2Proof/Laws/Fields.lean ====
section
/-! SUPPORT. Laws/Fields.lean: little-endian layouts: a field reads back from the fields packed, where they rise
without overlap. -/

namespace Sys2Proof.Machine

/-- The fields rise from `b` on without overlap and end by `n`. -/
def fieldsRise (n : Nat) : Nat → List (Nat × Nat × Nat) → Bool
  | b, [] => decide (b ≤ n)
  | b, (off, size, _) :: rest => decide (b ≤ off) && fieldsRise n (off + size) rest

theorem fieldsRise_le {n b : Nat} {fs : List (Nat × Nat × Nat)} (h : fieldsRise n b fs = true) : b ≤ n := by
  induction fs generalizing b with
  | nil => simpa [fieldsRise] using h
  | cons f rest ih =>
    obtain ⟨off, size, v⟩ := f
    simp only [fieldsRise, Bool.and_eq_true, decide_eq_true_eq] at h
    have := ih h.2
    omega

theorem packFields_dvd {n b : Nat} {fs : List (Nat × Nat × Nat)} (h : fieldsRise n b fs = true) :
    2 ^ (8 * b) ∣ packFields fs := by
  induction fs generalizing b with
  | nil => simp [packFields]
  | cons f rest ih =>
    obtain ⟨off, size, v⟩ := f
    simp only [fieldsRise, Bool.and_eq_true, decide_eq_true_eq] at h
    rw [packFields, Nat.shiftLeft_eq]
    refine Nat.dvd_add (Dvd.dvd.mul_left (Nat.pow_dvd_pow 2 (by omega)) _) ?_
    exact (Nat.pow_dvd_pow 2 (by omega)).trans (ih h.2)

theorem field_lt {off size v : Nat} : (v % 2 ^ (8 * size)) <<< (8 * off) < 2 ^ (8 * (off + size)) := by
  rw [Nat.shiftLeft_eq, Nat.mul_add, Nat.add_comm, Nat.pow_add]
  exact Nat.mul_lt_mul_of_pos_right (Nat.mod_lt _ (Nat.two_pow_pos _)) (Nat.two_pow_pos _)

theorem packFields_lt {n b : Nat} {fs : List (Nat × Nat × Nat)} (h : fieldsRise n b fs = true) :
    packFields fs + 2 ^ (8 * b) ≤ 2 ^ (8 * n) := by
  induction fs generalizing b with
  | nil => simpa [packFields] using Nat.pow_le_pow_right (by decide) (by have := fieldsRise_le h; omega)
  | cons f rest ih =>
    obtain ⟨off, size, v⟩ := f
    simp only [fieldsRise, Bool.and_eq_true, decide_eq_true_eq] at h
    have h1 := ih h.2
    have h2 : (v % 2 ^ (8 * size)) <<< (8 * off) + 2 ^ (8 * off) ≤ 2 ^ (8 * (off + size)) := by
      rw [Nat.shiftLeft_eq, Nat.mul_add, Nat.add_comm (8 * off), Nat.pow_add, ← Nat.succ_mul]
      exact Nat.mul_le_mul_right _ (Nat.mod_lt _ (Nat.two_pow_pos _))
    have h3 : 2 ^ (8 * b) ≤ 2 ^ (8 * off) := Nat.pow_le_pow_right (by decide) (by omega)
    rw [packFields]
    omega

/-- A field reads back from the fields packed, cut to its size. -/
theorem fieldAt_packFields {n b : Nat} {fs : List (Nat × Nat × Nat)} (h : fieldsRise n b fs = true)
    {off size v : Nat} (hm : (off, size, v) ∈ fs) : fieldAt (packFields fs) off size = v % 2 ^ (8 * size) := by
  induction fs generalizing b with
  | nil => simp at hm
  | cons f rest ih =>
    obtain ⟨off', size', v'⟩ := f
    simp only [fieldsRise, Bool.and_eq_true, decide_eq_true_eq] at h
    obtain ⟨q, hq⟩ := packFields_dvd h.2
    rcases List.mem_cons.1 hm with he | hm
    · cases he
      rw [packFields, fieldAt, hq, Nat.shiftRight_eq_div_pow, Nat.shiftLeft_eq, Nat.mul_add, Nat.pow_add,
        Nat.mul_assoc, Nat.mul_comm (v % _), ← Nat.mul_add, Nat.mul_div_cancel_left _ (Nat.two_pow_pos _),
        Nat.add_mul_mod_self_left, Nat.mod_mod]
    · have hr : off' + size' ≤ off := by
        clear ih hq
        have : ∀ (l : List (Nat × Nat × Nat)) (c : Nat), fieldsRise n c l = true → (off, size, v) ∈ l → c ≤ off := by
          intro l
          induction l with
          | nil => simp
          | cons g l ihl =>
            obtain ⟨o, z, w⟩ := g
            intro c hc hg
            simp only [fieldsRise, Bool.and_eq_true, decide_eq_true_eq] at hc
            rcases List.mem_cons.1 hg with he | hg
            · cases he; omega
            · have := ihl _ hc.2 hg; omega
        exact this rest _ h.2 hm
      rw [← ih h.2 hm]
      obtain ⟨d, rfl⟩ := Nat.exists_eq_add_of_le hr
      simp only [packFields, fieldAt, Nat.shiftRight_eq_div_pow]
      rw [Nat.mul_add 8 (off' + size') d, Nat.pow_add, ← Nat.div_div_eq_div_mul, ← Nat.div_div_eq_div_mul, hq,
        Nat.add_mul_div_left _ _ (Nat.two_pow_pos _), Nat.div_eq_of_lt field_lt, Nat.zero_add,
        Nat.mul_div_cancel_left _ (Nat.two_pow_pos _)]

/-- A field of bits packed reads back as the bits. -/
theorem ofNat_fieldAt {w n b : Nat} {fs : List (Nat × Nat × Nat)} (h : fieldsRise n b fs = true) {off size : Nat}
    {x : BitVec w} (hw : w = 8 * size) (hm : (off, size, x.toNat) ∈ fs) :
    BitVec.ofNat w (fieldAt (packFields fs) off size) = x := by
  rw [fieldAt_packFields h hm, ← hw, Nat.mod_eq_of_lt x.isLt]
  exact BitVec.eq_of_toNat_eq (by simp)

end Sys2Proof.Machine
end

