-- ==== Sys2Proof/Tests/Slice0.lean ====
section
/-! SUPPORT. Tests/Slice0.lean: the checks of WellFormed refuse an ill-formed term each; worked figures of the manual; and
for every statement with hypotheses a theorem, `witness_<its name>`, that names states and operands which meet them. -/

open Sys2Proof Sys2Proof.Machine

namespace Sys2Proof.Tests

/-! ## WellFormed -/

theorem test_wellFormed_acknowledge : (Instr.noticeAcknowledge 8).wellFormed = false := by decide
theorem test_wellFormed_command_write : (Instr.registerWriteIgnored 0x8004 1).wellFormed = false := by decide
theorem test_wellFormed_nudge_write : (Instr.registerWriteIgnored 0x8006 0).wellFormed = false := by decide
theorem test_wellFormed_lane : (Instr.sync 4 OrderFields.zero).wellFormed = false := by decide
theorem test_wellFormed_unit : (Instr.bankEraseEnd (some 1024)).wellFormed = false := by decide
theorem test_wellFormed_array : (Instr.powerOnReset ⟨false, [(.b, 1024, .erased)], []⟩).wellFormed = false := by decide
theorem test_wellFormed_context : (Instr.budgetExpiry 4).wellFormed = false := by decide
theorem test_wellFormed_delay : (Instr.coalescingDelayExpiry 4).wellFormed = false := by decide
theorem test_wellFormed_port_value_0 : (Instr.registerWriteIgnored 0x8004 0).wellFormed = true := by decide

/-! ## Figures -/

/-- 12.6: the check value of the CRC-32 of R108, of the bytes of "123456789" (from outside the manual: the usual check
value of this polynomial). -/
theorem test_crc : crc32 [0x31, 0x32, 0x33, 0x34, 0x35, 0x36, 0x37, 0x38, 0x39] = 0xCBF43926 := by decide +kernel

/-- 3.8: the policy of the worked figures. -/
def policy : Policy := ⟨31536000, 205, 3600, 86400, 1000000, 26, false⟩

theorem test_renew_at : policy.renewAt 1700000000 = 1725253437 := by decide +kernel
theorem test_expires_at : policy.expiresAt 1700000000 = 1731536000 := by decide +kernel
theorem test_soft : policy.soft = 898438 := by decide +kernel

/-- 3.8: the inbound window in motion, from T = 1,000 with flags 0, 2 and 10 set and I = 4,096. -/
def window0 : Counters := { Counters.zero with top := 1000, mask := 0x405, durMark := 4096, reqMark := 4096 }
def window1 : Counters := window0.admitted 1003
def window2 : Counters := (window1.admitted 999).admitted 940

theorem test_window_shift : window1.top = 1003 ∧ window1.mask = 0x2029 := by decide +kernel
theorem test_window_replayed : window1.check 998 = some .replayed := by decide +kernel
theorem test_window_stale : (window1.admitted 999).check 939 = some .stale := by decide +kernel
theorem test_window_back : window2.top = 1003 ∧ window2.mask = 0x8000000000002039 := by decide +kernel
theorem test_window_far : (window2.admitted 1100).top = 1100 ∧ (window2.admitted 1100).mask = 1 := by decide +kernel

/-- 3.8: low water at value 3,073, the commit of its reservation, and the reservation near H. -/
theorem test_reserve : ((({ Counters.fresh 1000000 with next := 3073 } : Counters).takeValue).reserve 1000000).ceil = 8193 := by
  decide +kernel
theorem test_reserve_capped : (({ Counters.fresh 1000000 with next := 998402, ceil := 999425, durCeil := 999425 } :
    Counters).reserve 1000000).ceil = 1000001 := by decide +kernel
theorem test_restart : ((({ Counters.fresh 1000000 with next := 5001, ceil := 8193, durCeil := 8193 } : Counters).restart)).next = 8193 := by
  decide +kernel
theorem test_recover : (Counters.recover ({ Counters.fresh 1000000 with ceil := 8193, durCeil := 8193 } : Counters)
    1000000).next = 73729 := by decide +kernel

/-- R43, R61: a promoting admit of 5,000 above I raises the mark to 9,096, and the table requests it as it commits. -/
theorem test_promotion_mark :
    let k := (Counters.fresh 1000000).admitPromoting 5000
    k.durMark = 9096 ∧ k.reqMark = 9096 ∧ ((Counters.fresh 1000000).commit 1000000 4097 9096).reqMark = 9096 := by
  decide +kernel

/-- 12.4: the header of a blob, from a label, the target and wrapping generations, and the class. -/
theorem test_blob_header : blobHeader 0xC0FE12 2 1 (some .frame) = 0x00000000000000020001000200C0FE12 := by decide +kernel

/-- No row of the table gives bits, so no word spells a command, and none is put in front. -/
theorem test_no_table_word : decodeTableWord 16 0x1234 = none := rfl
theorem test_no_command_in_front : (State.reset.withFetchWord 16 0x1234).pending = [] := rfl

/-- R153: the identification register, and the engine state code of STARTING. -/
theorem test_identification : State.reset.busRead 0x8000 = 0xD216 := by decide +kernel

/-- 12.2: a write of START in STOPPED with no plan applied ends NO_PLAN, through the register as through its row. -/
theorem test_start_without_plan :
    let s : State := { State.reset with wp := { Wp.reset with engine := .stopped, startAt := none } }
    exec .start s = exec (.registerWriteIgnored 0x8004 1) s := rfl

/-- R159, R179: STOP with no order in flight passes STOPPING, and its two events of ENGINE leave the cause INSERVICE alone. -/
theorem test_stop_engine_notice :
    (match exec .stop { State.reset with
        wp := { State.reset.wp with engine := .running, startAt := none }
        nu := { State.reset.nu with causes := State.reset.nu.causes.setIfInBounds 12 ⟨true, 1, false, false⟩ } } with
      | .next t => t.cause 12
      | _ => Cause.reset) = ⟨true, 1, false, true⟩ := by decide +kernel

/-- R167, R179: two READ_SLOT orders that one NUDGE takes and completes leave a LANE_DONE of threshold 1 INSERVICE and PENDING:
each take is a step of its own, and the second event finds the cause INSERVICE. -/
theorem test_takes_are_steps :
    (match exec (.nudge 1) { State.reset with
        wp := { State.reset.wp with
          engine := .running, startAt := none
          cells := (State.reset.wp.cells.set 0 { OrderCell.free with state := 1, kind := 3 }).set 1
            { OrderCell.free with state := 1, kind := 3 } }
        od := { State.reset.od with plan := some ⟨#v[⟨true, 0, 4, 2, 5, 1, 20⟩, ⟨false, 0, 0, 0, 0, 0, 0⟩,
          ⟨false, 0, 0, 0, 0, 0, 0⟩, ⟨false, 0, 0, 0, 0, 0, 0⟩], 2, none, 80, 10, 20, .lock, 50, .lock⟩ }
        nu := { State.reset.nu with causes := State.reset.nu.causes.set 0 ⟨true, 0, false, false⟩ } } with
      | .next t => ((t.lane 0).done, t.cause 0)
      | _ => (0, Cause.reset)) = (2, ⟨true, 0, true, true⟩) := by decide +kernel

/-- R105, R124: the look at the whole array reports a corrected unit that stands past an unreadable one. -/
theorem test_look_reports_corrected :
    (State.chooseBank { State.reset with
      ju := { State.reset.ju with unitsB := [(0, .unreadable), (7, .corrected 0)] } }).nu.fault =
      some ⟨.nvCorrected, 0, 1, 7⟩ := by decide +kernel

/-! ## States for the witnesses -/

def lane0 : PlanLane := ⟨true, 0, 4, 2, 5, 3, 20⟩
def laneOff : PlanLane := ⟨false, 0, 0, 0, 0, 0, 0⟩
def plan0 : Plan := ⟨#v[lane0, laneOff, laneOff, laneOff], 2, some 1, 80, 10, 20, .lockAndErase, 50, .lock⟩

/-- Engine RUNNING, with lane 0 enabled, nothing posted and nothing in flight. -/
def base : State :=
  { State.reset with
    wp := { Wp.reset with engine := .running, startAt := none, ended := true, summaryOn := true, provisioning := true }
    od := { Od.reset with plan := some plan0, scanTimer := some 0 }
    tu := { Tu.reset with now := 1000, kept := true }
    ju := { Ju.reset with stateA := .active, current := some .a, epoch := 1, used := 3, next := 4 }
    tm := { Tm.reset with restored := true } }

def gen1 : Gen :=
  ⟨1, 7, 500, 0, policy.renewAt 500, policy.expiresAt 500, 0, false, Counters.initial (some .frame) 1000000⟩

/-- A TRANSPORT anchor and a FRAME child of slot 1, each with a CURRENT generation 1. -/
def anchorRec : SlotRec := SlotRec.installed 0xA1 .transport policy 7 500
def frameRec : SlotRec :=
  { SlotRec.empty with
    label := 0xC0FE12, cls := some .frame, parent := some 1, policy := policy, last := 1, current := some gen1 }
def stagedRec : SlotRec := { frameRec with last := 2, staged := some { gen1 with number := 2 } }

/-- Slot 1 is the anchor, slot 2 the frame slot. -/
def keyed : State := (base.setSlot 1 anchorRec).setSlot 2 frameRec

/-- An order of slot 2 with a 16-byte input, a 48-byte output and no associated data. -/
def fields : OrderFields :=
  { OrderFields.zero with slot := 2, cls := 2, gen := 1, counter := 5, input := ⟨0, 16⟩, output := ⟨16, 48⟩ }

def ctx0 : Ctx where
  lane := 0
  cell := 0
  kind := 0
  order := fields
  takeTime := 0
  budget := 50
  budgetApplies := true
  late := false
  held := none
  parentCopy := none
  poolClaim := false
  wait := .cipherQueue
  output := []
  preds := []
  endAborted := false
  change := none
  genNo := 1
  value := 5
  taken := false
  clearKey := 0
  newKey := 0
  wrapKey := 7
  blobHead := 0
  blobKey := 0
  blobSum := 0
  token := 0
  challenge := 0
  erasePending := false

theorem getD_replicate {α : Type} (n i : Nat) (a : α) : (Vector.replicate n a).getD i a = a := by
  by_cases h : i < n
  · simp [Vector.getD, h]
  · simp [Vector.getD, h]

theorem ctxNone {s : State} (h : s.od.ctxs = Od.reset.ctxs) (c : Nat) : s.ctx c = none := by
  unfold State.ctx; rw [h]; exact getD_replicate 4 c none

theorem laneIdle {s : State} (h : s.od.lanes = Od.reset.lanes) (n : Nat) : s.lane n = LaneState.reset := by
  unfold State.lane; rw [h]; exact getD_replicate 4 n _

theorem cellFree {s : State} (h : s.wp.cells = Wp.reset.cells) (n : Nat) : s.cell n = OrderCell.free := by
  unfold State.cell; rw [h]; exact getD_replicate 128 n _

theorem quiet {s : State} (h : s.od = base.od) (hc : s.wp.cells = Wp.reset.cells) (hr : s.wp.engine = .running)
    (h1 : s.wp.inReset = none) (h2 : s.wp.startAt = none) : s.Quiet 0 lane0 where
  after := ⟨h1, h2⟩
  running := hr
  plan := by unfold State.planLane; rw [h]; rfl
  small := by decide
  weight := by decide
  count := by decide
  bound := by decide
  low := by rw [laneIdle (by rw [h]; rfl)]; decide
  high := by rw [laneIdle (by rw [h]; rfl)]; decide
  free := by rw [cellFree hc]; rfl
  next := by rw [cellFree hc]; decide
  others := fun n _ => by rw [laneIdle (by rw [h]; rfl)]; rfl
  ctxs := ctxNone (by rw [h]; rfl)

/-- `base` with an order in context 0. -/
def flying (s : State) (x : Ctx) : State := s.setCtx 0 (some x)

theorem flying_ctx (s : State) (x : Ctx) : (flying s x).ctx 0 = some x := by
  unfold flying; rw [State.ctx_setCtx]; simp

theorem flying_others {s : State} (h : s.od.ctxs = Od.reset.ctxs) (x : Ctx) {c : Nat} (hc : c ≠ 0) : (flying s x).ctx c = none := by
  unfold flying; rw [State.ctx_setCtx, if_neg (fun k => hc k.1.symm), ctxNone h]

theorem follower {s : State} (h : s.od = base.od) (he : s.wp.engine ≠ .stopping) (x : Ctx) (hw : x.wait ≠ .predecessors) :
    (flying s x).NoFollower where
  lanes n := by rw [laneIdle (by show s.od.lanes = _; rw [h]; rfl)]; rfl
  syncs c := by
    unfold State.isSync
    by_cases hc : c = 0
    · subst hc; rw [flying_ctx]; simpa using hw
    · rw [flying_others (by rw [h]; rfl) x hc]; rfl
  engine := he

theorem settled {s : State} (h : s.od = base.od) (h1 : s.wp.inReset = none) (h2 : s.wp.startAt = none) (h3 : s.wp.engine = .running) :
    s.Settled where
  after := ⟨h1, h2⟩
  follower := ⟨fun n => by rw [laneIdle (by rw [h]; rfl)]; rfl,
    fun c => by unfold State.isSync; rw [ctxNone (by rw [h]; rfl)]; rfl, by rw [h3]; decide⟩
  supply := by rw [h3]; decide

theorem settledFlying (s : State) (h : s.od = base.od) (h1 : s.wp.inReset = none) (h2 : s.wp.startAt = none)
    (h3 : s.wp.engine = .running) (x : Ctx) (hw : x.wait ≠ .predecessors) : (flying s x).Settled where
  after := ⟨h1, h2⟩
  follower := follower h (by rw [h3]; decide) x hw
  supply := by show s.wp.engine ≠ _; rw [h3]; decide

/-- `base` with a request of the order in context 0 in service. -/
def service (op : CipherOp) : Service := ⟨0, op, [], [], 0, 0⟩
def serving (s : State) (x : Ctx) (op : CipherOp) : State := { flying s x with xu := { Xu.reset with service := some (service op) } }

theorem serves (s : State) (h : s.od = base.od) (h3 : s.wp.engine = .running) (x : Ctx) (op : CipherOp) (h1 : x.lane < 4)
    (h2 : x.cell < 128) (h4 : x.erasePending = false) (h5 : ∀ n, x.held = some n → (s.slot n).deferred = Deferred.none)
    (h6 : x.late = false) (h7 : x.wait ≠ .predecessors) : (serving s x op).Serving 0 x (service op) op where
  plain := ⟨flying_ctx s x, by decide, h1, h2, h4, h5⟩
  follower := ⟨(follower h (by rw [h3]; decide) x h7).lanes, (follower h (by rw [h3]; decide) x h7).syncs,
    by show s.wp.engine ≠ _; rw [h3]; decide⟩
  running := h3
  service := rfl
  queue := rfl
  ctx := rfl
  op := rfl
  late := h6

/-! ## Witnesses: orders as they are taken -/

theorem quietKeyed : keyed.Quiet 0 lane0 := quiet rfl rfl rfl rfl rfl

theorem witness_DefineSlotHandsItsRecordOver :
    let o := { fields with slot := 3 }
    keyed.Quiet 0 lane0 ∧ keyed.PassesCommon .defineSlot o ∧ keyed.onBoth (fun t => vacant t o.slot.toNat) = true ∧
    classOf o.cls = some .frame ∧ o.parentSlot = some 1 ∧ 1 ≠ o.slot.toNat ∧ keyed.onBoth (fun t => isTransport t 1) = true ∧
    keyed.onBoth (fun t => decide (depth t 1 ≤ 3)) = true :=
  ⟨quietKeyed, ⟨fun _ => by decide, by decide, fun _ => rfl⟩, by decide +kernel, by decide, by decide, by decide, by decide +kernel,
    by decide +kernel⟩

theorem witness_InstallAnchorTakesTheKeyAndWraps :
    let o := { fields with slot := 3 }
    keyed.Quiet 0 lane0 ∧ keyed.PassesCommon .installAnchor o ∧ keyed.cipherIdle ∧ keyed.wp.provisioning = true ∧
    keyed.onBoth (fun t => vacant t o.slot.toNat) = true ∧ classOf o.cls = some .frame ∧ o.input.len.toNat = 16 :=
  ⟨quietKeyed, ⟨fun _ => by decide, by decide, fun _ => rfl⟩, ⟨rfl, rfl⟩, rfl, by decide +kernel, by decide, by decide⟩

theorem witness_ReadSlotWritesThePublicRecord : keyed.Quiet 0 lane0 ∧
    (keyed.slot 2).deferred = Deferred.none ∧
    (keyed.PassesCommon .readSlot { fields with output := ⟨16, 159⟩ } ∧ (159 : Half).toNat < 160) ∧
    keyed.PassesCommon .readSlot { fields with output := ⟨16, 160⟩ } ∧ 160 ≤ (160 : Half).toNat :=
  ⟨quietKeyed, rfl, ⟨⟨fun _ => by decide, by decide, fun _ => rfl⟩, by decide⟩, ⟨fun _ => by decide, by decide, fun _ => rfl⟩, by decide⟩

theorem witness_SetPolicyAndRetireHandTheirRecordsOver : keyed.Quiet 0 lane0 ∧ (keyed.slot 2).cls = some .frame ∧
    keyed.PassesCommon .setPolicy fields ∧ keyed.PassesCommon .retireSlot fields :=
  ⟨quietKeyed, rfl, ⟨fun _ => by decide, by decide, fun _ => rfl⟩, ⟨fun _ => by decide, by decide, fun _ => rfl⟩⟩

theorem witness_AdoptHandsItsRecordOver : keyed.Quiet 0 lane0 ∧ keyed.PassesCommon .adopt fields ∧
    keyed.onBoth (fun t => (t 2).cls.isSome) = true ∧ fields.parentSlot = some 1 ∧
    keyed.onBoth (fun t => isTransport t 1) = true ∧
    keyed.onBoth (fun t => decide (1 ≠ 2) && !descends t 1 2) = true ∧
    keyed.onBoth (fun t => decide (depth t 1 + 1 + height t 2 ≤ 4)) = true :=
  ⟨quietKeyed, ⟨fun _ => by decide, by decide, fun _ => rfl⟩, by decide +kernel, by decide, by decide +kernel, by decide +kernel,
    by decide +kernel⟩

/-- Slot 1 is an anchor, and renews under itself; slot 2 renews under slot 1. -/
theorem witness_RenewLocalClaimsAndGenerates : keyed.Quiet 0 lane0 ∧ keyed.cipherIdle ∧ 0 < keyed.poolFree ∧
    40 ≤ fields.output.len.toNat ∧
    (keyed.PassesCommon .renewLocal { fields with slot := 1 } ∧ keyed.slot 1 = anchorRec ∧ anchorRec.cls ≠ none ∧
      anchorRec.staged = none ∧ anchorRec.orphaned = false ∧ anchorRec.parent = none ∧ ∃ k, anchorRec.current = some k) ∧
    (keyed.PassesCommon .renewLocal fields ∧ keyed.slot 2 = frameRec ∧ frameRec.cls ≠ none ∧ frameRec.staged = none ∧
      frameRec.orphaned = false ∧ frameRec.parent = some 1 ∧ (keyed.slot 1).cls ≠ none ∧
      ∃ k, (keyed.slot 1).current = some k ∧ k.expired = false) :=
  ⟨quietKeyed, ⟨rfl, rfl⟩, by decide +kernel, by decide,
    ⟨⟨fun _ => by decide, by decide, fun _ => rfl⟩, rfl, nofun, rfl, rfl, rfl, _, rfl⟩,
    ⟨fun _ => by decide, by decide, fun _ => rfl⟩, rfl, nofun, rfl, rfl, rfl, nofun, _, rfl, rfl⟩

/-- A blob of a label and generation 2 under a wrapping generation, with its 40 bytes at the start of the data area. -/
def blobbed (s : State) (label : Word) (wrapping : Half) (cls : SlotClass) : State :=
  let blob := blobBytes (blobHeader label 2 wrapping (some cls)) 0x1234 0x5678
  { s with wp := { s.wp with ram := Ram.writeBytes [] 0x2400 blob } }

/-- The hypotheses of the statement on RENEW_REMOTE but that the lane is quiet and the Cipher Unit idle. -/
def meetsRenewRemote (s : State) (o : OrderFields) (r src : SlotRec) (k0 k : Gen) : Prop :=
  let b := ofBytes (s.readExtent o.input)
  s.PassesCommon .renewRemote o ∧ s.slot o.slot.toNat = r ∧ r.cls ≠ none ∧ r.staged = none ∧ r.orphaned = false ∧
  (r.parent = none → src = r) ∧
  (∀ q, r.parent = some q → src = s.slot q ∧ src.cls ≠ none ∧ k0.expired = false ∧ k.expired = false) ∧
  src.current = some k0 ∧ (k = k0 ∨ (src.outgoing = some k ∧ k0.number ≠ k.number)) ∧ 0 < s.poolFree ∧
  o.input.len.toNat = 40 ∧ BitVec.ofNat 32 (fieldAt b 0 4) = r.label ∧ classOf (BitVec.ofNat 8 (fieldAt b 8 1)) = r.cls ∧
  BitVec.ofNat 16 (fieldAt b 4 2) = r.nextNumber ∧ BitVec.ofNat 16 (fieldAt b 6 2) = k.number ∧ fieldAt b 9 7 = 0

def anchorGen (n : Half) : Gen := { gen1 with number := n, ctr := Counters.initial (some .transport) 1000000 }

/-- The anchor with generation 2 CURRENT and generation 1 OUTGOING. -/
def anchorRec2 : SlotRec := { anchorRec with last := 2, current := some (anchorGen 2), outgoing := some (anchorGen 1) }

/-- A blob for slot 2 that names the CURRENT generation of its parent or its OUTGOING one, and one for the anchor that
names its own CURRENT generation. -/
theorem witness_RenewRemoteClaimsAndUnwraps :
    let o := { fields with input := ⟨0, 40⟩ }
    let s := blobbed keyed 0xC0FE12 1 .frame
    let u := blobbed (keyed.setSlot 1 anchorRec2) 0xC0FE12 1 .frame
    let v := blobbed keyed 0xA1 1 .transport
    (s.Quiet 0 lane0 ∧ s.cipherIdle ∧ ∃ k, meetsRenewRemote s o frameRec anchorRec k k) ∧
    (u.Quiet 0 lane0 ∧ u.cipherIdle ∧ meetsRenewRemote u o frameRec anchorRec2 (anchorGen 2) (anchorGen 1)) ∧
    (v.Quiet 0 lane0 ∧ v.cipherIdle ∧ ∃ k, meetsRenewRemote v { o with slot := 1 } anchorRec anchorRec k k) := by
  refine ⟨⟨quiet rfl rfl rfl rfl rfl, ⟨rfl, rfl⟩, _, ⟨fun _ => by decide, by decide, fun _ => rfl⟩, rfl, nofun, rfl, rfl, nofun,
      ?_, rfl, Or.inl rfl, by decide +kernel, by decide, by decide +kernel, by decide +kernel, by decide +kernel, by decide +kernel, by decide +kernel⟩,
    ⟨quiet rfl rfl rfl rfl rfl, ⟨rfl, rfl⟩, ⟨fun _ => by decide, by decide, fun _ => rfl⟩, rfl, nofun, rfl, rfl, nofun,
      ?_, rfl, Or.inr ⟨rfl, by decide⟩, by decide +kernel, by decide, by decide +kernel, by decide +kernel, by decide +kernel, by decide +kernel, by decide +kernel⟩,
    ⟨quiet rfl rfl rfl rfl rfl, ⟨rfl, rfl⟩, _, ⟨fun _ => by decide, by decide, fun _ => rfl⟩, rfl, nofun, rfl, rfl, fun _ => rfl,
      nofun, rfl, Or.inl rfl, by decide +kernel, by decide, by decide +kernel, by decide +kernel, by decide +kernel, by decide +kernel, by decide +kernel⟩⟩
  · intro q hq; cases hq; exact ⟨rfl, nofun, rfl, rfl⟩
  · intro q hq; cases hq; exact ⟨rfl, nofun, rfl, rfl⟩

def staged : State := keyed.setSlot 2 stagedRec

theorem witness_ConfirmAndCancelHandTheirRecordsOver :
    let o := { fields with gen := 2 }
    staged.Quiet 0 lane0 ∧ (staged.slot o.slot.toNat).cls ≠ none ∧
    (∃ g, (staged.slot o.slot.toNat).staged = some g ∧ g.number = o.gen) ∧ staged.PassesCommon .renewConfirm o ∧
    staged.PassesCommon .renewCancel o :=
  ⟨quiet rfl rfl rfl rfl rfl, nofun, ⟨_, rfl, rfl⟩, ⟨fun _ => by decide, by decide, fun _ => rfl⟩,
    ⟨fun _ => by decide, by decide, fun _ => rfl⟩⟩

/-- A frame slot whose CURRENT generation is about to hand out a value. -/
def counting (next d c : Nat) : SlotRec :=
  { frameRec with current := some { gen1 with ctr := { gen1.ctr with next := next, ceil := c, durCeil := d } } }

/-- The value 3,073 is the first at which a reservation is requested, and 898,438 the first at the soft limit (3.8). -/
theorem witness_ProtectFrameTakesTheNextValue : ∀ r ∈ [frameRec, counting 3073 4097 4097, counting 898438 899073 899073],
    (keyed.setSlot 2 r).Quiet 0 lane0 ∧ (keyed.setSlot 2 r).PassesCommon .protectFrame fields ∧
    (keyed.setSlot 2 r).cipherIdle ∧ (keyed.setSlot 2 r).slot 2 = r ∧ r.cls = some .frame ∧
    ∃ g, r.current = some g ∧ g.expired = false ∧ fields.input.len.toNat + 8 ≤ fields.output.len.toNat ∧
      g.ctr.next ≤ r.policy.hard ∧ g.ctr.next < g.ctr.durCeil := by
  intro r hr
  refine ⟨quiet rfl rfl rfl rfl rfl, ⟨fun _ => by decide, by decide, fun _ => rfl⟩, ⟨rfl, rfl⟩,
    by rw [State.slot_setSlot, if_pos ⟨rfl, by decide⟩], ?_⟩
  have h3 : r = frameRec ∨ r = counting 3073 4097 4097 ∨ r = counting 898438 899073 899073 := by simpa using hr
  rcases h3 with rfl | rfl | rfl <;>
    exact ⟨rfl, _, rfl, rfl, by decide, by decide, by decide⟩

theorem witness_ProtectFrame_boundaries :
    (4097 - 3073 ≤ 1024 ∧ ¬(policy.soft ≤ 3073)) ∧ policy.soft ≤ 898438 ∧ ¬(899073 - 898438 > 1024) := by decide +kernel

/-- The window of slot 2 stands at T = 1,000 with flags 0, 2 and 10 set (3.8). -/
def windowed : State := keyed.setSlot 2 { frameRec with current := some { gen1 with ctr := window0 } }

theorem witness_AdmitFrameAsksTheWindow : windowed.Quiet 0 lane0 ∧ windowed.cipherIdle ∧ ∃ r g, windowed.slot 2 = r ∧
    r.deferred = Deferred.none ∧ r.cls = some .frame ∧ r.find 1 = some g ∧ g.expired = false ∧
    8 ≤ fields.input.len.toNat ∧ fields.input.len.toNat ≤ fields.output.len.toNat + 8 ∧
    (∀ n : Word, windowed.PassesCommon .admitFrame { fields with counter := n }) ∧
    g.ctr.check 999 = none ∧ g.ctr.check 937 = none ∧ g.ctr.check 936 = some .stale ∧ g.ctr.check 998 = some .replayed :=
  ⟨quiet rfl rfl rfl rfl rfl, ⟨rfl, rfl⟩, _, _, rfl, rfl, rfl, rfl, rfl, by decide, by decide,
    fun _ => ⟨fun _ => (by decide : (2 : Byte).toNat < 64), (by decide : extentsGood .admitFrame fields = true), fun _ => rfl⟩,
    by decide +kernel, by decide +kernel, by decide +kernel, by decide +kernel⟩

/-- A new time of 99 is clamped at a meter time of 1,000, and one of 100 is not. -/
theorem witness_SetTimeMovesTheClock : ∀ t : Word, t = 99 ∨ t = 100 ∨ t = 2000 →
    let o := { fields with args := BitVec.ofNat 176 t.toNat }
    base.Quiet 0 lane0 ∧ base.PassesCommon .setTime o ∧ base.noneDue o.newTime ∧ o.newTime = t.toNat := by
  intro t ht
  refine ⟨quiet rfl rfl rfl rfl rfl, ⟨nofun, ?_, nofun⟩, nofun, ?_⟩
  · rcases ht with rfl | rfl | rfl <;> decide
  · rcases ht with rfl | rfl | rfl <;> decide

theorem witness_SyncCompletesWithNothingAhead : base.Quiet 0 lane0 := quiet rfl rfl rfl rfl rfl

/-- Slot 1 is the unlock authority of the plan. -/
theorem witness_UnlockChecksTheToken : ∀ b : Bool,
    let s := { keyed with tm := { keyed.tm with lockdown := b } }
    s.Quiet 0 lane0 ∧ s.PassesCommon .unlock fields ∧ s.cipherIdle ∧ fields.input.len.toNat = 16 ∧ s.od.plan = some plan0 ∧
    plan0.authority = some 1 ∧ (s.slot 1).cls = some .transport ∧
    (∃ g, (s.slot 1).current = some g ∧ g.expired = false) ∧ s.tm.lockdown = b :=
  fun _ => ⟨quiet rfl rfl rfl rfl rfl, ⟨nofun, by decide, nofun⟩, ⟨rfl, rfl⟩, by decide, rfl, rfl, rfl, ⟨_, rfl, rfl⟩, rfl⟩

def locked : State := { keyed with tm := { keyed.tm with lockdown := true } }

/-- In FAILED entered from RUNNING the lane is quiet too. -/
def failedState : State := { keyed with wp := { keyed.wp with engine := .failed, served := true } }

theorem quietFailed : failedState.QuietLane 0 lane0 :=
  { quietKeyed.toQuietLane with
    after := ⟨rfl, rfl⟩, plan := rfl, low := by rw [laneIdle rfl]; decide, high := by rw [laneIdle rfl]; decide
    free := by rw [cellFree rfl]; rfl, next := by rw [cellFree rfl]; decide
    others := fun n _ => by rw [laneIdle rfl]; rfl, ctxs := ctxNone rfl }

/-- Slot 64 is no slot; an extent of 16 bytes at unit 1,471 lies in the data area, and one of 17 does not; 0 and 16 are the
kind codes next to those of the orders. -/
theorem witness_CommonChecksRefuseInOrder :
    (keyed.Quiet 0 lane0 ∧ Kind.namesSlot .protectFrame = true ∧ 64 ≤ (64 : Byte).toNat) ∧
    (extentsGood .protectFrame { fields with input := ⟨1471, 17⟩ } = false ∧
      extentsGood .protectFrame { fields with input := ⟨1471, 16⟩ } = true) ∧
    (locked.Quiet 0 lane0 ∧ extentsGood .protectFrame fields = true ∧ Kind.refusedLocked .protectFrame = true ∧
      fields.slot.toNat < 64 ∧ locked.tm.lockdown = true ∧ (locked.slot 2).deferred = Deferred.none) ∧
    (keyed.slot 64).deferred = Deferred.none ∧ 16 ≤ (16 : Byte).toNat ∧
    failedState.QuietLane 0 lane0 ∧ failedState.wp.engine = .failed ∧ failedState.wp.served = true ∧
    Kind.takenInFailed .protectFrame = false ∧ (failedState.slot 2).deferred = Deferred.none :=
  ⟨⟨quietKeyed, rfl, by decide⟩, by decide, ⟨quiet rfl rfl rfl rfl rfl, by decide, rfl, by decide, rfl, rfl⟩, rfl, by decide,
    quietFailed, rfl, rfl, rfl, rfl⟩

theorem witness_TableOrdersRefuseInOrder : keyed.Quiet 0 lane0 ∧ (keyed.slot 2).deferred = Deferred.none ∧
    (keyed.slot 3).deferred = Deferred.none ∧ keyed.PassesCommon .defineSlot fields ∧ keyed.PassesCommon .installAnchor fields ∧
    keyed.PassesCommon .adopt { fields with gen := 2 } ∧
    keyed.onBoth (fun t => vacant t 2) = false ∧ keyed.wp.provisioning = true ∧
    keyed.onBoth (fun t => (t 2).cls.isSome) = true ∧ keyed.onBoth (fun t => isTransport t 2) = false ∧
    keyed.PassesCommon .setPolicy { fields with slot := 3 } ∧ keyed.PassesCommon .retireSlot { fields with slot := 3 } ∧
    (keyed.slot 3).cls = none :=
  ⟨quietKeyed, rfl, rfl, ⟨fun _ => by decide, by decide, fun _ => rfl⟩, ⟨fun _ => by decide, by decide, fun _ => rfl⟩,
    ⟨fun _ => by decide, by decide, fun _ => rfl⟩, by decide +kernel, rfl, by decide +kernel, by decide +kernel,
    ⟨fun _ => by decide, by decide, fun _ => rfl⟩, ⟨fun _ => by decide, by decide, fun _ => rfl⟩, rfl⟩

/-- Slot 2 has no STAGED generation in `keyed` and one in `staged`; extents of 39 bytes are one short. -/
theorem witness_RenewalOrdersRefuseInOrder : keyed.Quiet 0 lane0 ∧ staged.Quiet 0 lane0 ∧
    keyed.slot 2 = frameRec ∧ frameRec.deferred = Deferred.none ∧ frameRec.parent = some 1 ∧ keyed.slot 1 = anchorRec ∧
    frameRec.staged = none ∧ 0 < keyed.poolFree ∧
    (keyed.PassesCommon .renewLocal { fields with output := ⟨0, 39⟩ } ∧ (39 : Half).toNat < 40) ∧
    (keyed.PassesCommon .renewRemote { fields with input := ⟨0, 39⟩ } ∧ (39 : Half).toNat ≠ 40) ∧
    keyed.PassesCommon .renewConfirm fields ∧ keyed.PassesCommon .renewCancel fields ∧
    staged.PassesCommon .renewLocal fields ∧ staged.slot 2 = stagedRec ∧ stagedRec.deferred = Deferred.none ∧
    stagedRec.staged.isNone = false ∧ (stagedRec.staged.any fun g => g.number = fields.gen) = false :=
  ⟨quietKeyed, quiet rfl rfl rfl rfl rfl, rfl, rfl, rfl, rfl, rfl, by decide +kernel,
    ⟨⟨fun _ => by decide, by decide, fun _ => rfl⟩, by decide⟩, ⟨⟨fun _ => by decide, by decide, fun _ => rfl⟩, by decide⟩,
    ⟨fun _ => by decide, by decide, fun _ => rfl⟩, ⟨fun _ => by decide, by decide, fun _ => rfl⟩,
    ⟨fun _ => by decide, by decide, fun _ => rfl⟩, rfl, rfl, rfl, by decide⟩

/-- An output extent one byte short; a CURRENT generation whose next value is H + 1, and one that has handed out all its
durable values; an input extent of 7 bytes; and an UNLOCK under lockdown with 15 bytes. -/
theorem witness_FrameAndUnlockOrdersRefuseInOrder :
    (keyed.Quiet 0 lane0 ∧ keyed.slot 2 = frameRec ∧ keyed.PassesCommon .protectFrame { fields with output := ⟨16, 23⟩ } ∧
      (decide (fields.input.len.toNat + 8 ≤ (23 : Half).toNat)) = false) ∧
    (let r := counting 1000001 1000001 1000001
     (keyed.setSlot 2 r).Quiet 0 lane0 ∧ (keyed.setSlot 2 r).slot 2 = r ∧ (keyed.setSlot 2 r).PassesCommon .protectFrame fields ∧
      (!r.current.any fun g => decide (r.policy.hard < g.ctr.next)) = false) ∧
    (let r := counting 4097 4097 4097
     (keyed.setSlot 2 r).Quiet 0 lane0 ∧ (keyed.setSlot 2 r).slot 2 = r ∧ (keyed.setSlot 2 r).PassesCommon .protectFrame fields ∧
      r.cls = some .frame ∧ ∃ g, r.current = some g ∧ g.expired = false ∧
        fields.input.len.toNat + 8 ≤ fields.output.len.toNat ∧ g.ctr.next ≤ r.policy.hard ∧ g.ctr.durCeil ≤ g.ctr.next ∧
        g.ctr.reserving = false) ∧
    (keyed.PassesCommon .admitFrame { fields with input := ⟨0, 7⟩ } ∧ frameRec.deferred = Deferred.none ∧
      (frameRec.find fields.gen).isSome = true ∧ decide (8 ≤ (7 : Half).toNat) = false) ∧
    locked.Quiet 0 lane0 ∧ locked.PassesCommon .unlock { fields with input := ⟨0, 15⟩ } ∧ locked.tm.lockdown = true ∧
    decide ((15 : Half).toNat = 16) = false :=
  ⟨⟨quietKeyed, rfl, ⟨fun _ => by decide, by decide, fun _ => rfl⟩, by decide⟩,
    ⟨quiet rfl rfl rfl rfl rfl, by rw [State.slot_setSlot, if_pos ⟨rfl, by decide⟩],
      ⟨fun _ => by decide, by decide, fun _ => rfl⟩, by decide⟩,
    ⟨quiet rfl rfl rfl rfl rfl, by rw [State.slot_setSlot, if_pos ⟨rfl, by decide⟩],
      ⟨fun _ => by decide, by decide, fun _ => rfl⟩, rfl, _, rfl, rfl, by decide, by decide, by decide, by decide⟩,
    ⟨⟨fun _ => by decide, by decide, fun _ => rfl⟩, rfl, rfl, by decide⟩, quiet rfl rfl rfl rfl rfl, ⟨nofun, by decide, nofun⟩, rfl,
    by decide⟩

/-! ## Witnesses: the ends of cipher requests -/

theorem ofBytes_bytesOf (n x : Nat) : ofBytes (bytesOf x n) = x % 256 ^ n := by
  induction n generalizing x with
  | zero => simp [bytesOf, ofBytes, Nat.mod_one]
  | succ n ih =>
    have : bytesOf x (n + 1) = BitVec.ofNat 8 x :: bytesOf (x >>> 8) n := by
      unfold bytesOf
      rw [List.range_succ_eq_map, List.map_cons, List.map_map]
      simp only [Nat.mul_zero, Nat.shiftRight_zero, List.cons.injEq, true_and]
      refine List.map_congr_left fun i _ => ?_
      simp only [Function.comp, ← Nat.shiftRight_add]
      rw [show 8 * (i + 1) = 8 + 8 * i by omega]
    rw [this, ofBytes, ih, Nat.shiftRight_eq_div_pow, BitVec.toNat_ofNat, Nat.pow_succ 256 n, Nat.mul_comm (256 ^ n) 256, Nat.mod_mul]

theorem witness_WrapEndHandsTheRecordOver :
    (serving keyed { ctx0 with change := some (.install 1 .frame policy false 0) } .wrap).Serving 0
      { ctx0 with change := some (.install 1 .frame policy false 0) } (service .wrap) .wrap ∧
    (serving keyed ctx0 .wrap).Serving 0 ctx0 (service .wrap) .wrap ∧ ctx0.change = none :=
  ⟨serves keyed rfl rfl _ .wrap (by decide : 0 < 4) (by decide : 0 < 128) rfl nofun rfl nofun,
    serves keyed rfl rfl ctx0 .wrap (by decide : 0 < 4) (by decide : 0 < 128) rfl nofun rfl nofun, rfl⟩

/-- The integrity value of the blob of `ctx0`. -/
def sum0 : BitVec 64 :=
  Config.blobIntegrity (Config.unwrapRoot ctx0.wrapKey) (Config.blobDecipher (Config.unwrapRoot ctx0.wrapKey) ctx0.blobKey)
    ctx0.blobHead ctx0.order.slot

/-- Any two values may stand in the blob, so the one that a WRAP makes for the slot or for another, and any other. -/
theorem witness_UnwrapEndChecksTheBlob :
    (∀ q b, (serving keyed { ctx0 with blobKey := q, blobSum := b } .unwrap).Serving 0 { ctx0 with blobKey := q, blobSum := b }
      (service .unwrap) .unwrap) ∧
    (∃ b, sum0 ≠ b) ∧ ∃ n, n ≠ ctx0.order.slot :=
  ⟨fun q b => serves keyed rfl rfl { ctx0 with blobKey := q, blobSum := b } .unwrap (by decide : 0 < 4) (by decide : 0 < 128)
    rfl nofun rfl nofun, ⟨~~~sum0, fun h => by
      have := congrArg (fun v => v.getLsbD 0) h
      simp at this⟩, 9, by decide⟩

theorem witness_ProtectEndWritesTheFrame : ∀ b : Bool,
    let x := { ctx0 with kind := Kind.protectFrame.code, taken := true, held := some 2 }
    let s := serving { keyed with tm := { keyed.tm with lockdown := b } } x .protect
    s.Serving 0 x (service .protect) .protect ∧ x.kind = Kind.protectFrame.code ∧ x.taken = true ∧ s.tm.lockdown = b :=
  fun b => ⟨serves { keyed with tm := { keyed.tm with lockdown := b } } rfl rfl
    { ctx0 with kind := Kind.protectFrame.code, taken := true, held := some 2 } .protect (by decide) (by decide) rfl
    (fun n h => by cases h; rfl) rfl nofun, rfl, rfl, rfl⟩

/-- A request of an empty body with the tag that belongs to it, and one with another. -/
def tag0 : BitVec 64 := frameTag 7 0 [] []
def input0 : List Byte := bytesOf tag0.toNat 8
def verifying (b : Bool) (tag : BitVec 64) : State :=
  { serving { keyed with tm := { keyed.tm with lockdown := b } } { ctx0 with kind := Kind.admitFrame.code, held := some 2 } .verify with
    xu := { Xu.reset with service := some { service .verify with input := bytesOf tag.toNat 8 } } }

theorem witness_VerifyEndAdmitsTheFrame : (∀ b tag,
    let x := { ctx0 with kind := Kind.admitFrame.code, held := some 2 }
    let s := verifying b tag
    s.Serving 0 x { service .verify with input := bytesOf tag.toNat 8 } .verify ∧ x.kind = Kind.admitFrame.code ∧
    x.order.slot.toNat < 64 ∧ s.slot x.order.slot.toNat = frameRec ∧ frameRec.deferred = Deferred.none ∧
    frameRec.find x.genNo = some gen1 ∧ frameRec.policy.autoConfirm = false ∧ x.value ≤ gen1.ctr.durMark ∧
    s.tm.lockdown = b) ∧
    frameTag 7 0 [] (input0.take (input0.length - 8)) = BitVec.ofNat 64 (ofBytes (input0.drop (input0.length - 8))) ∧
    input0.take (input0.length - 8) = encipher 7 0 [] := by
  have hl : (bytesOf tag0.toNat 8).length = 8 := by simp [bytesOf]
  refine ⟨fun b tag => ⟨?_, rfl, by decide, rfl, rfl, rfl, rfl, by decide, rfl⟩, ?_, ?_⟩
  · have h := serves { keyed with tm := { keyed.tm with lockdown := b } } rfl rfl
      { ctx0 with kind := Kind.admitFrame.code, held := some 2 } .verify (by decide) (by decide) rfl (fun n h => by cases h; rfl) rfl nofun
    exact { h with
      plain := ⟨h.plain.ctx, h.plain.small, h.plain.lane, h.plain.cell, h.plain.erase, h.plain.deferred⟩
      follower := ⟨h.follower.lanes, h.follower.syncs, h.follower.engine⟩
      service := rfl, queue := rfl, ctx := rfl, op := rfl }
  · unfold input0
    rw [hl, Nat.sub_self, List.take_zero, List.drop_zero, ofBytes_bytesOf, Nat.mod_eq_of_lt (show tag0.toNat < 256 ^ 8 from tag0.isLt), BitVec.ofNat_toNat,
      BitVec.setWidth_eq]
    rfl
  · unfold input0
    rw [hl, Nat.sub_self, List.take_zero]
    exact (List.length_eq_zero_iff.mp (encipher_length 7 0 [])).symm

theorem witness_GenerateEndTestsTheSource : ∀ (b : Bool) (n : Nat),
    let s := { serving keyed ctx0 .generate with xu := { Xu.reset with service := some (service .generate), disabled := b, failures := n } }
    s.Serving 0 ctx0 (service .generate) .generate ∧ s.xu.disabled = b := by
  intro b n
  have h := serves keyed rfl rfl ctx0 .generate (by decide : 0 < 4) (by decide : 0 < 128) rfl nofun rfl nofun
  exact ⟨{ h with
    plain := ⟨h.plain.ctx, h.plain.small, h.plain.lane, h.plain.cell, h.plain.erase, h.plain.deferred⟩
    follower := ⟨h.follower.lanes, h.follower.syncs, h.follower.engine⟩
    service := rfl, queue := rfl, ctx := rfl, op := rfl }, rfl⟩

/-- The token of challenge 0. -/
def token0 : BitVec 128 := Config.unlockToken (Config.unwrapRoot ctx0.wrapKey) 0

theorem witness_TokenCheckEndComparesTheToken :
    (∀ t, (serving keyed { ctx0 with token := t } .tokenCheck).Serving 0 { ctx0 with token := t } (service .tokenCheck) .tokenCheck) ∧
    (Config.unlockToken (Config.unwrapRoot ctx0.wrapKey) (service .tokenCheck).challenge = token0 ∧ keyed.tm.seq = 0) ∧
    ∃ t, token0 ≠ t :=
  ⟨fun t => serves keyed rfl rfl { ctx0 with token := t } .tokenCheck (by decide : 0 < 4) (by decide : 0 < 128) rfl nofun rfl nofun, ⟨rfl, rfl⟩, ~~~token0, fun h => by
    have := congrArg (fun v => v.getLsbD 0) h
    simp at this⟩

/-! ## Witnesses: the queue, reset, and the port bus -/

theorem witness_StepRunsTheFrontCommand :
    ({ base with pending := [.clearFault, .start] } : State).pending = .clearFault :: [.start] ∧
    (base.pending = [] ∧ base.wp.startAt = none) ∧
    State.reset.pending = [] ∧ ({ State.reset with wp := { Wp.reset with inReset := some .pin } } : State).wp.inReset ≠ none :=
  ⟨rfl, ⟨rfl, rfl⟩, rfl, nofun⟩

/-- The reset state keeps each law, and has a next step. -/
theorem witness_StepKeepsTheRamCanonical : State.reset.ramCanonical ∧ ∃ t, step { State.reset with pending := [.clearFault] } = .next t :=
  ⟨rfl, _, rfl⟩

theorem witness_StepKeepsTheCausesSettled : base.causesSettled ∧ ∃ t, step { base with pending := [.noticeAcknowledge 0] } = .next t :=
  ⟨by unfold State.causesSettled; decide, _, rfl⟩

theorem witness_StepKeepsTheDeadlineList :
    let s := { base with tu := { base.tu with deadlines := [⟨5, 0, .confirm⟩, ⟨5, 0, .grace⟩, ⟨5, 1, .confirm⟩, ⟨6, 2, .confirm⟩] } }
    s.listKept ∧ ∃ t, step { s with pending := [.internalSecond] } = .next t := by
  refine ⟨?_, _, rfl⟩
  unfold State.listKept Deadline.apart
  decide

/-- A slot with an anchor, one with a FRAME generation at its boundary, next = D = C, and the other slots EMPTY. -/
theorem witness_StepKeepsTheCounterLaw :
    let s := keyed.setSlot 2 (counting 4097 4097 4097)
    s.countersLawful ∧ ∃ t, step { s with pending := [.groupCommit] } = .next t := by
  refine ⟨?_, _, rfl⟩
  intro n
  by_cases h2 : n = 2
  · subst h2
    rw [State.slot_setSlot, if_pos ⟨rfl, by decide⟩]
    intro _ g hg
    have : g = { gen1 with ctr := { gen1.ctr with next := 4097, ceil := 4097, durCeil := 4097 } } := List.mem_singleton.mp hg
    rw [this]
    exact ⟨by decide, by decide, by decide, by decide, by decide⟩
  · rw [State.slot_setSlot, if_neg (fun h => h2 h.1.symm)]
    by_cases h1 : n = 1
    · subst h1
      intro h
      cases h
    · have : keyed.slot n = SlotRec.empty := by
        unfold keyed
        rw [State.slot_setSlot, if_neg (fun h => h2 h.1.symm), State.slot_setSlot, if_neg (fun h => h1 h.1.symm)]
        exact getD_replicate 64 n _
      rw [this]
      nofun

def stopped : State := { base with wp := { base.wp with engine := .stopped } }

theorem witness_StartEntersRunning : stopped.afterStartUp ∧ stopped.wp.engine = .stopped ∧ stopped.od.plan = some plan0 ∧
    (∀ c, stopped.ctx c = none) ∧ (∀ n l, stopped.planLane n = some l → (stopped.cell l.first).state ≠ 1) :=
  ⟨⟨rfl, rfl⟩, rfl, rfl, ctxNone rfl, fun _ _ _ => by rw [cellFree rfl]; decide⟩

/-- A plan block of one lane in the RAM, and one with no lane enabled. -/
def planned : State :=
  { stopped with
    od := Od.reset
    wp := { stopped.wp with ram := Ram.writeBytes [] 0 [1, 0, 0, 0, 4, 0, 2, 0, 5, 0, 3, 0, 20, 0] } }

theorem witness_PortCommandsTurnedAwayChangeOnlyTheResult :
    (base.windowClosed = false ∧ base.wp.engine ≠ .stopped) ∧
    (planned.windowClosed = false ∧ planned.wp.engine = .stopped ∧ planned.od.plan = none) ∧
    (∃ e, ({ base with wp := { base.wp with engine := e } } : State).windowClosed = false ∧ e ≠ .stopped ∧ e ≠ .running) ∧
    stopped.windowClosed = false ∧ stopped.wp.engine = .stopped ∧ planFault stopped.wp.ram = some 0 :=
  ⟨⟨rfl, nofun⟩, ⟨rfl, rfl, rfl⟩, ⟨.holdover, rfl, nofun, nofun⟩, rfl, rfl, by decide +kernel⟩

theorem witness_StopEndsTheOrderInFlight :
    (base.afterStartUp ∧ base.wp.engine = .running ∧ (∀ n, (base.lane n).scanWanted = false) ∧ ∀ c, base.ctx c = none) ∧
    let s := flying base ctx0
    s.afterStartUp ∧ s.wp.engine = .running ∧ (∀ n, (s.lane n).scanWanted = false) ∧ s.Plain 0 ctx0 ∧
    (∀ d, d ≠ 0 → s.ctx d = none) ∧ ctx0.wait = .cipherQueue ∧ s.finishing 0 = false ∧
    (base.xu.service = none ∧ (serving base ctx0 .generate).xu.service = some (service .generate) ∧
      (serving base ctx0 .generate).ctx 0 = some ctx0 ∧ (serving base ctx0 .generate).xu.disabled = false) ∧
    (serving base ctx0 .wrap).xu.service = some (service .wrap) ∧ (serving base ctx0 .wrap).ctx 0 = some ctx0 :=
  ⟨⟨⟨rfl, rfl⟩, rfl, fun n => by rw [laneIdle rfl]; rfl, ctxNone rfl⟩, ⟨rfl, rfl⟩, rfl,
    (follower (s := base) rfl (by decide) ctx0 nofun).lanes,
    ⟨flying_ctx base ctx0, by decide, by decide, by decide, rfl, nofun⟩, fun _ h => flying_others rfl ctx0 h, rfl, rfl,
    ⟨rfl, rfl, flying_ctx _ _, rfl⟩, rfl, flying_ctx _ _⟩

theorem witness_ApplyPlanTakesThePlanBlock : planned.afterStartUp ∧ planned.wp.engine = .stopped ∧
    planFault planned.wp.ram = none ∧ planned.tm.cover.timer = none ∧ planned.tm.field.timer = none :=
  ⟨⟨rfl, rfl⟩, rfl, by decide +kernel, rfl, rfl⟩

theorem witness_ClearFaultEmptiesTheRecord : base.windowClosed = false := rfl

/-- Every context busy, lane 0 with a POSTED cell at its cursor. -/
def crowded : State :=
  let s := (((base.setCtx 0 (some ctx0)).setCtx 1 (some ctx0)).setCtx 2 (some ctx0)).setCtx 3 (some ctx0)
  s.setCell 0 { OrderCell.free with state := 1 }

theorem witness_NudgeAndScanPeriodWantTheLanes : crowded.afterStartUp ∧ crowded.wp.engine = .running ∧
    (∀ c, c < 4 → crowded.ctx c ≠ none) ∧ crowded.readySync = none ∧ crowded.od.scanTimer ≠ none ∧
    crowded.planLane 0 ≠ none ∧ (crowded.cell (crowded.lane 0).cursor).state = 1 ∧ crowded.planLane 1 = none ∧
    base.afterStartUp ∧ base.planLane 0 = some lane0 ∧ base.postCell 0 lane0 = some 0 := by
  refine ⟨⟨rfl, rfl⟩, rfl, ?_, by decide +kernel, by decide, by decide, by decide +kernel, by decide, ⟨rfl, rfl⟩, rfl,
    by decide +kernel⟩
  intro c hc
  have : c = 0 ∨ c = 1 ∨ c = 2 ∨ c = 3 := by omega
  rcases this with rfl | rfl | rfl | rfl <;> decide

theorem witness_AcknowledgeReleasesTheGroup : base.wp.inReset = none ∧ (7 : Half).toNat ≤ 7 := ⟨rfl, by decide⟩

theorem witness_BusWritesAreStoredOrDropped : base.ramCanonical ∧ base.windowClosed = false ∧ wordAddr 0x01FE < 0x0200 ∧
    (0x0400 ≤ wordAddr 0x0400 ∧ wordAddr 0x7FFE < 0x8000) ∧ (0x0200 ≤ wordAddr 0x0200 ∧ wordAddr 0x03FE < 0x0400) ∧
    0x8000 ≤ wordAddr 0x8000 ∧ isCommandWrite 0x8000 0 = false ∧ isCommandWrite 0x8004 5 = false :=
  ⟨rfl, rfl, by decide, by decide, by decide, by decide, by decide, by decide⟩

/-! ## Witnesses: the array, time, supply, reset, tamper -/

/-- `base` with a programming step in the array. -/
def writing (w : Work) (units : List UnitWord) : State := { base with ju := { base.ju with step := some ⟨w, .a, 4, units⟩ } }

def group0 (r : Bool) : Group := ⟨[⟨.timeMark 3, .time, true, 3⟩], false, r, 1⟩

theorem witness_UnitThatVerifiesIsFollowedByTheNext :
    let s := writing (.group (group0 false)) [5, 6]
    s.wp.startAt = none ∧ s.ju.step = some ⟨.group (group0 false), .a, 4, 5 :: [6]⟩ ∧ [(6 : UnitWord)] ≠ [] :=
  ⟨rfl, rfl, nofun⟩

theorem witness_UnitThatFailsAbandonsTheBank : ∀ b : Bool,
    let s := writing (.group (group0 b)) [5, 6]
    s.Settled ∧ s.ju.step = some ⟨.group (group0 b), .a, 4, 5 :: [6]⟩ ∧ s.ju.comp = none ∧ NvUnit.unreadable ≠ .good 5 ∧
    s.ju.failed = none ∧ (group0 b).retry = b ∧ ∀ c, s.ctx c = none :=
  fun _ => ⟨settled rfl rfl rfl rfl, rfl, rfl, nofun, rfl, rfl, ctxNone rfl⟩

def waitsForGroup (n : Byte) (ch : Change) : Ctx :=
  { ctx0 with order := { fields with slot := n }, held := some n.toNat, change := some ch, wait := .group }

/-- An order of a slot waits for its group, whose last unit is being programmed: the image of the slot as the change leaves
it, with its counters at the ceiling and the mark that the array then carries. -/
def atGroupEnd (s : State) (n : Byte) (ch : Change) : State :=
  let step : Step := ⟨.group ⟨[⟨.image n.toNat (ch.apply 900 (s.slot n.toNat)), .order 0, true, 900⟩], false, false, 1⟩, .a, 8, [5]⟩
  { s with ju := { s.ju with step := some step } }
def committing (s : State) (n : Byte) (ch : Change) : State := flying (atGroupEnd s n ch) (waitsForGroup n ch)

/-- A STAGED generation whose promotion the plan's policy leaves to an ADMIT_FRAME, under lockdown or not. -/
def promoting (b : Bool) : State :=
  { staged with tm := { staged.tm with lockdown := b } }

/-- No order in flight waits but for its group. -/
theorem onlyGroups {s : State} (h : s.od = base.od) (x : Ctx) (hw : x.wait = .group) (d : Nat) (y : Ctx)
    (hy : (flying s x).ctx d = some y) : y.wait ≠ .reservation ∧ y.wait ≠ .mark := by
  by_cases hd : d = 0
  · subst hd
    rw [flying_ctx] at hy
    cases hy
    rw [hw]
    exact ⟨nofun, nofun⟩
  · rw [flying_others (by rw [h]; rfl) x hd] at hy
    cases hy

/-- The hypotheses of the statement on the commit of an order's image. -/
def meetsGroupCommit (s : State) (n : Byte) (ch : Change) : Prop :=
  let t := committing s n ch
  let x := waitsForGroup n ch
  let r : Rec := ⟨.image n.toNat (ch.apply 900 (s.slot n.toNat)), .order 0, true, 900⟩
  t.Settled ∧ t.wp.engine = .running ∧ t.Plain 0 x ∧ t.ju.step = some ⟨.group ⟨[r], false, false, 1⟩, .a, 8, [5]⟩ ∧
  x.held = some x.order.slot.toNat ∧ x.order.slot.toNat < 64 ∧ x.change = some ch ∧ ch ≠ .unlock ∧ x.wait = .group ∧
  (∀ d y, t.ctx d = some y → y.wait ≠ .reservation ∧ y.wait ≠ .mark) ∧
  ∀ d ∈ listAfter n.toNat (ch.apply 900 ((t.slot n.toNat).madeDurable n.toNat r.body)) ch t.tu.deadlines, t.tu.now < d.due

theorem committing_met (s : State) (n : Byte) (ch : Change) (h : s.od = base.od) (h1 : s.wp.inReset = none)
    (h2 : s.wp.startAt = none) (h3 : s.wp.engine = .running) (hn : n.toNat < 64)
    (hd : (s.slot n.toNat).deferred = Deferred.none) (hc : ch ≠ .unlock)
    (hl : ∀ d ∈ listAfter n.toNat (ch.apply 900
      ((s.slot n.toNat).madeDurable n.toNat (.image n.toNat (ch.apply 900 (s.slot n.toNat))))) ch s.tu.deadlines,
      s.tu.now < d.due) :
    meetsGroupCommit s n ch :=
  ⟨settledFlying (atGroupEnd s n ch) h h1 h2 h3 (waitsForGroup n ch) nofun, h3,
    ⟨flying_ctx _ _, by decide, (by decide : 0 < 4), (by decide : 0 < 128), rfl, fun _ he => by cases he; exact hd⟩,
    rfl, rfl, hn, rfl, hc, rfl, onlyGroups h _ rfl, hl⟩

/-- The anchor in slot 1 and the FRAME slot 2, and the promotion of an ADMIT_FRAME with lockdown in force and clear. -/
theorem witness_GroupCommitAppliesTheChange : ∀ e ∈
    [(keyed, (1 : Byte), Change.retire), (keyed, 1, .setPolicy policy false), (keyed, 1, .stage 2 9), (keyed, 2, .stage 2 9),
      (keyed, 2, .setPolicy { policy with hard := 65536 } false), (promoting false, 2, .promote (some 5000)),
      (promoting true, 2, .promote (some 5000))],
    meetsGroupCommit e.1 e.2.1 e.2.2 := by
  intro e he
  simp only [List.mem_cons, List.not_mem_nil, or_false] at he
  rcases he with rfl | rfl | rfl | rfl | rfl | rfl | rfl <;>
    exact committing_met _ _ _ rfl rfl rfl rfl (by decide) rfl nofun (by decide +kernel)

/-- An UNLOCK of challenge 0 waits for its note; the lockdown sequence is still 0, or 1. -/
def unlocking (q : Word) : State :=
  flying
    { keyed with
      ju := { keyed.ju with
        step := some ⟨.group ⟨[⟨.note none none false 900 0, .unlock 0, true, 900⟩], false, false, 1⟩, .a, 5, [5]⟩ }
      tm := { keyed.tm with lockdown := true, seq := q } }
    { ctx0 with change := some .unlock, wait := .group }

theorem witness_GroupCommitOfUnlockEndsLockdown : ∀ q : Word,
    let s := unlocking q
    let x := { ctx0 with change := some .unlock, wait := .group }
    s.Settled ∧ s.wp.engine = .running ∧ s.Plain 0 x ∧ x.held = none ∧ s.tm.seq = q ∧ x.challenge = 0 ∧
    s.ju.step = some ⟨.group ⟨[⟨.note none none false 900 0, .unlock 0, true, 900⟩], false, false, 1⟩, .a, 5, [5]⟩ ∧
    ∀ d y, s.ctx d = some y → y.wait ≠ .reservation ∧ y.wait ≠ .mark := by
  intro q
  exact ⟨settledFlying { keyed with ju := _, tm := _ } rfl rfl rfl rfl { ctx0 with change := some .unlock, wait := .group } nofun, rfl,
    ⟨flying_ctx _ _, (by decide : 0 < 4), (by decide : 0 < 4), (by decide : 0 < 128), rfl, nofun⟩, rfl, rfl, rfl, rfl,
    onlyGroups rfl _ rfl⟩

/-- A COUNTER_MARK of slot 2 is being programmed, with the ceiling and the mark it carries. -/
def markRec : Rec := ⟨.counterMark 2 1 8193 8192, .counter, true, 900⟩
def marking (s : State) : State :=
  let step : Step := ⟨.group ⟨[markRec], false, false, 1⟩, .a, 4, [5]⟩
  { s with ju := { s.ju with step := some step } }

def waiting (k : Kind) (w : WaitPoint) : Ctx :=
  { ctx0 with kind := k.code, wait := w, value := 8192, held := some 2 }

/-- An order of slot 2 waits for the reservation, at the boundary next = D, or for the mark, at the value that the mark
reaches exactly. -/
def markWaits (b : Bool) (x : Ctx) : State :=
  flying (marking { keyed.setSlot 2 (counting 4097 4097 4097) with tm := { keyed.tm with lockdown := b } }) x

theorem witness_CounterMarkCommitRaisesTheDurableValues :
    (let s := marking keyed
     s.Settled ∧ s.wp.engine = .running ∧ s.ju.step = some ⟨.group ⟨[markRec], false, false, 1⟩, .a, 4, [5]⟩ ∧
     (∀ r ∈ [markRec], ∀ c, r.owner ≠ .order c ∧ r.owner ≠ .unlock c) ∧ ∀ d, s.ctx d = none) ∧
    (∀ b : Bool, ∀ x ∈ [waiting .protectFrame .reservation, waiting .admitFrame .mark],
      let s := markWaits b x
      s.Settled ∧ s.wp.engine = .running ∧ s.ju.step = some ⟨.group ⟨[markRec], false, false, 1⟩, .a, 4, [5]⟩ ∧ s.Plain 0 x ∧
      (x.wait = .reservation ∨ x.wait = .mark) ∧ (∀ d y, d ≠ 0 → s.ctx d = some y → False) ∧ x.late = false ∧ x.genNo = 1 ∧
      s.cipherIdle ∧ s.tm.lockdown = b) ∧
    (let r := (counting 4097 4097 4097).madeDurable 2 markRec.body
     ∃ k, r.current = some k ∧ k.number = 1 ∧ k.ctr.next ≤ r.policy.hard ∧ k.ctr.next < k.ctr.durCeil ∧
       r.find 1 = some k ∧ 8192 ≤ k.ctr.durMark) := by
  refine ⟨⟨settled rfl rfl rfl rfl, rfl, rfl, ?_, ctxNone rfl⟩, fun b x hx => ?_, _, rfl, rfl, by decide +kernel, by decide +kernel,
    rfl, by decide +kernel⟩
  · intro r hr
    cases List.mem_singleton.mp hr
    exact fun _ => ⟨nofun, nofun⟩
  · simp only [List.mem_cons, List.not_mem_nil, or_false] at hx
    rcases hx with rfl | rfl <;>
      exact ⟨settledFlying (marking { keyed.setSlot 2 (counting 4097 4097 4097) with tm := { keyed.tm with lockdown := b } }) rfl rfl
          rfl rfl _ nofun, rfl, rfl,
        ⟨flying_ctx _ _, (by decide : 0 < 4), (by decide : 0 < 4), (by decide : 0 < 128), rfl, fun _ hn => by cases hn; rfl⟩,
        by decide, fun d y hd hy => absurd ((flying_others rfl _ hd).symm.trans hy) nofun, rfl, rfl, ⟨rfl, rfl⟩, rfl⟩

/-- A request is in service as the reservation commits. -/
theorem witness_CounterMarkCommit_busy :
    ({ markWaits false (waiting .protectFrame .reservation) with xu := { Xu.reset with service := some (service .verify) } } : State).xu.service ≠ none :=
  nofun

def comp0 : Compaction := ⟨.b, 2, .groupEnd, 8, [], [⟨.image 1 anchorRec, .counter, true, 900⟩, ⟨.image 2 frameRec, .counter, true, 900⟩]⟩
def compacting : State :=
  { keyed with ju := { keyed.ju with activity := .compacting, comp := some comp0, step := some ⟨.compaction, .b, 7, [5]⟩ } }

theorem witness_BaseCommitMakesTheTargetCurrent : compacting.Settled ∧
    compacting.ju.step = some ⟨.compaction, comp0.target, 7, [5]⟩ ∧ compacting.ju.comp = some comp0 ∧
    comp0.step = .groupEnd ∧ compacting.ju.current = some .a ∧
    (∀ d y, compacting.ctx d = some y → y.wait ≠ .reservation ∧ y.wait ≠ .mark) ∧
    ∀ r ∈ comp0.images, ∀ c, r.owner ≠ .order c ∧ r.owner ≠ .unlock c :=
  ⟨settled rfl rfl rfl rfl, rfl, rfl, rfl, rfl, fun d y hy => absurd ((ctxNone rfl d).symm.trans hy) nofun, fun r hr c => by
    simp only [comp0, List.mem_cons, List.not_mem_nil, or_false] at hr
    rcases hr with rfl | rfl <;> exact ⟨nofun, nofun⟩⟩

theorem witness_EraseEndLeavesTheBankErased :
    let s := { base with ju := { base.ju with stateB := .spent, erasing := some .b } }
    s.Settled ∧ s.ju.erasing = some .b ∧ s.ju.comp = none ∧ ∀ c, s.ctx c = none :=
  ⟨settled rfl rfl rfl rfl, rfl, rfl, ctxNone rfl⟩

/-- The plan's limit is 110.0 °C, with 5.0 °C of hysteresis. -/
theorem witness_TemperatureReadingDecidesTheGate : ∀ b : Bool,
    let s := { base with ju := { base.ju with hot := b } }
    s.Settled ∧ s.ju.hot = b ∧ s.tempLimit = 110000 ∧ s.tempHysteresis = 5000 :=
  fun _ => ⟨settled rfl rfl rfl rfl, rfl, rfl, rfl⟩

/-- The greatest meter time, and the last second before an hour of it begins. -/
theorem witness_SecondsAreCounted : ∀ k f : Bool, ∀ n ∈ [maxWord, 3599],
    let s := { base with tu := { base.tu with now := n, kept := k, fallback := f } }
    s.Settled ∧ s.noneDue (s.tu.now + 2) ∧ s.tu.now ≤ maxWord ∧ s.tu.kept = k ∧ s.tu.fallback = f ∧ s.wp.engine ≠ .failed := by
  intro k f n hn
  have : n ≤ maxWord := by
    simp only [List.mem_cons, List.not_mem_nil, or_false] at hn
    rcases hn with rfl | rfl <;> decide
  exact ⟨settled rfl rfl rfl rfl, nofun, this, rfl, rfl, nofun⟩

theorem witness_SecondsAreCounted_hour : 3599 < 3600 ∧ 3600 ≤ min (3599 + 1) maxWord ∧ 3600 % 3600 = 0 := by decide

/-- An entry of slot 2 due at the next second, with a later one; the slot held by an order, or not. -/
def due (k : DeadlineKind) : State :=
  { staged with
    tu := { staged.tu with fallback := true, deadlines := [⟨1001, 2, k⟩, ⟨1002, 2, k⟩] }
    kt := (staged.setSlot 2 { stagedRec with outgoing := some gen1 }).kt }

theorem witness_DeadlineActsWhenItFallsDue : (∀ k : DeadlineKind,
    let s := due k
    s.Settled ∧ s.wp.engine = .running ∧ s.wp.ended = true ∧ s.tu.kept = true ∧ s.tu.fallback = true ∧ s.tu.now < maxWord ∧
    s.tu.deadlines = ⟨1001, 2, k⟩ :: [⟨1002, 2, k⟩] ∧ 1001 = s.tu.now + 1 ∧ s.holder 2 = none ∧
    (s.slot 2).staged ≠ none ∧ (s.slot 2).outgoing ≠ none ∧ (s.slot 2).renewDue = false ∧
    ∃ g, (s.slot 2).current = some g ∧ g.expired = false) ∧
    (flying (due .renew) { ctx0 with held := some 2 }).Settled ∧
    (flying (due .renew) { ctx0 with held := some 2 }).holder 2 ≠ none :=
  ⟨fun _ => ⟨settled rfl rfl rfl rfl, rfl, rfl, rfl, rfl, (by decide : 1000 < maxWord), rfl, rfl, rfl, nofun, nofun, rfl, _, rfl, rfl⟩,
    settledFlying (due .renew) rfl rfl rfl rfl { ctx0 with held := some 2 } nofun, by decide +kernel⟩

/-- An order that waits in the cipher queue, one in service, and one whose budget no longer applies. -/
theorem witness_BudgetExpiryWithdrawsTheOrder :
    ((flying base ctx0).Settled ∧ (flying base ctx0).wp.engine = .running ∧ (flying base ctx0).Plain 0 ctx0 ∧
      ctx0.budgetApplies = true ∧ ctx0.late = false ∧ ctx0.wait = .cipherQueue ∧ (flying base ctx0).inService 0 = false) ∧
    ((serving base ctx0 .protect).ctx 0 = some ctx0 ∧ (serving base ctx0 .protect).inService 0 = true) ∧
    (flying base { ctx0 with late := true }).ctx 0 = some { ctx0 with late := true } :=
  ⟨⟨settledFlying base rfl rfl rfl rfl ctx0 nofun, rfl, ⟨flying_ctx _ _, by decide, by decide, by decide, rfl, nofun⟩, rfl, rfl,
    rfl, rfl⟩, ⟨flying_ctx _ _, rfl⟩, flying_ctx _ _⟩

theorem witness_CoalescingDelayRaisesLaneDone : ((base.setCoalescing 3 ⟨1, some 0⟩).coalescing 3).timer ≠ none := by decide

theorem witness_SupplyWarnHoldsAndReleases : ∀ (e h : EngineState) (b : Bool),
    let s := { base with wp := { base.wp with engine := e, held := h, supplyWarn := b } }
    s.afterStartUp ∧ (∀ c, s.ctx c = none) ∧ s.wp.engine = e ∧ s.wp.held = h ∧ s.wp.supplyWarn = b :=
  fun _ _ _ => ⟨⟨rfl, rfl⟩, ctxNone rfl, rfl, rfl, rfl⟩

theorem witness_ResetsPutEverythingBack : base.wp.supplyWarn = false ∧ base.wp.inReset = none := ⟨rfl, rfl⟩

theorem witness_BlankArrayStartsAnEmptyBase : base.wp.supplyWarn = false ∧ base.ju.unitsA = [] ∧ base.ju.unitsB = [] ∧
    base.wp.inReset = none := ⟨rfl, rfl, rfl, rfl⟩

/-- The plan locks and erases at COVER, and locks at FIELD; slot 2 is a FRAME slot with a generation. -/
theorem witness_TamperInputIsFilteredAndItsEventActs : ∀ i : TamperInput,
    let s := keyed.setTamper i { level := true, settled := false, timer := some 0, time := 0, count := 65535 }
    s.Settled ∧ s.wp.engine = .running ∧ s.tm.restored = true ∧ s.tu.kept = true ∧ s.cipherIdle ∧ (∀ c, s.ctx c = none) ∧
    (s.tamper i).timer ≠ none ∧ (s.slot 2).erasable = true ∧ (s.tamperAction i).locks = true ∧ s.wp.inReset = none := by
  intro i
  cases i <;> exact ⟨settled rfl rfl rfl rfl, rfl, rfl, rfl, ⟨rfl, rfl⟩, ctxNone rfl, nofun, rfl, rfl, rfl⟩

theorem witness_TamperErases : keyed.tamperAction .cover = .lockAndErase ∧ (keyed.tamperAction .cover).erases = true := ⟨rfl, rfl⟩

/-! ## Witnesses: records, counters and layouts -/

/-- A hard limit of 65,536 under which nothing is handed out above it, and one that the 100,000th value has passed. -/
theorem witness_ChangesLeaveTheRecordsOfTheRules : (∃ g, stagedRec.staged = some g) ∧ anchorRec.cls ≠ some .frame ∧
    (frameRec.cls = some .frame ∧ (65536 : Nat) ≤ 65536 ∧ ∀ g ∈ frameRec.gens, g.ctr.next ≤ 65536 + 1) ∧
    (let r := counting 100001 102401 102401
     r.cls = some .frame ∧ (65536 : Nat) ≤ 100000 ∧ (∀ g ∈ r.gens, g.ctr.next ≤ 100000 + 1) ∧
       ∃ g ∈ r.gens, g.ctr.next = 100000 + 1) :=
  ⟨⟨_, rfl⟩, nofun, ⟨rfl, by decide, fun g hg => by cases List.mem_singleton.mp hg; decide⟩,
    rfl, by decide, fun g hg => by cases List.mem_singleton.mp hg; decide, _, List.mem_singleton.mpr rfl, rfl⟩

/-- The counters of a fresh generation under the least and the greatest hard limit. -/
theorem witness_CounterOperationsKeepTheOrder : (Counters.fresh 65536).Ordered 65536 ∧ (Counters.fresh 4294967294).Ordered 4294967294 ∧
    (Counters.fresh 65536).next < (Counters.fresh 65536).durCeil ∧ (Counters.fresh 65536).next ≤ 0 + 1 :=
  ⟨⟨by decide, by decide, by decide, by decide⟩, ⟨by decide, by decide, by decide, by decide⟩, by decide, by decide⟩

theorem witness_WindowAdmitsNoValueTwice : window0.check 1003 = none ∧ window0.check 937 = none := by decide +kernel

def imageRec : SlotRec :=
  { stagedRec with
    current := some { gen1 with renewAt := policy.renewAt 500, expiresAt := policy.expiresAt 500 }
    staged := some { gen1 with number := 2, issued := 0, opened := 4294967295, renewAt := 0, expiresAt := 0 }
    outgoing := some { gen1 with number := 0, graceDue := 4294967295 } }

theorem witness_SlotImageReadsBackAsTheSlot : imageRec.Imageable where
  defined := nofun
  parent := fun p h => by cases h; decide
  lifetime := by decide
  hard := by decide
  fraction := by decide
  margin := by decide
  window := by decide
  grace := by decide
  current := fun g h => by cases h; exact ⟨by decide, rfl, rfl, rfl, rfl, by decide, by decide⟩
  staged := fun g h => by cases h; exact ⟨rfl, by decide, rfl, rfl, rfl, rfl, rfl, by decide, by decide⟩
  outgoing := fun g h => by cases h; exact ⟨by decide, rfl, by decide, by decide, by decide, by decide, by decide⟩

end Sys2Proof.Tests
end

section
/-! Proofs, the key table, part 1: an order of a kind posted in a quiet lane comes to the checks of its kind; what
follows where those hand a record over, refuse, or place a request. -/

namespace Sys2Proof.Machine

/-! ## From the command to the checks of its kind -/

theorem exec_command (k : Kind) (lane : Nat) (o : OrderFields) (s : State) :
    exec (k.command lane o) s = .next (s.post k lane o) := by cases k <;> rfl

/-- The order of a kind as its take puts it into context 0 of a quiet lane (R166, R168). -/
def State.orderTaken (s : State) (lane : Nat) (p : PlanLane) (k : Kind) (o : OrderFields) : Ctx :=
  freshCtx lane (s.lane lane).cursor k.code o s.clock p.budget (s.copyParent k.code o)

@[simp] theorem State.orderTaken_order (s : State) (lane : Nat) (p : PlanLane) (k : Kind) (o : OrderFields) :
    (s.orderTaken lane p k o).order = o := rfl

@[simp] theorem State.orderTaken_parentCopy (s : State) (lane : Nat) (p : PlanLane) (k : Kind) (o : OrderFields) :
    (s.orderTaken lane p k o).parentCopy = s.copyParent k.code o := rfl

theorem State.orderTaken_copy (s : State) (lane : Nat) (p : PlanLane) (k : Kind) (o : OrderFields) :
    (s.orderTaken lane p k o).Copy s lane p k.code o := freshCtx_copy ..

/-- The marks of the order copy stand where only other parts of the order have changed. -/
theorem Ctx.Copy.congr {x y : Ctx} {s : State} {lane : Nat} {p : PlanLane} {k : Byte} {o : OrderFields}
    (hx : x.Copy s lane p k o) (hl : y.lane = x.lane ∧ y.cell = x.cell ∧ y.kind = x.kind ∧ y.order = x.order)
    (hh : y.held = x.held) (ht : y.takeTime = x.takeTime ∧ y.budget = x.budget ∧ y.late = x.late)
    (hw : y.wait = x.wait) (he : y.erasePending = x.erasePending) : y.Copy s lane p k o where
  copy := by obtain ⟨h1, h2, h3, h4⟩ := hl; rw [h1, h2, h3, h4]; exact hx.copy
  held := hh.trans hx.held
  take := by obtain ⟨h1, h2, h3⟩ := ht; rw [h1, h2, h3]; exact hx.take
  wait := by rw [hw]; exact hx.wait
  erase := he.trans hx.erase

section
variable {s : State} {lane : Nat} {p : PlanLane} {k : Kind} {o : OrderFields}

/-- An order whose checks hand the record of a change over waits for its group (R13); `f` is what the checks note in the
order copy before. -/
theorem State.Quiet.handsOver (h : s.Quiet lane p) (hp : s.PassesCommon k o) (ch : Change) (f : Ctx → Ctx)
    (hf : (f (s.orderTaken lane p k o)).Copy s lane p k.code o)
    (hstart : ∀ T, Taken s T lane p k.code o →
      startKind k 0 (s.orderTaken lane p k o) T = (T.modCtx 0 f).placeRecord 0 ch) :
    ∃ t x, exec (k.command lane o) s = .next t ∧ s.InFlight t lane p k o x ∧ s.HandedOver t x ch ∧
      x.genNo = (f (s.orderTaken lane p k o)).genNo := by
  have tk := State.taken_takenIn h.toQuietLane k.code o
  obtain ⟨x, hfl, hho, hgen⟩ := State.post_handedOver h rfl (tk.onward.mod f) hf ⟨tk.kt, tk.tu, tk.nu⟩ tk.ram tk.xu ch
    ((State.startOrder_taken h tk hp).trans (hstart _ tk))
  exact ⟨_, x, exec_command .., hfl, hho, hgen⟩

/-- An order that its checks refuse completes at once (R13, R170). -/
theorem State.Quiet.refuses (h : s.Quiet lane p) (hp : s.PassesCommon k o) {code : Code} {res : Res}
    (hd : (s.slot o.slot.toNat).deferred = Deferred.none)
    (hstart : ∀ T, Taken s T lane p k.code o → startKind k 0 (s.orderTaken lane p k o) T = T.complete 0 code res) :
    ∃ t, exec (k.command lane o) s = .next t ∧ s.EndsAtOnce t lane p k.code o code res := by
  have tk := State.taken_takenIn h.toQuietLane k.code o
  exact ⟨_, exec_command .., State.post_ends h.toQuietLane h.taking rfl
    ((State.startOrder_taken h tk hp).trans (hstart _ tk)) (heldSlot_deferred hd)⟩

/-- An order whose checks place a request, other than PROTECT or TOKEN_CHECK, in an idle Cipher Unit has it in service
(R80); `x` is the order and `m` the RAM as the checks leave them. -/
theorem State.Quiet.requests (h : s.Quiet lane p) (hp : s.PassesCommon k o) (hi : s.cipherIdle) {op : CipherOp}
    (h1 : op ≠ .protect) (h2 : op ≠ .tokenCheck) {x : Ctx} {m : List Host.Cell} (hx : x.Copy s lane p k.code o)
    (hstart : ∀ T, Taken s T lane p k.code o → ∃ u, startKind k 0 (s.orderTaken lane p k o) T = u.placeRequest 0 op ∧
      Onward T u 0 x ∧ u.xu = s.xu ∧ s.SameTables u ∧ u.wp.ram = m) :
    ∃ t b v, exec (k.command lane o) s = .next t ∧
      s.InFlight t lane p k o { x with wait := .cipherQueue, budgetApplies := b } ∧ s.RequestBegun t op v ∧
      s.SameTables t ∧ t.wp.ram = m := by
  have tk := State.taken_takenIn h.toQuietLane k.code o
  obtain ⟨u, hu, hon, hxu, hsame, hram⟩ := hstart _ tk
  obtain ⟨⟨b, hb⟩, hbegun, htab, hm⟩ := State.post_requested h rfl hon hx hi hxu hsame op h1 h2
    ((State.startOrder_taken h tk hp).trans hu)
  exact ⟨_, b, _, exec_command .., hb, hbegun, htab, hm.trans hram⟩

end

/-! ## The own checks of the table orders -/

/-- A DEFINE_SLOT that passes its checks hands its record over (R14). -/
theorem startDefineSlot_passes {c : Nat} {x : Ctx} {T : State} {cls : SlotClass} {par : Nat}
    (hv : T.onBoth (fun t => vacant t x.order.slot.toNat) = true) (hc : classOf x.order.cls = some cls)
    (hp : x.order.parentSlot = some par) (hn : par ≠ x.order.slot.toNat)
    (ht : T.onBoth (fun t => isTransport t par) = true) (hd : T.onBoth (fun t => decide (depth t par ≤ 3)) = true) :
    startDefineSlot c x T =
      T.placeRecord c (.define x.order.label cls par (x.order.rawPolicy.inRange cls) (x.order.rawPolicy.clamps cls)) := by
  unfold startDefineSlot
  simp only [hv, hc, hp, Option.any_some, Option.isSome_some, ne_eq, hn, not_false_eq_true, decide_true, Bool.true_and, ht,
    hd, firstFailure, if_true]
  rfl

/-- The first check of DEFINE_SLOT that fails gives the code of its refusal (R14). -/
theorem startDefineSlot_refuses {c : Nat} {x : Ctx} {T : State} {code : Code}
    (h : firstFailure
      [(T.onBoth fun t => vacant t x.order.slot.toNat, .wrongSlotState), ((classOf x.order.cls).isSome, .wrongClass),
       (T.onBoth fun t => x.order.parentSlot.any fun q => q ≠ x.order.slot.toNat && isTransport t q, .noParent),
       (T.onBoth fun t => x.order.parentSlot.any fun q => decide (depth t q ≤ 3), .cycle)] = some code) :
    startDefineSlot c x T = T.refuse c code := by
  unfold startDefineSlot
  simp only [h]

/-- What INSTALL_ANCHOR notes in its order copy: the key bytes taken and the change that it is to make (R16). -/
def Ctx.noteKey (key : Key) (ch : Change) (x : Ctx) : Ctx := { x with clearKey := key, change := some ch }

theorem Ctx.Copy.noteKey {x : Ctx} {s : State} {lane : Nat} {p : PlanLane} {k : Byte} {o : OrderFields}
    (h : x.Copy s lane p k o) (key : Key) (ch : Change) : (x.noteKey key ch).Copy s lane p k o :=
  h.congr ⟨rfl, rfl, rfl, rfl⟩ rfl ⟨rfl, rfl, rfl⟩ rfl rfl

/-- The RAM with the input of an INSTALL_ANCHOR zeroed (R16). -/
def State.zeroed (s : State) (e : Extent) : State :=
  { s with wp := { s.wp with ram := Ram.writeBytes s.wp.ram e.addr (List.replicate 16 0) } }

theorem State.zeroed_ram (s : State) (e : Extent) :
    (s.zeroed e).wp.ram = Ram.writeBytes s.wp.ram e.addr (List.replicate 16 0) := rfl

theorem Onward.zeroed {T u : State} {c : Nat} {x : Ctx} (h : Onward T u c x) (e : Extent) : Onward T (u.zeroed e) c x :=
  h.ram _

theorem State.zeroed_xu (s : State) (e : Extent) : (s.zeroed e).xu = s.xu := by simp only [State.zeroed]

theorem State.SameTables.zeroed {s u : State} (h : s.SameTables u) (e : Extent) : s.SameTables (u.zeroed e) where
  slots := by simp only [State.zeroed, h.slots]
  time := by simp only [State.zeroed, h.time]
  notices := by simp only [State.zeroed, h.notices]

theorem State.SameTables.modCtx {s u : State} (h : s.SameTables u) (c : Nat) (f : Ctx → Ctx) :
    s.SameTables (u.modCtx c f) where
  slots := by rw [State.modCtx_kt, h.slots]
  time := by rw [State.modCtx_tu, h.time]
  notices := by rw [State.modCtx_nu, h.notices]

/-- An INSTALL_ANCHOR that passes its checks takes its key bytes, zeroes them and asks for its WRAP (R16). -/
theorem startInstallAnchor_passes {c : Nat} {x : Ctx} {T : State} {cls : SlotClass} (hp : T.wp.provisioning = true)
    (hv : T.onBoth (fun t => vacant t x.order.slot.toNat) = true) (hc : classOf x.order.cls = some cls)
    (hl : x.order.input.len.toNat = 16) :
    startInstallAnchor c x T = ((T.zeroed x.order.input).modCtx c
      (Ctx.noteKey (BitVec.ofNat 128 (ofBytes (T.readExtent x.order.input)))
        (.install x.order.label cls (x.order.rawPolicy.inRange cls) (x.order.rawPolicy.clamps cls) 0))).placeRequest
      c .wrap := by
  have hf : firstFailure
      [(T.wp.provisioning, .notProvisioning), (T.onBoth fun t => vacant t x.order.slot.toNat, .wrongSlotState),
       ((classOf x.order.cls).isSome, .wrongClass), (decide (x.order.input.len.toNat = 16), .badExtent)] = none := by
    simp only [hp, hv, hc, hl, Option.isSome_some, decide_true, firstFailure, if_true]
  unfold startInstallAnchor
  dsimp only
  rw [hf, hc]
  rfl

/-- The first check of INSTALL_ANCHOR that fails gives the code of its refusal (R16). -/
theorem startInstallAnchor_refuses {c : Nat} {x : Ctx} {T : State} {code : Code}
    (h : firstFailure
      [(T.wp.provisioning, .notProvisioning), (T.onBoth fun t => vacant t x.order.slot.toNat, .wrongSlotState),
       ((classOf x.order.cls).isSome, .wrongClass), (decide (x.order.input.len.toNat = 16), .badExtent)] = some code) :
    startInstallAnchor c x T = T.refuse c code := by
  unfold startInstallAnchor
  simp only [h]

/-- An ADOPT that passes its checks hands its record over (R20). -/
theorem startAdopt_passes {c : Nat} {x : Ctx} {T : State} {par : Nat}
    (hs : T.onBoth (fun t => (t x.order.slot.toNat).cls.isSome) = true) (hp : x.order.parentSlot = some par)
    (ht : T.onBoth (fun t => isTransport t par) = true)
    (hc : T.onBoth (fun t => decide (par ≠ x.order.slot.toNat) && !descends t par x.order.slot.toNat) = true)
    (hd : T.onBoth (fun t => decide (depth t par + 1 + height t x.order.slot.toNat ≤ 4)) = true) :
    startAdopt c x T = T.placeRecord c (.adopt par) := by
  unfold startAdopt
  simp only [hs, hp, Option.any_some, ht, hc, hd, firstFailure, if_true]

/-- The first check of ADOPT that fails gives the code of its refusal (R20). -/
theorem startAdopt_refuses {c : Nat} {x : Ctx} {T : State} {code : Code}
    (h : firstFailure
      [(T.onBoth fun t => (t x.order.slot.toNat).cls.isSome, .wrongSlotState),
       (T.onBoth fun t => x.order.parentSlot.any fun q => isTransport t q, .noParent),
       (T.onBoth fun t => x.order.parentSlot.any fun q => q ≠ x.order.slot.toNat && !descends t q x.order.slot.toNat, .cycle),
       (T.onBoth fun t => x.order.parentSlot.any fun q =>
          decide (depth t q + 1 + height t x.order.slot.toNat ≤ 4), .cycle)] = some code) :
    startAdopt c x T = T.refuse c code := by
  unfold startAdopt
  simp only [h]

/-- SET_POLICY of a slot that is not EMPTY hands its record over, and else is refused (R18). -/
theorem startSetPolicy_eq (c : Nat) (x : Ctx) (T : State) :
    startSetPolicy c x T = match (T.slot x.order.slot.toNat).cls with
      | none => T.refuse c .wrongSlotState
      | some cls => T.placeRecord c (.setPolicy (x.order.rawPolicy.inRange cls) (x.order.rawPolicy.clamps cls)) := rfl

/-- RETIRE_SLOT of a slot that is not EMPTY hands its record over, and else is refused (R21). -/
theorem startRetireSlot_eq (c : Nat) (x : Ctx) (T : State) :
    startRetireSlot c x T = if (T.slot x.order.slot.toNat).cls.isNone then T.refuse c .wrongSlotState
      else T.placeRecord c .retire := rfl

/-! ## The table orders as they are taken -/

/-- A table order hands its record over without a note in its copy. -/
theorem State.Quiet.handsOver_plain {s : State} {lane : Nat} {p : PlanLane} {k : Kind} {o : OrderFields}
    (h : s.Quiet lane p) (hp : s.PassesCommon k o) (ch : Change)
    (hstart : ∀ T, Taken s T lane p k.code o → startKind k 0 (s.orderTaken lane p k o) T = T.placeRecord 0 ch) :
    ∃ t x, exec (k.command lane o) s = .next t ∧ s.InFlight t lane p k o x ∧ s.HandedOver t x ch := by
  obtain ⟨t, x, ht, hfl, hho, -⟩ := h.handsOver hp ch id (State.orderTaken_copy ..)
    fun T tk => (hstart T tk).trans (by rw [modCtx_id])
  exact ⟨t, x, ht, hfl, hho⟩

/-- Settles O1. -/
theorem defineSlotHandsItsRecordOver : Obligations.DefineSlotHandsItsRecordOver := by
  unfold Obligations.DefineSlotHandsItsRecordOver
  intro s lane p o cls par h hp hv hc hpar hn ht hd
  refine h.handsOver_plain (k := .defineSlot) hp _ fun T tk => ?_
  have hb := tk.onBoth h.toQuietLane
  exact startDefineSlot_passes ((hb _).trans hv) hc hpar hn ((hb _).trans ht) ((hb _).trans hd)

/-- Settles O2. -/
theorem installAnchorTakesTheKeyAndWraps : Obligations.InstallAnchorTakesTheKeyAndWraps := by
  unfold Obligations.InstallAnchorTakesTheKeyAndWraps
  intro s lane p o cls h hp hi hprov hv hc hl
  have hx := (s.orderTaken_copy lane p .installAnchor o).noteKey (BitVec.ofNat 128 (ofBytes (s.readExtent o.input)))
    (.install o.label cls (o.rawPolicy.inRange cls) (o.rawPolicy.clamps cls) 0)
  obtain ⟨t, b, v, ht, hfl, hbegun, htab, hram⟩ :=
    h.requests (k := .installAnchor) (op := .wrap) (m := (s.zeroed o.input).wp.ram) hp hi (by decide) (by decide) hx
      fun T tk => by
        refine ⟨_, startInstallAnchor_passes (by rw [tk.wp]; exact hprov) ((tk.onBoth h.toQuietLane _).trans hv) hc hl, ?_,
          by rw [State.modCtx_xu, State.zeroed_xu, tk.xu], (tk.same.zeroed _).modCtx _ _, ?_⟩
        · rw [State.orderTaken_order, tk.readExtent]
          exact (tk.onward.zeroed o.input).mod (Ctx.noteKey _ _)
        · rw [State.modCtx_wp, State.zeroed_ram, State.zeroed_ram, tk.ram, State.orderTaken_order]
  exact ⟨t, _, v, ht, hfl, rfl, rfl, rfl, hbegun, htab, hram.trans (State.zeroed_ram ..)⟩

/-- Settles O4. -/
theorem setPolicyAndRetireHandTheirRecordsOver : Obligations.SetPolicyAndRetireHandTheirRecordsOver := by
  unfold Obligations.SetPolicyAndRetireHandTheirRecordsOver
  intro s lane p o cls h hc
  refine ⟨fun hp => h.handsOver_plain (k := .setPolicy) hp _ fun T tk => ?_,
    fun hp => h.handsOver_plain (k := .retireSlot) hp _ fun T tk => ?_⟩
  · refine (startSetPolicy_eq ..).trans ?_
    rw [State.orderTaken_order, State.slot_congr tk.kt, hc]
  · refine (startRetireSlot_eq ..).trans ?_
    rw [State.orderTaken_order, State.slot_congr tk.kt, hc]
    rfl

/-- Settles O5. -/
theorem adoptHandsItsRecordOver : Obligations.AdoptHandsItsRecordOver := by
  unfold Obligations.AdoptHandsItsRecordOver
  intro s lane p o par h hp hs hpar ht hc hd
  refine h.handsOver_plain (k := .adopt) hp _ fun T tk => ?_
  have hb := tk.onBoth h.toQuietLane
  exact startAdopt_passes ((hb _).trans hs) hpar ((hb _).trans ht) ((hb _).trans hc) ((hb _).trans hd)

/-- Settles O15. -/
theorem tableOrdersRefuseInOrder : Obligations.TableOrdersRefuseInOrder := by
  unfold Obligations.TableOrdersRefuseInOrder
  intro s lane p o code h hd slot par
  refine ⟨fun hp hf => h.refuses (k := .defineSlot) hp hd fun T tk => startDefineSlot_refuses ?_,
    fun hp hf => h.refuses (k := .installAnchor) hp hd fun T tk => startInstallAnchor_refuses ?_,
    fun hp hf => h.refuses (k := .adopt) hp hd fun T tk => startAdopt_refuses ?_,
    fun hp hc => h.refuses (k := .setPolicy) hp hd fun T tk => (startSetPolicy_eq ..).trans ?_,
    fun hp hc => h.refuses (k := .retireSlot) hp hd fun T tk => (startRetireSlot_eq ..).trans ?_⟩
  · simp only [State.orderTaken_order, tk.onBoth h.toQuietLane]
    exact hf
  · have hprov : T.wp.provisioning = s.wp.provisioning := by rw [tk.wp]
    simp only [State.orderTaken_order, tk.onBoth h.toQuietLane, hprov]
    exact hf
  · simp only [State.orderTaken_order, tk.onBoth h.toQuietLane]
    exact hf
  · rw [State.orderTaken_order, State.slot_congr tk.kt, hc]
    rfl
  · rw [State.orderTaken_order, State.slot_congr tk.kt, hc]
    rfl

end Sys2Proof.Machine
end

section
/-! Proofs, the key table, part 2: READ_SLOT, the renewal orders and PROTECT_FRAME as they are taken. -/

namespace Sys2Proof.Machine

/-! ## READ_SLOT (R23) -/

theorem Taken.publicRecord {s T : State} {lane : Nat} {p : PlanLane} {k : Byte} {o : OrderFields}
    (tk : Taken s T lane p k o) (n : Nat) : T.publicRecord n = s.publicRecord n := by
  have hslot : T.slot = s.slot := funext (State.slot_congr tk.kt)
  unfold State.publicRecord State.tableNode
  rw [hslot]

/-- What READ_SLOT notes in its order copy: the bytes that its completion writes. -/
def Ctx.noteOutput (bytes : List Byte) (x : Ctx) : Ctx := { x with output := bytes }

theorem Ctx.Copy.noteOutput {x : Ctx} {s : State} {lane : Nat} {p : PlanLane} {k : Byte} {o : OrderFields}
    (h : x.Copy s lane p k o) (bytes : List Byte) : (Ctx.noteOutput bytes x).Copy s lane p k o :=
  h.congr ⟨rfl, rfl, rfl, rfl⟩ rfl ⟨rfl, rfl, rfl⟩ rfl rfl

/-- READ_SLOT writes the public slot record, or is refused NO_ROOM (R23). -/
theorem startReadSlot_eq (c : Nat) (x : Ctx) (T : State) :
    startReadSlot c x T = if x.order.output.len.toNat < 160 then T.complete c .noRoom { Res.zero with outLen := 160 }
      else (T.modCtx c (Ctx.noteOutput (T.publicRecord x.order.slot.toNat))).complete c .ok
        { Res.zero with outLen := 160 } := rfl

/-- Settles O3. -/
theorem readSlotWritesThePublicRecord : Obligations.ReadSlotWritesThePublicRecord := by
  unfold Obligations.ReadSlotWritesThePublicRecord
  intro s lane p o h hp hd
  refine ⟨_, exec_command .readSlot lane o s, fun hroom => ?_, fun hroom => ?_⟩
  · obtain ⟨t, ht, hends⟩ := h.refuses (k := .readSlot) (code := .noRoom) (res := { Res.zero with outLen := 160 }) hp hd
      fun T tk => (startReadSlot_eq ..).trans (if_pos hroom)
    cases (exec_command .readSlot lane o s).symm.trans ht
    exact hends
  · have tk := State.taken_takenIn h.toQuietLane Kind.readSlot.code o
    have hx := (s.orderTaken_copy lane p .readSlot o).noteOutput (s.publicRecord o.slot.toNat)
    have hu := (State.startOrder_taken h tk hp).trans ((startReadSlot_eq ..).trans (if_neg (Nat.not_lt.mpr hroom)))
    rw [tk.publicRecord] at hu
    have l := State.post_landed h rfl hu (tk.onward.mod _) hx
      (fun n hn => by rw [State.slot_modCtx, State.slot_congr tk.kt]; exact heldSlot_deferred hd n hn)
    refine ⟨l.done, l.kt.trans tk.kt, l.tu.trans tk.tu, l.nu.trans ?_, l.xu.trans tk.xu, l.ram.trans ?_⟩
    · exact State.countCompletion_nu (by exact tk.plan) (by exact tk.nu) (by exact tk.clock) lane
    · rw [if_pos rfl, State.modCtx_wp, tk.ram]
      rfl

/-! ## What a renewal wraps or unwraps under (R28, R29) -/

/-- The wrapping source of a slot: the slot itself for an anchor, and its parent else (R29). -/
def State.wrapsUnder (s : State) (r : SlotRec) : SlotRec :=
  match r.parent with
  | none => r
  | some q => s.slot q

/-- A renewal order of a slot that is not orphaned has copied its wrapping source (R28). -/
theorem State.wrappingSource_taken {s : State} {k : Kind} (hk : k = .renewLocal ∨ k = .renewRemote) (lane : Nat)
    (p : PlanLane) {o : OrderFields} (hs : o.slot.toNat < 64) (ho : (s.slot o.slot.toNat).orphaned = false) :
    wrappingSource (s.orderTaken lane p k o) (s.slot o.slot.toNat) =
      (s.wrapsUnder (s.slot o.slot.toNat)).parentCopy := by
  have hheld : heldSlot k.code o = some o.slot.toNat := by
    unfold heldSlot
    rcases hk with rfl | rfl <;> simp [Kind.ofCode_code, Kind.namesSlot, hs]
  have hcopy : s.copyParent k.code o = (s.slot o.slot.toNat).parent.map fun q => (s.slot q).parentCopy := by
    unfold State.copyParent
    rcases hk with rfl | rfl <;> rw [Kind.ofCode_code, hheld] <;> dsimp only <;>
      cases (s.slot o.slot.toNat).parent <;> simp [ho]
  unfold wrappingSource State.wrapsUnder
  rw [State.orderTaken_parentCopy, hcopy]
  cases (s.slot o.slot.toNat).parent <;> rfl

/-- A renewal passes the items that RENEW_LOCAL and RENEW_REMOTE share (R30, R34). -/
theorem renewalChecks_pass {x : Ctx} {r src : SlotRec} {k : Gen} {free : Nat} (hc : r.cls ≠ none)
    (hst : r.staged = none) (ho : r.orphaned = false) (hsrc : wrappingSource x r = src.parentCopy)
    (hp : r.parent = none ∨ (src.cls ≠ none ∧ k.expired = false)) (hk : src.current = some k) (hf : 0 < free) :
    firstFailure (renewalChecks x r free) = none := by
  have hempty : (r.parent.isSome && src.parentCopy.empty) = false := by
    rcases hp with h | ⟨h, -⟩
    · simp [h]
    · simp [SlotRec.parentCopy, Option.ne_none_iff_isSome.mp h]
  have hexp : (src.parentCopy.current.any fun k => r.parent.isNone || !k.expired) = true := by
    simp only [SlotRec.parentCopy, hk, Option.map_some, Option.any_some]
    rcases hp with h | ⟨-, h⟩ <;> simp [h]
  unfold renewalChecks
  simp only [hsrc, Option.ne_none_iff_isSome.mp hc, hst, ho, hempty, hexp, hf, firstFailure, Option.isNone_none,
    Bool.not_false, Bool.and_true, decide_true, if_true]

/-! ## RENEW_LOCAL and RENEW_REMOTE (R30, R31, R33 to R35) -/

/-- The claim of a place of the staging pool, as the order copy notes it (R26). -/
def Ctx.noteClaim (x : Ctx) : Ctx := { x with poolClaim := true }

/-- What RENEW_LOCAL notes in its order copy: the new number, the wrapping key and the header of its blob (R31). -/
def Ctx.noteRenewal (number : Half) (key : Key) (head : BitVec 128) (x : Ctx) : Ctx :=
  { x with genNo := number, wrapKey := key, blobHead := head }

/-- What RENEW_REMOTE notes in its order copy: the new number, the wrapping key and the parts of its blob (R35). -/
def Ctx.noteBlob (blob : Nat) (key : Key) (x : Ctx) : Ctx :=
  { x with
    genNo := BitVec.ofNat 16 (fieldAt blob 4 2)
    wrapKey := key
    blobHead := BitVec.ofNat 128 (fieldAt blob 0 16)
    blobKey := BitVec.ofNat 128 (fieldAt blob 0x10 16)
    blobSum := BitVec.ofNat 64 (fieldAt blob 0x20 8) }

section
variable {x : Ctx} {s : State} {lane : Nat} {p : PlanLane} {k : Byte} {o : OrderFields}

theorem Ctx.Copy.noteClaim (h : x.Copy s lane p k o) : x.noteClaim.Copy s lane p k o :=
  h.congr ⟨rfl, rfl, rfl, rfl⟩ rfl ⟨rfl, rfl, rfl⟩ rfl rfl

theorem Ctx.Copy.noteRenewal (h : x.Copy s lane p k o) (number : Half) (key : Key) (head : BitVec 128) :
    (Ctx.noteRenewal number key head x).Copy s lane p k o :=
  h.congr ⟨rfl, rfl, rfl, rfl⟩ rfl ⟨rfl, rfl, rfl⟩ rfl rfl

theorem Ctx.Copy.noteBlob (h : x.Copy s lane p k o) (blob : Nat) (key : Key) :
    (Ctx.noteBlob blob key x).Copy s lane p k o :=
  h.congr ⟨rfl, rfl, rfl, rfl⟩ rfl ⟨rfl, rfl, rfl⟩ rfl rfl

end

/-- A RENEW_LOCAL that passes its checks and has room claims its place and asks for its GENERATE (R30, R31). -/
theorem startRenewLocal_passes {c : Nat} {x : Ctx} {T : State} {r src : SlotRec} {k : Gen}
    (hr : T.slot x.order.slot.toNat = r) (hf : firstFailure (renewalChecks x r T.poolFree) = none)
    (hsrc : wrappingSource x r = src.parentCopy) (hk : src.current = some k) (hroom : 40 ≤ x.order.output.len.toNat) :
    startRenewLocal c x T = ((T.modCtx c Ctx.noteClaim).modCtx c
      (Ctx.noteRenewal r.nextNumber k.key (blobHeader r.label r.nextNumber k.number r.cls))).placeRequest c .generate := by
  have hcur : (wrappingSource x r).current = some ⟨k.number, k.expired, k.key⟩ := by
    rw [hsrc, SlotRec.parentCopy, hk]
    rfl
  unfold startRenewLocal
  dsimp only
  rw [hr, hf, hcur]
  exact if_neg (Nat.not_lt.mpr hroom)

/-- A RENEW_REMOTE that passes the shared checks and whose blob passes its own, which names the generation `k` of the
wrapping source, claims its place and asks for its UNWRAP (R34, R35). -/
theorem startRenewRemote_passes {c : Nat} {x : Ctx} {T : State} {r : SlotRec} {k : KeyRef} {blob : Nat}
    (hr : T.slot x.order.slot.toNat = r) (hf : firstFailure (renewalChecks x r T.poolFree) = none)
    (hlen : x.order.input.len.toNat = 40) (hblob : blob = ofBytes (T.readExtent x.order.input))
    (hlabel : BitVec.ofNat 32 (fieldAt blob 0 4) = r.label)
    (hcls : classOf (BitVec.ofNat 8 (fieldAt blob 8 1)) = r.cls)
    (htarget : BitVec.ofNat 16 (fieldAt blob 4 2) = r.nextNumber)
    (hnamed : ((wrappingSource x r).current.toList ++ (wrappingSource x r).outgoing.toList).find?
      (fun k => k.number = BitVec.ofNat 16 (fieldAt blob 6 2)) = some k)
    (hk : r.parent = none ∨ k.expired = false) (hzero : fieldAt blob 9 7 = 0) :
    startRenewRemote c x T =
      ((T.modCtx c Ctx.noteClaim).modCtx c (Ctx.noteBlob blob k.key)).placeRequest c .unwrap := by
  have hexp : (r.parent.isNone || !k.expired) = true := by rcases hk with h | h <;> simp [h]
  unfold startRenewRemote
  dsimp only
  rw [hr, hf]
  dsimp only
  rw [if_neg (not_not.mpr hlen)]
  have hread : (T.modCtx c fun x => { x with poolClaim := true }).readExtent x.order.input =
      T.readExtent x.order.input := rfl
  rw [hread, ← hblob, hnamed]
  simp only [hlabel, hcls, htarget, hzero, Option.isSome_some, Option.any_some, hexp, beq_self_eq_true, decide_true,
    firstFailure, if_true]
  rw [← htarget]
  rfl

/-- The generation that a blob names, CURRENT or OUTGOING, is found in the wrapping source (R34). -/
theorem named_find {src : SlotRec} {k0 k : Gen} (h0 : src.current = some k0)
    (hk : k = k0 ∨ (src.outgoing = some k ∧ k0.number ≠ k.number)) :
    (src.parentCopy.current.toList ++ src.parentCopy.outgoing.toList).find? (fun q => q.number = k.number) =
      some ⟨k.number, k.expired, k.key⟩ := by
  rcases hk with rfl | ⟨ho, hne⟩
  · simp [SlotRec.parentCopy, h0]
  · simp [SlotRec.parentCopy, h0, ho, hne]

/-- Settles O6. -/
theorem renewLocalClaimsAndGenerates : Obligations.RenewLocalClaimsAndGenerates := by
  unfold Obligations.RenewLocalClaimsAndGenerates
  intro s lane p o r k h hp hi hr hc hst ho hanchor hchild hfree hroom
  have hsrc := State.wrappingSource_taken (s := s) (Or.inl rfl) lane p (hp.slot rfl) (by rw [hr]; exact ho)
  rw [hr] at hsrc
  have hcur : (s.wrapsUnder r).current = some k ∧
      (r.parent = none ∨ ((s.wrapsUnder r).cls ≠ none ∧ k.expired = false)) := by
    unfold State.wrapsUnder
    cases hq : r.parent with
    | none => exact ⟨hanchor hq, Or.inl rfl⟩
    | some q => exact ⟨(hchild q hq).2.1, Or.inr ⟨(hchild q hq).1, (hchild q hq).2.2⟩⟩
  obtain ⟨hk, hpar⟩ := hcur
  have hx := ((s.orderTaken_copy lane p .renewLocal o).noteClaim).noteRenewal r.nextNumber k.key
    (blobHeader r.label r.nextNumber k.number r.cls)
  obtain ⟨t, b, v, ht, hfl, hbegun, htab, hram⟩ :=
    h.requests (k := .renewLocal) (op := .generate) (m := s.wp.ram) hp hi (by decide) (by decide) hx fun T tk =>
      ⟨_, startRenewLocal_passes ((State.slot_congr tk.kt _).trans hr)
        (renewalChecks_pass hc hst ho hsrc hpar hk (by rw [tk.poolFree h.toQuietLane]; exact hfree)) hsrc hk hroom,
        (tk.onward.mod _).mod _, tk.xu, (tk.same.modCtx _ _).modCtx _ _, tk.ram⟩
  exact ⟨t, _, v, ht, hfl, rfl, rfl, rfl, rfl, rfl, hbegun, htab, hram⟩

/-- Settles O7. -/
theorem renewRemoteClaimsAndUnwraps : Obligations.RenewRemoteClaimsAndUnwraps := by
  unfold Obligations.RenewRemoteClaimsAndUnwraps
  intro s lane p o r src k0 k blob h hp hi hr hc hst ho hanchor hchild hk0 hk hfree hlen hblob hlabel hcls htarget hnum
    hzero
  have hsrc := State.wrappingSource_taken (s := s) (Or.inr rfl) lane p (hp.slot rfl) (by rw [hr]; exact ho)
  rw [hr] at hsrc
  have hunder : s.wrapsUnder r = src := by
    unfold State.wrapsUnder
    cases hq : r.parent with
    | none => exact (hanchor hq).symm
    | some q => exact (hchild q hq).1.symm
  rw [hunder] at hsrc
  have hpar : r.parent = none ∨ (src.cls ≠ none ∧ k0.expired = false ∧ k.expired = false) := by
    cases hq : r.parent with
    | none => exact Or.inl rfl
    | some q => exact Or.inr (hchild q hq).2
  have hx := ((s.orderTaken_copy lane p .renewRemote o).noteClaim).noteBlob blob k.key
  obtain ⟨t, b, v, ht, hfl, hbegun, htab, hram⟩ :=
    h.requests (k := .renewRemote) (op := .unwrap) (m := s.wp.ram) hp hi (by decide) (by decide) hx fun T tk =>
      ⟨_, startRenewRemote_passes (k := ⟨k.number, k.expired, k.key⟩) ((State.slot_congr tk.kt _).trans hr)
        (renewalChecks_pass hc hst ho hsrc (hpar.imp_right fun h => ⟨h.1, h.2.1⟩) hk0
          (by rw [tk.poolFree h.toQuietLane]; exact hfree))
        hlen (hblob.trans (by rw [← tk.readExtent]; rfl)) hlabel hcls htarget
        (by rw [hsrc, hnum]; exact named_find hk0 hk) (hpar.imp_right fun h => h.2.2) hzero,
        (tk.onward.mod _).mod _, tk.xu, (tk.same.modCtx _ _).modCtx _ _, tk.ram⟩
  exact ⟨t, _, v, ht, hfl, rfl, rfl, htarget, rfl, rfl, rfl, rfl, hbegun, htab, hram⟩

/-! ## RENEW_CONFIRM and RENEW_CANCEL (R39, R44) -/

/-- The number of the generation that RENEW_CONFIRM and RENEW_CANCEL name, as their order copies note it. -/
def Ctx.noteGen (x : Ctx) : Ctx := { x with genNo := x.order.gen }

theorem Ctx.Copy.noteGen {x : Ctx} {s : State} {lane : Nat} {p : PlanLane} {k : Byte} {o : OrderFields}
    (h : x.Copy s lane p k o) : x.noteGen.Copy s lane p k o :=
  h.congr ⟨rfl, rfl, rfl, rfl⟩ rfl ⟨rfl, rfl, rfl⟩ rfl rfl

/-- An order that names the STAGED generation of its slot passes the checks of R39. -/
theorem stagedChecks_pass {x : Ctx} {r : SlotRec} {g : Gen} (hc : r.cls ≠ none) (hs : r.staged = some g)
    (hg : g.number = x.order.gen) : firstFailure (stagedChecks x r) = none := by
  unfold stagedChecks
  simp only [Option.ne_none_iff_isSome.mp hc, hs, hg, Option.isSome_some, Option.any_some, decide_true, firstFailure,
    if_true]

/-- A RENEW_CONFIRM that passes its checks hands its record over (R39). -/
theorem startRenewConfirm_passes {c : Nat} {x : Ctx} {T : State}
    (h : firstFailure (stagedChecks x (T.slot x.order.slot.toNat)) = none) :
    startRenewConfirm c x T = (T.modCtx c Ctx.noteGen).placeRecord c (.promote none) := by
  unfold startRenewConfirm
  rw [h]
  rfl

/-- A RENEW_CANCEL that passes its checks hands its record over (R44). -/
theorem startRenewCancel_passes {c : Nat} {x : Ctx} {T : State}
    (h : firstFailure (stagedChecks x (T.slot x.order.slot.toNat)) = none) :
    startRenewCancel c x T = (T.modCtx c Ctx.noteGen).placeRecord c .cancel := by
  unfold startRenewCancel
  rw [h]
  rfl

/-- Settles O8. -/
theorem confirmAndCancelHandTheirRecordsOver : Obligations.ConfirmAndCancelHandTheirRecordsOver := by
  unfold Obligations.ConfirmAndCancelHandTheirRecordsOver
  intro s lane p o g h hc hst hg
  have checks : ∀ (k : Kind) (T : State), Taken s T lane p k.code o →
      firstFailure (stagedChecks (s.orderTaken lane p k o) (T.slot o.slot.toNat)) = none := fun k T tk => by
    rw [State.slot_congr tk.kt]
    exact stagedChecks_pass hc hst hg
  refine ⟨fun hp => ?_, fun hp => ?_⟩
  · obtain ⟨t, x, ht, hfl, hho, hgen⟩ := h.handsOver (k := .renewConfirm) hp (.promote none) Ctx.noteGen
      (State.orderTaken_copy ..).noteGen fun T tk => startRenewConfirm_passes (checks _ T tk)
    exact ⟨t, x, ht, hfl, hgen, hho⟩
  · obtain ⟨t, x, ht, hfl, hho, hgen⟩ := h.handsOver (k := .renewCancel) hp .cancel Ctx.noteGen
      (State.orderTaken_copy ..).noteGen fun T tk => startRenewCancel_passes (checks _ T tk)
    exact ⟨t, x, ht, hfl, hgen, hho⟩

/-! ## PROTECT_FRAME (R55, R56, R73, R74) -/

/-- What PROTECT_FRAME notes in its order copy: the number and the key of the CURRENT generation (R73). -/
def Ctx.noteCurrent (g : Gen) (x : Ctx) : Ctx := { x with genNo := g.number, wrapKey := g.key }

theorem Ctx.Copy.noteCurrent {x : Ctx} {s : State} {lane : Nat} {p : PlanLane} {k : Byte} {o : OrderFields}
    (h : x.Copy s lane p k o) (g : Gen) : (Ctx.noteCurrent g x).Copy s lane p k o :=
  h.congr ⟨rfl, rfl, rfl, rfl⟩ rfl ⟨rfl, rfl, rfl⟩ rfl rfl

/-- A PROTECT_FRAME that passes its checks comes to the counter step (R73). -/
theorem startProtectFrame_passes {c : Nat} {x : Ctx} {T : State} {r : SlotRec} {g : Gen}
    (hr : T.slot x.order.slot.toNat = r) (hc : r.cls = some .frame) (hg : r.current = some g) (he : g.expired = false)
    (hroom : x.order.input.len.toNat + 8 ≤ x.order.output.len.toNat) :
    startProtectFrame c x T = (T.modCtx c (Ctx.noteCurrent g)).counterStep c := by
  unfold startProtectFrame
  dsimp only
  rw [hr, if_neg (by rw [hc]; decide), if_neg (by rw [hc]; decide), hg]
  dsimp only
  rw [if_neg (by rw [he]; decide), if_neg (Nat.not_lt.mpr hroom)]
  rfl

/-- A counter step that finds a value below H + 1 and below D asks for the PROTECT (R55). -/
theorem counterStep_passes {c : Nat} {x : Ctx} {T : State} {r : SlotRec} {g : Gen} (hx : T.ctx c = some x)
    (hr : T.slot x.order.slot.toNat = r) (hg : r.current = some g) (hh : g.ctr.next ≤ r.policy.hard)
    (hd : g.ctr.next < g.ctr.durCeil) : T.counterStep c = T.placeRequest c .protect := by
  unfold State.counterStep
  rw [hx]
  dsimp only
  rw [hr, hg]
  dsimp only
  rw [if_neg (by omega), if_neg (by omega)]

/-- The state in which the PROTECT request of an order posted in a quiet lane begins service: the order is taken, and has
noted its generation and that it waits. -/
def State.askedProtect (s : State) (lane : Nat) (p : PlanLane) (o : OrderFields) (g : Gen) : State :=
  ((s.takenIn lane p Kind.protectFrame.code o).modCtx 0 (Ctx.noteCurrent g)).modCtx 0
    fun x => { x with wait := .cipherQueue }

/-- The order of that state. -/
def State.protectOrder (s : State) (lane : Nat) (p : PlanLane) (o : OrderFields) (g : Gen) : Ctx :=
  { Ctx.noteCurrent g (s.orderTaken lane p .protectFrame o) with wait := .cipherQueue }

theorem State.protectOrder_copy (s : State) (lane : Nat) (p : PlanLane) (o : OrderFields) (g : Gen) :
    (s.protectOrder lane p o g).Copy s lane p Kind.protectFrame.code o :=
  have hx := (s.orderTaken_copy lane p .protectFrame o).noteCurrent g
  ⟨hx.copy, hx.held, hx.take, fun hc => (nomatch hc), hx.erase⟩

theorem State.raiseIf_nu {s t : State} (h : t.nu = s.nu) (low : Prop) [Decidable low] (bit : Nat) :
    (if low then t.raise bit else t).nu = (if low then s.raise bit else s).nu := by
  split
  · exact State.raise_nu bit h
  · exact h

theorem State.readExtent_congr {s t : State} (h : t.wp.ram = s.wp.ram) (e : Extent) :
    t.readExtent e = s.readExtent e := by
  unfold State.readExtent
  rw [h]

/-- A PROTECT request that begins service reads its extents and forms its nonce (R72, R74). -/
theorem serviceOf_protect (s : State) (c : Nat) (x : Ctx) :
    (serviceOf s c .protect x).assoc = s.readExtent x.order.assoc ∧
    (serviceOf s c .protect x).input = s.readExtent x.order.input ∧
    (serviceOf s c .protect x).nonce = frameNonce Config.serial x.genNo x.value := ⟨rfl, rfl, rfl⟩

/-- A PROTECT_FRAME posted in a quiet lane whose checks pass has its request begin service in an idle Cipher Unit. -/
theorem State.Quiet.startsProtect {s : State} {lane : Nat} {p : PlanLane} {o : OrderFields} {r : SlotRec} {g : Gen}
    (h : s.Quiet lane p) (hp : s.PassesCommon .protectFrame o) (hi : s.cipherIdle) (hr : s.slot o.slot.toNat = r)
    (hc : r.cls = some .frame) (hg : r.current = some g) (he : g.expired = false)
    (hroom : o.input.len.toNat + 8 ≤ o.output.len.toNat) (hhard : g.ctr.next ≤ r.policy.hard)
    (hnext : g.ctr.next < g.ctr.durCeil) :
    (s.takenIn lane p Kind.protectFrame.code o).startOrder 0 = (s.askedProtect lane p o g).beginService ⟨0, .protect⟩ := by
  have tk := State.taken_takenIn h.toQuietLane Kind.protectFrame.code o
  have hTr := (State.slot_congr tk.kt o.slot.toNat).trans hr
  have on := tk.onward.mod (Ctx.noteCurrent g)
  calc (s.takenIn lane p Kind.protectFrame.code o).startOrder 0
      = startProtectFrame 0 (s.orderTaken lane p .protectFrame o) _ := State.startOrder_taken h tk hp
    _ = State.counterStep _ 0 := startProtectFrame_passes hTr hc hg he hroom
    _ = State.placeRequest _ 0 .protect := counterStep_passes on.ctx hTr hg hhard hnext
    _ = _ := placeRequest_idle on.ctx rfl (by rw [State.modCtx_xu, tk.xu]; exact hi) _

/-- Settles O9: the request begins service as soon as the checks have passed, and `takeCounter_onward` says what it takes. -/
theorem protectFrameTakesTheNextValue : Obligations.ProtectFrameTakesTheNextValue := by
  unfold Obligations.ProtectFrameTakesTheNextValue
  intro s lane p o r g h hp hi hr hc hg he hroom hhard hnext
  have tk := State.taken_takenIn h.toQuietLane Kind.protectFrame.code o
  have on : Onward _ (s.askedProtect lane p o g) 0 (s.protectOrder lane p o g) :=
    (tk.onward.mod (Ctx.noteCurrent g)).mod fun x => { x with wait := .cipherQueue }
  have hstart := h.startsProtect hp hi hr hc hg he hroom hhard hnext
  have hkt : (s.askedProtect lane p o g).kt = s.kt := tk.kt
  have htu : (s.askedProtect lane p o g).tu = s.tu := tk.tu
  have hnu : (s.askedProtect lane p o g).nu = s.nu := tk.nu
  have hxu : (s.askedProtect lane p o g).xu = s.xu := tk.xu
  have hram : (s.askedProtect lane p o g).wp.ram = s.wp.ram := tk.ram
  have heng : (s.askedProtect lane p o g).wp.engine ≠ .failed := by rw [on.wp, tk.wp, h.running]; decide
  generalize s.askedProtect lane p o g = u at *
  have hslot := State.slot_congr hkt
  obtain ⟨hon, hs, hothers, ht, hn, hx, hw, hmark⟩ :=
    takeCounter_onward on o.slot.toNat rfl (hp.slot rfl) ((hslot _).trans hr) hg hnext
  rw [beginService_protect rfl hon.ctx] at hstart
  generalize u.takeCounter 0 = w at *
  have f := State.post_onward h rfl hstart (hon.tables rfl rfl (sameArray_ju rfl) rfl rfl rfl)
    ((s.protectOrder_copy lane p o g).congr ⟨rfl, rfl, rfl, rfl⟩ rfl ⟨rfl, rfl, rfl⟩ rfl rfl)
  obtain ⟨b, hfl⟩ := f.flight
  have hread := fun e => (State.readExtent_congr (congrArg Wp.ram hw) e).trans (State.readExtent_congr hram e)
  obtain ⟨hassoc, hinput, hnonce⟩ := serviceOf_protect w 0
    { s.protectOrder lane p o g with value := g.ctr.next, taken := true, genNo := g.number }
  refine ⟨_, _, serviceOf w 0 .protect _, exec_command .protectFrame lane o s, hfl, rfl, rfl, rfl, rfl, rfl,
    ⟨f.xu.trans ?_, rfl, rfl⟩, hassoc.trans (hread _), hinput.trans (hread _), hnonce, ?_,
    f.ram.trans ((congrArg Wp.ram hw).trans hram)⟩
  · dsimp only
    rw [hx, hxu]
  · exact {
      slot := (State.slot_congr f.kt _).trans hs
      others := fun m hm => ((State.slot_congr f.kt m).trans (hothers m hm)).trans (hslot m)
      time := f.tu.trans (ht.trans (by rw [htu]))
      notices := f.nu.trans (hn.trans (State.raiseIf_nu hnu _ _))
      mark := fun hb => f.given _ (State.joins_body _ (by simp)) (hmark hb heng) }

end Sys2Proof.Machine
end

section
/-! Proofs, the key table, part 3: the end of a WRAP (R16, R31, R32, R79). -/

namespace Sys2Proof.Machine

/-- The order of an INSTALL_ANCHOR once its key is under the storage root: the clear key is gone (R16). -/
def Ctx.dropClearKey (x : Ctx) : Ctx := { x with clearKey := 0 }

/-- The order of a RENEW_LOCAL with the blob that its WRAP has made (R31, R79). -/
def Ctx.noteWrapped (blob : Key) (sum : BitVec 64) (x : Ctx) : Ctx :=
  { x with blobKey := blob, blobSum := sum, output := blobBytes x.blobHead blob sum }

/-- The integrity value of the blob that a WRAP makes for an order (R79, assumption 20). -/
def Ctx.wrappedSum (x : Ctx) : BitVec 64 :=
  Config.blobIntegrity (Config.unwrapRoot x.wrapKey) (Config.unwrapRoot x.newKey) x.blobHead x.order.slot

/-- The enciphered key of the blob that a WRAP makes for an order (R79). -/
def Ctx.wrappedKey (x : Ctx) : Key := Config.blobEncipher (Config.unwrapRoot x.wrapKey) (Config.unwrapRoot x.newKey)

/-- The WRAP of an INSTALL_ANCHOR gives its key under the storage root (R16). -/
theorem wrapEnds_install (s : State) (c : Nat) {x : Ctx} (v : Service) {label : Word} {cls : SlotClass} {pol : Policy}
    {cl : Bool} {k : Key} (h : x.change = some (.install label cls pol cl k)) :
    s.wrapEnds c x v = (s.modCtx c Ctx.dropClearKey).placeRecord c
      (.install label cls pol cl (Config.wrapRoot x.clearKey)) := by
  unfold State.wrapEnds
  rw [h]
  rfl

/-- The WRAP of any other order, which has no INSTALL_ANCHOR to make, gives its blob (R31, R32). -/
theorem wrapEnds_blob (s : State) (c : Nat) {x : Ctx} (v : Service)
    (h : ∀ label cls pol cl k, x.change ≠ some (.install label cls pol cl k)) :
    s.wrapEnds c x v = (s.modCtx c (Ctx.noteWrapped x.wrappedKey x.wrappedSum)).placeRecord c
      (.stage x.genNo x.newKey) := by
  unfold State.wrapEnds
  split
  · exact absurd ‹_› (h _ _ _ _ _)
  · rfl

/-- What the end of a WRAP leaves, where its order hands the record of a change over and goes on as `y`. -/
structure State.WrapLeaves (s t : State) (c : Nat) (x y : Ctx) (ch : Change) : Prop where
  unit : t.xu = { s.xu with service := none }
  given : t.holdsRecord (s.recordFor c x.order.slot.toNat ch) = true
  order : s.GoesOn t c { y with wait := .group, change := some ch }

/-- The end of a WRAP whose order notes `f` and hands the record of a change over. -/
theorem State.Serving.wrapLeaves {s : State} {c : Nat} {x : Ctx} {v : Service} (h : s.Serving c x v .wrap)
    (f : Ctx → Ctx) (ch : Change)
    (hf : ∀ y : Ctx, (f y).lane = y.lane ∧ (f y).cell = y.cell ∧ (f y).late = y.late ∧ (f y).order = y.order)
    (hgo : (s.served c).wrapEnds c x v = ((s.served c).modCtx c f).placeRecord c ch) :
    s.WrapLeaves (s.endService .wrap State.wrapEnds) c x (f { x with wait := .none }) ch := by
  obtain ⟨hlane, hcell, hlate, horder⟩ := hf { x with wait := .none }
  obtain ⟨hgiven, hxu, hon⟩ := placeRecord_serving h State.wrapEnds ch hgo (h.begun.mod f) hlane hcell
    (hlate.trans h.late) rfl ⟨rfl, rfl, rfl⟩ rfl
  rw [horder] at hgiven
  exact ⟨hxu, hgiven, hon⟩

/-- Settles O18. -/
theorem wrapEndHandsTheRecordOver : Obligations.WrapEndHandsTheRecordOver := by
  unfold Obligations.WrapEndHandsTheRecordOver
  intro s c x v h
  refine ⟨s.endService .wrap State.wrapEnds, rfl, ?_⟩
  by_cases hin : ∃ label cls pol cl k, x.change = some (.install label cls pol cl k)
  · obtain ⟨label, cls, pol, cl, k, hch⟩ := hin
    have hw := h.wrapLeaves Ctx.dropClearKey _ (fun _ => ⟨rfl, rfl, rfl, rfl⟩) (wrapEnds_install _ c v hch)
    refine ⟨hw.unit, fun label' cls' pol' cl' k' hch' => ?_, fun hnone => ?_⟩
    · cases hch.symm.trans hch'
      exact ⟨hw.given, hw.order⟩
    · cases hch.symm.trans hnone
  · have hnot : ∀ label cls pol cl k, x.change ≠ some (.install label cls pol cl k) :=
      fun label cls pol cl k hch => hin ⟨label, cls, pol, cl, k, hch⟩
    have hw := h.wrapLeaves (Ctx.noteWrapped x.wrappedKey x.wrappedSum) _ (fun _ => ⟨rfl, rfl, rfl, rfl⟩)
      (wrapEnds_blob _ c v hnot)
    exact ⟨hw.unit, fun label cls pol cl k hch => absurd hch (hnot _ _ _ _ _), fun _ => ⟨hw.given, hw.order⟩⟩

end Sys2Proof.Machine
end

section
/-! Proofs, the key table, part 4: the next generation number (R6), and the records that the durable changes leave (R8,
R15, R17 to R21, R32, R40, R43, R44). -/

namespace Sys2Proof.Machine

/-! ## Numbering (R6) -/

/-- A slot holds at most three generations. -/
theorem SlotRec.length_gens_le (r : SlotRec) : r.gens.length ≤ 3 := by
  unfold SlotRec.gens
  rw [List.length_append, List.length_append]
  have hle : ∀ o : Option Gen, o.toList.length ≤ 1 := fun o => by cases o <;> simp
  have h1 := hle r.current
  have h2 := hle r.staged
  have h3 := hle r.outgoing
  omega

/-- The search from a number on stops at the first that no generation holds, or at the last step that it may take. -/
theorem SlotRec.nextFrom_first (r : SlotRec) (steps : Nat) (n : Half) :
    ∃ k, 1 ≤ k ∧ k ≤ steps + 1 ∧ r.nextFrom steps n = n + BitVec.ofNat 16 k ∧
      (k ≤ steps → ∀ g ∈ r.gens, g.number ≠ n + BitVec.ofNat 16 k) ∧
      ∀ j, 1 ≤ j → j < k → ∃ g ∈ r.gens, g.number = n + BitVec.ofNat 16 j := by
  induction steps generalizing n with
  | zero => exact ⟨1, by omega, by omega, rfl, by omega, by omega⟩
  | succ steps ih =>
    have after : ∀ j : Nat, n + 1 + BitVec.ofNat 16 j = n + BitVec.ofNat 16 (j + 1) := fun j => by
      rw [add_assoc, add_comm j 1, BitVec.ofNat_add]
      rfl
    by_cases hn : r.gens.any fun g => g.number = n + 1
    · obtain ⟨k, h1, hk, heq, hfree, hheld⟩ := ih (n + 1)
      refine ⟨k + 1, by omega, by omega, ?_, fun hle => ?_, fun j hj hlt => ?_⟩
      · rw [SlotRec.nextFrom, if_pos hn, heq, after]
      · rw [← after]
        exact hfree (by omega)
      · cases j with
        | zero => omega
        | succ i =>
          by_cases hi : i = 0
          · subst hi
            simpa using hn
          · rw [← after]
            exact hheld i (by omega) (by omega)
    · refine ⟨1, by omega, by omega, by rw [SlotRec.nextFrom, if_neg hn]; rfl, fun _ g hg heq => hn ?_, by omega⟩
      exact List.any_eq_true.mpr ⟨g, hg, by simpa using heq⟩

/-- The four numbers after one differ. -/
theorem nodup_nextFour (n : Half) : ((List.range' 1 4).map fun j => n + BitVec.ofNat 16 j).Nodup := by
  refine List.Nodup.map_on (fun i hi j hj h => ?_) List.nodup_range'
  rw [List.mem_range'_1] at hi hj
  have := congrArg BitVec.toNat (add_left_cancel h)
  simp only [BitVec.toNat_ofNat] at this
  omega

/-- A slot does not hold all of the four numbers after one. -/
theorem SlotRec.exists_free (r : SlotRec) (n : Half) :
    ¬ ∀ j, 1 ≤ j → j ≤ 4 → ∃ g ∈ r.gens, g.number = n + BitVec.ofNat 16 j := by
  intro hall
  have hsub : ((List.range' 1 4).map fun j => n + BitVec.ofNat 16 j) ⊆ r.gens.map fun g => g.number := by
    intro number hnumber
    obtain ⟨j, hj, rfl⟩ := List.mem_map.mp hnumber
    rw [List.mem_range'_1] at hj
    obtain ⟨g, hg, hgn⟩ := hall j (by omega) (by omega)
    exact List.mem_map.mpr ⟨g, hg, hgn⟩
  have hlen := (List.subperm_of_subset (nodup_nextFour n) hsub).length_le
  rw [List.length_map, List.length_map, List.length_range'] at hlen
  have := r.length_gens_le
  omega

/-- Settles O55: where the search runs to its last step, that number is free too. -/
theorem nextNumberIsTheFirstFree : Obligations.NextNumberIsTheFirstFree := by
  unfold Obligations.NextNumberIsTheFirstFree
  intro r
  obtain ⟨k, h1, hk, heq, hfree, hheld⟩ := r.nextFrom_first 3 r.last
  refine ⟨k, h1, hk, heq, fun g hg hnum => ?_, hheld⟩
  rw [SlotRec.nextNumber, heq] at hnum
  rcases Nat.lt_or_ge k 4 with hlt | hge
  · exact hfree (by omega) g hg hnum
  · have hk4 : k = 4 := by omega
    subst hk4
    refine r.exists_free r.last fun j hj hle => ?_
    rcases Nat.lt_or_ge j 4 with hj4 | hj4
    · exact hheld j hj hj4
    · have hj4 : j = 4 := by omega
      subst hj4
      exact ⟨g, hg, hnum⟩

/-! ## The records that the changes leave -/

/-- The times of a CURRENT generation under a policy (R8). -/
def Gen.timed (p : Policy) (g : Gen) : Gen :=
  { g with renewAt := p.renewAt g.issued, expiresAt := p.expiresAt g.issued }

/-- A generation under a lowered hard limit (R19). -/
def Gen.lowered (hard : Nat) (g : Gen) : Gen := { g with ctr := g.ctr.lower hard }

/-- The record that a promotion leaves, with the counters of the promoted generation given (R40, R43). -/
def SlotRec.promoted (r : SlotRec) (t : Nat) (k : Counters) (g : Gen) : SlotRec :=
  { r with
    current := some (Gen.timed r.policy { g with issued := t, opened := 0, expired := false, ctr := k })
    staged := none
    renewDue := false
    outgoing := if r.policy.grace = 0 then none else r.current.map fun c => { c with graceDue := satAdd t r.policy.grace } }

/-- The counters that a promotion leaves its generation (R43). -/
def Counters.promoted (k : Counters) : Option Word → Counters
  | none => k
  | some v => k.admitPromoting v.toNat

theorem SlotRec.promote_staged {r : SlotRec} {g : Gen} (h : r.staged = some g) (t : Nat) (v : Option Word) :
    r.promote t v = r.promoted t (g.ctr.promoted v) g := by
  unfold SlotRec.promote SlotRec.promoted
  rw [h]
  cases r.current with
  | none => cases v <;> simp <;> rfl
  | some cur => cases v <;> rfl

/-- SET_POLICY of a slot without counters stores the policy, and its CURRENT generation takes the times (R18). -/
theorem SlotRec.setPolicy_plain {r : SlotRec} (h : r.cls ≠ some .frame) (p : Policy) :
    r.setPolicy p = { r with policy := p, current := r.current.map (Gen.timed p) } := by
  unfold SlotRec.setPolicy SlotRec.policyToStore SlotRec.policyDue
  cases hc : r.cls with
  | none => simp only [Bool.or_false, hc]; rfl
  | some cls =>
    cases cls with
    | transport => simp only [Bool.or_false, hc]; rfl
    | frame => exact absurd hc h

theorem foldl_max_le {α : Type} (f : α → Nat) (l : List α) (m h : Nat) (hm : m ≤ h) (hl : ∀ a ∈ l, f a ≤ h) :
    l.foldl (fun h a => max h (f a)) m ≤ h := by
  induction l generalizing m with
  | nil => exact hm
  | cons a l ih =>
    exact ih _ (max_le hm (hl a List.mem_cons_self)) fun b hb => hl b (List.mem_cons_of_mem a hb)

theorem le_foldl_max {α : Type} (f : α → Nat) (l : List α) (m : Nat) :
    m ≤ l.foldl (fun h a => max h (f a)) m ∧ ∀ a ∈ l, f a ≤ l.foldl (fun h a => max h (f a)) m := by
  induction l generalizing m with
  | nil => exact ⟨le_refl m, by simp⟩
  | cons a l ih =>
    obtain ⟨hm, hl⟩ := ih (max m (f a))
    refine ⟨(le_max_left ..).trans hm, fun b hb => ?_⟩
    rcases List.mem_cons.mp hb with rfl | hb
    · exact (le_max_right ..).trans hm
    · exact hl b hb

/-- H brought up to the highest value handed out (R19). -/
theorem SlotRec.max_highestUsed {r : SlotRec} {hard h : Nat} (hp : hard ≤ h) (hle : ∀ g ∈ r.gens, g.ctr.next ≤ h + 1)
    (hex : h = hard ∨ ∃ g ∈ r.gens, g.ctr.next = h + 1) : max hard r.highestUsed = h := by
  have hup : r.highestUsed ≤ h := foldl_max_le _ _ _ _ (Nat.zero_le h) fun g hg => by
    have := hle g hg
    omega
  rcases hex with rfl | ⟨g, hg, hn⟩
  · exact max_eq_left hup
  · have hlow : g.ctr.next - 1 ≤ r.highestUsed := (le_foldl_max (fun g : Gen => g.ctr.next - 1) r.gens 0).2 g hg
    omega

/-- SET_POLICY of a FRAME slot brings H up to the highest value handed out, and the counters under it; the slot becomes due
for renewal where the soft limit has been reached (R9, R19). -/
theorem SlotRec.setPolicy_frame {r : SlotRec} (hc : r.cls = some .frame) (p : Policy) {h : Nat}
    (hmax : max p.hard r.highestUsed = h) :
    r.setPolicy p = { r with
      policy := { p with hard := h }
      renewDue := r.renewDue || r.current.any fun g => decide (({ p with hard := h } : Policy).soft ≤ g.ctr.next - 1)
      current := r.current.map fun g => (g.lowered h).timed { p with hard := h }
      staged := r.staged.map (Gen.lowered h)
      outgoing := r.outgoing.map (Gen.lowered h) } := by
  have hq : r.policyToStore p = { p with hard := h } := by
    unfold SlotRec.policyToStore
    rw [hc]
    dsimp only
    rw [hmax]
  have hdue : (r.renewDue || r.policyDue p) =
      (r.renewDue || r.current.any fun g => decide (({ p with hard := h } : Policy).soft ≤ g.ctr.next - 1)) := by
    unfold SlotRec.policyDue
    rw [hq, hc]
    cases r.current <;> cases r.renewDue <;> simp
  unfold SlotRec.setPolicy
  rw [hq, hc, hdue]
  simp only [SlotRec.mapGens, Option.map_map, hc]
  rfl

/-- Settles O56, change by change. -/
theorem changesLeaveTheRecordsOfTheRules : Obligations.ChangesLeaveTheRecordsOfTheRules := by
  unfold Obligations.ChangesLeaveTheRecordsOfTheRules
  intro r t label cls par p key cl n times promoted
  refine ⟨rfl, rfl, rfl, rfl, rfl, rfl, fun g hg => ?_, fun g v hg => ?_, fun hc => ?_, fun h hc hp hle hex => ?_⟩
  · exact SlotRec.promote_staged hg t none
  · exact SlotRec.promote_staged hg t (some v)
  · exact SlotRec.setPolicy_plain hc p
  · exact SlotRec.setPolicy_frame hc p (SlotRec.max_highestUsed hp hle hex)

end Sys2Proof.Machine
end

section
/-! Proofs, the key table, part 5: what the end of a power-on reset leaves (R132). -/

namespace Sys2Proof.Machine

theorem getD_replicate_same {α : Type} (n i : Nat) (a : α) : (Vector.replicate n a).getD i a = a := by
  rw [getD_eq, Vector.getElem?_replicate]
  split <;> rfl

theorem State.reset_ctx (c : Nat) : State.reset.ctx c = none := getD_replicate_same ..

theorem State.reset_slot (n : Nat) : State.reset.slot n = SlotRec.empty := getD_replicate_same ..

theorem State.reset_cell (n : Nat) : State.reset.cell n = OrderCell.free := getD_replicate_same ..

/-- Every cause is disabled, in group 0, and clear, but that ENGINE is PENDING (R178). -/
theorem State.reset_cause (n : Nat) : State.reset.cause n = ⟨false, 0, decide (n = 12), false⟩ := by
  show ((Vector.replicate 13 Cause.reset).setIfInBounds 12 ⟨false, 0, true, false⟩).getD n Cause.reset = _
  rw [getD_set, getD_replicate_same]
  by_cases h : n = 12
  · subst h
    rfl
  · rw [if_neg (fun k => h k.1.symm), decide_eq_false h]
    rfl

theorem wordAddr_le (a : Half) : wordAddr a ≤ a.toNat := Nat.div_mul_le_self ..

/-- The window reads zero while step 1 of start-up is at work (R134). -/
theorem State.reset_window {a : Half} (h : a.toNat < 0x8000) : State.reset.busRead a = 0 := by
  have hw : wordAddr a < 0x8000 := (wordAddr_le a).trans_lt h
  have hc : State.reset.windowClosed = true := rfl
  unfold State.busRead
  dsimp only
  rw [if_pos hw, if_pos hc]

/-- No staging place is in use or claimed (R26). -/
theorem State.reset_poolFree : State.reset.poolFree = 16 := by
  have huse : State.reset.poolInUse = 0 := by
    show (Vector.replicate 64 SlotRec.empty).toList.countP _ = 0
    rw [Vector.toList_replicate, List.countP_replicate]
    rfl
  have hclaim : State.reset.poolClaimed = 0 := by
    unfold State.poolClaimed
    simp only [State.reset_ctx, List.filter_false, List.length_nil]
  unfold State.poolFree
  rw [huse, hclaim]

/-- The laws that every step keeps hold at the end of the reset. -/
theorem State.reset_laws : State.reset.ramCanonical ∧ State.reset.causesSettled ∧ State.reset.listKept ∧
    State.reset.countersLawful := by
  refine ⟨rfl, by unfold State.causesSettled; decide, List.Pairwise.nil, fun n => ?_⟩
  rw [State.reset_slot]
  exact SlotRec.lawful_empty

/-- Settles O25. -/
theorem resetLeavesTheBlockStarting : Obligations.ResetLeavesTheBlockStarting := by
  unfold Obligations.ResetLeavesTheBlockStarting
  refine ⟨rfl, rfl, rfl, by decide, by decide, by decide, by decide, fun a => State.reset_window, rfl, rfl, rfl, rfl,
    State.reset_ctx, fun n => ?_, fun n => ?_, State.reset_poolFree, State.reset_cause, rfl, rfl, rfl, rfl, rfl, rfl, rfl,
    State.reset_laws⟩
  · rw [State.reset_cell]
    rfl
  · rw [State.reset_slot]
    rfl

end Sys2Proof.Machine
end

section
/-! Proofs, the key table, part 6: the commit of a group that holds the SLOT_IMAGE of one order (R13, R59, R112). -/

namespace Sys2Proof.Machine

/-! ## From the command to the commit -/

/-- The GROUP_END of a group, programmed as it was written, commits the group (R112). -/
theorem exec_groupCommit {s : State} {g : Group} {bk : Bank} {at_ : Nat} {w : UnitWord}
    (h : s.ju.step = some ⟨.group g, bk, at_, [w]⟩) :
    exec .groupCommit s =
      .next (State.goOn ((s.setUnits bk (setUnit (s.units bk) at_ (.good w))).commitGroup g)) := by
  have hend : s.atGroupEnd = true := by
    unfold State.atGroupEnd
    rw [h]
  show execGroupCommit s = _
  unfold execGroupCommit State.unitEnds
  rw [if_pos hend, h]
  simp [State.stepDone]

/-! ## The change of the order (R13, R19) -/

/-- A SET_POLICY that is CLAMPED because H is brought up changes the slot as it did (R19). -/
theorem Change.clampedAt_apply (ch : Change) (q r : SlotRec) (t : Nat) : (ch.clampedAt q).apply t r = ch.apply t r := by
  cases ch <;> rfl

theorem Change.clampedAt_lowAt (ch : Change) (q r : SlotRec) : (ch.clampedAt q).lowAt r = ch.lowAt r := by
  cases ch <;> rfl

theorem Change.clampedAt_admits (ch : Change) (q : SlotRec) : (ch.clampedAt q).admits = ch.admits := by
  cases ch <;> rfl

theorem listAfter_clampedAt (n : Nat) (r q : SlotRec) (ch : Change) (l : List Deadline) :
    listAfter n r (ch.clampedAt q) l = listAfter n r ch l := by
  cases ch <;> rfl

theorem Change.clampedAt_ne_unlock {ch : Change} (h : ch ≠ .unlock) (q : SlotRec) : ch.clampedAt q ≠ .unlock := by
  unfold Change.clampedAt
  split
  · exact nofun
  · exact h

/-- The order as the commit of its change leaves it: CLAMPED where H is brought up, and without a claim of the staging
pool (R19, R26). -/
def Ctx.committing (x : Ctx) (ch : Change) : Ctx := { x with change := some ch, poolClaim := false }

/-- The commit notes a raised H in the order (R19). -/
theorem State.noteRaise_order {s : State} {r : Rec} {c : Nat} {x : Ctx} {ch : Change} (ho : r.owner = .order c)
    (hx : s.ctx c = some x) (hch : x.change = some ch) :
    ∃ f : Ctx → Ctx, s.noteRaise r = s.modCtx c f ∧
      f x = { x with change := some (ch.clampedAt (s.slot x.order.slot.toNat)) } := by
  unfold State.noteRaise
  rw [ho]
  refine ⟨_, rfl, ?_⟩
  rw [hch]
  obtain ⟨⟩ := x
  cases hch
  cases ch <;> rfl

/-- The table takes the change of the order (R13). -/
theorem State.commitTable_order {s : State} {r : Rec} {c : Nat} {x : Ctx} {ch : Change} (ho : r.owner = .order c)
    (hx : s.ctx c = some x) (hch : x.change = some ch) :
    s.commitTable r = (s.commitChange x.order.slot.toNat ch r.time).modCtx c fun x => { x with poolClaim := false } := by
  unfold State.commitTable
  rw [ho]
  dsimp only
  rw [hx]
  dsimp only
  rw [hch]

/-- The order whose record is durable completes OK, or LOCKED where it promotes under lockdown (R13, R78). -/
theorem State.completeCommitted_eq {s : State} {c : Nat} {x : Ctx} {ch : Change} (hx : s.ctx c = some x)
    (hch : x.change = some ch) (hne : ch ≠ .unlock) :
    let locked := ch.admits && s.tm.lockdown
    s.completeCommitted c = s.complete c (if locked then .locked else .ok)
      (if locked then { committedRes x ch with outLen := 0 } else committedRes x ch) := by
  intro locked
  have hplain : ch.admits = false → s.complete c .ok (committedRes x ch) = s.complete c
      (if locked then .locked else .ok)
      (if locked then { committedRes x ch with outLen := 0 } else committedRes x ch) := fun h => by
    simp [locked, h]
  unfold State.completeCommitted
  rw [hx]
  dsimp only
  rw [hch]
  cases ch with
  | unlock => exact absurd rfl hne
  | promote v =>
    cases v with
    | none => exact hplain rfl
    | some v => cases hl : s.tm.lockdown <;> simp [locked, Change.admits, hl, committedRes, Res.zero]
  | _ => exact hplain rfl

/-- The events of one step taken together are those of a single event of COUNTER_LOW (R179). -/
theorem State.together_low {s t : State} {low : Prop} [Decidable low]
    (h : t.nu = (if low then s.raise bitCounterLow else s).nu) : s.together t = t := by
  by_cases hl : low
  · rw [if_pos hl] at h
    exact (((State.Once.refl s).raise (b := bitCounterLow) (by simp)).congr (by rw [h])).together
  · rw [if_neg hl] at h
    exact State.together_same h

/-- What the table change of one order leaves, where no deadline falls due: the order, the slots with their orphaned flags,
the deadline list, and COUNTER_LOW (R11, R13, R19, R95). -/
structure State.TableTakes (s t : State) (c n : Nat) (x : Ctx) (ch : Change) (time : Nat) : Prop where
  order : Onward s t c (x.committing (ch.clampedAt (s.slot n)))
  slots : ∀ m, m < 64 → t.slot m = (if m = n then ch.apply time (s.slot n) else s.slot m).orphanedBy
    fun m => if m = n then ch.apply time (s.slot n) else s.slot m
  time : t.tu = { s.tu with deadlines := listAfter n (ch.apply time (s.slot n)) ch s.tu.deadlines }
  notices : t.nu = (if ch.lowAt (s.slot n) then s.raise bitCounterLow else s).nu
  cipher : t.xu = s.xu
  window : t.wp = s.wp

theorem State.tableTakes {s : State} {r : Rec} {c n : Nat} {x : Ctx} {ch : Change} (hc : c < 4) (hx : s.ctx c = some x)
    (ho : r.owner = .order c) (hch : x.change = some ch) (hs : x.order.slot.toNat = n) (hn : n < 64)
    (hd : (s.slot n).deferred = Deferred.none)
    (hdue : ∀ d ∈ listAfter n (ch.apply r.time (s.slot n)) ch s.tu.deadlines, s.tu.now < d.due) :
    s.TableTakes (s.together ((s.noteRaise r).commitTable r)) c n x ch r.time := by
  obtain ⟨f, hf, hfx⟩ := State.noteRaise_order ho hx hch
  rw [hs] at hfx
  have on := (Onward.refl hx hc).mod f
  rw [hfx] at on
  have hdue' : ∀ d ∈ listAfter n ((ch.clampedAt (s.slot n)).apply r.time (s.slot n)) (ch.clampedAt (s.slot n))
      s.tu.deadlines, s.tu.now < d.due := by
    rw [Change.clampedAt_apply, listAfter_clampedAt]
    exact hdue
  obtain ⟨k, w, hcommit, hslots⟩ := State.commitChange_none (s := s.modCtx c f) hn hd hdue'
  rw [hf, State.commitTable_order ho on.ctx rfl, hs]
  generalize hW : ((s.modCtx c f).commitChange n (ch.clampedAt (s.slot n)) r.time).modCtx c
    (fun x => { x with poolClaim := false }) = W
  have hnu : W.nu = (if ch.lowAt (s.slot n) then s.raise bitCounterLow else s).nu := by
    rw [← hW, State.modCtx_nu, hcommit]
    dsimp only
    rw [Change.clampedAt_lowAt, State.slot_modCtx]
    exact State.raiseIf_nu (State.modCtx_nu ..) (ch.lowAt (s.slot n) = true) bitCounterLow
  rw [State.together_low hnu]
  exact {
    order := by
      rw [← hW, hcommit]
      exact (on.mod fun x => { x with poolClaim := false }).tables rfl rfl
        ⟨rfl, rfl, rfl, rfl, rfl, rfl, rfl, rfl, rfl, rfl, rfl⟩ rfl rfl rfl
    slots := fun m hm => by
      rw [← Change.clampedAt_apply ch (s.slot n), ← hW, hcommit]
      exact hslots m hm
    time := by
      rw [← Change.clampedAt_apply ch (s.slot n), ← listAfter_clampedAt n _ (s.slot n) ch, ← hW, hcommit]
      rfl
    notices := hnu
    cipher := by
      rw [← hW, hcommit]
      rfl
    window := by
      rw [← hW, hcommit]
      rfl }

/-! ## The commit of the group (R112) -/

/-- The commit of a group of one record, in its order: the array's counts, the counters, the table, the order, and the
Journal Unit's rest (R59, R112, assumption 15). -/
theorem State.commitGroup_one {s u : State} {g : Group} {r : Rec} (h : g.recs = [r])
    (hu : { s with ju := { s.ju with
      lastSeq := g.seq, used := s.ju.used + (groupSize [r] + 1), next := s.ju.next + (groupSize [r] + 1), step := none } } = u) :
    let v := u.commitCounters r
    let w := (v.together ((v.noteRaise r).commitTable r)).releaseRec r
    s.commitGroup g =
      { w with ju := { w.ju with activity := .idle, due := w.ju.due || decide (768 ≤ w.ju.used) } } := by
  subst hu
  unfold State.commitGroup
  simp only [h, List.foldl_cons, List.foldl_nil]

/-- The image of a slot takes four units (R108). -/
theorem groupSize_image {r : Rec} {n : Nat} {img : SlotRec} (h : r.body = .image n img) : groupSize [r] = 4 := by
  unfold groupSize
  rw [List.foldl_cons, h]
  rfl

/-- The record of an order releases that order, and no other that does not wait for it (R112). -/
theorem State.releaseRec_order {s w : State} {r : Rec} {c : Nat} (ho : r.owner = .order c)
    (hw : (s.completeCommitted c).serve = w)
    (hothers : ∀ d y, w.ctx d = some y → y.wait ≠ .reservation ∧ y.wait ≠ .mark) : s.releaseRec r = w := by
  unfold State.releaseRec
  rw [ho]
  dsimp only
  rw [hw]
  exact State.releaseOthers hothers r

/-- The order of a record that is durable completes, and nothing follows (R112, R174). -/
theorem State.releaseRec_completed {s : State} {r : Rec} {c : Nat} {x : Ctx} {ch : Change} (hp : s.Plain c x)
    (hch : x.change = some ch) (hne : ch ≠ .unlock) (ho : r.owner = .order c) (hf : s.NoFollower)
    (hw : ∀ d y, d ≠ c → s.ctx d = some y → y.wait ≠ .reservation ∧ y.wait ≠ .mark) :
    let locked := ch.admits && s.tm.lockdown
    Completed s (s.releaseRec r) c x (if locked then .locked else .ok)
      (if locked then { committedRes x ch with outLen := 0 } else committedRes x ch) := by
  intro locked
  have cm := State.complete_completed hp (if locked then .locked else .ok)
    (if locked then { committedRes x ch with outLen := 0 } else committedRes x ch)
  rw [← State.completeCommitted_eq hp.ctx hch hne] at cm
  have hserve : (s.completeCommitted c).serve = s.completeCommitted c :=
    State.serve_idle (cm.noFollower hf.lanes (fun d _ => hf.syncs d) hf.engine)
  rw [State.releaseRec_order ho hserve fun d y hy => ?_]
  · exact cm
  · by_cases hd : d = c
    · rw [hd, cm.ctx] at hy
      cases hy
    · rw [cm.ctxs d hd] at hy
      obtain ⟨z, hz, rfl⟩ := Option.map_eq_some_iff.mp hy
      exact hw d z hd hz

theorem committedRes_committing (x : Ctx) (ch ch' : Change) :
    committedRes (x.committing ch') ch = committedRes x ch := by
  unfold committedRes
  cases ch <;> rfl

/-- An order that goes on from a state goes on from another that agrees with it but in the tables. -/
theorem Onward.since {S T u : State} {c : Nat} {x : Ctx} (h : Onward T u c x) (hod : T.od = S.od) (hwp : T.wp = S.wp)
    (harray : S.SameArray T) (htm : T.tm = S.tm) (hclock : T.clock = S.clock) (hpending : T.pending = S.pending) :
    Onward S u c x where
  small := h.small
  od := by
    rw [h.od]
    unfold State.setCtx
    rw [hod]
  wp := by rw [h.wp, hwp]
  array := harray.trans h.array
  tm := h.tm.trans htm
  clock := h.clock.trans hclock
  pending := h.pending.trans hpending

/-- An image makes the counters of its own slot durable alone (R59). -/
theorem SlotRec.madeDurable_other (q : SlotRec) {n m : Nat} (img : SlotRec) (h : m ≠ n) :
    q.madeDurable m (.image n img) = q := by
  unfold SlotRec.madeDurable
  exact if_neg fun k => h k.1.symm

/-- The state in which the counters of a committed group are durable (R59): the unit is stored, the array's counts have
moved on, and no step is in progress. -/
def State.counted (s : State) (g : Group) (bk : Bank) (at_ : Nat) (w : UnitWord) : State :=
  let u := s.setUnits bk (setUnit (s.units bk) at_ (.good w))
  { u with ju := { u.ju with lastSeq := g.seq, used := u.ju.used + 5, next := u.ju.next + 5, step := none } }

theorem State.counted_eq (s : State) (g : Group) (bk : Bank) (at_ : Nat) (w : UnitWord) :
    ∃ j, s.counted g bk at_ w = { s with ju := j } := by
  cases bk <;> exact ⟨_, rfl⟩

theorem State.counted_array (s : State) (g : Group) (bk : Bank) (at_ : Nat) (w : UnitWord) :
    State.SameArray (State.setUnits
      { s with ju := { s.ju with lastSeq := g.seq, used := s.ju.used + 5, next := s.ju.next + 5 } } bk
      (setUnit (s.units bk) at_ (.good w))) (s.counted g bk at_ w) := by
  cases bk <;> exact ⟨rfl, rfl, rfl, rfl, rfl, rfl, rfl, rfl, rfl, rfl, rfl⟩

/-- What the counters that a record carries change, once they are durable: slots and the array's counts (R59). -/
theorem State.counted_durable (s : State) (g : Group) (bk : Bank) (at_ : Nat) (w : UnitWord) (r : Rec) :
    ∃ k j, (s.counted g bk at_ w).commitCounters r = { s with kt := k, ju := j } ∧
      ∀ n, ((s.counted g bk at_ w).commitCounters r).slot n = (s.slot n).madeDurable n r.body := by
  obtain ⟨j, hj⟩ := s.counted_eq g bk at_ w
  obtain ⟨k, hk, hslot⟩ := State.commitCounters_eq (s.counted g bk at_ w) r
  refine ⟨k, j, ?_, fun n => ?_⟩
  · rw [hk, hj]
  · rw [hslot, State.slot_congr (show (s.counted g bk at_ w).kt = s.kt by rw [hj])]

/-- The array stands, once the counters of a group are durable, as the GROUP_END left it. -/
theorem State.counted_durable_array (s : State) (g : Group) (bk : Bank) (at_ : Nat) (w : UnitWord) (r : Rec) :
    State.SameArray (State.setUnits
      { s with ju := { s.ju with lastSeq := g.seq, used := s.ju.used + 5, next := s.ju.next + 5 } } bk
      (setUnit (s.units bk) at_ (.good w))) ((s.counted g bk at_ w).commitCounters r) := by
  obtain ⟨k, hk, -⟩ := State.commitCounters_eq (s.counted g bk at_ w) r
  rw [hk]
  exact (s.counted_array g bk at_ w).trans (sameArray_ju rfl)

/-- What an order is, and whether anything follows, stand in the dispatcher and the window alone. -/
theorem State.NoFollower.congr {s t : State} (h : s.NoFollower) (hod : t.od = s.od) (hwp : t.wp = s.wp) :
    t.NoFollower where
  lanes n := by
    rw [State.lane_congr hod]
    exact h.lanes n
  syncs d := by
    have hs := h.syncs d
    unfold State.isSync at hs ⊢
    rwa [State.ctx_congr hod]
  engine := by
    rw [hwp]
    exact h.engine

/-- Where nothing follows a completion, nothing follows it once the table has taken a change (R11, R174). -/
theorem State.TableTakes.noFollower {s t : State} {c n : Nat} {x : Ctx} {ch : Change} {time : Nat}
    (h : s.TableTakes t c n x ch time) (hf : s.NoFollower) (hwait : x.wait = .group) : t.NoFollower where
  lanes m := by
    rw [h.order.lane]
    exact hf.lanes m
  syncs d := by
    by_cases hd : d = c
    · unfold State.isSync
      rw [hd, h.order.ctx]
      show (x.wait == .predecessors) = false
      rw [hwait]
      rfl
    · have hs := hf.syncs d
      unfold State.isSync at hs ⊢
      rwa [h.order.ctxs hd]
  engine := by
    rw [h.window]
    exact hf.engine

/-- A table change defers nothing for the slot of its order (R97). -/
theorem State.TableTakes.plain {s t : State} {c n : Nat} {x : Ctx} {ch : Change} {time : Nat}
    (h : s.TableTakes t c n x ch time) (hp : s.Plain c x) (hheld : x.held = some n) (hn : n < 64) :
    t.Plain c (x.committing (ch.clampedAt (s.slot n))) where
  ctx := h.order.ctx
  small := hp.small
  lane := hp.lane
  cell := hp.cell
  erase := hp.erase
  deferred m hm := by
    cases hheld.symm.trans hm
    rw [h.slots n hn, if_pos rfl]
    exact Change.apply_deferred ch time (hp.deferred n hheld)

/-- Once the table has taken its change, the order completes, and nothing follows (R13, R78, R174). -/
theorem State.TableTakes.releases {s t : State} {c n : Nat} {x : Ctx} {ch : Change} {r : Rec}
    (h : s.TableTakes t c n x ch r.time) (hp : s.Plain c x) (hheld : x.held = some n) (hn : n < 64)
    (hne : ch ≠ .unlock) (ho : r.owner = .order c) (hf : s.NoFollower) (hwait : x.wait = .group)
    (hothers : ∀ d y, s.ctx d = some y → y.wait ≠ .reservation ∧ y.wait ≠ .mark) :
    let locked := ch.admits && s.tm.lockdown
    let res := committedRes x (ch.clampedAt (s.slot n))
    Completed t (t.releaseRec r) c (x.committing (ch.clampedAt (s.slot n))) (if locked then .locked else .ok)
      (if locked then { res with outLen := 0 } else res) := by
  intro locked res
  have cm := State.releaseRec_completed (h.plain hp hheld hn) rfl (Change.clampedAt_ne_unlock hne (s.slot n)) ho
    (h.noFollower hf hwait) fun d y hd hy => hothers d y (by rwa [h.order.ctxs hd] at hy)
  rw [Change.clampedAt_admits, h.order.tm, committedRes_committing] at cm
  exact cm

/-- After a commit the Journal Unit rests, and what follows is its own work and the budgets of orders (R111). -/
theorem State.goOn_committed {w : State} (j : Ju) (hj : w.SameArray { w with ju := j }) (h : w.wp.startAt = none)
    (he : w.wp.engine ≠ .holdover) : Kicked w (State.goOn { w with ju := j }) := by
  rw [State.goOn_settled (by exact h)]
  exact (State.finish_kicked _ (by exact he)).of ((Kicked.refl w).withJu j hj)

/-- The commit of a group of one image, which takes five units with its GROUP_END, moves the array's counts on (R108). -/
theorem State.counted_of {s : State} {g : Group} {bk : Bank} {at_ : Nat} {w : UnitWord} {r : Rec} {n : Nat}
    {img : SlotRec} (h : r.body = .image n img) :
    let u := s.setUnits bk (setUnit (s.units bk) at_ (.good w))
    { u with ju := { u.ju with
      lastSeq := g.seq, used := u.ju.used + (groupSize [r] + 1), next := u.ju.next + (groupSize [r] + 1),
      step := none } } = s.counted g bk at_ w := by
  rw [groupSize_image h]
  rfl

/-- The commit of the group that holds the image of one order, in its order: the counters, the table, the order, and the
Journal Unit's rest, which its own next work follows (R59, R112, assumption 15). -/
theorem exec_groupCommit_image {s v z : State} {g : Group} {bk : Bank} {at_ : Nat} {w : UnitWord} {r : Rec} {n : Nat}
    {img : SlotRec} (hstep : s.ju.step = some ⟨.group g, bk, at_, [w]⟩) (hrecs : g.recs = [r])
    (hbody : r.body = .image n img) (hv : (s.counted g bk at_ w).commitCounters r = v)
    (hz : (v.together ((v.noteRaise r).commitTable r)).releaseRec r = z) (hs : z.wp.startAt = none)
    (he : z.wp.engine ≠ .holdover) : ∃ t, exec .groupCommit s = .next t ∧ Kicked z t := by
  rw [exec_groupCommit hstep, State.commitGroup_one hrecs (State.counted_of hbody)]
  dsimp only
  rw [hv, hz]
  exact ⟨_, rfl, State.goOn_committed _ ⟨rfl, rfl, rfl, rfl, rfl, rfl, rfl, rfl, rfl, rfl, rfl⟩ hs he⟩

/-- Settles O41: the counters become durable, the table takes the change, the order completes, and nothing follows. -/
theorem groupCommitAppliesTheChange : Obligations.GroupCommitAppliesTheChange := by
  unfold Obligations.GroupCommitAppliesTheChange
  intro s c x g bk at_ w r img ch hset hrun hplain hstep hrecs howner hheld h64 hbody hch hne hwait hothers
    slot base r' l kt locked res u hdue
  -- the counters that the image carries are durable
  have huv : u.SameArray ((s.counted g bk at_ w).commitCounters r) := s.counted_durable_array g bk at_ w r
  obtain ⟨i, hu⟩ : ∃ i, u = { s with ju := i } := by cases bk <;> exact ⟨_, rfl⟩
  clear_value u
  obtain ⟨k, j, hv, hvslot⟩ := s.counted_durable g bk at_ w r
  generalize hcommit : (s.counted g bk at_ w).commitCounters r = v at hv hvslot huv
  have hvod : v.od = s.od := by rw [hv]
  have hvwp : v.wp = s.wp := by rw [hv]
  have hvtu : v.tu = s.tu := by rw [hv]
  have hvtm : v.tm = s.tm := by rw [hv]
  have hvbase : v.slot slot = base := hvslot slot
  have hvplain : v.Plain c x :=
    { hplain with
      ctx := (State.ctx_congr hvod c).trans hplain.ctx
      deferred := fun n hn => by
        rw [hvslot]
        exact (SlotRec.madeDurable_deferred ..).trans (hplain.deferred n hn) }
  -- the table takes the change
  have tt := State.tableTakes (s := v) hplain.small hvplain.ctx howner hch rfl h64
    (hvplain.deferred slot hheld) (by rw [hvbase, hvtu]; exact hdue)
  generalize htable : v.together ((v.noteRaise r).commitTable r) = V at tt
  -- the order completes
  have cm := tt.releases hvplain hheld h64 hne howner (hset.follower.congr hvod hvwp) hwait
    fun d y hy => hothers d y (by rwa [State.ctx_congr hvod] at hy)
  rw [hvbase, hvtm] at cm
  generalize hrelease : V.releaseRec r = z at cm
  have hzwp : z.wp.startAt = none ∧ z.wp.engine ≠ .holdover := by
    rw [cm.wp, tt.window, hvwp]
    exact ⟨hset.after.2, hset.supply⟩
  obtain ⟨t, hexec, kk⟩ :=
    exec_groupCommit_image hstep hrecs hbody hcommit (by rw [htable, hrelease]) hzwp.1 hzwp.2
  refine ⟨t, hexec, ?_, fun m hm => ?_, ?_, ?_, ?_, ?_⟩
  · -- the order, whose cell bears the time of the commit
    have on := tt.order.since (S := u) (by rw [hvod, hu]) (by rw [hvwp, hu]) huv (by rw [hvtm, hu])
      (by rw [hv, hu]) (by rw [hv, hu])
    rw [hvbase] at on
    exact cm.orderEnds on kk rfl rfl rfl (by rw [tt.time, hvtu, hu])
  · have hkt : (fun m => if m = slot then ch.apply r.time (v.slot slot) else v.slot m) = kt := funext fun m => by
      show _ = if m = slot then r' else s.slot m
      rw [hvbase]
      split
      · rfl
      · rw [hvslot, hbody]
        exact SlotRec.madeDurable_other _ _ ‹_›
    rw [kk.slot, State.slot_congr cm.kt, tt.slots m hm, ← hkt]
  · rw [kk.tu, cm.tu, tt.time, hvtu, hvbase]
  · have hvnu : v.nu = s.nu := by rw [hv]
    rw [kk.nu, cm.nu (by rw [tt.window, hvwp]; exact hrun)]
    refine State.countCompletion_nu ?_ ?_ ?_ x.lane
    · rw [tt.order.plan, hvod]
      split <;> rfl
    · rw [tt.notices, hvbase]
      exact State.raiseIf_nu hvnu (ch.lowAt base = true) bitCounterLow
    · rw [tt.order.clock, hv]
      split <;> rfl
  · rw [kk.xu, cm.xu, tt.cipher, hv]
  · rw [kk.wp, cm.wp, tt.window, hvwp]
    show (if (if locked then Code.locked else Code.ok) = Code.ok then
      Ram.writeBytes s.wp.ram x.order.output.addr x.output else s.wp.ram) = _
    cases hl : locked <;> rfl

end Sys2Proof.Machine
end

section
/-! Proofs, renewal, part 1: the ends of an UNWRAP (R35, R79) and of a GENERATE (R31, R82, R83). -/

namespace Sys2Proof.Machine

/-- The order of a request that ends is refused, and nothing else changes. -/
theorem State.Serving.refuses {s : State} {c : Nat} {x : Ctx} {v : Service} {op : CipherOp} (h : s.Serving c x v op)
    {go : State → Nat → Ctx → Service → State} {code : Code} (hc : code ≠ .ok)
    (hgo : go (s.served c) c x v = (s.served c).refuse c code) :
    s.EndsPlainly (s.endService op go) c x code Res.zero ∧ (s.endService op go).wp.ram = s.wp.ram := by
  obtain ⟨hends, hram⟩ := h.endsPlainly go id (fun _ => ⟨rfl, rfl, rfl, rfl, rfl⟩) (by rw [modCtx_id]; exact hgo)
  exact ⟨hends, hram.trans (if_neg hc)⟩

/-! ## The end of an UNWRAP (R35, R79) -/

/-- The clear key that the blob of an UNWRAP holds under the wrapping key of its order (R35). -/
def Ctx.unwrapped (x : Ctx) : Key := Config.blobDecipher (Config.unwrapRoot x.wrapKey) x.blobKey

/-- The integrity value that the blob of an UNWRAP must bear (R79, assumption 20). -/
def Ctx.unwrappedSum (x : Ctx) : BitVec 64 :=
  Config.blobIntegrity (Config.unwrapRoot x.wrapKey) x.unwrapped x.blobHead x.order.slot

/-- The change that an UNWRAP hands over with a clear key: the new generation with that key under the storage root
(R35). -/
def Ctx.stageOf (x : Ctx) (k : Key) : Change := .stage x.genNo (Config.wrapRoot k)

theorem unwrapEnds_eq (s : State) (c : Nat) (x : Ctx) (v : Service) :
    s.unwrapEnds c x v =
      if x.unwrappedSum = x.blobSum then s.placeRecord c (x.stageOf x.unwrapped) else s.refuse c .unwrapFailed := rfl

/-- An UNWRAP whose blob bears its integrity value hands the record of the new generation over. -/
theorem State.Serving.unwrapStages {s : State} {c : Nat} {x : Ctx} {v : Service} (h : s.Serving c x v .unwrap)
    (hsum : x.unwrappedSum = x.blobSum) :
    let t := s.endService .unwrap State.unwrapEnds
    t.holdsRecord (s.recordFor c x.order.slot.toNat (x.stageOf x.unwrapped)) = true ∧
      t.xu = { s.xu with service := none } ∧
      s.GoesOn t c { x with wait := .group, change := some (x.stageOf x.unwrapped) } :=
  have hgo : State.unwrapEnds (s.served c) c x v = (s.served c).placeRecord c (x.stageOf x.unwrapped) :=
    (unwrapEnds_eq ..).trans (if_pos hsum)
  have hplaced := placeRecord_serving h State.unwrapEnds _ hgo h.begun rfl rfl h.late rfl ⟨rfl, rfl, rfl⟩ rfl
  hplaced

/-- An UNWRAP whose blob bears another value fails. -/
theorem State.Serving.unwrapFails {s : State} {c : Nat} {x : Ctx} {v : Service} (h : s.Serving c x v .unwrap)
    (hsum : x.unwrappedSum ≠ x.blobSum) :
    let t := s.endService .unwrap State.unwrapEnds
    s.EndsPlainly t c x .unwrapFailed Res.zero ∧ t.wp.ram = s.wp.ram :=
  h.refuses (by decide) ((unwrapEnds_eq ..).trans (if_neg hsum))

/-- The blob that a WRAP makes under the wrapping key of an order gives the key back (R79). -/
theorem Ctx.unwrapped_of_wrapped {x : Ctx} {k : Key}
    (h : x.blobKey = Config.blobEncipher (Config.unwrapRoot x.wrapKey) k) : x.unwrapped = k := by
  rw [Ctx.unwrapped, h, Config.blobDecipher_blobEncipher]

/-- A blob made for slot `n` bears the value that the UNWRAP of an order looks for just where the order names that slot
(R33). -/
theorem Ctx.unwrappedSum_eq_iff {x : Ctx} {k : Key} {n : Byte} (hk : x.unwrapped = k)
    (hsum : x.blobSum = Config.blobIntegrity (Config.unwrapRoot x.wrapKey) k x.blobHead n) :
    x.unwrappedSum = x.blobSum ↔ n = x.order.slot := by
  rw [Ctx.unwrappedSum, hk, hsum]
  exact ⟨fun h => (Config.blobIntegrity_slot h).symm, fun h => by rw [h]⟩

/-- Settles O19. -/
theorem unwrapEndChecksTheBlob : Obligations.UnwrapEndChecksTheBlob := by
  unfold Obligations.UnwrapEndChecksTheBlob
  intro s c x v h wrapping key staged failed
  refine ⟨s.endService .unwrap State.unwrapEnds, rfl, h.unwrapStages, h.unwrapFails, fun k n hk hsum => ?_⟩
  have hkey : x.unwrapped = k := Ctx.unwrapped_of_wrapped hk
  have hslot := Ctx.unwrappedSum_eq_iff hkey hsum
  refine ⟨fun hn => ?_, fun hn => h.unwrapFails (mt hslot.mp hn)⟩
  have hstaged := h.unwrapStages (hslot.mpr hn)
  rw [hkey] at hstaged
  exact hstaged

/-! ## The end of a GENERATE (R31, R82, R83) -/

/-- The key that a GENERATE draws, as the order copy notes it (R31). -/
def Ctx.noteDrawn (key : Key) (x : Ctx) : Ctx := { x with newKey := key }

/-- A disabled source fails the order of its GENERATE (R83). -/
theorem generateEnds_disabled {s : State} (healthy : Bool) (c : Nat) (x : Ctx) (v : Service)
    (h : s.xu.disabled = true) : State.generateEnds healthy s c x v = s.refuse c .rngFault := by
  unfold State.generateEnds
  rw [if_pos h]

/-- A healthy source gives a key, whose WRAP is asked for (R31, R82). -/
theorem generateEnds_healthy {s : State} (c : Nat) (x : Ctx) (v : Service) (h : s.xu.disabled = false) :
    State.generateEnds true s c x v =
      ((s.countTest true x.lane x.cell).modCtx c (Ctx.noteDrawn (Config.drawnKey s.xu.draws))).placeRequest c .wrap := by
  unfold State.generateEnds
  rw [if_neg (by rw [h]; decide)]
  rfl

/-- An unhealthy source is counted and fails the order (R82). -/
theorem generateEnds_unhealthy {s : State} (c : Nat) (x : Ctx) (v : Service) (h : s.xu.disabled = false) :
    State.generateEnds false s c x v = (s.countTest false x.lane x.cell).refuse c .rngFault := by
  unfold State.generateEnds
  rw [if_neg (by rw [h]; decide)]
  rfl

/-- A health test changes nothing of the order that goes on. -/
theorem Onward.countTest {T u : State} {c : Nat} {x : Ctx} (g : Onward T u c x) (healthy : Bool) (lane cell : Nat) :
    Onward T (u.countTest healthy lane cell) c x := by
  obtain ⟨xu, nu, heq, -, -⟩ := State.countTest_eq u healthy lane cell
  rw [heq]
  exact g.tables rfl rfl (sameArray_ju rfl) rfl rfl rfl

/-- A health test that passes clears the count and draws a key (R82). -/
theorem State.countTest_healthy (s : State) (lane cell : Nat) :
    s.countTest true lane cell = { s with xu := { s.xu with failures := 0, draws := s.xu.draws + 1 } } := rfl

/-- A health test that fails is counted, disables the source at the third failure in a row, and is given to the Notice
Unit (R82, R83). -/
theorem State.countTest_unhealthy (s : State) (lane cell : Nat) :
    s.countTest false lane cell =
      State.giveFault { s with xu := { s.xu with
        failures := s.xu.failures + 1
        disabled := decide (3 ≤ s.xu.failures + 1) } } .rngHealth lane cell := rfl

/-- A fault changes the Notice Unit by what that unit and meter time hold. -/
theorem State.giveFault_nu {s t : State} (hn : t.nu = s.nu) (ht : t.tu = s.tu) (k : FaultKind) (a b : Nat) :
    (t.giveFault k a b).nu = (s.giveFault k a b).nu := by
  unfold State.giveFault
  rw [hn, ht]
  exact State.raise_nu _ rfl

section
variable {s : State} {c : Nat} {x : Ctx} {v : Service}

/-- A GENERATE of a healthy source goes on to its WRAP, which begins service at once (R31). -/
theorem State.Serving.generateDraws (h : s.Serving c x v .generate) (hd : s.xu.disabled = false) :
    let t := s.endService .generate (State.generateEnds true)
    s.GoesOn t c { x with newKey := Config.drawnKey s.xu.draws, wait := .cipherQueue } ∧
      ∃ w : Service, w.ctx = c ∧ w.op = .wrap ∧
        t.xu = { s.xu with failures := 0, draws := s.xu.draws + 1, service := some w } := by
  intro t
  have hgo := generateEnds_healthy (s := s.served c) c x v hd
  have hdrawn := (h.begun.countTest true x.lane x.cell).mod (Ctx.noteDrawn (Config.drawnKey s.xu.draws))
  obtain ⟨hon, hkt, htu, hnu, hwp, hxu⟩ := placeRequest_onward hdrawn h.late ⟨rfl, h.queue⟩ .wrap (by decide) (by decide)
  obtain ⟨hgoes, hunit, -⟩ := h.goesOn (State.generateEnds true) hgo hon nofun rfl rfl
    (by exact (congrArg Xu.queue hxu).trans h.queue) ⟨hkt, htu, hnu⟩ (congrArg Wp.ram hwp)
  exact ⟨hgoes, _, rfl, rfl, hunit.trans hxu⟩

/-- A GENERATE of an unhealthy source fails its order, and the failure is counted and recorded (R82, R83). -/
theorem State.Serving.generateFails (h : s.Serving c x v .generate) (hd : s.xu.disabled = false) :
    let t := s.endService .generate (State.generateEnds false)
    s.OrderEnds t c x .rngFault Res.zero ∧ t.kt = s.kt ∧ t.tu = s.tu ∧ t.wp.ram = s.wp.ram ∧
      t.nu = ((s.giveFault .rngHealth x.lane x.cell).countCompletion x.lane).nu ∧
      t.xu = { s.xu with
        service := none
        failures := s.xu.failures + 1
        disabled := decide (3 ≤ s.xu.failures + 1) } := by
  intro t
  obtain ⟨hends, hkt, htu, hnu, hxu, hram, -⟩ := h.ends (State.generateEnds false) (generateEnds_unhealthy c x v hd)
    (h.begun.countTest false x.lane x.cell) rfl rfl rfl rfl h.plain.erase h.queue rfl h.plain.deferred
  refine ⟨hends, hkt, htu, hram.trans (if_neg (by decide)), hnu.trans ?_, hxu⟩
  rw [State.countTest_unhealthy]
  exact State.countCompletion_nu (by rfl) (State.giveFault_nu (by rfl) (by rfl) ..) (by rfl) x.lane

end

/-- Settles O22. -/
theorem generateEndTestsTheSource : Obligations.GenerateEndTestsTheSource := by
  unfold Obligations.GenerateEndTestsTheSource
  intro s c x v healthy h
  refine ⟨s.endService .generate (State.generateEnds healthy), rfl,
    fun hd => h.refuses (by decide) (generateEnds_disabled healthy c x v hd), ?_, ?_⟩
  · rintro hd rfl
    exact h.generateDraws hd
  · rintro hd rfl
    exact h.generateFails hd

end Sys2Proof.Machine
end

section
/-! Proofs, renewal, part 2: the own checks of the renewal orders, and their refusals (R29, R30, R33, R34, R39, R44). -/

namespace Sys2Proof.Machine

/-! ## Lists of checks -/

/-- Every check holds where none fails. -/
theorem firstFailure_eq_none_iff {l : List (Bool × Code)} : firstFailure l = none ↔ ∀ q ∈ l, q.1 = true := by
  induction l with
  | nil => simp [firstFailure]
  | cons a l ih =>
    obtain ⟨good, code⟩ := a
    cases good <;> simp [firstFailure, ih]

/-- The first failure is one of the checks, and does not hold. -/
theorem mem_of_firstFailure {l : List (Bool × Code)} {code : Code} (h : firstFailure l = some code) :
    (false, code) ∈ l := by
  induction l with
  | nil => exact nomatch h
  | cons a l ih =>
    obtain ⟨good, code'⟩ := a
    cases good with
    | false => exact List.mem_cons.mpr (.inl (by rw [Option.some.inj h]))
    | true => exact List.mem_cons_of_mem _ (ih h)

/-- The first failure of two lists stands in the first, or in the second where the first has none. -/
theorem firstFailure_append_eq_some {l m : List (Bool × Code)} {code : Code} (h : firstFailure (l ++ m) = some code) :
    firstFailure l = some code ∨ (firstFailure l = none ∧ firstFailure m = some code) := by
  rw [firstFailure_append] at h
  exact Option.or_eq_some_iff.mp h

/-! ## The items that the renewal orders share (R30, R34) -/

/-- The items that RENEW_LOCAL and RENEW_REMOTE share, as the records of the slot and of its wrapping source give
them (R29, R30, R34). -/
def sourceChecks (r src : SlotRec) (free : Nat) : List (Bool × Code) :=
  [(r.cls.isSome, .wrongSlotState), (r.staged.isNone, .alreadyStaged),
   (!r.orphaned && (r.parent.isNone || src.cls.isSome), .noParent),
   (src.current.any fun k => r.parent.isNone || !k.expired, .parentExpired), (decide (0 < free), .stagingFull)]

/-- The copy of the parent gives the same first failure as its record: where there is no copy, of an orphaned slot, the
third item fails both ways (R28, R30). -/
theorem firstFailure_renewalChecks {x : Ctx} {r src : SlotRec} {free : Nat}
    (hsrc : r.orphaned = false → wrappingSource x r = src.parentCopy) :
    firstFailure (renewalChecks x r free) = firstFailure (sourceChecks r src free) := by
  unfold renewalChecks sourceChecks
  cases ho : r.orphaned with
  | true => simp only [Bool.not_true, Bool.false_and, firstFailure, Bool.false_eq_true, if_false]
  | false =>
    have hempty : (!(r.parent.isSome && src.parentCopy.empty)) = (r.parent.isNone || src.cls.isSome) := by
      simp [SlotRec.parentCopy, Bool.not_and]
    have hexpired : (src.parentCopy.current.any fun k => r.parent.isNone || !k.expired) =
        src.current.any fun k => r.parent.isNone || !k.expired := by
      rw [SlotRec.parentCopy, Option.any_map]
    dsimp only
    rw [hsrc ho, hempty, hexpired]

/-- A renewal that passes the shared items is of a slot that is not orphaned, and has a CURRENT generation to wrap
under. -/
theorem sourceChecks_passed {r src : SlotRec} {free : Nat} (h : firstFailure (sourceChecks r src free) = none) :
    r.orphaned = false ∧ ∃ k, src.current = some k := by
  have hall := firstFailure_eq_none_iff.mp h
  simp only [sourceChecks, List.forall_mem_cons, Bool.and_eq_true, Bool.not_eq_true'] at hall
  obtain ⟨-, -, ⟨horphaned, -⟩, hcurrent, -⟩ := hall
  obtain ⟨k, hk, -⟩ := (Option.any_eq_true ..).mp hcurrent
  exact ⟨horphaned, k, hk⟩

/-- None of the shared items fails with NO_ROOM. -/
theorem sourceChecks_ne_noRoom {r src : SlotRec} {free : Nat} {code : Code}
    (h : firstFailure (sourceChecks r src free) = some code) : code ≠ .noRoom := by
  rintro rfl
  have hmem := mem_of_firstFailure h
  simp [sourceChecks] at hmem

/-! ## The refusals of each order -/

section
variable {c : Nat} {x : Ctx} {T : State} {r : SlotRec} {code : Code}

/-- A RENEW_LOCAL that fails a shared item is refused with its code (R30). -/
theorem startRenewLocal_refuses (hr : T.slot x.order.slot.toNat = r)
    (h : firstFailure (renewalChecks x r T.poolFree) = some code) : startRenewLocal c x T = T.refuse c code := by
  unfold startRenewLocal
  dsimp only
  rw [hr, h]

/-- A RENEW_LOCAL that has claimed its place and has no room for its blob is refused with the length 40 (R30). -/
theorem startRenewLocal_noRoom {src : SlotRec} {k : Gen} (hr : T.slot x.order.slot.toNat = r)
    (h : firstFailure (renewalChecks x r T.poolFree) = none) (hsrc : wrappingSource x r = src.parentCopy)
    (hk : src.current = some k) (hroom : x.order.output.len.toNat < 40) :
    startRenewLocal c x T = (T.modCtx c Ctx.noteClaim).complete c .noRoom { Res.zero with outLen := 40 } := by
  have hcur : (wrappingSource x r).current = some ⟨k.number, k.expired, k.key⟩ := by
    rw [hsrc, SlotRec.parentCopy, hk]
    rfl
  unfold startRenewLocal
  dsimp only
  rw [hr, h, hcur]
  exact if_pos hroom

/-- A RENEW_REMOTE that fails a shared item is refused with its code (R34). -/
theorem startRenewRemote_refuses (hr : T.slot x.order.slot.toNat = r)
    (h : firstFailure (renewalChecks x r T.poolFree) = some code) : startRenewRemote c x T = T.refuse c code := by
  unfold startRenewRemote
  dsimp only
  rw [hr, h]

/-- The generation of a wrapping source that a blob names (R34). -/
def SlotRec.namedBy (src : SlotRec) (blob : Nat) : Option Gen :=
  (src.current.toList ++ src.outgoing.toList).find? fun k => k.number = BitVec.ofNat 16 (fieldAt blob 6 2)

/-- The items of RENEW_REMOTE over its blob, once the shared ones have passed (R33, R34). -/
def blobChecks (r src : SlotRec) (len blob : Nat) : List (Bool × Code) :=
  [(decide (len = 40), .badExtent),
   (decide (BitVec.ofNat 32 (fieldAt blob 0 4) = r.label), .labelMismatch),
   (classOf (BitVec.ofNat 8 (fieldAt blob 8 1)) == r.cls, .wrongClass),
   (decide (BitVec.ofNat 16 (fieldAt blob 4 2) = r.nextNumber), .genMismatch),
   ((src.namedBy blob).isSome, .unknownGeneration),
   ((src.namedBy blob).any fun k => r.parent.isNone || !k.expired, .parentExpired),
   (decide (fieldAt blob 9 7 = 0), .unwrapFailed)]

/-- The generation that a blob names in the copy of its source is the one of the record. -/
theorem namedBy_parentCopy (src : SlotRec) (blob : Nat) :
    ((src.parentCopy.current.toList ++ src.parentCopy.outgoing.toList).find? fun k =>
      k.number = BitVec.ofNat 16 (fieldAt blob 6 2)) =
      (src.namedBy blob).map fun g => ⟨g.number, g.expired, g.key⟩ := by
  unfold SlotRec.namedBy SlotRec.parentCopy
  dsimp only
  rw [Option.toList_map, Option.toList_map, ← List.map_append, List.find?_map]
  rfl

/-- A RENEW_REMOTE that has claimed its place and fails an item over its blob is refused with its code (R34). -/
theorem startRenewRemote_refusesBlob {src : SlotRec} (hr : T.slot x.order.slot.toNat = r)
    (h : firstFailure (renewalChecks x r T.poolFree) = none) (hsrc : wrappingSource x r = src.parentCopy)
    (hblob : firstFailure (blobChecks r src x.order.input.len.toNat (ofBytes (T.readExtent x.order.input))) = some code) :
    startRenewRemote c x T = (T.modCtx c Ctx.noteClaim).refuse c code := by
  have hread : (T.modCtx c fun x => { x with poolClaim := true }).readExtent x.order.input =
      T.readExtent x.order.input := rfl
  unfold startRenewRemote
  dsimp only
  rw [hr, h]
  dsimp only
  by_cases hlen : x.order.input.len.toNat = 40
  · rw [if_neg (not_not.mpr hlen), hread, hsrc, namedBy_parentCopy]
    simp only [blobChecks, hlen, decide_true, firstFailure, if_true] at hblob
    simp only [Option.isSome_map, Option.any_map, firstFailure, hblob]
    rfl
  · simp only [blobChecks, hlen, decide_false, firstFailure, Bool.false_eq_true, if_false, Option.some.injEq] at hblob
    rw [if_pos hlen, ← hblob]
    rfl

/-- A RENEW_CONFIRM that fails an item is refused with its code (R39). -/
theorem startRenewConfirm_refuses (h : firstFailure (stagedChecks x (T.slot x.order.slot.toNat)) = some code) :
    startRenewConfirm c x T = T.refuse c code := by
  unfold startRenewConfirm
  rw [h]

/-- A RENEW_CANCEL that fails an item is refused with its code (R44). -/
theorem startRenewCancel_refuses (h : firstFailure (stagedChecks x (T.slot x.order.slot.toNat)) = some code) :
    startRenewCancel c x T = T.refuse c code := by
  unfold startRenewCancel
  rw [h]

end

/-! ## The refusals of posted orders -/

section
variable {s : State} {lane : Nat} {p : PlanLane} {k : Kind} {o : OrderFields} {r src : SlotRec} {code : Code}

/-- An order that has claimed a place of the staging pool and is then refused completes at once, and its claim goes with
it (R26, R170). -/
theorem State.Quiet.refusesClaimed (h : s.Quiet lane p) (hp : s.PassesCommon k o) {res : Res}
    (hd : (s.slot o.slot.toNat).deferred = Deferred.none)
    (hstart : ∀ T, Taken s T lane p k.code o →
      startKind k 0 (s.orderTaken lane p k o) T = (T.modCtx 0 Ctx.noteClaim).complete 0 code res) :
    ∃ t, exec (k.command lane o) s = .next t ∧ s.EndsAtOnce t lane p k.code o code res := by
  have tk := State.taken_takenIn h.toQuietLane k.code o
  exact ⟨_, exec_command .., State.post_ends_mod h rfl Ctx.noteClaim
    (fun _ => ⟨rfl, rfl, rfl, rfl, rfl, rfl, rfl, rfl, rfl, rfl, rfl⟩)
    ((State.startOrder_taken h tk hp).trans (hstart _ tk)) hd⟩

/-- The items that a posted renewal order shares are judged on the record of its wrapping source. -/
theorem State.Quiet.sharedItems (h : s.Quiet lane p) (hp : s.PassesCommon k o) (hk : k = .renewLocal ∨ k = .renewRemote)
    (hr : s.slot o.slot.toNat = r) (hsrc : s.wrapsUnder r = src) :
    (r.orphaned = false → wrappingSource (s.orderTaken lane p k o) r = src.parentCopy) ∧
    ∀ T, Taken s T lane p k.code o → firstFailure (renewalChecks (s.orderTaken lane p k o) r T.poolFree) =
      firstFailure (sourceChecks r src s.poolFree) := by
  have hnames : k.namesSlot = true := by rcases hk with rfl | rfl <;> rfl
  have hcopy : r.orphaned = false → wrappingSource (s.orderTaken lane p k o) r = src.parentCopy := fun ho => by
    have hw := State.wrappingSource_taken (s := s) hk lane p (hp.slot hnames) (by rw [hr]; exact ho)
    rwa [hr, hsrc] at hw
  exact ⟨hcopy, fun T tk => by rw [tk.poolFree h.toQuietLane, firstFailure_renewalChecks hcopy]⟩

/-- A posted RENEW_LOCAL refuses with the code of its first item that fails (R30). -/
theorem State.Quiet.renewLocal_refuses (h : s.Quiet lane p) (hp : s.PassesCommon .renewLocal o)
    (hr : s.slot o.slot.toNat = r) (hd : r.deferred = Deferred.none) (hsrc : s.wrapsUnder r = src)
    (hf : firstFailure (sourceChecks r src s.poolFree ++ [(decide (40 ≤ o.output.len.toNat), .noRoom)]) = some code) :
    ∃ t, exec (.renewLocal lane o) s = .next t ∧ s.EndsAtOnce t lane p Kind.renewLocal.code o code
      (if code = .noRoom then { Res.zero with outLen := 40 } else Res.zero) := by
  obtain ⟨hcopy, hshared⟩ := h.sharedItems hp (.inl rfl) hr hsrc
  have hd' : (s.slot o.slot.toNat).deferred = Deferred.none := by rw [hr]; exact hd
  rcases firstFailure_append_eq_some hf with hfirst | ⟨hnone, hroom⟩
  · rw [if_neg (sourceChecks_ne_noRoom hfirst)]
    exact h.refuses (k := .renewLocal) hp hd' fun T tk =>
      startRenewLocal_refuses ((State.slot_congr tk.kt _).trans hr) ((hshared T tk).trans hfirst)
  · obtain ⟨ho, g, hg⟩ := sourceChecks_passed hnone
    have hmem := mem_of_firstFailure hroom
    simp only [List.mem_singleton, Prod.mk.injEq] at hmem
    obtain ⟨hlen, rfl⟩ := hmem
    exact h.refusesClaimed (k := .renewLocal) hp hd' fun T tk =>
      startRenewLocal_noRoom ((State.slot_congr tk.kt _).trans hr) ((hshared T tk).trans hnone) (hcopy ho) hg
        (Nat.lt_of_not_le (of_decide_eq_false hlen.symm))

/-- A posted RENEW_REMOTE refuses with the code of its first item that fails (R33, R34). -/
theorem State.Quiet.renewRemote_refuses (h : s.Quiet lane p) (hp : s.PassesCommon .renewRemote o)
    (hr : s.slot o.slot.toNat = r) (hd : r.deferred = Deferred.none) (hsrc : s.wrapsUnder r = src)
    (hf : firstFailure (sourceChecks r src s.poolFree ++
      blobChecks r src o.input.len.toNat (ofBytes (s.readExtent o.input))) = some code) :
    ∃ t, exec (.renewRemote lane o) s = .next t ∧ s.EndsAtOnce t lane p Kind.renewRemote.code o code Res.zero := by
  obtain ⟨hcopy, hshared⟩ := h.sharedItems hp (.inr rfl) hr hsrc
  have hd' : (s.slot o.slot.toNat).deferred = Deferred.none := by rw [hr]; exact hd
  rcases firstFailure_append_eq_some hf with hfirst | ⟨hnone, hblob⟩
  · exact h.refuses (k := .renewRemote) hp hd' fun T tk =>
      startRenewRemote_refuses ((State.slot_congr tk.kt _).trans hr) ((hshared T tk).trans hfirst)
  · obtain ⟨ho, -⟩ := sourceChecks_passed hnone
    exact h.refusesClaimed (k := .renewRemote) hp hd' fun T tk =>
      startRenewRemote_refusesBlob ((State.slot_congr tk.kt _).trans hr) ((hshared T tk).trans hnone) (hcopy ho)
        (by rw [State.orderTaken_order, tk.readExtent]; exact hblob)

end

/-- Settles O16. -/
theorem renewalOrdersRefuseInOrder : Obligations.RenewalOrdersRefuseInOrder := by
  unfold Obligations.RenewalOrdersRefuseInOrder
  intro s lane p o r src code h hr hd hanchor hchild renewal blob named staged
  have hsrc : s.wrapsUnder r = src := by
    unfold State.wrapsUnder
    cases hq : r.parent with
    | none => exact (hanchor hq).symm
    | some q => exact (hchild q hq).symm
  have hd' : (s.slot o.slot.toNat).deferred = Deferred.none := by rw [hr]; exact hd
  refine ⟨fun hp hf => h.renewLocal_refuses hp hr hd hsrc hf, fun hp hf => h.renewRemote_refuses hp hr hd hsrc hf,
    fun hp hf => h.refuses (k := .renewConfirm) hp hd' fun T tk => startRenewConfirm_refuses ?_,
    fun hp hf => h.refuses (k := .renewCancel) hp hd' fun T tk => startRenewCancel_refuses ?_⟩
  · rw [State.orderTaken_order, State.slot_congr tk.kt, hr]
    exact hf
  · rw [State.orderTaken_order, State.slot_congr tk.kt, hr]
    exact hf

end Sys2Proof.Machine
end

section
/-! Proofs, the counters, part 1: every command, and so every step, keeps the laws of the state (`Keeps`), and with them the
order of the counters (R53, R61). -/

namespace Sys2Proof.Machine

/-! ## The ends of cipher requests -/

theorem State.wrapEnds_does (s : State) (c : Nat) (x : Ctx) (v : Service) : Does s (s.wrapEnds c x v) := by
  unfold State.wrapEnds
  split <;> exact (State.placeRecord_does ..).of (State.modCtx_does ..)

theorem State.unwrapEnds_does (s : State) (c : Nat) (x : Ctx) (v : Service) : Does s (s.unwrapEnds c x v) := by
  unfold State.unwrapEnds
  exact Does.ite (State.placeRecord_does ..) (State.refuse_does ..)

theorem State.protectEnds_does (s : State) (c : Nat) (x : Ctx) (v : Service) : Does s (s.protectEnds c x v) := by
  unfold State.protectEnds
  exact Does.ite (State.complete_does ..) ((State.complete_does ..).of (State.modCtx_does ..))

theorem State.verifyEnds_does (s : State) (c : Nat) (x : Ctx) (v : Service) : Does s (s.verifyEnds c x v) := by
  unfold State.verifyEnds
  exact Does.ite ((State.admitVerified_does ..).of (State.modCtx_does ..)) (State.complete_does ..)

theorem State.generateEnds_does (healthy : Bool) (s : State) (c : Nat) (x : Ctx) (v : Service) :
    Does s (s.generateEnds healthy c x v) := by
  unfold State.generateEnds
  refine Does.ite (State.refuse_does ..) (Does.ite ?_ ?_)
  · exact (State.placeRequest_does ..).of ((State.modCtx_does ..).of (State.countTest_does ..))
  · exact (State.refuse_does ..).of (State.countTest_does ..)

theorem State.tokenEnds_does (s : State) (c : Nat) (x : Ctx) (v : Service) : Does s (s.tokenEnds c x v) := by
  unfold State.tokenEnds
  exact Does.ite (Does.ite (State.placeRecord_does ..) (State.refuse_does ..)) (State.refuse_does ..)

/-! ## Bus writes -/

theorem State.busWrite_keeps (s : State) (a v : Half) : Keeps s (s.busWrite a v) := by
  unfold State.busWrite
  refine Keeps.ite (State.writeWindow_keeps ..) (Keeps.ite ?_
    (Keeps.ite (State.writeNudge_keeps ..) (Keeps.ite (State.writeAcknowledge_keeps ..) (Keeps.refl s))))
  split
  · exact State.writeCommand_keeps ..
  · exact State.writeCommand_keeps ..
  · exact State.writeCommand_keeps ..
  · exact State.writeCommand_keeps ..
  · exact Keeps.refl s

/-! ## Commands -/

/-- A command answers a next state, which keeps the laws. -/
def Answers (s : State) (o : Host.Outcome State Fault Refusal) : Prop := ∃ t, o = .next t ∧ Keeps s t

theorem Answers.next {s t : State} (h : Keeps s t) : Answers s (.next t) := ⟨t, rfl, h⟩

theorem Answers.ite {s : State} {p : Prop} [Decidable p] {a b : Host.Outcome State Fault Refusal} (ha : Answers s a)
    (hb : Answers s b) : Answers s (if p then a else b) := by split <;> assumption

theorem execUnitProgrammed_answers (r : Option NvUnit) (s : State) : Answers s (execUnitProgrammed r s) :=
  Answers.ite (.next ((State.goOn_keeps _).of (State.unitEnds_keeps ..))) (.next (Keeps.refl s))

theorem execGroupCommit_answers (s : State) : Answers s (execGroupCommit s) :=
  Answers.ite (.next ((State.goOn_keeps _).of (State.unitEnds_keeps ..))) (.next (Keeps.refl s))

theorem execBaseCommit_answers (s : State) : Answers s (execBaseCommit s) :=
  Answers.ite (.next ((State.goOn_keeps _).of (State.unitEnds_keeps ..))) (.next (Keeps.refl s))

theorem execBankEraseEnd_answers (bad : Option Nat) (s : State) : Answers s (execBankEraseEnd bad s) := by
  unfold execBankEraseEnd
  cases s.ju.erasing with
  | none => exact .next (Keeps.refl s)
  | some bk =>
    have h : Keeps s { s with ju := { s.ju with erasing := none } } := (Keeps.refl s).withJu _
    cases bad with
    | none => exact .next ((State.goOn_keeps _).of ((State.setBankState_keeps ..).of ((State.setUnits_keeps ..).of h)))
    | some u => exact .next ((State.goOn_keeps _).of ((State.nvFatal_keeps ..).of h))

theorem execTemperatureReading_answers (m : Int) (s : State) : Answers s (execTemperatureReading m s) :=
  Answers.ite (.next (Keeps.refl s)) (Answers.ite
    (.next ((State.goOn_keeps _).of ((State.raise_keeps ..).of ((Keeps.refl s).withJu _))))
    (Answers.ite (.next ((State.goOn_keeps _).of ((Keeps.refl s).withJu _))) (.next (State.goOn_keeps s))))

theorem execTamperInputChange_answers (i : TamperInput) (a : Bool) (s : State) :
    Answers s (execTamperInputChange i a s) :=
  Answers.ite (.next (State.setTamper_keeps ..)) (.next (State.setTamper_keeps ..))

theorem execTamperFilterExpiry_answers (i : TamperInput) (s : State) : Answers s (execTamperFilterExpiry i s) := by
  unfold execTamperFilterExpiry
  cases (s.tamper i).timer with
  | none => exact .next (Keeps.refl s)
  | some _ => exact .next ((State.finish_keeps _).of (State.tamperEvent_keeps ..))

theorem execTickEdge_answers (s : State) : Answers s (execTickEdge s) := by
  unfold execTickEdge
  extract_lets t back _ t1 _ t2
  have h1 : Keeps s t1 := (State.countSecond_keeps s).withTu _ rfl
  have h2 : Keeps s t2 := Keeps.ite ((State.raise_keeps ..).of (h1.withTu _ rfl)) h1
  exact Answers.ite (.next ((State.finish_keeps _).of h2)) (.next (Keeps.refl s))

theorem execTickLossTimeout_answers (s : State) : Answers s (execTickLossTimeout s) := by
  unfold execTickLossTimeout
  extract_lets t _ t1
  have h0 : Keeps s t := ((State.countSecond_keeps _).of (State.countSecond_keeps s)).together s
  have h1 : Keeps s t1 := h0.withTu _ rfl
  exact Answers.ite (.next ((State.finish_keeps _).of ((State.raise_keeps ..).of h1))) (.next (Keeps.refl s))

theorem execInternalSecond_answers (s : State) : Answers s (execInternalSecond s) :=
  Answers.ite (.next ((State.finish_keeps _).of (State.countSecond_keeps s))) (.next (Keeps.refl s))

theorem execBudgetExpiry_answers (c : Nat) (s : State) : Answers s (execBudgetExpiry c s) := by
  unfold execBudgetExpiry
  cases s.ctx c with
  | none => exact .next (Keeps.refl s)
  | some x =>
    have h : Keeps s (s.modCtx c fun x => { x with late := true }) := (State.modCtx_does ..).keeps
    exact Answers.ite (Answers.ite
      (.next ((State.finish_keeps _).of ((State.serve_keeps _).of ((State.endOrder_does ..).keeps.of h)))) (.next h))
      (.next (Keeps.refl s))

theorem execScanPeriodExpiry_answers (s : State) : Answers s (execScanPeriodExpiry s) := by
  unfold execScanPeriodExpiry
  cases s.od.scanTimer with
  | none => exact .next (Keeps.refl s)
  | some _ =>
    exact .next ((State.finish_keeps _).of ((State.serve_keeps _).of ((State.wantScan_does ..).keeps.of
      ((Keeps.refl s).withOd _))))

theorem execCoalescingDelayExpiry_answers (l : Nat) (s : State) : Answers s (execCoalescingDelayExpiry l s) := by
  unfold execCoalescingDelayExpiry
  cases (s.coalescing l).timer with
  | none => exact .next (Keeps.refl s)
  | some _ => exact .next ((State.raise_keeps ..).of (State.setCoalescing_does ..).keeps)

/-- Every command answers a next state, which keeps the laws of the state and the queue of commands. -/
theorem exec_answers (c : Instr) (s : State) : Answers s (exec c s) := by
  have ends : ∀ (op : CipherOp) (go : State → Nat → Ctx → Service → State), (∀ t c x v, Does t (go t c x v)) →
      Answers s (.next (s.endService op go)) :=
    fun op go h => .next (State.endService_keeps s op go fun t c x v => (h t c x v).keeps)
  have posts : ∀ k n o, Answers s (.next (s.post k n o)) := fun k n o => .next (State.post_keeps ..)
  cases c with
  | start => exact .next (State.writeCommand_keeps ..)
  | stop => exact .next (State.writeCommand_keeps ..)
  | applyPlan => exact .next (State.writeCommand_keeps ..)
  | clearFault => exact .next (State.writeCommand_keeps ..)
  | nudge v => exact .next (State.writeNudge_keeps ..)
  | noticeAcknowledge v => exact .next (State.writeAcknowledge_keeps ..)
  | registerWriteIgnored a v => exact .next (State.busWrite_keeps ..)
  | defineSlot l o => exact posts ..
  | installAnchor l o => exact posts ..
  | readSlot l o => exact posts ..
  | setPolicy l o => exact posts ..
  | adopt l o => exact posts ..
  | retireSlot l o => exact posts ..
  | renewLocal l o => exact posts ..
  | renewRemote l o => exact posts ..
  | renewConfirm l o => exact posts ..
  | renewCancel l o => exact posts ..
  | protectFrame l o => exact posts ..
  | admitFrame l o => exact posts ..
  | setTime l o => exact posts ..
  | sync l o => exact posts ..
  | unlock l o => exact posts ..
  | wrapEnd => exact ends _ _ State.wrapEnds_does
  | unwrapEnd => exact ends _ _ State.unwrapEnds_does
  | protectEnd => exact ends _ _ State.protectEnds_does
  | verifyEnd => exact ends _ _ State.verifyEnds_does
  | generateEnd h => exact ends _ _ (State.generateEnds_does h)
  | tokenCheckEnd => exact ends _ _ State.tokenEnds_does
  | unitProgrammed r => exact execUnitProgrammed_answers ..
  | groupCommit => exact execGroupCommit_answers s
  | baseCommit => exact execBaseCommit_answers s
  | bankEraseEnd bad => exact execBankEraseEnd_answers ..
  | temperatureReading m => exact execTemperatureReading_answers ..
  | tickEdge => exact execTickEdge_answers s
  | tickLossTimeout => exact execTickLossTimeout_answers s
  | internalSecond => exact execInternalSecond_answers s
  | supplyWarnAsserted => exact .next (State.warnAsserted_keeps s)
  | supplyWarnNegated => exact .next (State.warnNegated_keeps s)
  | powerOnReset b => exact Answers.ite (.next (State.holdReset_keeps ..)) (.next (State.leaveReset_keeps ..))
  | pinReset b => exact .next (State.leaveReset_keeps ..)
  | resetnAsserted => exact Answers.ite (.next (Keeps.refl s)) (.next (State.holdReset_keeps ..))
  | tamperInputChange i a => exact execTamperInputChange_answers ..
  | tamperFilterExpiry i => exact execTamperFilterExpiry_answers ..
  | budgetExpiry c => exact execBudgetExpiry_answers ..
  | scanPeriodExpiry => exact execScanPeriodExpiry_answers s
  | coalescingDelayExpiry l => exact execCoalescingDelayExpiry_answers ..

/-! ## Steps -/

theorem State.idle_keeps (s : State) : Keeps s s.idle := by
  unfold State.idle
  extract_lets t
  have h : Keeps s t := Keeps.of_eq rfl rfl rfl rfl rfl
  exact Keeps.ite h (Keeps.ite ((State.finish_keeps _).of ((State.runBoot_keeps ..).of h)) h)

/-- A step keeps what is said of the state but for its queue of commands, where every command and the idle step do. -/
theorem step_keeps_of {P : State → Prop} (hq : ∀ s l, P s → P { s with pending := l })
    (hk : ∀ s t, Keeps s t → P s → P t) {s t : State} (hs : P s) (h : step s = .next t) : P t := by
  unfold step at h
  cases hp : s.pending with
  | nil =>
    rw [hp] at h
    cases h
    exact hk _ _ (State.idle_keeps s) hs
  | cons c rest =>
    rw [hp] at h
    obtain ⟨u, hu, hku⟩ := exec_answers c { s with pending := rest }
    cases hu.symm.trans h
    exact hk _ _ hku (hq s rest hs)

/-- Settles O30. -/
theorem stepKeepsTheCounterLaw : Obligations.StepKeepsTheCounterLaw := by
  unfold Obligations.StepKeepsTheCounterLaw
  intro s t hs h
  exact step_keeps_of (P := State.countersLawful) (fun _ _ h => h) (fun _ _ k => k.counters) hs h

end Sys2Proof.Machine
end

section
/-! Proofs, the counters, part 2: the outbound counter operations (R53, R55 to R59, R67, R68) and the inbound window
(R62, R63). -/

namespace Sys2Proof.Machine

/-! ## The outbound counters -/

namespace Counters.Ordered
variable {k : Counters} {hard : Nat}

theorem takeValue (h : k.Ordered hard) (hk : k.next < k.durCeil) : k.takeValue.Ordered hard :=
  ⟨Nat.le_add_left .., hk, h.ceil, h.hard⟩

theorem reserve (h : k.Ordered hard) : (k.reserve hard).Ordered hard where
  one := h.one
  next := h.next
  ceil := Nat.le_min.2 ⟨Nat.le_add_right .., h.ceil.trans h.hard⟩
  hard := Nat.min_le_right ..

/-- The new hard limit lies at or above the highest value handed out (R19). -/
theorem lower (h : k.Ordered hard) {new : Nat} (_ : k.next ≤ new + 1) : (k.lower new).Ordered new where
  one := Nat.le_min.2 ⟨h.one, Nat.le_add_left ..⟩
  next := Nat.le_min.2 ⟨(Nat.min_le_left ..).trans h.next, Nat.min_le_right ..⟩
  ceil := Nat.le_min.2 ⟨(Nat.min_le_left ..).trans h.ceil, Nat.min_le_right ..⟩
  hard := Nat.min_le_right ..

/-- A restart of whatever record has a ceiling of 1 or more within the hard limit. -/
theorem restart_of (h1 : 1 ≤ k.durCeil) (h2 : k.durCeil ≤ hard + 1) : k.restart.Ordered hard :=
  ⟨h1, Nat.le_refl _, Nat.le_refl _, h2⟩

theorem restart (h : k.Ordered hard) : k.restart.Ordered hard :=
  restart_of (h.one.trans h.next) (h.ceil.trans h.hard)

theorem recover (hard : Nat) : (k.recover hard).Ordered hard :=
  restart_of (Nat.le_min.2 ⟨Nat.le_add_left_of_le (by decide), Nat.le_add_left ..⟩) (Nat.min_le_right ..)

theorem commit (h : k.Ordered hard) (ceiling mark : Nat) : (k.commit hard ceiling mark).Ordered hard where
  one := h.one
  next := h.next.trans (Nat.le_max_left ..)
  ceil := Nat.le_max_right ..
  hard := Nat.max_le.2 ⟨h.hard, Nat.max_le.2 ⟨h.ceil.trans h.hard, Nat.min_le_right ..⟩⟩

theorem fresh (hard : Nat) : (Counters.fresh hard).Ordered hard where
  one := Nat.le_refl _
  next := Nat.le_min.2 ⟨show 1 ≤ 4097 by decide, Nat.le_add_left ..⟩
  ceil := Nat.le_refl _
  hard := Nat.min_le_right ..

end Counters.Ordered

/-- Settles O57. -/
theorem counterOperationsKeepTheOrder : Obligations.CounterOperationsKeepTheOrder := by
  unfold Obligations.CounterOperationsKeepTheOrder
  intro k hard ceiling mark h
  exact ⟨h.takeValue, h.reserve, fun _ => h.lower, h.restart, rfl, .recover hard, rfl, rfl, h.commit ceiling mark, rfl,
    rfl, fun h _ => .fresh h⟩

/-! ## The inbound window -/

/-- The window has passed the value, or marks it as admitted (R62). -/
def Counters.Spent (k : Counters) (c : Nat) : Prop :=
  c ≤ k.top ∧ (k.top - c < 64 → k.mask.getLsbD (k.top - c) = true)

theorem Counters.check_ne_none_of_spent {k : Counters} {c : Nat} (h : k.Spent c) : k.check c ≠ none := by
  obtain ⟨hle, hbit⟩ := h
  unfold Counters.check
  by_cases h0 : c = 0
  · simp [h0]
  · rw [if_neg h0, if_neg (by omega)]
    by_cases hfar : 64 ≤ k.top - c
    · simp [hfar]
    · simp [hfar, hbit (by omega)]

theorem Counters.admitted_spends (k : Counters) (c : Nat) : (k.admitted c).Spent c := by
  unfold Counters.admitted
  split
  · refine ⟨Nat.le_refl _, fun _ => ?_⟩
    dsimp only
    rw [Nat.sub_self]
    split
    · rfl
    · simp
  · refine ⟨by dsimp only; omega, fun hnear => ?_⟩
    dsimp only at hnear ⊢
    simp [hnear]

/-- A value that is spent stays so, whatever value is admitted: the mask moves by as much as the top does. -/
theorem Counters.Spent.admitted {k : Counters} {c : Nat} (h : k.Spent c) (d : Nat) : (k.admitted d).Spent c := by
  obtain ⟨hle, hbit⟩ := h
  unfold Counters.admitted
  split
  · refine ⟨by dsimp only; omega, fun hnear => ?_⟩
    dsimp only at hnear ⊢
    have hshift : d - c - (d - k.top) = k.top - c := by omega
    rw [if_neg (by omega), BitVec.getLsbD_or, BitVec.getLsbD_shiftLeft, hshift, hbit (by omega)]
    simp [hnear, show ¬d - c < d - k.top by omega]
  · refine ⟨hle, fun hnear => ?_⟩
    dsimp only at hnear ⊢
    rw [BitVec.getLsbD_or, hbit hnear, Bool.true_or]

theorem Counters.Spent.foldl_admitted {k : Counters} {c : Nat} (h : k.Spent c) (later : List Nat) :
    (later.foldl Counters.admitted k).Spent c := by
  induction later generalizing k with
  | nil => exact h
  | cons d later ih => exact ih (h.admitted d)

/-- Settles O58: a value that is admitted is spent, and stays so. -/
theorem windowAdmitsNoValueTwice : Obligations.WindowAdmitsNoValueTwice := by
  unfold Obligations.WindowAdmitsNoValueTwice
  intro k c later _
  exact Counters.check_ne_none_of_spent ((k.admitted_spends c).foldl_admitted later)

end Sys2Proof.Machine
end

section
/-! Proofs, the counters, part 3: a SLOT_IMAGE gives back the slot record (R187, 12.6). -/

namespace Sys2Proof.Machine

/-! ## Fields of a layout -/

/-- A field of a field. -/
theorem fieldAt_fieldAt (x : Nat) {off size d n : Nat} (h : d + n ≤ size) :
    fieldAt (fieldAt x off size) d n = fieldAt x (off + d) n := by
  unfold fieldAt
  apply Nat.eq_of_testBit_eq
  intro i
  simp only [Nat.testBit_mod_two_pow, Nat.testBit_shiftRight]
  by_cases hi : i < 8 * n
  · have e : 8 * off + (8 * d + i) = 8 * (off + d) + i := by omega
    simp [hi, e, show 8 * d + i < 8 * size by omega]
  · simp [hi]

/-- What the flag byte of an image says (12.6). -/
theorem testBit_flags (a b c d e f g : Bool) :
    let n := flagNat a + 2 * flagNat b + 4 * flagNat c + 8 * flagNat d + 16 * flagNat e + 32 * flagNat f + 64 * flagNat g
    n < 256 ∧ n.testBit 0 = a ∧ n.testBit 1 = b ∧ n.testBit 2 = c ∧ n.testBit 3 = d ∧ n.testBit 4 = e ∧
      n.testBit 5 = f ∧ n.testBit 6 = g := by
  revert a b c d e f g
  decide

theorem classOf_code (cls : SlotClass) : classOf (BitVec.ofNat 8 cls.code) = some cls := by
  cases cls <;> rfl

/-! ## The fields of a SLOT_IMAGE -/

/-- The flag byte of a SLOT_IMAGE. -/
def SlotRec.imageFlags (r : SlotRec) : Nat :=
  flagNat r.renewDue + 2 * flagNat r.policy.autoConfirm + 4 * flagNat r.current.isSome + 8 * flagNat r.staged.isSome +
    16 * flagNat r.outgoing.isSome + 32 * (r.current.map fun g => flagNat g.expired).getD 0 +
    64 * (r.outgoing.map fun g => flagNat g.expired).getD 0

/-- The fields of a SLOT_IMAGE: offset, size and value (12.6). -/
def imageFields (slot : Nat) (r : SlotRec) : List (Nat × Nat × Nat) :=
  let cur (f : Gen → Nat) : Nat := (r.current.map f).getD 0
  let sta (f : Gen → Nat) : Nat := (r.staged.map f).getD 0
  let out (f : Gen → Nat) : Nat := (r.outgoing.map f).getD 0
  [(0x00, 1, 1), (0x01, 1, slot), (0x02, 1, r.state.code), (0x03, 1, (r.cls.map SlotClass.code).getD 0),
    (0x04, 1, r.parent.getD 255), (0x05, 1, r.imageFlags), (0x06, 1, r.policy.fraction), (0x07, 1, r.policy.margin),
    (0x08, 4, r.label.toNat), (0x0C, 4, r.policy.lifetime), (0x10, 4, r.policy.hard),
    (0x14, 3, r.policy.window), (0x17, 3, r.policy.grace), (0x1A, 2, r.last.toNat),
    (0x1C, 2, cur fun g => g.number.toNat), (0x1E, 2, out fun g => g.number.toNat),
    (0x20, 4, cur (·.issued)), (0x24, 4, sta (·.opened)), (0x28, 4, out (·.issued)),
    (0x2C, 4, out (·.renewAt)), (0x30, 4, out (·.expiresAt)), (0x34, 4, out (·.graceDue)),
    (0x38, 8, imageCounters r.cls r.current), (0x40, 8, imageCounters r.cls r.staged),
    (0x48, 8, imageCounters r.cls r.outgoing),
    (0x50, 16, cur fun g => g.key.toNat), (0x60, 16, sta fun g => g.key.toNat), (0x70, 16, out fun g => g.key.toNat)]

theorem imageNat_eq (slot : Nat) (r : SlotRec) : imageNat slot r = packFields (imageFields slot r) := rfl

theorem imageFields_rise (slot : Nat) (r : SlotRec) : fieldsRise 128 0 (imageFields slot r) = true := rfl

/-- A value that fits its field reads back from the image. -/
theorem fieldAt_imageNat {slot : Nat} {r : SlotRec} {off size v : Nat} (hm : (off, size, v) ∈ imageFields slot r)
    (hv : v < 2 ^ (8 * size)) : fieldAt (imageNat slot r) off size = v := by
  rw [imageNat_eq, fieldAt_packFields (imageFields_rise slot r) hm, Nat.mod_eq_of_lt hv]

/-- A field of bits reads back from the image. -/
theorem ofNat_fieldAt_imageNat {slot : Nat} {r : SlotRec} {off size w : Nat} {x : BitVec w} (hw : w = 8 * size)
    (hm : (off, size, x.toNat) ∈ imageFields slot r) : BitVec.ofNat w (fieldAt (imageNat slot r) off size) = x :=
  ofNat_fieldAt (imageFields_rise slot r) hw hm

theorem flagNat_any (o : Option Gen) (p : Gen → Bool) : (o.map fun g => flagNat (p g)).getD 0 = flagNat (o.any p) := by
  cases o <;> rfl

theorem SlotRec.imageFlags_bits (r : SlotRec) :
    r.imageFlags < 256 ∧ r.imageFlags.testBit 0 = r.renewDue ∧ r.imageFlags.testBit 1 = r.policy.autoConfirm ∧
      r.imageFlags.testBit 2 = r.current.isSome ∧ r.imageFlags.testBit 3 = r.staged.isSome ∧
      r.imageFlags.testBit 4 = r.outgoing.isSome ∧ r.imageFlags.testBit 5 = r.current.any (·.expired) ∧
      r.imageFlags.testBit 6 = r.outgoing.any (·.expired) := by
  unfold SlotRec.imageFlags
  rw [flagNat_any, flagNat_any]
  exact testBit_flags ..

/-- The counters of a generation read back from the image of its slot at their durable values (R52). -/
theorem readCounters_imageNat {slot : Nat} {r : SlotRec} {off : Nat} {g : Gen}
    (hm : (off, 8, imageCounters r.cls (some g)) ∈ imageFields slot r) (hg : g.ctr.fits) :
    readCounters r.cls (imageNat slot r) off = g.ctr.imaged r.cls := by
  obtain ⟨hc, hq⟩ := hg
  unfold readCounters Counters.imaged
  cases hcls : r.cls with
  | none => rfl
  | some cls =>
    cases cls with
    | transport => rfl
    | frame =>
      rw [hcls] at hm
      have rise : fieldsRise 8 0 [(0, 4, g.ctr.ceil), (4, 4, g.ctr.reqMark)] = true := rfl
      have whole : fieldAt (imageNat slot r) off 8 = packFields [(0, 4, g.ctr.ceil), (4, 4, g.ctr.reqMark)] :=
        fieldAt_imageNat hm (by have := packFields_lt rise; change _ + 1 ≤ _ at this; exact this)
      have ceil : fieldAt (imageNat slot r) off 4 = g.ctr.ceil := by
        rw [← Nat.add_zero off, ← fieldAt_fieldAt _ (size := 8) (by decide), whole,
          fieldAt_packFields rise (List.mem_cons_self ..)]
        exact Nat.mod_eq_of_lt hc
      have mark : fieldAt (imageNat slot r) (off + 4) 4 = g.ctr.reqMark := by
        rw [← fieldAt_fieldAt _ (size := 8) (by decide), whole,
          fieldAt_packFields rise (List.mem_cons_of_mem _ (List.mem_cons_self ..))]
        exact Nat.mod_eq_of_lt hq
      simp only [ceil, mark]

/-! ## The parts of the slot record -/

section
variable {slot : Nat} {r : SlotRec}

theorem fieldAt_imageNat_state (h : r.Imageable) : fieldAt (imageNat slot r) 0x02 1 ≠ 0 := by
  obtain ⟨cls, hcls⟩ := Option.ne_none_iff_exists'.mp h.defined
  have hs : r.state.code = 1 ∨ r.state.code = 2 := by
    unfold SlotRec.state
    rw [hcls]
    cases r.current
    · exact Or.inl rfl
    · exact Or.inr rfl
  have e : fieldAt (imageNat slot r) 0x02 1 = r.state.code := fieldAt_imageNat (by simp [imageFields]) (by omega)
  omega

theorem classOf_imageNat (h : r.Imageable) : classOf (BitVec.ofNat 8 (fieldAt (imageNat slot r) 0x03 1)) = r.cls := by
  obtain ⟨cls, hcls⟩ := Option.ne_none_iff_exists'.mp h.defined
  have hv : (r.cls.map SlotClass.code).getD 0 = cls.code := by rw [hcls]; rfl
  have e : fieldAt (imageNat slot r) 0x03 1 = cls.code :=
    hv ▸ fieldAt_imageNat (by simp [imageFields]) (by rw [hv]; cases cls <;> decide)
  rw [e, classOf_code, hcls]

theorem parent_imageNat (h : r.Imageable) :
    (if fieldAt (imageNat slot r) 0x04 1 < 64 then some (fieldAt (imageNat slot r) 0x04 1) else none) = r.parent := by
  have hlt : r.parent.getD 255 < 256 := by
    cases hp : r.parent with
    | none => decide
    | some p => exact (h.parent p hp).trans (by decide)
  have e : fieldAt (imageNat slot r) 0x04 1 = r.parent.getD 255 := fieldAt_imageNat (by simp [imageFields]) hlt
  rw [e]
  cases hp : r.parent with
  | none => rfl
  | some p => exact if_pos (h.parent p hp)

theorem flags_imageNat (slot : Nat) (r : SlotRec) : fieldAt (imageNat slot r) 0x05 1 = r.imageFlags :=
  fieldAt_imageNat (by simp [imageFields]) r.imageFlags_bits.1

/-- The policy as an image gives it back. -/
def imagePolicy (x : Nat) : Policy :=
  { lifetime := fieldAt x 0x0C 4, fraction := fieldAt x 0x06 1, window := fieldAt x 0x14 3, grace := fieldAt x 0x17 3
    hard := fieldAt x 0x10 4, margin := fieldAt x 0x07 1, autoConfirm := (fieldAt x 0x05 1).testBit 1 }

theorem imagePolicy_imageNat (h : r.Imageable) : imagePolicy (imageNat slot r) = r.policy := by
  have lifetime : fieldAt (imageNat slot r) 0x0C 4 = r.policy.lifetime :=
    fieldAt_imageNat (by simp [imageFields]) h.lifetime
  have fraction : fieldAt (imageNat slot r) 0x06 1 = r.policy.fraction :=
    fieldAt_imageNat (by simp [imageFields]) h.fraction
  have window : fieldAt (imageNat slot r) 0x14 3 = r.policy.window := fieldAt_imageNat (by simp [imageFields]) h.window
  have grace : fieldAt (imageNat slot r) 0x17 3 = r.policy.grace := fieldAt_imageNat (by simp [imageFields]) h.grace
  have hard : fieldAt (imageNat slot r) 0x10 4 = r.policy.hard := fieldAt_imageNat (by simp [imageFields]) h.hard
  have margin : fieldAt (imageNat slot r) 0x07 1 = r.policy.margin := fieldAt_imageNat (by simp [imageFields]) h.margin
  obtain ⟨-, -, auto, -⟩ := r.imageFlags_bits
  unfold imagePolicy
  rw [lifetime, fraction, window, grace, hard, margin, flags_imageNat, auto]

end

/-! ## The generations -/

/-- The CURRENT generation as an image of a class gives it back. -/
def imageCurrent (cls : Option SlotClass) (x : Nat) : Gen :=
  { number := BitVec.ofNat 16 (fieldAt x 0x1C 2), key := BitVec.ofNat 128 (fieldAt x 0x50 16), issued := fieldAt x 0x20 4
    opened := 0, renewAt := (imagePolicy x).renewAt (fieldAt x 0x20 4)
    expiresAt := (imagePolicy x).expiresAt (fieldAt x 0x20 4), graceDue := 0, expired := (fieldAt x 0x05 1).testBit 5
    ctr := readCounters cls x 0x38 }

/-- The STAGED generation as an image of a class gives it back. -/
def imageStaged (cls : Option SlotClass) (x : Nat) : Gen :=
  { number := BitVec.ofNat 16 (fieldAt x 0x1A 2), key := BitVec.ofNat 128 (fieldAt x 0x60 16), issued := 0
    opened := fieldAt x 0x24 4, renewAt := 0, expiresAt := 0, graceDue := 0, expired := false
    ctr := readCounters cls x 0x40 }

/-- The OUTGOING generation as an image of a class gives it back. -/
def imageOutgoing (cls : Option SlotClass) (x : Nat) : Gen :=
  { number := BitVec.ofNat 16 (fieldAt x 0x1E 2), key := BitVec.ofNat 128 (fieldAt x 0x70 16), issued := fieldAt x 0x28 4
    opened := 0, renewAt := fieldAt x 0x2C 4, expiresAt := fieldAt x 0x30 4, graceDue := fieldAt x 0x34 4
    expired := (fieldAt x 0x05 1).testBit 6, ctr := readCounters cls x 0x48 }

section
variable {slot : Nat} {r : SlotRec} {g : Gen}

theorem imageCurrent_imageNat (h : r.Imageable) (hg : r.current = some g) :
    imageCurrent r.cls (imageNat slot r) = { g with ctr := g.ctr.imaged r.cls } := by
  obtain ⟨hissued, hopened, hgrace, hrenew, hexpires, hfits⟩ := h.current g hg
  have number : BitVec.ofNat 16 (fieldAt (imageNat slot r) 0x1C 2) = g.number :=
    ofNat_fieldAt_imageNat rfl (by simp [imageFields, hg])
  have key : BitVec.ofNat 128 (fieldAt (imageNat slot r) 0x50 16) = g.key :=
    ofNat_fieldAt_imageNat rfl (by simp [imageFields, hg])
  have issued : fieldAt (imageNat slot r) 0x20 4 = g.issued := fieldAt_imageNat (by simp [imageFields, hg]) hissued
  have expired : (fieldAt (imageNat slot r) 0x05 1).testBit 5 = g.expired := by
    obtain ⟨-, -, -, -, -, -, e, -⟩ := r.imageFlags_bits
    rw [flags_imageNat, e, hg, Option.any_some]
  have ctr : readCounters r.cls (imageNat slot r) 0x38 = g.ctr.imaged r.cls :=
    readCounters_imageNat (by simp [imageFields, hg]) hfits
  simp only [imageCurrent, number, key, issued, expired, ctr, imagePolicy_imageNat h, hrenew, hexpires, hopened, hgrace]

theorem imageStaged_imageNat (h : r.Imageable) (hg : r.staged = some g) :
    imageStaged r.cls (imageNat slot r) = { g with ctr := g.ctr.imaged r.cls } := by
  obtain ⟨hlast, hopened, hissued, hrenew, hexpires, hgrace, hexpired, hfits⟩ := h.staged g hg
  have number : BitVec.ofNat 16 (fieldAt (imageNat slot r) 0x1A 2) = r.last :=
    ofNat_fieldAt_imageNat rfl (by simp [imageFields])
  have key : BitVec.ofNat 128 (fieldAt (imageNat slot r) 0x60 16) = g.key :=
    ofNat_fieldAt_imageNat rfl (by simp [imageFields, hg])
  have opened : fieldAt (imageNat slot r) 0x24 4 = g.opened := fieldAt_imageNat (by simp [imageFields, hg]) hopened
  have ctr : readCounters r.cls (imageNat slot r) 0x40 = g.ctr.imaged r.cls :=
    readCounters_imageNat (by simp [imageFields, hg]) hfits
  simp only [imageStaged, number, key, opened, ctr, hlast, hissued, hrenew, hexpires, hgrace, hexpired]

theorem imageOutgoing_imageNat (h : r.Imageable) (hg : r.outgoing = some g) :
    imageOutgoing r.cls (imageNat slot r) = { g with ctr := g.ctr.imaged r.cls } := by
  obtain ⟨hissued, hopened, hrenew, hexpires, hgrace, hfits⟩ := h.outgoing g hg
  have number : BitVec.ofNat 16 (fieldAt (imageNat slot r) 0x1E 2) = g.number :=
    ofNat_fieldAt_imageNat rfl (by simp [imageFields, hg])
  have key : BitVec.ofNat 128 (fieldAt (imageNat slot r) 0x70 16) = g.key :=
    ofNat_fieldAt_imageNat rfl (by simp [imageFields, hg])
  have issued : fieldAt (imageNat slot r) 0x28 4 = g.issued := fieldAt_imageNat (by simp [imageFields, hg]) hissued
  have renewAt : fieldAt (imageNat slot r) 0x2C 4 = g.renewAt := fieldAt_imageNat (by simp [imageFields, hg]) hrenew
  have expiresAt : fieldAt (imageNat slot r) 0x30 4 = g.expiresAt :=
    fieldAt_imageNat (by simp [imageFields, hg]) hexpires
  have graceDue : fieldAt (imageNat slot r) 0x34 4 = g.graceDue := fieldAt_imageNat (by simp [imageFields, hg]) hgrace
  have expired : (fieldAt (imageNat slot r) 0x05 1).testBit 6 = g.expired := by
    obtain ⟨-, -, -, -, -, -, -, e⟩ := r.imageFlags_bits
    rw [flags_imageNat, e, hg, Option.any_some]
  have ctr : readCounters r.cls (imageNat slot r) 0x48 = g.ctr.imaged r.cls :=
    readCounters_imageNat (by simp [imageFields, hg]) hfits
  simp only [imageOutgoing, number, key, issued, renewAt, expiresAt, graceDue, expired, ctr, hopened]

end

/-! ## The slot record -/

/-- What an image of a class gives back, role by role. -/
theorem readImage_eq {x : Nat} {cls : Option SlotClass} (hstate : fieldAt x 0x02 1 ≠ 0)
    (hcls : classOf (BitVec.ofNat 8 (fieldAt x 0x03 1)) = cls) (hn : cls ≠ none) :
    readImage x =
      { label := BitVec.ofNat 32 (fieldAt x 0x08 4), cls := cls
        parent := if fieldAt x 0x04 1 < 64 then some (fieldAt x 0x04 1) else none
        orphaned := false, policy := imagePolicy x, last := BitVec.ofNat 16 (fieldAt x 0x1A 2)
        renewDue := (fieldAt x 0x05 1).testBit 0, deferred := Deferred.none
        current := if (fieldAt x 0x05 1).testBit 2 then some (imageCurrent cls x) else none
        staged := if (fieldAt x 0x05 1).testBit 3 then some (imageStaged cls x) else none
        outgoing := if (fieldAt x 0x05 1).testBit 4 then some (imageOutgoing cls x) else none } := by
  subst hcls
  exact if_neg fun h => h.elim hstate hn

/-- A generation that is present exactly where its flag is set. -/
theorem role_eq_map {o : Option Gen} {b : Bool} {g : Gen} {f : Gen → Gen} (hb : b = o.isSome)
    (h : ∀ a, o = some a → g = f a) : (if b then some g else none) = o.map f := by
  subst hb
  cases o with
  | none => rfl
  | some a => exact congrArg some (h a rfl)

/-- Settles O60. -/
theorem slotImageReadsBackAsTheSlot : Obligations.SlotImageReadsBackAsTheSlot := by
  unfold Obligations.SlotImageReadsBackAsTheSlot
  intro slot r h
  obtain ⟨-, due, -, current, staged, outgoing, -⟩ := r.imageFlags_bits
  have label : BitVec.ofNat 32 (fieldAt (imageNat slot r) 0x08 4) = r.label :=
    ofNat_fieldAt_imageNat rfl (by simp [imageFields])
  have last : BitVec.ofNat 16 (fieldAt (imageNat slot r) 0x1A 2) = r.last :=
    ofNat_fieldAt_imageNat rfl (by simp [imageFields])
  rw [readImage_eq (fieldAt_imageNat_state h) (classOf_imageNat h) h.defined, parent_imageNat h, imagePolicy_imageNat h,
    flags_imageNat, label, last, due, role_eq_map current fun _ => imageCurrent_imageNat h,
    role_eq_map staged fun _ => imageStaged_imageNat h, role_eq_map outgoing fun _ => imageOutgoing_imageNat h]
  rfl

end Sys2Proof.Machine
end

section
/-! Proofs, the counters, part 4: ADMIT_FRAME, PROTECT_FRAME and UNLOCK as they are taken (R55, R58, R62, R71, R73, R75, R77,
R149). -/

namespace Sys2Proof.Machine

/-! ## Lists of checks -/

theorem firstFailure_cons_eq_some {good : Bool} {c code : Code} {l : List (Bool × Code)} :
    firstFailure ((good, c) :: l) = some code ↔ good = false ∧ c = code ∨ good = true ∧ firstFailure l = some code := by
  cases good <;> simp [firstFailure]

/-! ## ADMIT_FRAME (R62, R75, R77) -/

/-- The own checks of ADMIT_FRAME, with the window's answer still to come (R75, R77). -/
def admitChecks (o : OrderFields) (r : SlotRec) : List (Bool × Code) :=
  [(r.cls.isSome, .wrongSlotState), (r.cls == some .frame, .wrongClass), ((r.find o.gen).isSome, .unknownGeneration),
    (!(r.roleOf o.gen == some .current && (r.find o.gen).any fun g => g.expired), .keyExpired),
    (decide (8 ≤ o.input.len.toNat), .badExtent), (decide (o.input.len.toNat - 8 ≤ o.output.len.toNat), .noRoom)]

/-- The result words of an ADMIT_FRAME that its own checks refuse (R77). -/
def admitRefusal (o : OrderFields) (code : Code) : Res :=
  if code = .noRoom then { Res.zero with outLen := o.input.len.toNat - 8 } else Res.zero

/-- What ADMIT_FRAME notes in its order copy: the generation, its key and the value of the frame (R77). -/
def Ctx.noteFrame (o : OrderFields) (g : Gen) (x : Ctx) : Ctx :=
  { x with genNo := o.gen, value := o.counter.toNat, wrapKey := g.key }

theorem Ctx.Copy.noteFrame {x : Ctx} {s : State} {lane : Nat} {p : PlanLane} {k : Byte} {o : OrderFields}
    (h : x.Copy s lane p k o) (q : OrderFields) (g : Gen) : (Ctx.noteFrame q g x).Copy s lane p k o :=
  h.congr ⟨rfl, rfl, rfl, rfl⟩ rfl ⟨rfl, rfl, rfl⟩ rfl rfl

section
variable {c : Nat} {x : Ctx} {T : State} {r : SlotRec} {g : Gen}

/-- The first check of ADMIT_FRAME that fails gives the code and the result words of its refusal (R75, R77). -/
theorem startAdmitFrame_refuses {code : Code} (hr : T.slot x.order.slot.toNat = r)
    (h : firstFailure (admitChecks x.order r) = some code) :
    startAdmitFrame c x T = T.complete c code (admitRefusal x.order code) := by
  unfold startAdmitFrame
  dsimp only
  rw [hr]
  rcases firstFailure_cons_eq_some.1 h with ⟨hcls, rfl⟩ | ⟨hcls, h⟩
  · rw [if_pos (by simpa using hcls)]
    rfl
  rw [if_neg (by simpa [Option.isSome_iff_ne_none] using hcls)]
  rcases firstFailure_cons_eq_some.1 h with ⟨hframe, rfl⟩ | ⟨hframe, h⟩
  · rw [if_pos (by simpa using hframe)]
    rfl
  rw [if_neg (by simpa using hframe)]
  rcases firstFailure_cons_eq_some.1 h with ⟨hfind, rfl⟩ | ⟨hfind, h⟩
  · rw [Option.isSome_eq_false_iff.mp hfind |> Option.isNone_iff_eq_none.mp]
    rfl
  obtain ⟨g, hg⟩ := Option.isSome_iff_exists.mp hfind
  rw [hg]
  dsimp only
  rcases firstFailure_cons_eq_some.1 h with ⟨hexp, rfl⟩ | ⟨hexp, h⟩
  · rw [if_pos (by simpa [hg] using hexp)]
    rfl
  rw [if_neg (by simpa [hg, Classical.or_iff_not_imp_left] using hexp)]
  rcases firstFailure_cons_eq_some.1 h with ⟨hlen, rfl⟩ | ⟨hlen, h⟩
  · rw [if_pos (by simpa using hlen)]
    rfl
  rw [if_neg (by simpa using hlen)]
  rcases firstFailure_cons_eq_some.1 h with ⟨hroom, rfl⟩ | ⟨-, h⟩
  · rw [if_pos (by rw [decide_eq_false_iff_not] at hroom; omega)]
    rfl
  · exact nomatch h

/-- An ADMIT_FRAME that passes its own checks asks the window (R62, R77). -/
theorem startAdmitFrame_asks (hr : T.slot x.order.slot.toNat = r) (hc : r.cls = some .frame)
    (hg : r.find x.order.gen = some g) (he : r.roleOf x.order.gen = some .current → g.expired = false)
    (hlen : 8 ≤ x.order.input.len.toNat) (hroom : x.order.input.len.toNat ≤ x.order.output.len.toNat + 8) :
    startAdmitFrame c x T = (g.ctr.check x.order.counter.toNat).elim ((T.modCtx c (Ctx.noteFrame x.order g)).placeRequest c .verify)
      fun code => T.complete c code { Res.zero with ctrUsed := x.order.counter.toNat, genUsed := x.order.gen } := by
  have hexp : ¬((decide (r.roleOf x.order.gen = some .current) && g.expired) = true) := by
    rw [Bool.and_eq_true, decide_eq_true_eq]
    rintro ⟨hcur, h⟩
    rw [he hcur] at h
    cases h
  unfold startAdmitFrame
  dsimp only
  rw [hr, if_neg (by rw [hc]; decide), if_neg (by rw [hc]; decide), hg]
  dsimp only
  rw [if_neg hexp, if_neg (Nat.not_lt.mpr hlen), if_neg (by omega)]
  cases g.ctr.check x.order.counter.toNat <;> rfl

end

/-- The window refuses a value as STALE or REPLAYED (R62). -/
theorem Counters.check_cases {k : Counters} {c : Nat} {code : Code} (h : k.check c = some code) :
    code = .stale ∨ code = .replayed := by
  unfold Counters.check at h
  split at h
  · exact Or.inl (Option.some.inj h).symm
  · split at h
    · cases h
    · split at h
      · exact Or.inl (Option.some.inj h).symm
      · split at h
        · exact Or.inr (Option.some.inj h).symm
        · cases h

/-- A VERIFY request that begins service reads its extents and forms its nonce (R72, R74). -/
theorem serviceOf_verify (s : State) (c : Nat) (x : Ctx) :
    (serviceOf s c .verify x).assoc = s.readExtent x.order.assoc ∧
    (serviceOf s c .verify x).input = s.readExtent x.order.input ∧
    (serviceOf s c .verify x).nonce = frameNonce x.order.sender x.genNo x.value := ⟨rfl, rfl, rfl⟩

/-- An order whose checks place a VERIFY request in an idle Cipher Unit has it in service, with its extents read and its
nonce formed (R72, R74, R80). -/
theorem State.Quiet.requestsVerify {s : State} {lane : Nat} {p : PlanLane} {k : Kind} {o : OrderFields}
    (h : s.Quiet lane p) (hp : s.PassesCommon k o) (hi : s.cipherIdle) {x : Ctx} (hx : x.Copy s lane p k.code o)
    (hstart : ∀ T, Taken s T lane p k.code o → ∃ u, startKind k 0 (s.orderTaken lane p k o) T = u.placeRequest 0 .verify ∧
      Onward T u 0 x ∧ u.xu = s.xu ∧ s.SameTables u ∧ u.wp.ram = s.wp.ram) :
    ∃ b v, s.InFlight (s.post k lane o) lane p k o { x with wait := .cipherQueue, budgetApplies := b } ∧
      s.RequestBegun (s.post k lane o) .verify v ∧ v.assoc = s.readExtent x.order.assoc ∧
      v.input = s.readExtent x.order.input ∧ v.nonce = frameNonce x.order.sender x.genNo x.value ∧
      s.SameTables (s.post k lane o) ∧ (s.post k lane o).wp.ram = s.wp.ram := by
  have tk := State.taken_takenIn h.toQuietLane k.code o
  obtain ⟨u, hu, hon, hxu, hsame, hram⟩ := hstart _ tk
  obtain ⟨⟨b, hb⟩, hbegun, htab, hm⟩ := State.post_requested h rfl hon hx hi hxu hsame .verify (by decide) (by decide)
    ((State.startOrder_taken h tk hp).trans hu)
  obtain ⟨hassoc, hinput, hnonce⟩ := serviceOf_verify u 0 x
  exact ⟨b, _, hb, hbegun, hassoc.trans (State.readExtent_congr hram _), hinput.trans (State.readExtent_congr hram _),
    hnonce, htab, hm.trans hram⟩

/-- Settles O10. -/
theorem admitFrameAsksTheWindow : Obligations.AdmitFrameAsksTheWindow := by
  unfold Obligations.AdmitFrameAsksTheWindow
  intro s lane p o r g h hp hi hr hd hc hg he hlen hroom
  have hstart : ∀ T, Taken s T lane p Kind.admitFrame.code o → startKind .admitFrame 0 (s.orderTaken lane p .admitFrame o) T =
      (g.ctr.check o.counter.toNat).elim ((T.modCtx 0 (Ctx.noteFrame o g)).placeRequest 0 .verify)
        fun code => T.complete 0 code { Res.zero with ctrUsed := o.counter.toNat, genUsed := o.gen } :=
    fun T tk => startAdmitFrame_asks ((State.slot_congr tk.kt _).trans hr) hc hg he hlen hroom
  refine ⟨_, exec_command .admitFrame lane o s, fun hw => ?_, fun code hw => ⟨Counters.check_cases hw, ?_⟩⟩
  · have hx := (s.orderTaken_copy lane p .admitFrame o).noteFrame o g
    obtain ⟨b, v, hfl, hbegun, hassoc, hinput, hnonce, htab, hram⟩ := h.requestsVerify hp hi hx fun T tk =>
      ⟨_, (hstart T tk).trans (by rw [hw]; rfl), tk.onward.mod _, tk.xu, tk.same.modCtx _ _, tk.ram⟩
    exact ⟨_, v, hfl, rfl, rfl, rfl, rfl, hbegun, hassoc, hinput, hnonce, htab, hram⟩
  · obtain ⟨t, ht, hends⟩ := h.refuses (k := .admitFrame) (code := code) hp (by rw [hr]; exact hd)
      fun T tk => (hstart T tk).trans (by rw [hw]; rfl)
    cases (exec_command .admitFrame lane o s).symm.trans ht
    exact hends

end Sys2Proof.Machine
end

section
/-! Proofs, the counters, part 5: the own checks of PROTECT_FRAME, ADMIT_FRAME and UNLOCK, and the wait for a reservation
(R55, R58, R71, R73, R75, R77, R149). -/

namespace Sys2Proof.Machine

/-! ## The checks of PROTECT_FRAME (R71, R73) -/

/-- The own checks of PROTECT_FRAME up to its counter step (R71, R73). -/
def protectChecks (o : OrderFields) (r : SlotRec) : List (Bool × Code) :=
  [(r.cls.isSome, .wrongSlotState), (r.cls == some .frame, .wrongClass), (r.current.isSome, .wrongSlotState),
    (!r.current.any fun g => g.expired, .keyExpired),
    (decide (o.input.len.toNat + 8 ≤ o.output.len.toNat), .noRoom)]

/-- The result words of a PROTECT_FRAME that its own checks refuse (R71, R73). -/
def protectRefusal (o : OrderFields) (r : SlotRec) (code : Code) : Res :=
  if code = .noRoom then { Res.zero with outLen := o.input.len.toNat + 8 }
  else if code = .keyExpired ∨ code = .counterSpent then { Res.zero with genUsed := r.current.elim 0 fun g => g.number }
  else Res.zero

section
variable {c : Nat} {x : Ctx} {T : State} {r : SlotRec} {g : Gen}

/-- The first check of PROTECT_FRAME before its counter step that fails gives the code and the result words of its refusal
(R71, R73). -/
theorem startProtectFrame_refuses {code : Code} (hr : T.slot x.order.slot.toNat = r)
    (h : firstFailure (protectChecks x.order r) = some code) :
    startProtectFrame c x T = T.complete c code (protectRefusal x.order r code) := by
  unfold startProtectFrame
  dsimp only
  rw [hr]
  rcases firstFailure_cons_eq_some.1 h with ⟨hcls, rfl⟩ | ⟨hcls, h⟩
  · rw [if_pos (by simpa using hcls)]
    rfl
  rw [if_neg (by simpa [Option.isSome_iff_ne_none] using hcls)]
  rcases firstFailure_cons_eq_some.1 h with ⟨hframe, rfl⟩ | ⟨hframe, h⟩
  · rw [if_pos (by simpa using hframe)]
    rfl
  rw [if_neg (by simpa using hframe)]
  rcases firstFailure_cons_eq_some.1 h with ⟨hcur, rfl⟩ | ⟨hcur, h⟩
  · rw [Option.isNone_iff_eq_none.mp (Option.isSome_eq_false_iff.mp hcur)]
    rfl
  obtain ⟨g, hg⟩ := Option.isSome_iff_exists.mp hcur
  rw [hg]
  dsimp only
  rcases firstFailure_cons_eq_some.1 h with ⟨hexp, rfl⟩ | ⟨hexp, h⟩
  · rw [if_pos (by simpa [hg] using hexp), protectRefusal, hg]
    rfl
  rw [if_neg (by simpa [hg] using hexp)]
  rcases firstFailure_cons_eq_some.1 h with ⟨hroom, rfl⟩ | ⟨-, h⟩
  · rw [if_pos (by simpa using hroom)]
    rfl
  · exact nomatch h

/-- What the own checks of PROTECT_FRAME before its counter step say where none fails. -/
theorem protectChecks_passed {o : OrderFields} (h : firstFailure (protectChecks o r) = none) :
    r.cls = some .frame ∧ (∃ g, r.current = some g ∧ g.expired = false) ∧
      o.input.len.toNat + 8 ≤ o.output.len.toNat := by
  have all := firstFailure_eq_none_iff.1 h
  have hcls := all (r.cls == some .frame, .wrongClass) (by simp [protectChecks])
  have hcur := all (r.current.isSome, .wrongSlotState) (by simp [protectChecks])
  have hexp := all (!r.current.any fun g => g.expired, .keyExpired) (by simp [protectChecks])
  have hroom := all (decide (o.input.len.toNat + 8 ≤ o.output.len.toNat), .noRoom) (by simp [protectChecks])
  obtain ⟨g, hg⟩ := Option.isSome_iff_exists.mp hcur
  exact ⟨by simpa using hcls, ⟨g, hg, by simpa [hg] using hexp⟩, by simpa using hroom⟩

/-- A counter step that finds no value left under the hard limit ends the order (R55). -/
theorem counterStep_spent (hx : T.ctx c = some x) (hr : T.slot x.order.slot.toNat = r) (hg : r.current = some g)
    (hh : r.policy.hard < g.ctr.next) :
    T.counterStep c = T.complete c .counterSpent { Res.zero with genUsed := g.number } := by
  unfold State.counterStep
  rw [hx]
  dsimp only
  rw [hr, hg]
  exact if_pos hh

/-- A counter step that finds no durable value left waits for a reservation, which it requests where none is pending
(R55). -/
theorem counterStep_waits (hx : T.ctx c = some x) (hr : T.slot x.order.slot.toNat = r) (hg : r.current = some g)
    (hh : g.ctr.next ≤ r.policy.hard) (hd : g.ctr.durCeil ≤ g.ctr.next) :
    T.counterStep c = T.beginWait c .reservation fun s =>
      if g.ctr.reserving then s else s.requestReservation x.order.slot.toNat g.number := by
  unfold State.counterStep
  rw [hx]
  dsimp only
  rw [hr, hg]
  dsimp only
  rw [if_neg (by omega), if_pos hd]

end

/-! ## The reservation (R55, R58) -/

/-- What a reservation requested for the CURRENT generation leaves: its counters, and its COUNTER_MARK handed over
(R55, R58). -/
theorem requestReservation_onward {T u : State} {c : Nat} {x : Ctx} (h : Onward T u c x) {n : Nat} {r : SlotRec} {g : Gen}
    (hlt : n < 64) (hr : u.slot n = r) (hc : r.current = some g) :
    let v := u.requestReservation n g.number
    Onward T v c x ∧ v.slot n = { r with current := some { g with ctr := g.ctr.reserve r.policy.hard } } ∧
      (∀ m, m ≠ n → v.slot m = u.slot m) ∧ v.tu = u.tu ∧ v.nu = u.nu ∧ v.xu = u.xu ∧ v.wp = u.wp ∧
      (u.wp.engine ≠ .failed → v.holdsRecord (fun q => q.body ==
        .counterMark n g.number (min (g.ctr.durCeil + 4096) (r.policy.hard + 1)) g.ctr.reqMark) = true) := by
  intro v
  have hslot : ∀ m, (u.modGen n g.number fun g => { g with ctr := g.ctr.reserve r.policy.hard }).slot m =
      if m = n then { r with current := some { g with ctr := g.ctr.reserve r.policy.hard } } else u.slot m := fun m => by
    unfold State.modGen
    rw [State.slot_setSlot, hr, SlotRec.updGen_current hc]
    by_cases hm : m = n
    · rw [if_pos ⟨hm.symm, hlt⟩, if_pos hm]
    · rw [if_neg fun k => hm k.1.symm, if_neg hm]
  have hv : v = (u.modGen n g.number fun g => { g with ctr := g.ctr.reserve r.policy.hard }).counterMark n g.number := by
    rw [← hr]
    rfl
  have on : Onward T (u.modGen n g.number fun g => { g with ctr := g.ctr.reserve r.policy.hard }) c x :=
    h.tables rfl rfl (sameArray_ju rfl) rfl rfl rfl
  have hfind : ((u.modGen n g.number fun g => { g with ctr := g.ctr.reserve r.policy.hard }).slot n).find g.number =
      some { g with ctr := g.ctr.reserve r.policy.hard } := by
    rw [hslot, if_pos rfl]
    exact SlotRec.find_current (g := { g with ctr := g.ctr.reserve r.policy.hard }) rfl
  have hrest : ∀ w : State, w = u.modGen n g.number (fun g => { g with ctr := g.ctr.reserve r.policy.hard }) →
      w.tu = u.tu ∧ w.nu = u.nu ∧ w.xu = u.xu ∧ w.wp = u.wp := fun w hw => by subst hw; exact ⟨rfl, rfl, rfl, rfl⟩
  obtain ⟨htu, hnu, hxu, hwp⟩ := hrest _ rfl
  clear_value v
  subst hv
  generalize u.modGen n g.number (fun g => { g with ctr := g.ctr.reserve r.policy.hard }) = w at *
  have l := counterMark_listed w n g.number
  have slots := State.slot_congr l.kt
  exact ⟨on.listed l, (slots n).trans ((hslot n).trans (if_pos rfl)),
    fun m hm => (slots m).trans ((hslot m).trans (if_neg hm)), l.tu.trans htu, l.nu.trans hnu, l.xu.trans hxu,
    l.wp.trans hwp, fun he => State.counterMark_holds (by rw [hwp]; exact he) hfind⟩

/-- The counters of a generation whose order waits for a reservation (R55). -/
def Counters.awaiting (k : Counters) (hard : Nat) : Counters := if k.reserving then k else k.reserve hard

/-- What an order that comes to wait for a reservation leaves (R55, R58). -/
theorem awaitReservation_onward {T u : State} {c : Nat} {x : Ctx} (h : Onward T u c x) {n : Nat} {r : SlotRec} {g : Gen}
    (hlt : n < 64) (hr : u.slot n = r) (hc : r.current = some g) :
    let v := if g.ctr.reserving then u else u.requestReservation n g.number
    Onward T v c x ∧ v.slot n = { r with current := some { g with ctr := g.ctr.awaiting r.policy.hard } } ∧
      (∀ m, m ≠ n → v.slot m = u.slot m) ∧ v.tu = u.tu ∧ v.nu = u.nu ∧ v.xu = u.xu ∧ v.wp = u.wp ∧
      (g.ctr.reserving = false → u.wp.engine ≠ .failed → v.holdsRecord (fun q => q.body ==
        .counterMark n g.number (min (g.ctr.durCeil + 4096) (r.policy.hard + 1)) g.ctr.reqMark) = true) := by
  unfold Counters.awaiting
  cases hres : g.ctr.reserving with
  | true =>
    refine ⟨h, ?_, fun _ _ => rfl, rfl, rfl, rfl, rfl, fun hf => nomatch hf⟩
    rw [if_pos rfl, if_pos rfl, hr, ← hc]
  | false =>
    obtain ⟨hon, hs, hothers, htu, hnu, hxu, hwp, hmark⟩ := requestReservation_onward h hlt hr hc
    exact ⟨hon, hs, hothers, htu, hnu, hxu, hwp, fun _ => hmark⟩

section
variable {s : State} {lane : Nat} {p : PlanLane} {o : OrderFields} {r : SlotRec}

/-- A PROTECT_FRAME posted in a quiet lane that finds no durable value left waits for a reservation (R55, R58). -/
theorem State.Quiet.awaitsReservation {g : Gen} (h : s.Quiet lane p) (hp : s.PassesCommon .protectFrame o)
    (hr : s.slot o.slot.toNat = r) (hc : r.cls = some .frame) (hg : r.current = some g) (he : g.expired = false)
    (hroom : o.input.len.toNat + 8 ≤ o.output.len.toNat) (hhard : g.ctr.next ≤ r.policy.hard)
    (hdur : g.ctr.durCeil ≤ g.ctr.next) :
    ∃ x, s.InFlight (s.post .protectFrame lane o) lane p .protectFrame o x ∧ x.wait = .reservation ∧
      x.genNo = g.number ∧ x.wrapKey = g.key ∧ x.taken = false ∧
      (s.post .protectFrame lane o).slot o.slot.toNat =
        { r with current := some { g with ctr := g.ctr.awaiting r.policy.hard } } ∧
      (∀ n, n ≠ o.slot.toNat → (s.post .protectFrame lane o).slot n = s.slot n) ∧
      (s.post .protectFrame lane o).tu = s.tu ∧ (s.post .protectFrame lane o).nu = s.nu ∧
      (s.post .protectFrame lane o).xu = s.xu ∧ (s.post .protectFrame lane o).wp.ram = s.wp.ram ∧
      (g.ctr.reserving = false → (s.post .protectFrame lane o).holdsRecord (fun q => q.body ==
        .counterMark o.slot.toNat g.number (min (g.ctr.durCeil + 4096) (r.policy.hard + 1)) g.ctr.reqMark) = true) := by
  have tk := State.taken_takenIn h.toQuietLane Kind.protectFrame.code o
  have hx := (s.orderTaken_copy lane p .protectFrame o).noteCurrent g
  have hstart := State.startOrder_taken h tk hp
  obtain ⟨T, hT⟩ : ∃ T, s.takenIn lane p Kind.protectFrame.code o = T := ⟨_, rfl⟩
  rw [hT] at tk hstart
  have hTr := (State.slot_congr tk.kt o.slot.toNat).trans hr
  have asked := tk.onward.mod (Ctx.noteCurrent g)
  have hrun : (T.modCtx 0 (Ctx.noteCurrent g)).wp.engine = .running := by rw [State.modCtx_wp, tk.wp]; exact h.running
  have hu := ((hstart.trans (startProtectFrame_passes hTr hc hg he hroom)).trans
    (counterStep_waits asked.ctx hTr hg hhard hdur)).trans (beginWait_onward asked hrun rfl _ _)
  have waiting := asked.mod fun x => { x with wait := .reservation }
  have hsame := (tk.same.modCtx 0 (Ctx.noteCurrent g)).modCtx 0 fun x => { x with wait := .reservation }
  have hxu : ((T.modCtx 0 (Ctx.noteCurrent g)).modCtx 0 fun x => { x with wait := .reservation }).xu = s.xu := tk.xu
  have hwp : ((T.modCtx 0 (Ctx.noteCurrent g)).modCtx 0 fun x => { x with wait := .reservation }).wp = T.wp := rfl
  generalize (T.modCtx 0 (Ctx.noteCurrent g)).modCtx 0 (fun x => { x with wait := .reservation }) = w at *
  obtain ⟨on, hs, hothers, htu, hnu, hxu', hwp', hmark⟩ :=
    awaitReservation_onward waiting (n := o.slot.toNat) (hp.slot rfl) ((State.slot_congr hsame.slots _).trans hr) hg
  have hu' : T.startOrder 0 =
      (if g.ctr.reserving then w else w.requestReservation o.slot.toNat g.number).settleBudgets := hu
  have hrunning : w.wp.engine ≠ .failed := by rw [hwp, tk.wp, h.running]; decide
  generalize (if g.ctr.reserving then w else w.requestReservation o.slot.toNat g.number) = v at *
  obtain ⟨b, settled⟩ := on.settle tk.ctxs
  have f := State.post_onward h hT hu' settled ⟨hx.copy, hx.held, hx.take, fun hw => (nomatch hw), hx.erase⟩
  obtain ⟨b', hfl⟩ := f.flight
  have hslot := State.slot_congr hsame.slots
  have hpost := State.slot_congr f.kt
  exact ⟨_, hfl, rfl, rfl, rfl, rfl, (hpost _).trans hs, fun n hn => (hpost n).trans ((hothers n hn).trans (hslot n)),
    f.tu.trans (htu.trans hsame.time), f.nu.trans (hnu.trans hsame.notices), f.xu.trans (hxu'.trans hxu),
    f.ram.trans ((congrArg Wp.ram (hwp'.trans hwp)).trans tk.ram), fun hres => f.given _ (State.joins_body _ (by simp))
      ((State.holdsRecord_congr _ rfl rfl).trans (hmark hres hrunning))⟩

/-! ## The refusals -/

/-- A PROTECT_FRAME posted in a quiet lane refuses with the code of its first check that fails (R55, R71, R73). -/
theorem State.Quiet.protectFrame_refuses {code : Code} (h : s.Quiet lane p) (hp : s.PassesCommon .protectFrame o)
    (hr : s.slot o.slot.toNat = r) (hd : r.deferred = Deferred.none)
    (hf : firstFailure (protectChecks o r ++
      [(!r.current.any fun g => decide (r.policy.hard < g.ctr.next), .counterSpent)]) = some code) :
    ∃ t, exec (.protectFrame lane o) s = .next t ∧
      s.EndsAtOnce t lane p Kind.protectFrame.code o code (protectRefusal o r code) := by
  have hd' : (s.slot o.slot.toNat).deferred = Deferred.none := by rw [hr]; exact hd
  rcases firstFailure_append_eq_some hf with hfirst | ⟨hnone, hlast⟩
  · exact h.refuses (k := .protectFrame) hp hd' fun T tk =>
      startProtectFrame_refuses ((State.slot_congr tk.kt _).trans hr) hfirst
  · obtain ⟨hc, ⟨g, hg, he⟩, hroom⟩ := protectChecks_passed hnone
    have hmem := mem_of_firstFailure hlast
    simp only [hg, Option.any_some, List.mem_singleton, Prod.mk.injEq] at hmem
    obtain ⟨hspent, rfl⟩ := hmem
    have hres : protectRefusal o r .counterSpent = { Res.zero with genUsed := g.number } := by
      unfold protectRefusal
      rw [hg]
      rfl
    have tk := State.taken_takenIn h.toQuietLane Kind.protectFrame.code o
    obtain ⟨T, hT⟩ : ∃ T, s.takenIn lane p Kind.protectFrame.code o = T := ⟨_, rfl⟩
    rw [hT] at tk
    have hTr := (State.slot_congr tk.kt o.slot.toNat).trans hr
    have hspent' : T.startOrder 0 = (T.modCtx 0 (Ctx.noteCurrent g)).complete 0 .counterSpent
        { Res.zero with genUsed := g.number } :=
      ((State.startOrder_taken h tk hp).trans (startProtectFrame_passes hTr hc hg he hroom)).trans
        (counterStep_spent (tk.onward.mod _).ctx hTr hg (by simpa using hspent.symm))
    rw [hres]
    exact ⟨_, exec_command .protectFrame lane o s, State.post_ends_mod h hT (Ctx.noteCurrent g)
      (fun _ => ⟨rfl, rfl, rfl, rfl, rfl, rfl, rfl, rfl, rfl, rfl, rfl⟩) hspent' hd'⟩

/-- The own checks of UNLOCK under lockdown, with the record of the plan's unlock authority (R149). -/
def unlockChecks (o : OrderFields) (auth : Option SlotRec) : List (Bool × Code) :=
  [(decide (o.input.len.toNat = 16), .badExtent),
    (auth.any fun a => a.cls == some .transport && a.current.any fun g => !g.expired, .tokenRejected)]

/-- The first check of UNLOCK under lockdown that fails gives the code of its refusal (R149). -/
theorem startUnlock_refuses {c : Nat} {x : Ctx} {T : State} {auth : Option SlotRec} {code : Code}
    (hl : T.tm.lockdown = true) (ha : (T.od.plan.bind fun p => p.authority).map T.slot = auth)
    (h : firstFailure (unlockChecks x.order auth) = some code) : startUnlock c x T = T.complete c code Res.zero := by
  unfold startUnlock
  rcases firstFailure_cons_eq_some.1 h with ⟨hlen, rfl⟩ | ⟨hlen, h⟩
  · rw [if_pos (by simpa using hlen)]
    rfl
  rw [if_neg (by simpa using hlen), if_neg (by simp [hl]), ha]
  rcases firstFailure_cons_eq_some.1 h with ⟨hauth, rfl⟩ | ⟨-, h⟩
  · cases auth with
    | none => rfl
    | some a =>
      dsimp only
      cases hg : a.current with
      | none => rfl
      | some g =>
        dsimp only
        rw [if_pos (by simpa [hg, or_iff_not_imp_left] using hauth)]
        rfl
  · exact nomatch h

/-- An UNLOCK posted in a quiet lane under lockdown refuses with the code of its first check that fails (R149). -/
theorem State.Quiet.unlock_refuses {code : Code} (h : s.Quiet lane p) (hp : s.PassesCommon .unlock o)
    (hl : s.tm.lockdown = true)
    (hf : firstFailure (unlockChecks o ((s.od.plan.bind fun p => p.authority).map s.slot)) = some code) :
    ∃ t, exec (.unlock lane o) s = .next t ∧ s.EndsAtOnce t lane p Kind.unlock.code o code Res.zero := by
  have tk := State.taken_takenIn h.toQuietLane Kind.unlock.code o
  obtain ⟨T, hT⟩ : ∃ T, s.takenIn lane p Kind.unlock.code o = T := ⟨_, rfl⟩
  rw [hT] at tk
  have hauth : (T.od.plan.bind fun p => p.authority).map T.slot = (s.od.plan.bind fun p => p.authority).map s.slot := by
    rw [tk.plan, funext (State.slot_congr tk.kt)]
  have hrefused : T.startOrder 0 = T.complete 0 code Res.zero :=
    (State.startOrder_taken h tk hp).trans (startUnlock_refuses (by rw [tk.tm]; exact hl) hauth hf)
  exact ⟨_, exec_command .unlock lane o s,
    State.post_ends h.toQuietLane h.taking hT hrefused fun _ hn => nomatch hn⟩

end

/-- Settles O17. -/
theorem frameAndUnlockOrdersRefuseInOrder : Obligations.FrameAndUnlockOrdersRefuseInOrder := by
  unfold Obligations.FrameAndUnlockOrdersRefuseInOrder
  intro s lane p o r h hr frame need cut
  refine ⟨fun code hp hd hf => h.protectFrame_refuses hp hr hd hf,
    fun g hp hc hg he hroom hhard hdur => ?_, fun code hp hd hf => ?_, fun code hp hl hf => h.unlock_refuses hp hl hf⟩
  · obtain ⟨x, hx⟩ := h.awaitsReservation hp hr hc hg he hroom hhard hdur
    exact ⟨_, x, exec_command .protectFrame lane o s, hx⟩
  · exact h.refuses (k := .admitFrame) hp (by rw [hr]; exact hd) fun T tk =>
      startAdmitFrame_refuses ((State.slot_congr tk.kt _).trans hr) hf

end Sys2Proof.Machine
end

section
/-! Proofs, the counters, part 6: the end of a VERIFY (R63, R65, R77, R78). -/

namespace Sys2Proof.Machine

/-! ## An ADMIT_FRAME goes on from its VERIFY -/

/-- The ciphertext of the frame that a VERIFY has read (R77). -/
def Service.text (v : Service) : List Byte := v.input.take (v.input.length - 8)

/-- The tag of the frame that a VERIFY has read (R77). -/
def Service.tag (v : Service) : BitVec 64 := BitVec.ofNat 64 (ofBytes (v.input.drop (v.input.length - 8)))

/-- The tag of the frame matches (R77). -/
def Ctx.verifies (x : Ctx) (v : Service) : Prop := frameTag x.wrapKey v.nonce v.assoc v.text = v.tag

/-- What ADMIT_FRAME notes in its order copy as its frame verifies: the body (R77). -/
def Ctx.noteBody (v : Service) (x : Ctx) : Ctx := { x with output := decipher x.wrapKey v.nonce v.text }

/-- The order of a frame that has verified. -/
def Ctx.verified (x : Ctx) (v : Service) : Ctx := Ctx.noteBody v { x with wait := .none }

theorem verifyEnds_eq (s : State) (c : Nat) (x : Ctx) (v : Service) :
    s.verifyEnds c x v = if frameTag x.wrapKey v.nonce v.assoc v.text = v.tag then
      (s.modCtx c (Ctx.noteBody v)).admitVerified c else s.complete c .authFailed (x.endRes .authFailed) := rfl

/-- A frame that verifies has its order go on with its body. -/
theorem verifyEnds_good {s : State} {c : Nat} {x : Ctx} {v : Service} (h : x.verifies v) :
    s.verifyEnds c x v = (s.modCtx c (Ctx.noteBody v)).admitVerified c :=
  (verifyEnds_eq ..).trans (if_pos h)

/-- A frame that does not verify ends its order (R77). -/
theorem verifyEnds_bad {s : State} {c : Nat} {x : Ctx} {v : Service} (h : ¬x.verifies v) :
    s.verifyEnds c x v = s.complete c .authFailed (x.endRes .authFailed) :=
  (verifyEnds_eq ..).trans (if_neg h)

/-- The result words of an ADMIT_FRAME that ends after its checks (R77). -/
theorem Ctx.endRes_admitFrame {x : Ctx} {code : Code} (hk : x.kind = Kind.admitFrame.code) (hc : code ≠ .storeFailed) :
    x.endRes code = { Res.zero with ctrUsed := x.value, genUsed := x.genNo } := by
  unfold Ctx.endRes Ctx.kindOf
  rw [hk, Kind.ofCode_code]
  exact if_neg hc

section
variable {s : State} {c : Nat} {x : Ctx} {r : SlotRec} {g : Gen}

/-- A verified frame whose value needs neither a promotion nor a mark is admitted (R42, R64). -/
theorem admitVerified_finishes (hx : s.ctx c = some x) (hr : s.slot x.order.slot.toNat = r)
    (hg : r.find x.genNo = some g) (hp : r.policy.autoConfirm = false ∨ r.roleOf x.genNo ≠ some .staged)
    (hv : x.value ≤ g.ctr.durMark) : s.admitVerified c = s.finishAdmit c := by
  have hprom : ¬((r.policy.autoConfirm && r.roleOf x.genNo == some .staged) = true) := by
    rw [Bool.and_eq_true, beq_iff_eq]
    rintro ⟨ha, hrole⟩
    rcases hp with h | h
    · rw [h] at ha
      cases ha
    · exact h hrole
  unfold State.admitVerified
  rw [hx]
  dsimp only
  rw [hr, hg]
  dsimp only
  rw [if_neg hprom, if_neg (Nat.not_lt.mpr hv)]

/-- Under lockdown an ADMIT_FRAME ends LOCKED (R78). -/
theorem finishAdmit_locked (hx : s.ctx c = some x) (hl : s.tm.lockdown = true) :
    s.finishAdmit c = s.complete c .locked (x.endRes .locked) := by
  unfold State.finishAdmit
  rw [hx]
  exact if_pos hl

end

/-! ## The end of a VERIFY -/

section
variable {s : State} {c : Nat} {x : Ctx} {v : Service} {r : SlotRec} {g : Gen}

/-- The order goes on from its VERIFY with its body. -/
theorem State.Serving.verified {op : CipherOp} (h : s.Serving c x v op) :
    Onward s ((s.served c).modCtx c (Ctx.noteBody v)) c (x.verified v) := h.begun.mod _

/-- A frame that does not verify ends its order AUTH_FAILED, and nothing else changes (R77). -/
theorem State.Serving.authFails (h : s.Serving c x v .verify) (hk : x.kind = Kind.admitFrame.code) (hbad : ¬x.verifies v) :
    let t := s.endService .verify State.verifyEnds
    s.EndsPlainly t c x .authFailed { Res.zero with ctrUsed := x.value, genUsed := x.genNo } ∧ t.wp.ram = s.wp.ram := by
  intro t
  obtain ⟨hends, hram⟩ := h.endsPlainly State.verifyEnds id (fun _ => ⟨rfl, rfl, rfl, rfl, rfl⟩)
    (by rw [modCtx_id]; exact verifyEnds_bad hbad)
  rw [Ctx.endRes_admitFrame hk (by decide)] at hends
  exact ⟨hends, hram⟩

/-- The order of a frame that verifies, and whose value needs neither a promotion nor a mark, comes to be admitted. -/
theorem State.Serving.verifies (h : s.Serving c x v .verify) (hr : s.slot x.order.slot.toNat = r)
    (hg : r.find x.genNo = some g) (hp : r.policy.autoConfirm = false ∨ r.roleOf x.genNo ≠ some .staged)
    (hv : x.value ≤ g.ctr.durMark) (hgood : x.verifies v) :
    State.verifyEnds (s.served c) c x v = ((s.served c).modCtx c (Ctx.noteBody v)).finishAdmit c :=
  (verifyEnds_good hgood).trans (admitVerified_finishes h.verified.ctx hr hg hp hv)

/-- A frame that verifies under lockdown ends its order LOCKED, and nothing else changes (R78). -/
theorem State.Serving.admitLocked (h : s.Serving c x v .verify) (hk : x.kind = Kind.admitFrame.code)
    (hl : s.tm.lockdown = true)
    (hgo : State.verifyEnds (s.served c) c x v = ((s.served c).modCtx c (Ctx.noteBody v)).finishAdmit c) :
    let t := s.endService .verify State.verifyEnds
    s.EndsPlainly t c x .locked { Res.zero with ctrUsed := x.value, genUsed := x.genNo } ∧ t.wp.ram = s.wp.ram := by
  intro t
  have hlocked := finishAdmit_locked h.verified.ctx hl
  rw [Ctx.endRes_admitFrame (x := x.verified v) hk (by decide)] at hlocked
  obtain ⟨hends, hram⟩ := h.endsPlainly State.verifyEnds (Ctx.noteBody v) (fun _ => ⟨rfl, rfl, rfl, rfl, rfl⟩)
    (hgo.trans hlocked)
  exact ⟨hends, hram⟩

/-- A frame that verifies is admitted: the window takes its value, and the body is written (R63, R65, R77). -/
theorem State.Serving.admits (h : s.Serving c x v .verify) (hk : x.kind = Kind.admitFrame.code)
    (hlt : x.order.slot.toNat < 64) (hr : s.slot x.order.slot.toNat = r) (hd : r.deferred = Deferred.none)
    (hg : r.find x.genNo = some g) (hl : s.tm.lockdown = false)
    (hgo : State.verifyEnds (s.served c) c x v = ((s.served c).modCtx c (Ctx.noteBody v)).finishAdmit c) :
    let k := g.ctr.admitted x.value
    let near := k.durMark - k.top ≤ 1024 ∧ k.marking = false ∧ k.durMark < maxWord
    let t := s.endService .verify State.verifyEnds
    s.OrderEnds t c x .ok { Res.zero with ctrUsed := x.value, genUsed := x.genNo, outLen := v.text.length } ∧
      t.wp.ram = Ram.writeBytes s.wp.ram x.order.output.addr (decipher x.wrapKey v.nonce v.text) ∧
      t.slot x.order.slot.toNat =
        r.updGen x.genNo (fun g => { g with ctr := if near then k.requestMark (markFor k.durMark) else k }) ∧
      (near → t.holdsRecord (fun q => q.body ==
        .counterMark x.order.slot.toNat x.genNo k.ceil (max k.reqMark (markFor k.durMark))) = true) ∧
      (∀ m, m ≠ x.order.slot.toNat → t.slot m = s.slot m) ∧
      t.tu = s.tu ∧ t.nu = (s.countCompletion x.lane).nu ∧ t.xu = { s.xu with service := none } := by
  intro k near t
  obtain ⟨z, hz, hon, hslot, hothers, htu, hnu, hxu, hwp, hmark⟩ :=
    finishAdmit_eq h.verified x.order.slot.toNat rfl hlt hr hg hl
  rw [Ctx.endRes_admitFrame (x := x.verified v) hk (by decide)] at hz
  have hdeferred : ∀ n, x.held = some n → (z.slot n).deferred = Deferred.none := fun n hn => by
    by_cases hm : n = x.order.slot.toNat
    · rw [hm, hslot, SlotRec.updGen_deferred]
      exact hd
    · rw [hothers n hm]
      exact h.plain.deferred n hn
  obtain ⟨hends, tkt, ttu, tnu, txu, tram, given⟩ := h.ends State.verifyEnds (hgo.trans hz) hon rfl rfl rfl rfl h.plain.erase
    (by rw [hxu]; exact h.queue) htu hdeferred
  have slots := State.slot_congr tkt
  refine ⟨?_, ?_, (slots _).trans hslot, fun hnear => given _ (by simp) (hmark hnear ?_),
    fun m hm => (slots m).trans (hothers m hm), ttu, tnu.trans ?_, txu.trans hxu⟩
  · rw [show v.text.length = (x.verified v).output.length from (decipher_length ..).symm]
    exact hends
  · rw [tram, if_pos rfl, hwp]
    rfl
  · show s.wp.engine ≠ _
    rw [h.running]
    decide
  · exact State.countCompletion_nu hon.plan hnu hon.clock _

end

/-- Settles O21. -/
theorem verifyEndAdmitsTheFrame : Obligations.VerifyEndAdmitsTheFrame := by
  unfold Obligations.VerifyEndAdmitsTheFrame
  intro s c x v r g h hk hlt hr hd hg hp hv n text tag good res k near
  refine ⟨s.endService .verify State.verifyEnds, rfl, h.authFails hk,
    fun hgood hl => h.admitLocked hk hl (h.verifies hr hg hp hv hgood), fun hgood hl => ?_⟩
  obtain ⟨hends, hram, hslot, hmark, hothers, htu, hnu, hxu⟩ :=
    h.admits hk hlt hr hd hg hl (h.verifies hr hg hp hv hgood)
  refine ⟨hends, hram, fun body hbody => hram.trans ?_, hslot, hmark, hothers, htu, hnu, hxu⟩
  rw [show v.text = encipher x.wrapKey v.nonce body from hbody, decipher_encipher]

end Sys2Proof.Machine
end

section
/-! Proofs, the counters, part 7: the commit of a base (R59, R106, R117). -/

namespace Sys2Proof.Machine

/-! ## The commit of a base -/

/-- No order waits for a reservation or a mark. -/
def State.noneAwaits (s : State) : Prop := ∀ d y, s.ctx d = some y → y.wait ≠ .reservation ∧ y.wait ≠ .mark

/-- The GROUP_END of a compaction, programmed as it was written, commits its base (R117). -/
theorem exec_baseCommit {s : State} {cp : Compaction} {at_ : Nat} {w : UnitWord}
    (hstep : s.ju.step = some ⟨.compaction, cp.target, at_, [w]⟩) (hcomp : s.ju.comp = some cp)
    (hend : cp.step = .groupEnd) :
    let v := s.setUnits cp.target (setUnit (s.units cp.target) at_ (.good w))
    exec .baseCommit s = .next (State.goOn (State.commitBase { v with ju := { v.ju with step := none } } cp)) := by
  intro v
  have hbase : s.atBaseEnd = true := by
    unfold State.atBaseEnd
    rw [hstep, hcomp]
    dsimp only
    rw [hend]
    rfl
  have hvcomp : v.ju.comp = some cp := by
    rw [← hcomp]
    show (s.setUnits cp.target _).ju.comp = _
    cases cp.target <;> rfl
  show execBaseCommit s = _
  unfold execBaseCommit State.unitEnds
  rw [if_pos hbase, hstep]
  dsimp only
  rw [Option.getD_none, if_neg (by simp), List.isEmpty_nil, if_pos rfl]
  show Host.Outcome.next (State.goOn (v.stepDone _)) = _
  unfold State.stepDone
  dsimp only
  rw [hvcomp]
  dsimp only
  rw [hend]

/-- What the commit of a base makes of the banks: the target current under its epoch, and the old bank SPENT (R106,
R117). -/
def State.baseTaken (s : State) (cp : Compaction) (old : Bank) : State :=
  State.setBankState
    { s with ju := { s.ju with
      current := some cp.target, epoch := cp.epoch, used := cp.at_ - 1, next := cp.at_
      lastSeq := s.ju.lastSeq + 1, step := none, comp := none } } old .spent

theorem State.baseTaken_eq (s : State) (cp : Compaction) (old : Bank) : ∃ j, s.baseTaken cp old = { s with ju := j } := by
  cases old <;> exact ⟨_, rfl⟩

/-- The step that has ended, and the compaction, are the Journal Unit's own. -/
theorem State.baseTaken_kicked (v : State) (cp : Compaction) (old : Bank) {n : Word} (hn : v.ju.lastSeq = n)
    (k : Vector SlotRec 64) :
    Kicked
      { State.setBankState { v with ju := { v.ju with
        current := some cp.target, epoch := cp.epoch, used := cp.at_ - 1, next := cp.at_, lastSeq := n + 1 } } old
        .spent with kt := k }
      { State.baseTaken { v with ju := { v.ju with step := none } } cp old with kt := k } := by
  subst hn
  cases old <;> exact (Kicked.refl _).withJu _ ⟨rfl, rfl, rfl, rfl, rfl, rfl, rfl, rfl, rfl, rfl, rfl⟩

/-- The commit of a base whose records no order placed, with no order waiting for a reservation or a mark, changes the
banks, and the counters of the images that it holds (R59, R117). -/
theorem State.commitBase_eq {s : State} {cp : Compaction} {old : Bank} (hold : s.ju.current = some old)
    (howners : ∀ r ∈ cp.images, ∀ c, r.owner ≠ .order c ∧ r.owner ≠ .unlock c) (hs : s.noneAwaits) :
    ∃ k, s.commitBase cp = { s.baseTaken cp old with
        kt := k, ju := { (s.baseTaken cp old).ju with activity := .idle, forced := false } } ∧
      ∀ m, (s.commitBase cp).slot m = cp.images.foldl (fun q r => q.madeDurable m r.body) (s.slot m) := by
  obtain ⟨k, hk, hslot⟩ := State.commitCounters_all (s.baseTaken cp old) cp.images
  obtain ⟨j, hj⟩ := s.baseTaken_eq cp old
  have hnone : State.noneAwaits { s.baseTaken cp old with kt := k } := by
    rw [hj]
    exact hs
  have hrelease : cp.images.foldl State.releaseRec (cp.images.foldl State.commitCounters (s.baseTaken cp old)) =
      { s.baseTaken cp old with kt := k } := by
    rw [hk]
    exact State.releases_free _ _ howners hnone
  have hcommit : s.commitBase cp = { s.baseTaken cp old with
      kt := k, ju := { (s.baseTaken cp old).ju with activity := .idle, forced := false } } := by
    unfold State.commitBase
    simp only [hold]
    unfold State.baseTaken at hrelease
    rw [hrelease]
    rfl
  refine ⟨k, hcommit, fun m => ?_⟩
  rw [hk] at hslot
  have hs' : (s.baseTaken cp old).slot m = s.slot m := by rw [hj]; rfl
  rw [← hs', ← hslot, hcommit]
  rfl

/-- Settles O44. -/
theorem baseCommitMakesTheTargetCurrent : Obligations.BaseCommitMakesTheTargetCurrent := by
  unfold Obligations.BaseCommitMakesTheTargetCurrent
  intro s cp old at_ w hset hstep hcomp hend hold hwaits howners v u
  obtain ⟨i, hi⟩ : ∃ i, v = { s with ju := i } := by
    show ∃ i, s.setUnits cp.target _ = _
    cases cp.target <;> exact ⟨_, rfl⟩
  have hvold : v.ju.current = some old := by
    rw [← hold]
    show (s.setUnits cp.target _).ju.current = _
    cases cp.target <;> rfl
  obtain ⟨k, hcommit, hslot⟩ := State.commitBase_eq (s := { v with ju := { v.ju with step := none } }) (cp := cp) hvold
    howners (by rw [hi]; exact hwaits)
  have hlast : v.ju.lastSeq = s.ju.lastSeq := by
    show (s.setUnits cp.target _).ju.lastSeq = _
    cases cp.target <;> rfl
  have hub := State.baseTaken_kicked v cp old hlast
  obtain ⟨j, hj⟩ := State.baseTaken_eq { v with ju := { v.ju with step := none } } cp old
  generalize State.baseTaken { v with ju := { v.ju with step := none } } cp old = b at hcommit hj hub
  have kk : Kicked { b with kt := k } (State.goOn { b with
      kt := k, ju := { b.ju with activity := .idle, forced := false } }) :=
    State.goOn_committed (w := { b with kt := k }) _ ⟨rfl, rfl, rfl, rfl, rfl, rfl, rfl, rfl, rfl, rfl, rfl⟩
      (by rw [hj, hi]; exact hset.after.2) (by rw [hj, hi]; exact hset.supply)
  have hvslot : ∀ m, State.slot { v with ju := { v.ju with step := none } } m = s.slot m := by
    rw [hi]
    exact fun _ => rfl
  refine ⟨_, exec_baseCommit hstep hcomp hend, ?_⟩
  rw [hcommit] at hslot ⊢
  refine ⟨fun m => (kk.slot m).trans ((hslot m).trans (by rw [hvslot])), ?_⟩
  rw [kk.kt]
  exact ((hub k).trans kk).takenUp

end Sys2Proof.Machine
end

section
/-! Proofs, the counters, part 8: the commit of a group that no order placed, and the one order that it may release from
its wait for a reservation or a mark (R55, R56, R59, R63 to R65, R77, R112). -/

namespace Sys2Proof.Machine

/-! ## The commit of records that no order placed -/

/-- The array's counts once a group is durable (R112). -/
def State.moved (s : State) (g : Group) : State :=
  { s with ju := { s.ju with
    lastSeq := g.seq, used := s.ju.used + (groupSize g.recs + 1), next := s.ju.next + (groupSize g.recs + 1) } }

/-- The Journal Unit between two steps (R111). -/
def State.stepless (s : State) : State := { s with ju := { s.ju with step := none } }

theorem State.stepless_array (s : State) : s.SameArray s.stepless :=
  ⟨rfl, rfl, rfl, rfl, rfl, rfl, rfl, rfl, rfl, rfl, rfl⟩

/-- The Journal Unit rests after the commit of a group, and a compaction may be due (R111, R115). -/
def State.rested (s : State) : State :=
  { s with ju := { s.ju with activity := .idle, due := s.ju.due || decide (768 ≤ s.ju.used) } }

theorem State.commitGroup_unowned {s : State} {g : Group}
    (hl : ∀ r ∈ g.recs, ∀ c, r.owner ≠ .order c ∧ r.owner ≠ .unlock c) :
    s.commitGroup g = (g.recs.foldl State.releaseRec (g.recs.foldl State.commitCounters (s.moved g).stepless)).rested := by
  unfold State.commitGroup
  dsimp only
  rw [State.notes_free _ _ hl, State.together_same rfl]
  rfl

/-- The counters of a group made durable while no step is in progress. -/
theorem State.commitCounters_stepless (s : State) (l : List Rec) :
    ∃ k, l.foldl State.commitCounters s.stepless = State.stepless { s with kt := k } ∧
      ∀ m, State.slot { s with kt := k } m = l.foldl (fun q r => q.madeDurable m r.body) (s.slot m) := by
  obtain ⟨k, hk, hslot⟩ := State.commitCounters_all s.stepless l
  refine ⟨k, hk, fun m => ?_⟩
  rw [hk] at hslot
  exact hslot m

/-- Counters made durable leave what the slot has deferred. -/
theorem SlotRec.madeDurable_fold_deferred (m : Nat) (l : List Rec) (q : SlotRec) :
    (l.foldl (fun q r => q.madeDurable m r.body) q).deferred = q.deferred := by
  induction l generalizing q with
  | nil => rfl
  | cons r l ih => rw [List.foldl_cons, ih, SlotRec.madeDurable_deferred]

/-- The GROUP_END of a group that no order placed makes the counters of its records durable, and releases the orders that
wait for them (R59, R112). -/
theorem exec_groupCommit_unowned {s : State} {g : Group} {bk : Bank} {at_ : Nat} {w : UnitWord}
    (hstep : s.ju.step = some ⟨.group g, bk, at_, [w]⟩)
    (hl : ∀ r ∈ g.recs, ∀ c, r.owner ≠ .order c ∧ r.owner ≠ .unlock c) :
    let u := State.moved (s.setUnits bk (setUnit (s.units bk) at_ (.good w))) g
    ∃ b : State, b = { u with kt := b.kt } ∧
      (∀ m, b.slot m = g.recs.foldl (fun q r => q.madeDurable m r.body) (s.slot m)) ∧
      exec .groupCommit s = .next (g.recs.foldl State.releaseRec b.stepless).rested.goOn := by
  intro u
  obtain ⟨k, hk, hslot⟩ := u.commitCounters_stepless g.recs
  have hu : ∀ m, u.slot m = s.slot m := by
    cases bk <;> exact fun _ => rfl
  refine ⟨{ u with kt := k }, rfl, fun m => (hslot m).trans (by rw [hu]), ?_⟩
  rw [exec_groupCommit hstep, State.commitGroup_unowned hl, ← hk]

theorem State.goOn_rested {z : State} (h : z.wp.startAt = none) (he : z.wp.engine = .running) :
    Kicked z z.rested.goOn :=
  State.goOn_committed _ ⟨rfl, rfl, rfl, rfl, rfl, rfl, rfl, rfl, rfl, rfl, rfl⟩ h (by rw [he]; decide)

/-- A record that is no image stays held by what follows a commit (R109). -/
theorem State.goOn_rested_holds {z : State} (h : z.wp.startAt = none) {b : RecBody} (hb : ∀ n r, b ≠ .image n r)
    (hz : z.holdsRecord (fun q => q.body == b) = true) : z.rested.goOn.holdsRecord (fun q => q.body == b) = true := by
  rw [State.goOn_settled (by exact h)]
  exact State.finish_holds (State.joins_body _ hb) ((State.holdsRecord_congr (s := z) _ rfl rfl).trans hz)

/-! ## The one order that a record releases -/

/-- The order `x` in context `c` is the one that waits for a reservation or a mark, and nothing follows its release but
what it does itself. -/
structure State.Awaits (s : State) (c : Nat) (x : Ctx) : Prop where
  plain : s.Plain c x
  waits : x.wait = .reservation ∨ x.wait = .mark
  others : ∀ d y, d ≠ c → s.ctx d = some y → y.wait ≠ .reservation ∧ y.wait ≠ .mark
  follower : s.NoFollower
  running : s.wp.engine = .running
  started : s.wp.startAt = none

section
variable {b z : State} {c : Nat} {x y : Ctx} {r : Rec}

/-- The order of a state between two steps goes on from the state itself. -/
theorem Onward.ofStepless (h : Onward b.stepless z c y) : Onward b z c y :=
  h.since rfl rfl b.stepless_array rfl rfl rfl

/-- The waiting order as it is, before the record releases it. -/
theorem State.Awaits.onward (h : b.Awaits c x) : Onward b.stepless b.stepless c x := Onward.refl h.plain.ctx h.plain.small

/-- Nothing follows an order that goes on. -/
theorem State.Awaits.noFollower (h : b.Awaits c x) (on : Onward b z c y) (hy : y.wait ≠ .predecessors) : z.NoFollower where
  lanes n := by
    rw [on.lane]
    exact h.follower.lanes n
  syncs d := by
    unfold State.isSync
    by_cases hd : d = c
    · rw [hd, on.ctx, Option.any_some]
      exact beq_false_of_ne hy
    · rw [on.ctxs hd]
      exact h.follower.syncs d
  engine := by
    rw [on.wp]
    exact h.follower.engine

/-- No order waits any more once the one that waited goes on. -/
theorem State.Awaits.noneAwaits (h : b.Awaits c x) (on : Onward b z c y) (hy : y.wait ≠ .reservation ∧ y.wait ≠ .mark) :
    z.noneAwaits := fun d a ha => by
  by_cases hd : d = c
  · rw [hd, on.ctx] at ha
    cases ha
    exact hy
  · rw [on.ctxs hd] at ha
    exact h.others d a hd ha

/-- The record releases the order that waits, and nothing follows (R112). -/
theorem State.Awaits.releaseRec (h : b.Awaits c x) (hr : ∀ c, r.owner ≠ .order c ∧ r.owner ≠ .unlock c)
    (hz : b.stepless.resume c r = z) (hf : z.NoFollower) (hn : z.noneAwaits) : b.stepless.releaseRec r = z := by
  have hserve : (b.stepless.resume c r).serve = z := by rw [hz, State.serve_idle hf]
  rw [State.release_free r _ hr,
    State.releaseOne (s := b.stepless) h.plain.small h.plain.ctx h.waits h.others r (by rw [hserve]; exact hn), hserve]

/-- The order goes on to the Cipher Unit (R55, R112). -/
theorem State.Awaits.goesOn (h : b.Awaits c x) (hr : ∀ c, r.owner ≠ .order c ∧ r.owner ≠ .unlock c)
    (hz : b.stepless.resume c r = z) (on : Onward b z c y) (hy : y.wait = .cipherQueue) :
    b.stepless.releaseRec r = z ∧ Kicked z z.rested.goOn := by
  refine ⟨h.releaseRec hr hz (h.noFollower on ?_) (h.noneAwaits on ?_), State.goOn_rested ?_ ?_⟩
  · rw [hy]; decide
  · rw [hy]; decide
  · rw [on.wp]; exact h.started
  · rw [on.wp]; exact h.running

/-- What an order that waited and completes leaves, where it has changed slots alone before. -/
theorem State.Awaits.ends {code : Code} {res : Res} (h : b.Awaits c x)
    (hr : ∀ c, r.owner ≠ .order c ∧ r.owner ≠ .unlock c) (hz : b.stepless.resume c r = z.complete c code res)
    (on : Onward b z c x) (hdeferred : ∀ n, x.held = some n → (z.slot n).deferred = Deferred.none)
    (htu : z.tu = b.tu) (hnu : z.nu = b.nu) (hwp : z.wp = b.wp) :
    let t := (b.stepless.releaseRec r).rested.goOn
    b.OrderEnds t c x code res ∧ t.kt = z.kt ∧ t.tu = b.tu ∧ t.nu = (b.countCompletion x.lane).nu ∧ t.xu = z.xu ∧
      t.wp.ram = (if code = .ok then Ram.writeBytes b.wp.ram x.order.output.addr x.output else b.wp.ram) ∧
      ∀ body, (∀ n r, body ≠ .image n r) → z.holdsRecord (fun q => q.body == body) = true →
        t.holdsRecord (fun q => q.body == body) = true := by
  intro t
  have cm := State.complete_completed
    ⟨on.ctx, on.small, h.plain.lane, h.plain.cell, h.plain.erase, hdeferred⟩ code res
  rw [← hz] at cm
  have hnone : State.noneAwaits (b.stepless.resume c r) := fun d a ha => by
    by_cases hd : d = c
    · rw [hd, cm.ctx] at ha
      cases ha
    · rw [cm.ctxs d hd, on.ctxs hd] at ha
      obtain ⟨a', ha', rfl⟩ := Option.map_eq_some_iff.mp ha
      exact h.others d a' hd ha'
  have hf := cm.noFollower (fun n => by rw [on.lane]; exact h.follower.lanes n)
    (fun d hd => by unfold State.isSync; rw [on.ctxs hd]; exact h.follower.syncs d)
    (by rw [hwp]; exact h.follower.engine)
  have ht : t = (b.stepless.resume c r).rested.goOn := congrArg (fun v => (State.rested v).goOn) (h.releaseRec hr rfl hf hnone)
  generalize b.stepless.resume c r = v at cm ht
  have hstart : v.wp.startAt = none := by rw [cm.wp, hwp]; exact h.started
  have k : Kicked v t := by
    rw [ht]
    exact State.goOn_rested hstart (by rw [cm.wp, hwp]; exact h.running)
  refine ⟨cm.orderEnds on k rfl rfl rfl (by rw [htu]), k.kt.trans cm.kt, k.tu.trans (cm.tu.trans htu), k.nu.trans ?_,
    k.xu.trans cm.xu, ?_, fun body hbody hheld => ?_⟩
  · rw [cm.nu (by rw [hwp]; exact h.running)]
    exact State.countCompletion_nu on.plan hnu on.clock _
  · rw [k.wp, cm.wp, hwp]
  · rw [ht]
    exact State.goOn_rested_holds hstart hbody ((State.holdsRecord_congr (s := z) _ (by rw [cm.ju])
      (by rw [cm.ju])).trans hheld)

end

/-! ## A PROTECT_FRAME goes on from its wait for a reservation -/

/-- A request placed while another is in service waits in the queue (R80). -/
theorem placeRequest_queues {T u : State} {c : Nat} {x : Ctx} (on : Onward T u c x) (hl : x.late = false)
    (hs : u.xu.service ≠ none) (op : CipherOp) :
    let z := u.placeRequest c op
    Onward T z c { x with wait := .cipherQueue } ∧ u.SameTables z ∧ z.wp = u.wp ∧
      z.xu = { u.xu with queue := u.xu.queue ++ [⟨c, op⟩] } := by
  obtain ⟨v, hv⟩ := Option.ne_none_iff_exists'.mp hs
  have hz : u.placeRequest c op = { u.modCtx c fun x => { x with wait := .cipherQueue } with
      xu := { u.xu with queue := u.xu.queue ++ [⟨c, op⟩] } } := by
    unfold State.placeRequest
    rw [on.ctx]
    dsimp only
    rw [if_neg (by rw [hl]; decide), State.cipherKick_busy (v := v) (by rw [State.modCtx_xu]; exact hv), State.modCtx_xu]
  rw [hz]
  exact ⟨(on.mod fun x => { x with wait := .cipherQueue }).tables rfl rfl (sameArray_ju rfl) rfl rfl rfl, ⟨rfl, rfl, rfl⟩,
    rfl, rfl⟩

/-- A PROTECT request that begins service reads its extents, forms its nonce and takes the next value (R56, R72, R74). -/
theorem beginService_takes {T u : State} {c : Nat} {x : Ctx} {k : Gen} {q : SlotRec} (on : Onward T u c x)
    (hlt : x.order.slot.toNat < 64) (hq : u.slot x.order.slot.toNat = q) (hc : q.current = some k)
    (hgen : k.number = x.genNo) (hn : k.ctr.next < k.ctr.durCeil) (he : u.wp.engine ≠ .failed) :
    let z := u.beginService ⟨c, .protect⟩
    ∃ v : Service, v.ctx = c ∧ v.op = .protect ∧ v.assoc = u.readExtent x.order.assoc ∧
      v.input = u.readExtent x.order.input ∧ v.nonce = frameNonce Config.serial x.genNo k.ctr.next ∧
      z.xu = { u.xu with service := some v } ∧ z.wp = u.wp ∧ u.TakesNext z x.order.slot.toNat q k ∧
      Onward T z c { x with value := k.ctr.next, taken := true } := by
  obtain ⟨hon, hs, hothers, htu, hnu, hxu, hwp, hmark⟩ := takeCounter_onward on x.order.slot.toNat rfl hlt hq hc hn
  rw [hgen] at hon
  rw [beginService_protect rfl hon.ctx]
  generalize u.takeCounter c = w at *
  have hread := State.readExtent_congr (congrArg Wp.ram hwp)
  obtain ⟨hassoc, hinput, hnonce⟩ := serviceOf_protect w c { x with value := k.ctr.next, taken := true }
  refine ⟨serviceOf w c .protect _, rfl, rfl, hassoc.trans (hread _), hinput.trans (hread _), hnonce, ?_, hwp,
    ⟨hs, hothers, htu, hnu, fun hback => hmark hback he⟩, hon.tables rfl rfl (sameArray_ju rfl) rfl rfl rfl⟩
  dsimp only
  rw [hxu]

/-- What a request takes stands where the tables before it agree, and the Journal Unit's work follows it (R56, R109). -/
theorem State.TakesNext.since {b u z : State} {n : Nat} {q : SlotRec} {k : Gen} (h : u.TakesNext z n q k)
    (hu : b.SameTables u) (hk : Kicked z z.rested.goOn) (hstart : z.wp.startAt = none) :
    b.TakesNext z.rested.goOn n q k where
  slot := (hk.slot n).trans h.slot
  others m hm := (hk.slot m).trans ((h.others m hm).trans (State.slot_congr hu.slots m))
  time := hk.tu.trans (h.time.trans (by rw [hu.time]))
  notices := hk.nu.trans (h.notices.trans (State.raiseIf_nu hu.notices _ _))
  mark hback := State.goOn_rested_holds hstart (by simp) (h.mark hback)

section
variable {b : State} {c : Nat} {x : Ctx} {r : Rec} {k : Gen}

/-- The state in which a PROTECT_FRAME places its request once the record has released it (R55). -/
def State.released (b : State) (c : Nat) : State := b.stepless.modCtx c fun x => { x with wait := .none }

theorem State.released_tables (b : State) (c : Nat) : b.SameTables (b.released c) := ⟨rfl, rfl, rfl⟩

theorem State.Awaits.released (h : b.Awaits c x) : Onward b (b.released c) c { x with wait := .none } :=
  (h.onward.mod fun x => { x with wait := .none }).ofStepless

/-- A PROTECT_FRAME released from its wait waits for a Cipher Unit that is at work (R55, R80). -/
theorem State.Awaits.queues (h : b.Awaits c x) (hl : x.late = false)
    (hr : ∀ c, r.owner ≠ .order c ∧ r.owner ≠ .unlock c) (hs : b.xu.service ≠ none)
    (hz : b.stepless.resume c r = (b.released c).placeRequest c .protect) :
    let t := (b.stepless.releaseRec r).rested.goOn
    b.GoesOn t c { x with wait := .cipherQueue } ∧ t.xu = { b.xu with queue := b.xu.queue ++ [⟨c, .protect⟩] } := by
  intro t
  obtain ⟨on, htables, hwp, hxu⟩ := placeRequest_queues h.released hl hs .protect
  rw [← hz] at on htables hwp hxu
  obtain ⟨hrel, hk⟩ := h.goesOn hr rfl on rfl
  rw [← hrel] at on htables hwp hxu hk
  exact ⟨on.goesOn hk ⟨htables.slots, htables.time, htables.notices⟩ (congrArg Wp.ram hwp), hk.xu.trans hxu⟩

/-- A PROTECT_FRAME released from its wait takes the next value at once in an idle Cipher Unit (R55, R56). -/
theorem State.Awaits.takes (h : b.Awaits c x) (hl : x.late = false)
    (hr : ∀ c, r.owner ≠ .order c ∧ r.owner ≠ .unlock c) (hi : b.cipherIdle) (hlt : x.order.slot.toNat < 64)
    (hc : (b.slot x.order.slot.toNat).current = some k) (hgen : k.number = x.genNo) (hn : k.ctr.next < k.ctr.durCeil)
    (hz : b.stepless.resume c r = (b.released c).placeRequest c .protect) :
    let t := (b.stepless.releaseRec r).rested.goOn
    ∃ v : Service, v.ctx = c ∧ v.op = .protect ∧ v.assoc = b.readExtent x.order.assoc ∧
      v.input = b.readExtent x.order.input ∧ v.nonce = frameNonce Config.serial x.genNo k.ctr.next ∧
      t.xu = { b.xu with service := some v } ∧ b.TakesNext t x.order.slot.toNat (b.slot x.order.slot.toNat) k ∧
      State.GoesOn { b with kt := t.kt, tu := t.tu, nu := t.nu } t c
        { x with wait := .cipherQueue, value := k.ctr.next, taken := true } := by
  intro t
  rw [placeRequest_idle h.released.ctx hl hi] at hz
  have on := h.released.mod fun x => { x with wait := .cipherQueue }
  have hu : b.SameTables ((b.released c).modCtx c fun x => { x with wait := .cipherQueue }) := ⟨rfl, rfl, rfl⟩
  have hux : ((b.released c).modCtx c fun x => { x with wait := .cipherQueue }).xu = b.xu := rfl
  have huw : ((b.released c).modCtx c fun x => { x with wait := .cipherQueue }).wp = b.wp := rfl
  generalize (b.released c).modCtx c (fun x => { x with wait := .cipherQueue }) = u at *
  obtain ⟨v, hctx, hop, hassoc, hinput, hnonce, hxu, hwp, htakes, onz⟩ := beginService_takes on hlt
    (State.slot_congr hu.slots _) hc hgen hn (by rw [huw, h.running]; decide)
  obtain ⟨hrel, hk⟩ := h.goesOn hr hz onz rfl
  rw [← hrel] at hk hxu hwp htakes onz
  have hread := State.readExtent_congr (congrArg Wp.ram huw)
  exact ⟨v, hctx, hop, hassoc.trans (hread _), hinput.trans (hread _), hnonce, hk.xu.trans (hxu.trans (by rw [hux])),
    htakes.since hu hk (by rw [hwp, huw]; exact h.started),
    (onz.since (S := { b with kt := t.kt, tu := t.tu, nu := t.nu }) rfl rfl (sameArray_ju rfl) rfl rfl rfl).goesOn hk
      ⟨hk.kt.symm, hk.tu.symm, hk.nu.symm⟩ (congrArg Wp.ram (hwp.trans huw))⟩

/-! ## An ADMIT_FRAME goes on from its wait for a mark -/

/-- Under lockdown the ADMIT_FRAME ends LOCKED (R78). -/
theorem State.Awaits.locked (h : b.Awaits c x) (hr : ∀ c, r.owner ≠ .order c ∧ r.owner ≠ .unlock c)
    (hkind : x.kind = Kind.admitFrame.code) (hl : b.tm.lockdown = true)
    (hz : b.stepless.resume c r = b.stepless.finishAdmit c) :
    let t := (b.stepless.releaseRec r).rested.goOn
    b.OrderEnds t c x .locked { Res.zero with ctrUsed := x.value, genUsed := x.genNo } ∧ t.kt = b.kt ∧ t.tu = b.tu ∧
      t.nu = (b.countCompletion x.lane).nu ∧ t.xu = b.xu ∧ t.wp.ram = b.wp.ram := by
  intro t
  rw [finishAdmit_locked (s := b.stepless) h.plain.ctx hl, Ctx.endRes_admitFrame hkind (by decide)] at hz
  obtain ⟨hends, hkt, htu, hnu, hxu, hram, -⟩ :=
    h.ends hr hz h.onward.ofStepless h.plain.deferred rfl rfl rfl
  exact ⟨hends, hkt, htu, hnu, hxu, hram⟩

/-- The ADMIT_FRAME is admitted: the window takes its value, and the body is written (R63, R65, R77). -/
theorem State.Awaits.admits (h : b.Awaits c x) (hr : ∀ c, r.owner ≠ .order c ∧ r.owner ≠ .unlock c)
    (hkind : x.kind = Kind.admitFrame.code) (hl : b.tm.lockdown = false) (hlt : x.order.slot.toNat < 64)
    (hg : (b.slot x.order.slot.toNat).find x.genNo = some k) (hz : b.stepless.resume c r = b.stepless.finishAdmit c) :
    let a := k.ctr.admitted x.value
    let near := a.durMark - a.top ≤ 1024 ∧ a.marking = false ∧ a.durMark < maxWord
    let t := (b.stepless.releaseRec r).rested.goOn
    b.OrderEnds t c x .ok { Res.zero with ctrUsed := x.value, genUsed := x.genNo, outLen := x.output.length } ∧
      t.wp.ram = Ram.writeBytes b.wp.ram x.order.output.addr x.output ∧
      t.slot x.order.slot.toNat = (b.slot x.order.slot.toNat).updGen x.genNo
        (fun g => { g with ctr := if near then a.requestMark (markFor a.durMark) else a }) ∧
      (near → t.holdsRecord (fun q => q.body ==
        .counterMark x.order.slot.toNat x.genNo a.ceil (max a.reqMark (markFor a.durMark))) = true) ∧
      (∀ m, m ≠ x.order.slot.toNat → t.slot m = b.slot m) ∧
      t.tu = b.tu ∧ t.nu = (b.countCompletion x.lane).nu ∧ t.xu = b.xu := by
  intro a near t
  obtain ⟨z, hfin, on, hslot, hothers, ztu, znu, zxu, zwp, zmark⟩ :=
    finishAdmit_eq h.onward x.order.slot.toNat rfl hlt rfl hg hl
  rw [Ctx.endRes_admitFrame hkind (by decide)] at hfin
  have hdeferred : ∀ n, x.held = some n → (z.slot n).deferred = Deferred.none := fun n hn => by
    by_cases hm : n = x.order.slot.toNat
    · rw [hm, hslot, SlotRec.updGen_deferred, ← hm]
      exact h.plain.deferred n hn
    · rw [hothers n hm]
      exact h.plain.deferred n hn
  obtain ⟨hends, hkt, htu, hnu, hxu, hram, given⟩ :=
    h.ends hr (hz.trans hfin) on.ofStepless hdeferred ztu znu zwp
  have slots := State.slot_congr hkt
  exact ⟨hends, hram, (slots _).trans hslot,
    fun hnear => given _ (by simp) (zmark hnear (by rw [show b.stepless.wp = b.wp from rfl, h.running]; decide)),
    fun m hm => (slots m).trans (hothers m hm), htu, hnu, hxu.trans zxu⟩

end

/-! ## The commit of COUNTER_MARKs -/

/-- The order that waits before the commit is the one that waits when the counters of the records are durable. -/
theorem State.Awaits.ofCommitted {s b : State} {c : Nat} {x : Ctx} {l : List Rec} (h : s.Settled)
    (he : s.wp.engine = .running) (hp : s.Plain c x) (hw : x.wait = .reservation ∨ x.wait = .mark)
    (ho : ∀ d y, d ≠ c → s.ctx d = some y → ¬(y.wait = .reservation ∨ y.wait = .mark)) (hod : b.od = s.od)
    (hwp : b.wp = s.wp) (hslot : ∀ m, b.slot m = l.foldl (fun q r => q.madeDurable m r.body) (s.slot m)) :
    b.Awaits c x where
  plain := ⟨(State.ctx_congr hod c).trans hp.ctx, hp.small, hp.lane, hp.cell, hp.erase, fun n hn => by
    rw [hslot, SlotRec.madeDurable_fold_deferred]
    exact hp.deferred n hn⟩
  waits := hw
  others d y hd hy := not_or.mp (ho d y hd ((State.ctx_congr hod d).symm.trans hy))
  follower := h.follower.congr hod hwp
  running := by rw [hwp]; exact he
  started := by rw [hwp]; exact h.after.2

/-- Where no order waits, the commit releases none, and the Journal Unit's next work follows (R111, R112). -/
theorem State.noneAwaits.takenUp {b : State} {l : List Rec} (h : b.noneAwaits)
    (hl : ∀ r ∈ l, ∀ c, r.owner ≠ .order c ∧ r.owner ≠ .unlock c) (hstart : b.wp.startAt = none)
    (he : b.wp.engine = .running) : b.TakenUp (l.foldl State.releaseRec b.stepless).rested.goOn := by
  rw [State.releases_free l b.stepless hl h]
  exact (((Kicked.refl b).withJu _ b.stepless_array).trans (State.goOn_rested (z := b.stepless) hstart he)).takenUp

/-- Settles O43: the counters become durable first, and what the one order does next is what `State.resume` makes of it. -/
theorem counterMarkCommitRaisesTheDurableValues : Obligations.CounterMarkCommitRaisesTheDurableValues := by
  unfold Obligations.CounterMarkCommitRaisesTheDurableValues
  intro s g bk at_ w hset he hstep hl n kt u waits
  obtain ⟨b, hb, hslot, hexec⟩ := exec_groupCommit_unowned hstep hl
  have hu : State.moved (s.setUnits bk (setUnit (s.units bk) at_ (.good w))) g = u := by
    cases bk <;> rfl
  rw [hu] at hb
  obtain ⟨j, hj⟩ : ∃ j, u = { s with ju := j } := by
    cases bk <;> exact ⟨_, rfl⟩
  have hbs : b = { s with kt := b.kt, ju := j } := by rw [hj] at hb; exact hb
  have hod : b.od = s.od := by rw [hbs]
  have hwp : b.wp = s.wp := by rw [hbs]
  have hxu : b.xu = s.xu := by rw [hbs]
  have htu : b.tu = s.tu := by rw [hbs]
  have htm : b.tm = s.tm := by rw [hbs]
  have hnu : ∀ lane, (b.countCompletion lane).nu = (s.countCompletion lane).nu :=
    State.countCompletion_nu (by rw [hod]) (by rw [hbs]) (by rw [hbs])
  have hread : ∀ e, b.readExtent e = s.readExtent e := State.readExtent_congr (by rw [hwp])
  refine ⟨_, b, hexec, hb, hslot, fun hnone => ?_, ?_⟩
  · exact State.noneAwaits.takenUp (fun d y hy => not_or.mp (hnone d y ((State.ctx_congr hod d).symm.trans hy))) hl
      (by rw [hwp]; exact hset.after.2) (by rw [hwp]; exact he)
  · intro c x r gen ceiling mark k slot hp hw ho hlate hrecs hbody hgen hlt
    have haw := State.Awaits.ofCommitted hset he hp hw ho hod hwp hslot
    have hr := hl r (by rw [hrecs]; exact List.mem_singleton_self r)
    have hcar : r.body.carries slot x.genNo = some (ceiling, mark) := by
      rw [hbody, hgen]
      exact RecBody.counterMark_carries ..
    have hkt : kt slot = b.slot slot := (hslot slot).symm
    rw [hkt, hrecs, List.foldl_cons, List.foldl_nil]
    subst hgen
    refine ⟨fun hwait hc hk hhard hnext => ?_, fun hwait hkind hg hv => ?_⟩
    · have hz := State.resume_reservation (v := b.stepless) haw.plain.ctx hwait hcar hc hk hhard hnext
      refine ⟨fun hbusy => ?_, fun hidle => ?_⟩
      · rw [← hxu]
        exact haw.queues hlate hr (by rw [hxu]; exact hbusy) hz
      · obtain ⟨v, hctx, hop, hassoc, hinput, hnonce, hunit, htakes, hgoes⟩ :=
          haw.takes hlate hr (by unfold State.cipherIdle; rw [hxu]; exact hidle) hlt hc hk hnext hz
        rw [hxu] at hunit
        exact ⟨v, hctx, hop, hassoc.trans (hread _), hinput.trans (hread _), hnonce, hunit, htakes, hgoes⟩
    · have hz := State.resume_mark (v := b.stepless) haw.plain.ctx hwait hcar hg hv
      rw [← hwp, ← htu, ← hnu, ← hxu, ← htm]
      cases hlock : b.tm.lockdown with
      | true =>
        obtain ⟨hends, hslots, htime, hnotices, hunit, hram⟩ := haw.locked hr hkind hlock hz
        exact ⟨fun _ => ⟨hends, hslots, hram⟩, nofun, htime, hnotices, hunit⟩
      | false =>
        obtain ⟨hends, hram, htaken, hmark, hothers, htime, hnotices, hunit⟩ := haw.admits hr hkind hlock hlt hg hz
        exact ⟨nofun, fun _ => ⟨hends, hram, htaken, hmark, fun m hm => (hothers m hm).trans (hslot m)⟩, htime, hnotices,
          hunit⟩

end Sys2Proof.Machine
end

section
/-! Proofs, frame protection and the Cipher Unit, part 1: the ends of a PROTECT (R72, R73, R78) and of a TOKEN_CHECK (R84,
R149). -/

namespace Sys2Proof.Machine

/-! ## The end of a PROTECT (R72, R73, R78) -/

/-- The ciphertext of the body that a PROTECT has read, and its tag (R72, R73). -/
def Ctx.protectedFrame (x : Ctx) (v : Service) : List Byte :=
  let text := encipher x.wrapKey v.nonce v.input
  text ++ bytesOf (frameTag x.wrapKey v.nonce v.assoc text).toNat 8

/-- The result words of a PROTECT_FRAME that has taken its counter value (R73). -/
theorem Ctx.endRes_protectFrame {x : Ctx} (hk : x.kind = Kind.protectFrame.code) (ht : x.taken = true) (code : Code) :
    x.endRes code = { Res.zero with ctrUsed := x.value, genUsed := x.genNo } := by
  unfold Ctx.endRes Ctx.kindOf
  rw [hk, Kind.ofCode_code]
  dsimp only
  rw [ht, if_pos rfl]

/-- A PROTECT that ends under lockdown writes nothing (R78). -/
theorem protectEnds_locked {s : State} {x : Ctx} (h : s.tm.lockdown = true) (c : Nat) (v : Service) :
    s.protectEnds c x v = s.complete c .locked (x.endRes .locked) := if_pos h

/-- A PROTECT that ends without lockdown gives its order the ciphertext and the tag (R72, R73). -/
theorem protectEnds_unlocked {s : State} {x : Ctx} (h : s.tm.lockdown = false) (c : Nat) (v : Service) :
    s.protectEnds c x v = (s.modCtx c (Ctx.noteOutput (x.protectedFrame v))).complete c .ok
      { x.endRes .ok with outLen := v.input.length + 8 } := if_neg (by rw [h]; decide)

/-- Settles O20, by the two ends of a PROTECT, each a plain completion of its order. -/
theorem protectEndWritesTheFrame : Obligations.ProtectEndWritesTheFrame := by
  unfold Obligations.ProtectEndWritesTheFrame
  intro s c x v h hk ht text tag
  have hres := Ctx.endRes_protectFrame hk ht
  refine ⟨s.endService .protect State.protectEnds, rfl, fun hl => ?_, fun hl => ?_⟩
  · obtain ⟨hends, hram⟩ := h.endsPlainly State.protectEnds id (fun _ => ⟨rfl, rfl, rfl, rfl, rfl⟩)
      (by rw [modCtx_id]; exact protectEnds_locked (s := s.served c) hl c v)
    rw [hres] at hends
    exact ⟨hends, hram⟩
  · obtain ⟨hends, hram⟩ := h.endsPlainly State.protectEnds (Ctx.noteOutput (x.protectedFrame v))
      (fun _ => ⟨rfl, rfl, rfl, rfl, rfl⟩) (protectEnds_unlocked (s := s.served c) hl c v)
    rw [hres] at hends
    exact ⟨hends, hram⟩

/-! ## The end of a TOKEN_CHECK (R84, R149) -/

/-- The token that a TOKEN_CHECK compares is the one that answers its challenge (R84). -/
def Ctx.tokenMatches (x : Ctx) (v : Service) : Prop := Config.unlockToken (Config.unwrapRoot x.wrapKey) v.challenge = x.token

/-- A token that matches under the challenge in force hands the record of the UNLOCK over (R149). -/
theorem tokenEnds_good {s : State} {x : Ctx} {v : Service} (ht : x.tokenMatches v) (hc : s.tm.seq = v.challenge) (c : Nat) :
    s.tokenEnds c x v = s.placeRecord c .unlock := (if_pos ht).trans (if_pos hc)

/-- A token that does not match, or whose challenge is no longer in force, is rejected (R84, R149). -/
theorem tokenEnds_bad {s : State} {x : Ctx} {v : Service} (h : ¬(x.tokenMatches v ∧ s.tm.seq = v.challenge)) (c : Nat) :
    s.tokenEnds c x v = s.refuse c .tokenRejected := by
  unfold State.tokenEnds
  split
  · next ht => exact if_neg fun hc => h ⟨ht, hc⟩
  · rfl

/-- Settles O23: the order hands its record over, or is refused. -/
theorem tokenCheckEndComparesTheToken : Obligations.TokenCheckEndComparesTheToken := by
  unfold Obligations.TokenCheckEndComparesTheToken
  intro s c x v h good
  refine ⟨s.endService .tokenCheck State.tokenEnds, rfl, fun hgood => ?_, fun hbad => ?_⟩
  · obtain ⟨htoken, hchallenge⟩ := hgood
    exact placeRecord_serving (y := { x with wait := .none }) h State.tokenEnds _
      (tokenEnds_good (s := s.served c) htoken hchallenge c) h.begun rfl rfl h.late rfl ⟨rfl, rfl, rfl⟩ rfl
  · exact h.refuses (by decide) (tokenEnds_bad (s := s.served c) hbad c)

end Sys2Proof.Machine
end

section
/-! Proofs, frame protection and the Cipher Unit, part 2: STOP in RUNNING (R128, R158, R183), and SUPPLY_WARN (R126 to R129,
R131, R183), each with the request in service abandoned (R81, R82). -/

namespace Sys2Proof.Machine

/-! ## The request in service is abandoned (R81, R82) -/

/-- A GENERATE of an enabled source is cut short: its health test counts where it had ended (R81, R82). -/
theorem State.abandon_generate {s : State} {v : Service} {x : Ctx} (hv : s.xu.service = some v) (hx : s.ctx v.ctx = some x)
    (hop : v.op = .generate) (hd : s.xu.disabled = false) :
    s.abandon =
      let cut : State := { s with xu := { s.xu with service := none, cuts := s.xu.cuts + 1 } }
      match Config.testEnded s.xu.cuts with
      | none => cut
      | some healthy => cut.countTest healthy x.lane x.cell := by
  have hcut : State.ctx { s with xu := { s.xu with service := none, cuts := s.xu.cuts + 1 } } v.ctx = some x := hx
  unfold State.abandon
  rw [hv]
  dsimp only
  rw [if_pos ⟨hop, hd⟩, hcut]
  rfl

/-- What giving all requests up leaves depends on the Cipher Unit, the notices, meter time and where the orders in flight
stand. -/
theorem State.cleared_congr {s t : State} (hx : t.xu = s.xu) (hn : t.nu = s.nu) (ht : t.tu = s.tu)
    (hc : ∀ c, t.ctx c = s.ctx c) :
    t.cleared = { t with xu := { s.abandon.xu with queue := [] }, nu := s.abandon.nu } := by
  unfold State.cleared
  rw [State.abandon_congr hx hn ht fun c => by rw [hc]]

/-! ## The contexts and the notices at a change of engine state -/

theorem State.busy_isEmpty_iff (s : State) : s.busy.isEmpty = true ↔ ∀ c, s.ctx c = none := by
  unfold State.busy
  rw [List.isEmpty_iff, List.filter_eq_nil_iff]
  constructor
  · intro h c
    by_cases hc : c < 4
    · simpa using h c (List.mem_range.mpr hc)
    · exact s.ctx_none_of_le c (by omega)
  · intro h c _
    simp [h c]

/-- Clearing the lane notices leaves every cause that is not a lane's (R183). -/
theorem State.cause_clearLaneNotices (s : State) {n : Nat} (h : 4 ≤ n) : s.clearLaneNotices.cause n = s.cause n := by
  unfold State.clearLaneNotices State.cause
  by_cases h13 : n < 13
  · simp [getD_eq, h13, Nat.not_lt.mpr h]
  · simp [getD_eq, h13]

/-! ## STOP in RUNNING (R128, R158) -/

/-- The notices as STOP leaves them: one event of ENGINE, and the lane notices cleared (R159, R183). -/
def State.stopNoted (s : State) : State := { s with nu := (s.raise bitEngine).clearLaneNotices.nu }

/-- STOP in RUNNING has put the engine in STOPPING, or has come to STOPPED, and no request has been given up yet (R158). -/
def State.stopTaken (s : State) (e : EngineState) : State :=
  { s with
    wp := { s.wp with
      engine := e, lastCmd := some .stop, lastOutcome := .ok, lastOffset := 0, cmdCount := s.wp.cmdCount + 1 }
    od := { s.od with scanTimer := none }
    nu := s.stopNoted.nu }

/-- As `State.stopTaken`, with the notices that are given, and with the requests of the Cipher Unit given up (R81). -/
def State.stopCleared (s : State) (e : EngineState) (n : Nu) : State :=
  { s.stopTaken e with xu := { s.stopNoted.abandon.xu with queue := [] }, nu := n }

theorem State.cleared_stopTaken (s : State) (e : EngineState) :
    (s.stopTaken e).cleared = s.stopCleared e s.stopNoted.abandon.nu :=
  State.cleared_congr (s := s.stopNoted) rfl rfl rfl fun _ => rfl

/-- STOP with an order in flight ends the orders before STOPPING ends; with none, STOPPING ends in its own step. -/
theorem exec_stop_running {s : State} (ha : s.afterStartUp) (he : s.wp.engine = .running) :
    exec .stop s = .next ((if s.busy.isEmpty then s.together (s.stopTaken .stopping).settle
      else s.stopTaken .stopping).abortAll.serve).finish := by
  obtain ⟨hreset, hstart⟩ := ha
  show Host.Outcome.next (s.writeCommand .stop) = _
  unfold State.writeCommand
  rw [hreset, hstart, if_neg (by decide), if_neg (by decide)]
  unfold State.portCommand State.portStop
  rw [he]
  rfl

/-- With no order in flight STOPPING ends in the step of the STOP, and ENGINE has one event (R159, R179). -/
theorem State.settle_stopTaken {s : State} (h : ∀ c, s.ctx c = none) :
    s.together (s.stopTaken .stopping).settle = s.stopTaken .stopped := by
  have hsettle : (s.stopTaken .stopping).settle = (s.stopTaken .stopped).raise bitEngine := by
    have hfree : (s.stopTaken .stopping).busy.isEmpty = true := (State.busy_isEmpty_iff _).mpr h
    unfold State.settle
    rw [hfree]
    rfl
  have honce : State.Once [bitEngine] s (s.stopTaken .stopped) :=
    (((State.Once.refl s).raise (b := bitEngine) (by decide)).clearLanes (by decide)).congr rfl
  rw [hsettle]
  refine honce.again ?_
  calc (s.raise bitEngine).clearLaneNotices.cause bitEngine
      = (s.raise bitEngine).cause bitEngine := State.cause_clearLaneNotices _ (by decide)
    _ = (s.cause bitEngine).raise := (State.cause_raise s bitEngine bitEngine).trans (if_pos ⟨rfl, by decide⟩)

/-- STOP with no order in flight comes to STOPPED (R158). -/
theorem State.stops_idle {s : State} (h : ∀ c, s.ctx c = none) :
    (s.stopCleared .stopped s.stopNoted.abandon.nu).TakenUp
      (s.together (s.stopTaken .stopping).settle).abortAll.serve.finish := by
  have hserve : (s.stopCleared .stopped s.stopNoted.abandon.nu).serve = s.stopCleared .stopped s.stopNoted.abandon.nu :=
    State.serve_none (by rfl) (by exact nofun) (by exact h)
  rw [State.settle_stopTaken h, State.abortAll_none (s := s.stopTaken .stopped) h, State.cleared_stopTaken, hserve]
  exact (State.finish_kicked _ (by exact nofun)).takenUp

/-- STOPPING ends (R158). -/
def State.leaveStopping (s : State) : State := State.enter { s with od := { s.od with scanTimer := none } } .stopped

/-- STOPPING ends after the completion of the last order in flight, which counts nothing there (R158, R183). -/
theorem Completed.stops {u v : State} {c : Nat} {x : Ctx} {code : Code} {res : Res} (h : Completed u v c x code res)
    (he : u.wp.engine = .stopping) :
    Completed u.leaveStopping v.leaveStopping c x code res where
  wp := by
    show ({ v.wp with engine := .stopped } : Wp) = _
    rw [h.wp]
    rfl
  cell := h.cell
  cells := h.cells
  lane := h.lane
  lanes := h.lanes
  ctx := h.ctx
  ctxs := h.ctxs
  plan := h.plan
  timer := rfl
  kt := h.kt
  xu := h.xu
  tu := h.tu
  ju := h.ju
  tm := h.tm
  notices := by
    have hnu : v.nu = u.nu := h.notices.trans (if_neg (by unfold State.taking; rw [he]; exact Bool.false_ne_true))
    exact State.raise_nu bitEngine hnu
  clock := h.clock
  pending := h.pending

/-- An order that completes without an output leaves the slots, meter time, the Cipher Unit and the RAM (R174). -/
theorem Completed.leavesTables {u v t : State} {c : Nat} {x : Ctx} {code : Code} {res : Res}
    (h : Completed u v c x code res) (k : Kicked v t) (hc : code ≠ .ok) :
    t.kt = u.kt ∧ t.tu = u.tu ∧ t.xu = u.xu ∧ t.wp.ram = u.wp.ram := by
  refine ⟨k.kt.trans h.kt, k.tu.trans h.tu, k.xu.trans h.xu, ?_⟩
  rw [k.wp, h.wp]
  exact if_neg hc

/-- The one order in flight, which waits for a cipher request, is aborted in STOPPING: it completes over a state in which
only its records have left the waiting list (R110, R128). -/
theorem State.abortAll_stopTaken {s : State} {c : Nat} {x : Ctx} (h : s.Plain c x) (ho : ∀ d, d ≠ c → s.ctx d = none)
    (hw : x.wait = .cipherQueue) (hf : s.finishing c = false) :
    ∃ l, Completed { s.stopCleared .stopping s.stopNoted.abandon.nu with ju := { s.ju with waiting := l } }
      (s.stopTaken .stopping).abortAll c x .aborted (x.endRes .aborted) := by
  have htaken : (s.stopTaken .stopping).Plain c x := ⟨h.ctx, h.small, h.lane, h.cell, h.erase, h.deferred⟩
  have hcleared : (s.stopCleared .stopping s.stopNoted.abandon.nu).Plain c x :=
    ⟨h.ctx, h.small, h.lane, h.cell, h.erase, h.deferred⟩
  have hidle : (s.stopCleared .stopping s.stopNoted.abandon.nu).inService c = false := by
    obtain ⟨y, n, habandoned, hservice, -⟩ := s.stopNoted.abandon_eq
    show s.stopNoted.abandon.xu.service.any _ = false
    rw [habandoned, hservice]
    rfl
  obtain ⟨u, l, rfl, hdone⟩ := State.endOrder_waiting hcleared hidle .aborted
  rw [State.abortAll_one htaken ho hw hf, State.cleared_stopTaken]
  exact ⟨l, hdone⟩

/-- STOP with one order in flight, which waits for a cipher request, ends it ABORTED and comes to STOPPED (R128, R158). -/
theorem State.stops_one {s : State} {c : Nat} {x : Ctx} (h : s.Plain c x) (ho : ∀ d, d ≠ c → s.ctx d = none)
    (hw : x.wait = .cipherQueue) (hf : s.finishing c = false) :
    let later := s.stopCleared .stopped (s.stopNoted.abandon.raise bitEngine).nu
    let t := (s.stopTaken .stopping).abortAll.serve.finish
    later.OrderEnds t c x .aborted (x.endRes .aborted) ∧ t.kt = later.kt ∧ t.tu = later.tu ∧ t.xu = later.xu ∧
      t.nu = later.nu ∧ t.wp.ram = later.wp.ram := by
  intro later t
  obtain ⟨l, hdone⟩ := State.abortAll_stopTaken h ho hw hf
  have hnone : ∀ d, (s.stopTaken .stopping).abortAll.ctx d = none := fun d => by
    by_cases hd : d = c
    · rw [hd, hdone.ctx]
    · rw [hdone.ctxs d hd]
      exact congrArg _ (ho d hd)
  have hserve : (s.stopTaken .stopping).abortAll.serve = (s.stopTaken .stopping).abortAll.leaveStopping :=
    State.serve_stopping (by rw [hdone.wp]; rfl) hnone
  have hkicked : Kicked (s.stopTaken .stopping).abortAll.leaveStopping t := by
    show Kicked _ (State.finish _)
    rw [hserve]
    exact State.finish_kicked _ (by exact nofun)
  have hstopped := hdone.stops rfl
  have honward : Onward later (State.leaveStopping
      { s.stopCleared .stopping s.stopNoted.abandon.nu with ju := { s.ju with waiting := l } }) c x :=
    (Onward.refl (s := later) h.ctx h.small).tables rfl rfl ⟨rfl, rfl, rfl, rfl, rfl, rfl, rfl, rfl, rfl, rfl, rfl⟩ rfl
      rfl rfl
  obtain ⟨hkt, htu, hxu, hram⟩ := hstopped.leavesTables hkicked (by decide)
  exact ⟨hstopped.orderEnds honward hkicked rfl rfl rfl rfl, hkt, htu, hxu, hkicked.nu.trans hstopped.notices, hram⟩

/-- Settles O33, by whether an order is in flight, and by what the abandoned request was. -/
theorem stopEndsTheOrderInFlight : Obligations.StopEndsTheOrderInFlight := by
  unfold Obligations.StopEndsTheOrderInFlight
  refine ⟨fun s ha he _ => ⟨_, exec_stop_running ha he, fun hnone => ?_, fun c x hplain hothers hw hf => ?_⟩,
    fun s => State.abandon_none, fun s v x hv hx => ⟨fun hother => ?_, fun hop hd => ?_⟩⟩
  · rw [if_pos ((State.busy_isEmpty_iff s).mpr hnone)]
    exact State.stops_idle hnone
  · have hbusy : ¬s.busy.isEmpty = true := fun hfree => by
      cases hplain.ctx.symm.trans ((State.busy_isEmpty_iff s).mp hfree c)
    rw [if_neg hbusy]
    exact State.stops_one hplain hothers hw hf
  · refine State.abandon_plain fun w hw => ?_
    cases hv.symm.trans hw
    exact hother
  · rw [State.abandon_generate hv hx hop hd]
    dsimp only
    cases Config.testEnded s.xu.cuts with
    | none => rfl
    | some healthy => cases healthy <;> rfl

/-! ## SUPPLY_WARN (R126 to R129, R131) -/

/-- In HOLDOVER a command ends with the safe point, where no unit is being programmed (R129). -/
theorem State.finish_holdover {s : State} (h : s.wp.engine = .holdover) :
    s.finish = { s with wp := { s.wp with supplySafe := s.wp.supplySafe || s.ju.step.isNone } } := by
  have hkick : s.kick = s := by
    unfold State.kick State.journalRuns
    rw [h]
    rfl
  unfold State.finish State.safePoint
  rw [hkick, h]
  cases s.ju.step with
  | none => exact congrArg (fun b => { s with wp := { s.wp with supplySafe := b } }) (Bool.or_true _).symm
  | some st => exact congrArg (fun b => { s with wp := { s.wp with supplySafe := b } }) (Bool.or_false _).symm

/-- The notices as the entry to HOLDOVER leaves them: an event of ENGINE, and from RUNNING the lane notices cleared (R159,
R183). -/
def State.holdNoted (s : State) : State :=
  { s with nu := (if s.wp.engine = .running then (s.raise bitEngine).clearLaneNotices else s.raise bitEngine).nu }

/-- SUPPLY_WARN is asserted, and the engine has not answered yet (R126). -/
def State.warned (s : State) : State := { s with wp := { s.wp with supplyWarn := true } }

/-- HOLDOVER has been entered, and no request has been given up yet (R127). -/
def State.holdTaken (s : State) : State :=
  { s with
    wp := { s.wp with supplyWarn := true, held := s.wp.engine, engine := .holdover }
    ju := { s.ju with erasing := none }
    nu := s.holdNoted.nu }

/-- HOLDOVER entered from STOPPED or RUNNING ends what is in flight, and comes to its safe point (R127 to R129). -/
theorem State.enterHoldover_warned {s : State} (h : s.wp.engine = .stopped ∨ s.wp.engine = .running) :
    s.warned.enterHoldover = s.holdTaken.abortAll.serve.finish := by
  have hstart : ¬s.warned.wp.engine = .starting := by
    show ¬s.wp.engine = _
    rcases h with h | h <;> rw [h] <;> decide
  unfold State.enterHoldover
  dsimp only
  rw [if_neg hstart]
  refine congrArg (fun t => State.finish (State.serve (State.abortAll t))) ?_
  unfold State.holdTaken State.holdNoted
  rcases h with h | h
  · rw [if_neg (by show ¬(s.wp.engine = _ ∨ s.wp.engine = _); rw [h]; decide), if_neg (by rw [h]; decide)]
    rfl
  · rw [if_pos (.inl h), if_pos h]
    rfl

/-- HOLDOVER entered with no order in flight gives the requests of the Cipher Unit up (R81, R128). -/
theorem State.holds_idle {s : State} (hnone : ∀ c, s.ctx c = none) (h : s.wp.engine = .stopped ∨ s.wp.engine = .running) :
    s.warned.enterHoldover =
      { s with
        wp := { s.wp with
          supplyWarn := true, held := s.wp.engine, engine := .holdover, supplySafe := s.wp.supplySafe || s.ju.step.isNone }
        ju := { s.ju with erasing := none }
        xu := { s.holdNoted.abandon.xu with queue := [] }
        nu := s.holdNoted.abandon.nu } := by
  have hcleared : s.holdTaken.cleared = { s.holdTaken with
      xu := { s.holdNoted.abandon.xu with queue := [] }, nu := s.holdNoted.abandon.nu } :=
    State.cleared_congr (s := s.holdNoted) rfl rfl rfl fun _ => rfl
  rw [State.enterHoldover_warned h, State.abortAll_none (s := s.holdTaken) hnone, hcleared,
    State.serve_none (by rfl) (by exact nofun) (by exact hnone), State.finish_holdover (by rfl)]
  rfl

/-- The negation of SUPPLY_WARN in a HOLDOVER that no start-up was held by goes on in STOPPED, with no order in flight
(R131). -/
theorem State.leaveHoldover_idle {s : State} (hnone : ∀ c, s.ctx c = none) (h : s.wp.held ≠ .starting) :
    s.leaveHoldover = s.leaveStopping := by
  unfold State.leaveHoldover
  split
  · exact absurd ‹_› h
  · exact if_pos ((State.busy_isEmpty_iff _).mpr hnone)

/-- SUPPLY_WARN asserted in STOPPED or RUNNING enters HOLDOVER (R127). -/
theorem State.warnAsserted_holds {s : State} (hr : s.wp.inReset = none) (hw : s.wp.supplyWarn = false)
    (he : s.wp.engine = .stopped ∨ s.wp.engine = .running) : s.warnAsserted = s.warned.enterHoldover := by
  unfold State.warnAsserted
  dsimp only
  rw [if_neg (by rw [hw]; decide), if_neg (by rw [hr]; decide)]
  split
  · next hf => exact absurd he (by rw [hf]; decide)
  · next hf => exact absurd he (by rw [hf]; decide)
  · rfl

/-- SUPPLY_WARN asserted in FAILED is safe at once (R126). -/
theorem State.warnAsserted_failed {s : State} (hr : s.wp.inReset = none) (hw : s.wp.supplyWarn = false)
    (he : s.wp.engine = .failed) :
    s.warnAsserted = { s with wp := { s.wp with supplyWarn := true, supplySafe := true } } := by
  unfold State.warnAsserted
  dsimp only
  rw [if_neg (by rw [hw]; decide), if_neg (by rw [hr]; decide)]
  split
  · rfl
  · next hf => exact absurd (he.symm.trans hf) (by decide)
  · next hf _ => exact absurd he hf

/-- SUPPLY_WARN negated in HOLDOVER leaves it (R131). -/
theorem State.warnNegated_leaves {s : State} (hr : s.wp.inReset = none) (hw : s.wp.supplyWarn = true)
    (he : s.wp.engine = .holdover) :
    s.warnNegated =
      State.goOn (State.leaveHoldover { s with wp := { s.wp with supplyWarn := false, supplySafe := false } }) := by
  unfold State.warnNegated
  dsimp only
  rw [if_neg (by rw [hw]; decide), if_neg (by rw [hr]; decide), if_pos he]

/-- Settles O51, by the engine state in which the line changes. -/
theorem supplyWarnHoldsAndReleases : Obligations.SupplyWarnHoldsAndReleases := by
  unfold Obligations.SupplyWarnHoldsAndReleases
  rintro s ⟨hreset, hstart⟩ hnone
  refine ⟨fun hwarn he => ?_, fun hwarn he => congrArg _ (State.warnAsserted_failed hreset hwarn he),
    fun hwarn he hheld => ?_⟩
  · exact congrArg Host.Outcome.next
      ((State.warnAsserted_holds hreset hwarn he).trans (State.holds_idle hnone he))
  · refine ⟨_, congrArg Host.Outcome.next (State.warnNegated_leaves hreset hwarn he), ?_⟩
    rw [State.leaveHoldover_idle (by exact hnone) (by exact hheld), State.goOn_settled (by exact hstart)]
    exact (State.finish_kicked _ (by exact nofun)).takenUp

end Sys2Proof.Machine
end

section
/-! Proofs, meter time and deadlines, part 1: steps (R94, R95), and SET_TIME (R91 to R93). -/

namespace Sys2Proof.Machine

/-! ## Steps -/

/-- Settles O29. -/
theorem stepKeepsTheDeadlineList : Obligations.StepKeepsTheDeadlineList := by
  unfold Obligations.StepKeepsTheDeadlineList
  intro s t hs h
  exact step_keeps_of (P := State.listKept) (fun _ _ h => h) (fun _ _ k => k.list) hs h

theorem step_cons {s : State} {c : Instr} {rest : List Instr} (h : s.pending = c :: rest) :
    step s = exec c { s with pending := rest } := by
  unfold step
  rw [h]

theorem step_nil {s : State} (h : s.pending = []) : step s = .next s.idle := by
  unfold step
  rw [h]

/-- Inside a reset, and where no start-up is under way, an idle step advances the clock alone. -/
theorem State.idle_eq {s : State} (h : s.wp.inReset ≠ none ∨ s.wp.startAt = none) :
    s.idle = { s with clock := s.clock + 1 } := by
  unfold State.idle
  dsimp only
  rcases h with hreset | hstart
  · rw [if_pos (Option.isSome_iff_ne_none.mpr hreset)]
  · have hs : ({ s with clock := s.clock + 1 } : State).startingUp = false := by
      unfold State.startingUp
      rw [hstart]
      rfl
    rw [hs]
    exact ite_self _

/-- Settles O24. -/
theorem stepRunsTheFrontCommand : Obligations.StepRunsTheFrontCommand := by
  unfold Obligations.StepRunsTheFrontCommand
  exact ⟨fun _ _ _ h => step_cons h, fun _ h hi => (step_nil h).trans (congrArg _ (State.idle_eq hi))⟩

/-! ## SET_TIME (R91 to R93) -/

theorem State.noneDue.mono {s : State} {a b : Nat} (h : s.noneDue b) (hab : a ≤ b) : s.noneDue a :=
  fun d hd => Nat.lt_of_le_of_lt hab (h d hd)

/-- The Time Unit as SET_TIME leaves it, where no deadline falls due: a step back of more than 900 seconds is clamped
(R93). -/
def State.timeSet (s : State) (t : Nat) : Tu :=
  if t + 900 < s.tu.now then { s.tu with now := s.tu.now - 900, uncertain := false, reason := .clamped }
  else { s.tu with now := t, uncertain := false }

/-- Meter time moved by SET_TIME, with its TIME_MARK and, for a clamped step, its TIME notice (R91, R93). -/
def State.movedTo (s : State) (t : Nat) : State :=
  let u := State.timeMark { s with tu := s.timeSet t }
  if t + 900 < s.tu.now then u.raise bitTime else u

/-- SET_TIME at the Time Unit where no deadline falls due (R92, R93). -/
theorem State.setTime_noneDue {s : State} {t : Nat} (h : s.noneDue t) :
    s.setTime t = (s.movedTo t, decide (t + 900 < s.tu.now)) := by
  unfold State.setTime State.movedTo State.timeSet
  dsimp only
  by_cases hfwd : s.tu.now ≤ t
  · rw [if_pos hfwd, State.fireDue_none (s := { s with tu := { s.tu with now := t, uncertain := false } }) h,
      if_neg (by omega), if_neg (by omega), decide_eq_false (by omega)]
  · rw [if_neg hfwd]
    by_cases hback : s.tu.now - t ≤ 900
    · rw [if_pos hback, if_neg (by omega), if_neg (by omega), decide_eq_false (by omega)]
    · rw [if_neg hback, if_pos (by omega), if_pos (by omega), decide_eq_true (by omega)]

/-- An order stays where it is as meter time moves. -/
theorem Onward.movedTo {T u : State} {c : Nat} {x : Ctx} (g : Onward T u c x) (t : Nat) : Onward T (u.movedTo t) c x := by
  have hset : Onward T { u with tu := u.timeSet t } c x := g.tables rfl rfl (sameArray_ju rfl) rfl rfl rfl
  have hmark := hset.listed (timeMark_listed _)
  unfold State.movedTo
  dsimp only
  split
  · exact hmark.tables rfl rfl (sameArray_ju rfl) rfl rfl rfl
  · exact hmark

/-- What the moved meter time leaves, and what it changes. -/
theorem State.movedTo_parts (s : State) (t : Nat) :
    (s.movedTo t).kt = s.kt ∧ (s.movedTo t).xu = s.xu ∧ (s.movedTo t).wp = s.wp ∧ (s.movedTo t).tu = s.timeSet t ∧
      (s.movedTo t).nu = (if t + 900 < s.tu.now then s.raise bitTime else s).nu := by
  have l := timeMark_listed { s with tu := s.timeSet t }
  unfold State.movedTo
  dsimp only
  split
  · exact ⟨l.kt, l.xu, l.wp, l.tu, State.raise_nu bitTime l.nu⟩
  · exact ⟨l.kt, l.xu, l.wp, l.tu, l.nu⟩

/-- SET_TIME places a TIME_MARK of the time that it sets (R91). -/
theorem State.movedTo_holds {s : State} (he : s.wp.engine ≠ .failed) (t : Nat) :
    (s.movedTo t).holdsRecord (fun q => q.body == .timeMark (s.timeSet t).now) = true := by
  have hmark := State.timeMark_holds (s := { s with tu := s.timeSet t }) he
  unfold State.movedTo
  dsimp only
  split
  · exact (State.holdsRecord_congr _ rfl rfl).trans hmark
  · exact hmark

/-- SET_TIME completes OK at once where no deadline falls due (R92, R93). -/
theorem startSetTime_noneDue {s : State} {c : Nat} {x : Ctx} (h : s.noneDue x.order.newTime) :
    startSetTime c x s = (s.movedTo x.order.newTime).complete c .ok
      { Res.zero with clamped := decide (x.order.newTime + 900 < s.tu.now) } := by
  unfold startSetTime
  rw [State.setTime_noneDue h]

/-- Settles O11. -/
theorem setTimeMovesTheClock : Obligations.SetTimeMovesTheClock := by
  unfold Obligations.SetTimeMovesTheClock
  intro s lane p o h hp hdue
  have tk := State.taken_takenIn h.toQuietLane Kind.setTime.code o
  generalize hT : s.takenIn lane p Kind.setTime.code o = T at tk
  have hTdue : T.noneDue o.newTime := by unfold State.noneDue; rw [tk.tu]; exact hdue
  have he : T.wp.engine ≠ .failed := by rw [tk.wp]; exact h.running ▸ nofun
  have hstart : T.startOrder 0 = (T.movedTo o.newTime).complete 0 .ok
      { Res.zero with clamped := decide (o.newTime + 900 < s.tu.now) } := by
    rw [State.startOrder_taken h tk hp, ← tk.tu]
    exact startSetTime_noneDue hTdue
  have g := tk.onward.movedTo o.newTime
  have l := State.post_landed h hT hstart g (freshCtx_copy ..) fun n hn => by cases hn
  obtain ⟨hkt, hxu, hwp, htu, hnu⟩ := T.movedTo_parts o.newTime
  have hgiven := l.given _ (fun _ _ => RecBody.noConfusion) (State.movedTo_holds he o.newTime)
  rw [← htu, ← l.tu] at hgiven
  have hset : T.timeSet o.newTime = s.timeSet o.newTime := by unfold State.timeSet; rw [tk.tu]
  have hnotes : (T.movedTo o.newTime).nu = (if o.newTime + 900 < s.tu.now then s.raise bitTime else s).nu := by
    rw [hnu, tk.tu]
    split
    · exact State.raise_nu bitTime tk.nu
    · exact tk.nu
  have hcount := State.countCompletion_nu (s := if o.newTime + 900 < s.tu.now then s.raise bitTime else s)
    (t := T.movedTo o.newTime) (by rw [g.plan, tk.plan]; split <;> rfl) hnotes
    (by rw [g.clock, tk.clock]; split <;> rfl) lane
  exact ⟨_, exec_command .setTime lane o s, l.done, l.tu.trans (htu.trans hset), l.nu.trans hcount, hgiven,
    l.kt.trans (hkt.trans tk.kt), l.xu.trans (hxu.trans tk.xu), by rw [l.ram, if_pos rfl, hwp, tk.ram]; rfl⟩

end Sys2Proof.Machine
end

section
/-! Proofs, meter time and deadlines, part 2: the seconds counted by TICK, by its loss and by the internal source (R88 to
R91, R101). -/

namespace Sys2Proof.Machine

/-! ## One second (R88, R91) -/

/-- A change of the Time Unit beside the Journal Unit's work. -/
theorem Kicked.withTu {s t : State} (k : Kicked s t) (x : Tu) : Kicked { s with tu := x } { t with tu := x } := by
  simpa only [k.nu] using k.both x s.nu

/-- A counted second that makes nothing due and begins no hour changes meter time alone, up to its greatest value. -/
theorem State.countSecond_plain {s : State} (h : s.noneDue (s.tu.now + 1)) (hm : (s.tu.now + 1) % 3600 ≠ 0) :
    s.countSecond = s ∨ s.countSecond = { s with tu := { s.tu with now := s.tu.now + 1 } } := by
  unfold State.countSecond
  dsimp only
  rw [State.fireDue_none (s := { s with tu := { s.tu with now := s.tu.now + 1 } }) h, if_neg hm]
  split
  · exact .inr rfl
  · exact .inl rfl

/-- A counted second that makes nothing due and begins an hour hands a TIME_MARK over (R91). -/
theorem State.countSecond_marks {s : State} (h : s.noneDue (s.tu.now + 1)) (hlt : s.tu.now < maxWord)
    (hm : (s.tu.now + 1) % 3600 = 0) (he : s.wp.engine ≠ .failed) :
    s.countSecond.holdsRecord (fun q => q.body == .timeMark (s.tu.now + 1)) = true := by
  unfold State.countSecond
  dsimp only
  rw [if_pos hlt, State.fireDue_none (s := { s with tu := { s.tu with now := s.tu.now + 1 } }) h, if_pos hm]
  exact State.timeMark_holds (s := { s with tu := { s.tu with now := s.tu.now + 1 } }) he

/-- A second that begins no hour leaves the records held. -/
theorem State.countSecond_holds {s : State} {p : Rec → Bool} (h : s.noneDue (s.tu.now + 1))
    (hm : (s.tu.now + 1) % 3600 ≠ 0) (hp : s.holdsRecord p = true) : s.countSecond.holdsRecord p = true := by
  rcases State.countSecond_plain h hm with e | e <;> rw [e]
  · exact hp
  · exact (State.holdsRecord_congr p rfl rfl).trans hp

/-! ## Two seconds (R89) -/

section
variable {s : State} (h : s.noneDue (s.tu.now + 2)) (hn : s.tu.now ≤ maxWord)
include h hn

/-- After one second, the next makes nothing due either. -/
theorem State.countSecond_noneDue : s.countSecond.noneDue (s.countSecond.tu.now + 1) := by
  have k := State.countSecond_kicked (h.mono (by omega)) hn
  unfold State.noneDue
  rw [k.tu]
  exact h.mono (Nat.add_le_add_right (Nat.min_le_left ..) 1)

/-- Two counted seconds that make nothing due (R88, R89, R91). -/
theorem State.countSecond_twice_kicked :
    Kicked { s with tu := { s.tu with now := min (s.tu.now + 2) maxWord } } s.countSecond.countSecond := by
  have k1 := State.countSecond_kicked (h.mono (by omega)) hn
  have hnow : s.countSecond.tu.now = min (s.tu.now + 1) maxWord := by rw [k1.tu]
  have k2 := State.countSecond_kicked (State.countSecond_noneDue h hn) (by rw [hnow]; exact Nat.min_le_right ..)
  have hmin : min (min (s.tu.now + 1) maxWord + 1) maxWord = min (s.tu.now + 2) maxWord := by omega
  rw [hnow, hmin, k1.tu] at k2
  exact (k1.withTu _).trans k2

/-- An hour that begins at either of two counted seconds has its TIME_MARK (R91). -/
theorem State.countSecond_twice_marks {m : Nat} (hlo : s.tu.now < m) (hhi : m ≤ min (s.tu.now + 2) maxWord)
    (hm : m % 3600 = 0) (he : s.wp.engine ≠ .failed) :
    s.countSecond.countSecond.holdsRecord (fun q => q.body == .timeMark m) = true := by
  have k := State.countSecond_kicked (h.mono (by omega)) hn
  have hdue := State.countSecond_noneDue h hn
  have hnow : s.countSecond.tu.now = s.tu.now + 1 := by
    rw [k.tu]
    exact Nat.min_eq_left (by omega)
  rcases (by omega : m = s.tu.now + 1 ∨ m = s.tu.now + 1 + 1) with rfl | rfl
  · exact State.countSecond_holds hdue (by omega)
      (State.countSecond_marks (h.mono (by omega)) (by omega) hm he)
  · rw [← hnow] at hm hhi ⊢
    exact State.countSecond_marks hdue (by omega) hm (by rw [k.wp]; exact he)

end

/-! ## TICK, its loss, and the internal source (R89, R90) -/

/-- What a TICK edge leaves beside the second it counts: the loss timer restarted, the internal source stopped, and a TIME
notice where FALLBACK ends (R89, R90). -/
def State.edgeTaken (s : State) : State :=
  { s with
    tu := { s.tu with
      lossStart := some s.clock, internalStart := none, fallback := false
      reason := if s.tu.fallback then .tickBack else s.tu.reason }
    nu := (if s.tu.fallback then s.raise bitTime else s).nu }

/-- What the loss of TICK leaves beside the two seconds it counts: FALLBACK with its TIME notice, and the internal source
started (R89). -/
def State.lossTaken (s : State) : State :=
  { s with
    tu := { s.tu with lossStart := none, internalStart := some s.clock, fallback := true, reason := .tickLost }
    nu := (s.raise bitTime).nu }

/-- The edge's own work on a state in which only meter time has moved. -/
theorem State.edgeTaken_counted (s : State) (n : Nat) :
    ({ s with tu := { s.tu with now := n } } : State).edgeTaken =
      { s with
        tu := { s.tu with
          now := n, lossStart := some s.clock, internalStart := none, fallback := false
          reason := if s.tu.fallback then .tickBack else s.tu.reason }
        nu := (if s.tu.fallback then s.raise bitTime else s).nu } := by
  unfold State.edgeTaken
  dsimp only
  cases s.tu.fallback <;> rfl

theorem exec_tickEdge {s : State} (hk : s.tu.kept = true) :
    exec .tickEdge s = .next s.countSecond.edgeTaken.finish := by
  refine (if_pos hk).trans (congrArg (fun t => Host.Outcome.next (State.finish t)) ?_)
  unfold State.edgeTaken
  dsimp only
  cases s.countSecond.tu.fallback <;> rfl

theorem exec_tickLossTimeout {s : State} (hk : s.tu.kept = true) (hf : s.tu.fallback = false)
    (hnu : s.countSecond.countSecond.nu = s.nu) :
    exec .tickLossTimeout s = .next s.countSecond.countSecond.lossTaken.finish := by
  refine (if_pos (by rw [hk, hf]; rfl)).trans ?_
  rw [State.together_same hnu]
  rfl

theorem exec_internalSecond {s : State} (hk : s.tu.kept = true) (hf : s.tu.fallback = true) :
    exec .internalSecond s = .next s.countSecond.finish := if_pos (by rw [hk, hf]; rfl)

/-- Nothing counts while meter time is not kept (R101). -/
theorem exec_seconds_unkept {s : State} (hk : s.tu.kept = false) :
    exec .tickEdge s = .next s ∧ exec .tickLossTimeout s = .next s ∧ exec .internalSecond s = .next s :=
  ⟨if_neg (by rw [hk]; exact Bool.false_ne_true), if_neg (by rw [hk]; exact Bool.false_ne_true),
    if_neg (by rw [hk]; exact Bool.false_ne_true)⟩

theorem Kicked.edgeTaken {s t : State} (k : Kicked s t) : Kicked s.edgeTaken t.edgeTaken := by
  have hnu : (if t.tu.fallback then t.raise bitTime else t).nu = s.edgeTaken.nu := by
    unfold State.edgeTaken
    rw [k.tu]
    split
    · exact State.raise_nu bitTime k.nu
    · exact k.nu
  have e : t.edgeTaken = { t with tu := s.edgeTaken.tu, nu := s.edgeTaken.nu } := by
    rw [← hnu]
    unfold State.edgeTaken
    rw [k.tu, k.clock]
  rw [e]
  exact k.both s.edgeTaken.tu s.edgeTaken.nu

theorem Kicked.lossTaken {s t : State} (k : Kicked s t) : Kicked s.lossTaken t.lossTaken := by
  have e : t.lossTaken = { t with tu := s.lossTaken.tu, nu := s.lossTaken.nu } := by
    unfold State.lossTaken
    rw [k.tu, k.clock, State.raise_nu bitTime k.nu]
  rw [e]
  exact k.both s.lossTaken.tu s.lossTaken.nu

/-- Where a second's work leaves the lists of the Journal Unit, a TIME_MARK held is held at the end of the command. -/
theorem State.finish_timeMark {s t : State} {m : Nat} (hw : t.ju = s.ju)
    (h : s.holdsRecord (fun q => q.body == .timeMark m) = true) :
    t.finish.holdsRecord (fun q => q.body == .timeMark m) = true :=
  State.finish_holds (State.joins_body _ fun _ _ => RecBody.noConfusion)
    ((State.holdsRecord_congr _ (congrArg Ju.waiting hw) (congrArg Ju.step hw)).trans h)

/-- Settles O47. -/
theorem secondsAreCounted : Obligations.SecondsAreCounted := by
  unfold Obligations.SecondsAreCounted
  intro s hs hdue hn
  have hdue1 : s.noneDue (s.tu.now + 1) := hdue.mono (by omega)
  have one := State.countSecond_kicked hdue1 hn
  have two := State.countSecond_twice_kicked hdue hn
  have mark : ∀ m, s.tu.now < m → m ≤ min (s.tu.now + 1) maxWord → m % 3600 = 0 → s.wp.engine ≠ .failed →
      s.countSecond.holdsRecord (fun q => q.body == .timeMark m) = true := fun m hlo hhi hm he => by
    obtain rfl : m = s.tu.now + 1 := by omega
    exact State.countSecond_marks hdue1 (by omega) hm he
  refine ⟨exec_seconds_unkept, fun hk => ⟨_, exec_tickEdge hk, ?_, ?_⟩,
    fun hk hf => ⟨_, exec_tickLossTimeout hk hf two.nu, ?_, ?_⟩,
    fun hk hf => ⟨_, exec_internalSecond hk hf, ?_, ?_⟩⟩
  · exact fun m hlo hhi hm he => State.finish_timeMark rfl (mark m hlo hhi hm he)
  · have k := (State.finish_kicked _ (by exact one.wp ▸ hs.supply)).of one.edgeTaken
    rw [State.edgeTaken_counted] at k
    exact k.takenUp
  · exact fun m hlo hhi hm he =>
      State.finish_timeMark rfl (State.countSecond_twice_marks hdue hn hlo hhi hm he)
  · exact ((State.finish_kicked _ (by exact two.wp ▸ hs.supply)).of two.lossTaken).takenUp
  · exact fun m hlo hhi hm he => State.finish_timeMark rfl (mark m hlo hhi hm he)
  · exact ((State.finish_kicked _ (one.wp ▸ hs.supply)).of one).takenUp

end Sys2Proof.Machine
end

section
/-! Proofs, meter time and deadlines, part 3: the one deadline that a second makes due (R96 to R99). -/

namespace Sys2Proof.Machine

/-! ## One entry fires (R96, R97) -/

/-- What one due entry leaves, once it is off the list: its action, or the deferred set of a slot that an order holds. -/
def State.fireOne (s : State) (d : Deadline) : State :=
  if s.isHeld d.slot then s.setDeferred d.slot d.kind true else s.act d.slot d.kind

/-- The record `r` and the notices `n` that the firing of an entry gives, by its kind and by whether an order holds its
slot (R97, R98). -/
structure Deadline.Fires (d : Deadline) (s : State) (r : SlotRec) (n : Nu) : Prop where
  held : s.holder d.slot ≠ none →
    r = { s.slot d.slot with deferred := (s.slot d.slot).deferred.set d.kind true } ∧ n = s.nu
  confirm : s.holder d.slot = none → d.kind = .confirm → (s.slot d.slot).staged ≠ none →
    r = { s.slot d.slot with staged := none } ∧ n = (s.raise bitRenewFailed).nu
  grace : s.holder d.slot = none → d.kind = .grace → (s.slot d.slot).outgoing ≠ none →
    r = { s.slot d.slot with outgoing := none } ∧ n = s.nu
  expire : ∀ g, s.holder d.slot = none → d.kind = .expire → (s.slot d.slot).current = some g → g.expired = false →
    r = { s.slot d.slot with current := some { g with expired := true } } ∧ n = (s.raise bitKeyExpired).nu
  renew : s.holder d.slot = none → d.kind = .renew → (s.slot d.slot).current ≠ none →
    (s.slot d.slot).renewDue = false → r = { s.slot d.slot with renewDue := true } ∧ n = (s.raise bitRenewDue).nu

/-- The action of an entry finds something to do at its slot (R98). -/
def State.actsOn (s : State) (d : Deadline) : Prop :=
  (d.kind = .confirm ∧ (s.slot d.slot).staged ≠ none) ∨ (d.kind = .grace ∧ (s.slot d.slot).outgoing ≠ none) ∨
  (∃ g, d.kind = .expire ∧ (s.slot d.slot).current = some g ∧ g.expired = false) ∨
  (d.kind = .renew ∧ (s.slot d.slot).current ≠ none ∧ (s.slot d.slot).renewDue = false)

/-- The firing of an entry changes its slot and the notices, by at most one event. -/
theorem State.fireOne_kicked (s : State) (d : Deadline) :
    ∃ r n, Kicked { s.setSlot d.slot r with nu := n } (s.fireOne d) ∧ (n = s.nu ∨ ∃ b, n = (s.raise b).nu) ∧
      d.Fires s r n := by
  unfold State.fireOne State.isHeld
  cases hh : s.holder d.slot with
  | some c =>
    have hn : s.holder d.slot ≠ none := by rw [hh]; nofun
    exact ⟨_, s.nu, Kicked.refl _, .inl rfl, fun _ => ⟨rfl, rfl⟩, fun h => absurd h hn, fun h => absurd h hn,
      fun _ h => absurd h hn, fun h => absurd h hn⟩
  | none =>
    obtain ⟨r, n, hk, hn, hconfirm, hgrace, hexpire, hrenew⟩ := s.act_kicked d.slot d.kind
    exact ⟨r, n, hk, hn, fun h => absurd hh h, fun _ => hconfirm, fun _ => hgrace, fun g _ => hexpire g,
      fun _ => hrenew⟩

/-- An entry whose action finds something to do leaves an image of its slot (R99). -/
theorem State.fireOne_holds {s : State} {d : Deadline} (he : s.wp.engine ≠ .failed) (hh : s.holder d.slot = none)
    (ha : s.actsOn d) :
    (s.fireOne d).holdsRecord (Rec.isActionImage d.slot ((s.fireOne d).slot d.slot)) = true := by
  have e : s.fireOne d = s.act d.slot d.kind := by
    unfold State.fireOne State.isHeld
    rw [hh]
    rfl
  rw [e]
  exact State.act_holds he ha

/-- The events of a state that at most one event came to have nothing to be taken together (R179). -/
theorem State.together_atMostOne {s t : State} (h : t.nu = s.nu ∨ ∃ b, t.nu = (s.raise b).nu) : s.together t = t := by
  rcases h with h | ⟨b, h⟩
  · exact State.together_same h
  · exact (((State.Once.refl s).raise (b := b) List.not_mem_nil).congr (by rw [h])).together

/-! ## The list as a second leaves it (R96) -/

theorem State.fireLoop_none {s : State} (h : s.noneDue s.tu.now) (k : Nat) : State.fireLoop k s = s := by
  cases k with
  | zero => rfl
  | succ k =>
    unfold State.fireLoop
    cases hd : s.tu.deadlines with
    | nil => rfl
    | cons d rest => exact if_pos (h d (by rw [hd]; exact List.mem_cons_self))

/-- Where the head of the list alone is due, it alone fires (R96). -/
theorem State.fireDue_head {s : State} {d : Deadline} {rest : List Deadline} (hf : s.firing = true)
    (hl : s.tu.deadlines = d :: rest) (hd : d.due ≤ s.tu.now) (hr : ∀ e ∈ rest, s.tu.now < e.due) :
    s.fireDue = State.fireOne { s with tu := { s.tu with deadlines := rest } } d := by
  obtain ⟨r, n, hk, hn, -⟩ := State.fireOne_kicked { s with tu := { s.tu with deadlines := rest } } d
  have hrest : (State.fireOne { s with tu := { s.tu with deadlines := rest } } d).noneDue
      (State.fireOne { s with tu := { s.tu with deadlines := rest } } d).tu.now := by
    unfold State.noneDue
    rw [hk.tu]
    exact hr
  have hloop : State.fireLoop s.tu.deadlines.length s =
      State.fireOne { s with tu := { s.tu with deadlines := rest } } d := by
    rw [hl, List.length_cons]
    unfold State.fireLoop
    rw [hl]
    exact (if_neg (Nat.not_lt.mpr hd)).trans (State.fireLoop_none hrest _)
  unfold State.fireDue
  rw [if_pos hf, hloop]
  exact State.together_atMostOne (by rw [hk.nu]; exact hn)

/-! ## The second (R91, R97 to R99) -/

/-- A second before the greatest meter time fires what it makes due, and begins an hour or not (R88, R91, R96). -/
theorem State.countSecond_lt {s : State} (h : s.tu.now < maxWord) :
    let t := State.fireDue { s with tu := { s.tu with now := s.tu.now + 1 } }
    s.countSecond = if t.tu.now % 3600 = 0 then t.timeMark else t := if_pos h

/-- A TIME_MARK placed leaves the image of a deadline action. -/
theorem State.timeMark_keepsImage {s : State} {n : Nat}
    (h : s.holdsRecord (Rec.isActionImage n (s.slot n)) = true) :
    s.timeMark.holdsRecord (Rec.isActionImage n (s.slot n)) = true := by
  refine State.placeOrUpdate_keeps (State.actionImage_joins rfl) (fun r hr => ?_) h
  have ho : r.owner = .time := by
    rw [Bool.and_eq_true, beq_iff_eq] at hr
    exact hr.2
  unfold Rec.isActionImage
  rw [ho]
  rfl

/-- The hourly mark and the end of the command leave what the deadlines of a second did, and the image of a slot. -/
theorem State.secondEnds {a : State} (he : a.wp.engine ≠ .holdover) {t : State}
    (ht : t = (if a.tu.now % 3600 = 0 then a.timeMark else a).finish) :
    Kicked a t ∧ ∀ n, a.holdsRecord (Rec.isActionImage n (a.slot n)) = true →
      t.holdsRecord (Rec.isActionImage n (t.slot n)) = true := by
  have hmark : Kicked a (if a.tu.now % 3600 = 0 then a.timeMark else a) :=
    Kicked.ite (State.placeOrUpdate_kicked ..) (Kicked.refl a)
  have k : Kicked a t := by
    rw [ht]
    exact (State.finish_kicked _ (by rw [hmark.wp]; exact he)).of hmark
  refine ⟨k, fun n hi => ?_⟩
  rw [k.slot, ht]
  refine State.finish_holds (State.actionImage_joins (hmark.slot n)) ?_
  split
  · exact State.timeMark_keepsImage hi
  · exact hi

/-- The state as a counted second makes its first entry due: meter time a second on, and the entry off the list. -/
def State.headDue (s : State) (rest : List Deadline) : State :=
  { s with tu := { s.tu with now := s.tu.now + 1, deadlines := rest } }

/-- A second of the internal source that makes the head of the list alone due: the head fires, and nothing else changes but
the Journal Unit's work (R89, R96). -/
theorem exec_internalSecond_fires {s : State} {d : Deadline} {rest : List Deadline} (hrun : s.wp.engine = .running)
    (hended : s.wp.ended = true) (hkept : s.tu.kept = true) (hfall : s.tu.fallback = true) (hlt : s.tu.now < maxWord)
    (hlist : s.tu.deadlines = d :: rest) (hdue : d.due = s.tu.now + 1) (hrest : ∀ e ∈ rest, d.due < e.due) :
    ∃ t r n, exec .internalSecond s = .next t ∧ Kicked { (s.headDue rest).setSlot d.slot r with nu := n } t ∧
      d.Fires (s.headDue rest) r n ∧ ((s.headDue rest).holder d.slot = none → (s.headDue rest).actsOn d →
        t.holdsRecord (Rec.isActionImage d.slot (t.slot d.slot)) = true) := by
  have hfire : State.fireDue { s with tu := { s.tu with now := s.tu.now + 1 } } = (s.headDue rest).fireOne d :=
    State.fireDue_head hended hlist (Nat.le_of_eq hdue) (hdue ▸ hrest)
  have hexec := exec_internalSecond hkept hfall
  rw [State.countSecond_lt hlt, hfire] at hexec
  have heng : (s.headDue rest).wp.engine = .running := hrun
  obtain ⟨r, n, hk, -, hfires⟩ := (s.headDue rest).fireOne_kicked d
  obtain ⟨kend, himage⟩ := State.secondEnds (a := (s.headDue rest).fireOne d) (by rw [hk.wp]; exact hrun ▸ nofun) rfl
  exact ⟨_, r, n, hexec, hk.trans kend, hfires, fun hh ha =>
    himage _ (State.fireOne_holds (by rw [heng]; decide) hh ha)⟩

/-- Settles O48. -/
theorem deadlineActsWhenItFallsDue : Obligations.DeadlineActsWhenItFallsDue := by
  unfold Obligations.DeadlineActsWhenItFallsDue
  intro s d rest _ hrun hended hkept hfall hlt hlist hdue hrest hslot
  obtain ⟨t, r, n, hexec, k, hfires, himage⟩ :=
    exec_internalSecond_fires hrun hended hkept hfall hlt hlist hdue hrest
  have hslots : ∀ m, t.slot m = if d.slot = m ∧ d.slot < 64 then r else s.slot m := fun m =>
    (k.slot m).trans (State.slot_setSlot ..)
  have hr : t.slot d.slot = r := (hslots _).trans (if_pos ⟨rfl, hslot⟩)
  have hacts : ∀ {q m}, (s.headDue rest).holder d.slot = none → (s.headDue rest).actsOn d → r = q ∧ n = m →
      t.slot d.slot = q ∧ t.nu = m ∧ t.holdsRecord (Rec.isActionImage d.slot (t.slot d.slot)) = true :=
    fun hh ha ⟨hq, hm⟩ => ⟨hr.trans hq, k.nu.trans hm, himage hh ha⟩
  refine ⟨t, hexec, fun m hm => (hslots m).trans (if_neg fun h => hm h.1.symm), fun hh => ?_,
    fun hh hk hg => hacts hh (.inl ⟨hk, hg⟩) (hfires.confirm hh hk hg),
    fun hh hk hg => hacts hh (.inr (.inl ⟨hk, hg⟩)) (hfires.grace hh hk hg),
    fun g hh hk hg hx => hacts hh (.inr (.inr (.inl ⟨g, hk, hg, hx⟩))) (hfires.expire g hh hk hg hx),
    fun hh hk hg hx => hacts hh (.inr (.inr (.inr ⟨hk, hg, hx⟩))) (hfires.renew hh hk hg hx), ?_⟩
  · obtain ⟨hq, hm⟩ := hfires.held hh
    exact ⟨hr.trans hq, k.nu.trans hm⟩
  · rw [k.kt, k.nu]
    exact k.takenUp

end Sys2Proof.Machine
end

section
/-! Proofs, the journal, part 1: the end of the programming of one unit (R105, R111, R119, R120, R184). -/

namespace Sys2Proof.Machine

/-! ## The unit is read back (R105) -/

/-- UNIT_PROGRAMMED while a step is in progress: the unit is stored as it reads back, and the step fails, ends or goes on
to its next unit (R105, R111, R119). -/
theorem exec_unitProgrammed {s : State} {st : Step} {w : UnitWord} {rest : List UnitWord} (hstep : s.ju.step = some st)
    (hunits : st.units = w :: rest) (rb : Option NvUnit) :
    let got := rb.getD (.good w)
    let v := s.setUnits st.bank (setUnit (s.units st.bank) st.at_ got)
    exec (.unitProgrammed rb) s = .next (State.goOn
      (if got ≠ .good w then v.stepFailed st got
      else if rest.isEmpty then v.stepDone st
      else { v with ju := { v.ju with step := some { st with at_ := st.at_ + 1, units := rest } } })) := by
  show execUnitProgrammed rb s = _
  unfold execUnitProgrammed State.unitEnds
  rw [hstep, if_pos Option.isSome_some]
  dsimp only
  rw [hunits]

/-! ## The next unit of the step (R111) -/

/-- Taking up an erase changes what is being erased alone (R118). -/
theorem State.eraseKick_eq (s : State) : ∃ e, s.eraseKick = { s with ju := { s.ju with erasing := e } } := by
  unfold State.eraseKick State.beginErase
  split
  · split <;> exact ⟨_, rfl⟩
  · exact ⟨_, rfl⟩

/-- While a step is in progress the Journal Unit takes up an erase at most (R111, R118). -/
theorem State.finish_midStep {s : State} (h : s.ju.step.isSome = true) :
    ∃ e, s.finish = { s with ju := { s.ju with erasing := e } } := by
  have hkick : ∃ e, s.kick = { s with ju := { s.ju with erasing := e } } := by
    unfold State.kick
    rw [if_pos h]
    split
    · exact s.eraseKick_eq
    · exact ⟨_, rfl⟩
  obtain ⟨e, he⟩ := hkick
  refine ⟨e, ?_⟩
  unfold State.finish State.safePoint
  rw [he, if_neg]
  obtain ⟨st, hst⟩ := Option.isSome_iff_exists.mp h
  simp [hst]

/-- Settles O39: a step is in progress, so the Journal Unit takes up an erase at most. -/
theorem unitThatVerifiesIsFollowedByTheNext : Obligations.UnitThatVerifiesIsFollowedByTheNext := by
  unfold Obligations.UnitThatVerifiesIsFollowedByTheNext
  intro s st w rest rb hstart hstep hunits hrest hread
  have hgot : rb.getD (.good w) = .good w := by rcases hread with rfl | rfl <;> rfl
  have hreads : ∀ n, unitAt (setUnit (s.units st.bank) st.at_ (.good w)) n =
      if n = st.at_ then .good w else unitAt (s.units st.bank) n := fun n => unitAt_setUnit _ _ n _
  refine ⟨_, exec_unitProgrammed hstep hunits rb, ?_⟩
  dsimp only
  rw [hgot, if_neg (not_not_intro rfl), if_neg (by rwa [List.isEmpty_iff])]
  obtain ⟨work, bk, at_, units⟩ := st
  rw [State.goOn_settled (by cases bk <;> exact hstart)]
  obtain ⟨e, he⟩ := State.finish_midStep
    (s := { s.setUnits bk (setUnit (s.units bk) at_ (.good w)) with
      ju := { (s.setUnits bk (setUnit (s.units bk) at_ (.good w))).ju with
        step := some ⟨work, bk, at_ + 1, rest⟩ } }) rfl
  rw [he]
  cases bk <;> exact ⟨hreads, rfl, rfl⟩

/-! ## The bank is abandoned (R119) -/

/-- The state as a unit that fails its verification leaves it: what the unit reads as is stored, and a correction is
reported (R105, R184). -/
def State.misread (s : State) (bk : Bank) (at_ : Nat) (got : NvUnit) : State :=
  { s.setUnits bk (setUnit (s.units bk) at_ got) with
    nu := match got with
      | .corrected _ => (s.giveFault .nvCorrected bk.code at_).nu
      | _ => s.nu }

theorem State.noteRead_stored (s : State) (bk : Bank) (at_ : Nat) (got : NvUnit) :
    (s.setUnits bk (setUnit (s.units bk) at_ got)).noteRead bk at_ got = s.misread bk at_ got := by
  cases got <;> cases bk <;> rfl

@[simp] theorem State.misread_wp (s : State) (bk : Bank) (at_ : Nat) (got : NvUnit) :
    (s.misread bk at_ got).wp = s.wp := State.setUnits_wp ..

@[simp] theorem State.misread_od (s : State) (bk : Bank) (at_ : Nat) (got : NvUnit) :
    (s.misread bk at_ got).od = s.od := State.setUnits_od ..

theorem State.misread_failed (s : State) (bk : Bank) (at_ : Nat) (got : NvUnit) :
    (s.misread bk at_ got).ju.failed = s.ju.failed := by
  cases bk <;> rfl

theorem State.misread_comp (s : State) (bk : Bank) (at_ : Nat) (got : NvUnit) :
    (s.misread bk at_ got).ju.comp = s.ju.comp := by
  cases bk <;> rfl

/-- A misread unit gives at most one event, of FAULT (R184). -/
theorem State.misread_causes (s : State) (bk : Bank) (at_ : Nat) (got : NvUnit) :
    (s.misread bk at_ got).nu.causes = s.nu.causes ∨
      (s.misread bk at_ got).nu.causes = (s.raise bitFault).nu.causes := by
  cases got with
  | corrected _ => exact .inr (State.giveFault_causes ..)
  | _ => exact .inl rfl

/-- The Journal Unit once it has given a bank up for the group that failed in it (R119). -/
def State.abandonBank (s : State) (g : Group) : State :=
  { s with ju := { s.ju with failed := some g, step := none, activity := .idle, next := 1024, due := true } }

/-- A group that fails for the first time waits to be programmed again (R119). -/
theorem State.stepFailed_first {s : State} {g : Group} {bk : Bank} {at_ : Nat} {us : List UnitWord} {got : NvUnit}
    (hretry : g.retry = false) (hfailed : s.ju.failed = none) :
    (s.setUnits bk (setUnit (s.units bk) at_ got)).stepFailed ⟨.group g, bk, at_, us⟩ got =
      (s.misread bk at_ got).abandonBank g := by
  unfold State.stepFailed
  dsimp only
  rw [State.noteRead_stored, State.misread_failed, hretry, hfailed]
  rfl

/-- A bank that has been abandoned takes no group (R119). -/
theorem State.fits_abandoned {s : State} (h : s.ju.next = 1024) (n : Nat) : s.fits n = false := by
  unfold State.fits
  rw [h]
  exact Bool.and_false _

/-- With a failed group to program again and no bank that takes it, a compaction falls due (R111, R119). -/
theorem State.choose_abandoned {s : State} {g : Group} (hf : s.ju.failed = some g) (hn : s.ju.next = 1024) :
    s.choose = s.makeDue.compactIfDue := by
  unfold State.choose
  rw [hf]
  dsimp only
  simp only [State.fits_abandoned (s := s) hn, Bool.false_eq_true, if_false, ite_self]

/-- A failed group waits for a compaction that is due or has begun (R119). -/
def State.awaitsCompaction (s : State) (g : Group) : Prop :=
  s.ju.failed = some g ∧ (s.ju.due = true ∨ s.ju.activity = .compacting)

theorem State.compactIfDue_awaits {s : State} {g : Group} (h : s.awaitsCompaction g) :
    s.compactIfDue.awaitsCompaction g := by
  unfold State.compactIfDue
  split
  · exact ⟨h.1, .inr rfl⟩
  · exact h

/-- The group that failed still waits when the Journal Unit has taken up what it can (R111, R119). -/
theorem State.finish_abandonBank {s : State} {g : Group} (hc : s.ju.comp = none) :
    (s.abandonBank g).finish.awaitsCompaction g := by
  have hwaits : (s.abandonBank g).awaitsCompaction g := ⟨rfl, .inl rfl⟩
  have hchoose : (s.abandonBank g).choose.awaitsCompaction g := by
    rw [State.choose_abandoned (g := g) rfl rfl]
    exact State.compactIfDue_awaits ⟨rfl, .inl rfl⟩
  have hkick : (s.abandonBank g).kick.awaitsCompaction g := by
    have hcomp : (s.abandonBank g).ju.comp = none := hc
    unfold State.kick
    split
    · rw [hcomp, if_neg (by exact Bool.false_ne_true)]
      dsimp only
      rw [if_pos (by rfl)]
      obtain ⟨e, he⟩ := (s.abandonBank g).choose.eraseKick_eq
      rw [he]
      exact hchoose
    · exact hwaits
  unfold State.finish State.safePoint
  split
  · exact hkick
  · exact hkick

/-! ## The second failure is NV_FATAL (R120) -/

/-- What a command is followed by stands in the dispatcher and the window alone. -/
theorem State.Settled.congr {s t : State} (h : s.Settled) (hod : t.od = s.od) (hwp : t.wp = s.wp) : t.Settled where
  after := by
    unfold State.afterStartUp
    rw [hwp]
    exact h.after
  follower := h.follower.congr hod hwp
  supply := by
    rw [hwp]
    exact h.supply

/-- The state in which a misread unit is NV_FATAL: the two faults have given one event of FAULT (R179, assumption 32). -/
def State.misreadFatal (s : State) (bk : Bank) (at_ : Nat) (got : NvUnit) : State :=
  { s.misread bk at_ got with
    nu := { ((s.misread bk at_ got).giveFault .nvFatal bk.code at_).nu with causes := (s.raise bitFault).nu.causes } }

theorem State.together_misread (s : State) (bk : Bank) (at_ : Nat) (got : NvUnit) :
    (s.setUnits bk (setUnit (s.units bk) at_ got)).together ((s.misread bk at_ got).giveFault .nvFatal bk.code at_) =
      s.misreadFatal bk at_ got := by
  have hv : (s.setUnits bk (setUnit (s.units bk) at_ got)).nu = s.nu := by cases bk <;> rfl
  unfold State.misreadFatal
  rw [← State.together_faults (s.misread_causes bk at_ got) .nvFatal bk.code at_]
  unfold State.together State.cause
  rw [hv]
  rfl

/-- A group that fails again, or while another has failed, is NV_FATAL (R119, R120). -/
theorem State.stepFailed_again {s : State} {g : Group} {bk : Bank} {at_ : Nat} {us : List UnitWord} {got : NvUnit}
    (h : g.retry = true ∨ s.ju.failed ≠ none) :
    (s.setUnits bk (setUnit (s.units bk) at_ got)).stepFailed ⟨.group g, bk, at_, us⟩ got =
      (s.misreadFatal bk at_ got).enterFailed := by
  have hagain : (g.retry || (s.misread bk at_ got).ju.failed.isSome) = true := by
    rw [State.misread_failed, Bool.or_eq_true]
    exact h.imp_right Option.isSome_iff_ne_none.mpr
  unfold State.stepFailed
  dsimp only
  rw [State.noteRead_stored, if_pos hagain, State.together_misread]

/-- FAILED, with no order in flight and no compaction, is entered, and nothing follows (R120, R137). -/
theorem State.goOn_enterFailed {s : State} (h : s.Settled) (hcomp : s.ju.comp = none) (hnone : ∀ c, s.ctx c = none) :
    s.enterFailed.goOn = s.failed := by
  rw [State.enterFailed_eq h hcomp hnone, State.goOn_settled (by exact h.after.2), State.finish_failed rfl]

/-- Settles O40, by whether the group has failed before. -/
theorem unitThatFailsAbandonsTheBank : Obligations.UnitThatFailsAbandonsTheBank := by
  unfold Obligations.UnitThatFailsAbandonsTheBank
  intro s g bk at_ w rest got hset hstep hcomp hgot u
  have hsettled : (s.misread bk at_ got).Settled := hset.congr (s.misread_od bk at_ got) (s.misread_wp bk at_ got)
  have hmcomp : (s.misread bk at_ got).ju.comp = none := (s.misread_comp bk at_ got).trans hcomp
  refine ⟨_, exec_unitProgrammed hstep rfl (some got), ?_⟩
  dsimp only
  rw [Option.getD_some, if_pos hgot]
  refine ⟨fun hretry hfailed => ?_, fun hagain hnone => ?_⟩
  · have hkicked : Kicked { u with ju := { u.ju with next := 1024 } } ((s.misread bk at_ got).abandonBank g) :=
      (Kicked.refl { u with ju := { u.ju with next := 1024 } }).withJu _
        ⟨rfl, rfl, rfl, rfl, rfl, rfl, rfl, rfl, rfl, rfl, rfl⟩
    rw [State.stepFailed_first hretry hfailed, State.goOn_settled (by exact hsettled.after.2)]
    exact ⟨(hkicked.trans (State.finish_kicked _ (by exact hsettled.supply))).takenUp, State.finish_abandonBank hmcomp⟩
  · rw [State.stepFailed_again hagain, State.goOn_enterFailed (s := s.misreadFatal bk at_ got)
      (hsettled.congr rfl rfl) hmcomp fun c => (State.ctx_congr (s.misread_od bk at_ got) c).trans (hnone c)]
    cases bk <;> rfl

end Sys2Proof.Machine
end

section
/-! Proofs, the journal, part 2: the end of an erase (R105, R118, R120), and the temperature gate (R114, R156). -/

namespace Sys2Proof.Machine

/-! ## The end of an erase -/

/-- The erase of a bank has ended, and every unit of the bank reads as erased (R105, R118). -/
def State.bankErased (s : State) (bk : Bank) : State :=
  State.setBankState (State.setUnits { s with ju := { s.ju with erasing := none } } bk []) bk .erased

/-- The units and the state of the other bank stand as they did. -/
theorem State.bankErased_banks (s : State) (bk : Bank) :
    (s.bankErased bk).units bk = [] ∧ (s.bankErased bk).bankState bk = .erased ∧
      (s.bankErased bk).units bk.other = s.units bk.other ∧
      (s.bankErased bk).bankState bk.other = s.bankState bk.other := by
  cases bk <;> exact ⟨rfl, rfl, rfl, rfl⟩

theorem State.bankErased_kicked (s : State) (bk : Bank) :
    Kicked
      { s with ju := { s.ju with
        unitsA := (s.bankErased bk).ju.unitsA, unitsB := (s.bankErased bk).ju.unitsB
        stateA := (s.bankErased bk).ju.stateA, stateB := (s.bankErased bk).ju.stateB } }
      (s.bankErased bk) := by
  cases bk <;> exact (Kicked.refl _).withJu _ ⟨rfl, rfl, rfl, rfl, rfl, rfl, rfl, rfl, rfl, rfl, rfl⟩

theorem Kicked.units {s t : State} (k : Kicked s t) (bk : Bank) : t.units bk = s.units bk := by
  cases bk
  · exact k.array.unitsA
  · exact k.array.unitsB

theorem Kicked.bankState {s t : State} (k : Kicked s t) (bk : Bank) : t.bankState bk = s.bankState bk := by
  cases bk
  · exact k.array.stateA
  · exact k.array.stateB

/-- BANK_ERASE_END while a bank is being erased: the bank is ERASED, or a unit that does not read as erased is NV_FATAL
(R118, R120). -/
theorem exec_bankEraseEnd {s : State} {bk : Bank} (h : s.ju.erasing = some bk) (bad : Option Nat) :
    exec (.bankEraseEnd bad) s = .next (State.goOn (match bad with
      | none => s.bankErased bk
      | some n => State.nvFatal { s with ju := { s.ju with erasing := none } } bk.code n)) := by
  show execBankEraseEnd bad s = _
  unfold execBankEraseEnd
  rw [h]
  cases bad <;> rfl

/-- Settles O45, by whether a unit does not read as erased. -/
theorem eraseEndLeavesTheBankErased : Obligations.EraseEndLeavesTheBankErased := by
  unfold Obligations.EraseEndLeavesTheBankErased
  intro s bk bad hset herasing
  refine ⟨_, exec_bankEraseEnd herasing bad, ?_, ?_⟩
  · rintro rfl
    have hwp : (s.bankErased bk).wp = s.wp := by cases bk <;> rfl
    have hkicked : Kicked (s.bankErased bk) (s.bankErased bk).goOn := by
      rw [State.goOn_settled (by rw [hwp]; exact hset.after.2)]
      exact State.finish_kicked _ (by rw [hwp]; exact hset.supply)
    obtain ⟨hunits, hstate, hothers, hother⟩ := s.bankErased_banks bk
    refine ⟨(hkicked.units bk).trans hunits, (hkicked.bankState bk).trans hstate, ?_,
      (hkicked.units bk.other).trans hothers, (hkicked.bankState bk.other).trans hother⟩
    dsimp only
    rw [hkicked.array.unitsA, hkicked.array.unitsB, hkicked.array.stateA, hkicked.array.stateB]
    exact ((s.bankErased_kicked bk).trans hkicked).takenUp
  · rintro n rfl hcomp hnone
    exact State.goOn_enterFailed
      (s := State.giveFault { s with ju := { s.ju with erasing := none } } .nvFatal bk.code n)
      (hset.congr rfl rfl) hcomp hnone

/-! ## The temperature gate (R114, R156) -/

/-- The gate as a temperature reading decides it (R114). -/
def State.gateRead (s : State) (milli : Int) : State :=
  if s.ju.hot = false ∧ s.tempLimit ≤ milli then
    { s with ju := { s.ju with hot := true, wasHot := true }, nu := (s.raise bitStoreHot).nu }
  else if s.ju.hot = true ∧ milli < s.tempLimit - s.tempHysteresis then { s with ju := { s.ju with hot := false } }
  else s

theorem State.gateRead_wp (s : State) (milli : Int) : (s.gateRead milli).wp = s.wp := by
  unfold State.gateRead
  split
  · rfl
  · split <;> rfl

theorem exec_temperatureReading {s : State} (hr : s.wp.inReset = none) (milli : Int) :
    exec (.temperatureReading milli) s = .next (s.gateRead milli).goOn := by
  show execTemperatureReading milli s = _
  unfold execTemperatureReading State.gateRead
  rw [hr, if_neg (by exact Bool.false_ne_true)]
  simp only [Bool.and_eq_true, Bool.not_eq_true', decide_eq_true_eq]
  split
  · rfl
  · split <;> rfl

/-- Settles O46: the gate follows the reading, and what follows is the Journal Unit's work alone. -/
theorem temperatureReadingDecidesTheGate : Obligations.TemperatureReadingDecidesTheGate := by
  unfold Obligations.TemperatureReadingDecidesTheGate
  intro s milli hset limit below
  have hwp := s.gateRead_wp milli
  have hgate : s.gateRead milli =
      if s.ju.hot = false ∧ limit ≤ milli then
        { s with ju := { s.ju with hot := true, wasHot := true }, nu := (s.raise bitStoreHot).nu }
      else if s.ju.hot = true ∧ milli < limit - below then { s with ju := { s.ju with hot := false } }
      else s := rfl
  refine ⟨_, exec_temperatureReading hset.after.1 milli, ?_⟩
  rw [← hgate, State.goOn_settled (by rw [hwp]; exact hset.after.2)]
  exact (State.finish_kicked _ (by rw [hwp]; exact hset.supply)).takenUp

end Sys2Proof.Machine
end

section
/-! Proofs, the journal, part 3: the commit of the note of an UNLOCK (R112, R149). -/

namespace Sys2Proof.Machine

/-- Lockdown as the commit of an UNLOCK leaves it: it ends where the challenge is still that of the lockdown in force
(R149). -/
def State.unlockedBy (s : State) (x : Ctx) : State :=
  { s with tm := { s.tm with lockdown := if s.tm.seq = x.challenge then false else s.tm.lockdown } }

/-- The result of an UNLOCK whose note is durable (R149). -/
def State.unlockCode (s : State) (x : Ctx) : Code := if s.tm.seq = x.challenge then .ok else .tokenRejected

theorem State.completeCommitted_unlock {s : State} {c : Nat} {x : Ctx} (hx : s.ctx c = some x)
    (hch : x.change = some .unlock) :
    s.completeCommitted c = (s.unlockedBy x).complete c (s.unlockCode x) Res.zero := by
  unfold State.completeCommitted State.unlockedBy State.unlockCode
  rw [hx]
  dsimp only
  rw [hch]
  dsimp only
  split <;> rfl

/-- The UNLOCK whose note is durable completes, and nothing follows (R112, R149, R174). -/
theorem State.releaseRec_unlock {s : State} {r : Rec} {c : Nat} {x : Ctx} (hp : s.Plain c x)
    (hch : x.change = some .unlock) (ho : r.owner = .unlock c) (hf : s.NoFollower)
    (hw : ∀ d y, d ≠ c → s.ctx d = some y → y.wait ≠ .reservation ∧ y.wait ≠ .mark) :
    Completed (s.unlockedBy x) (s.releaseRec r) c x (s.unlockCode x) Res.zero := by
  have hplain : (s.unlockedBy x).Plain c x := ⟨hp.ctx, hp.small, hp.lane, hp.cell, hp.erase, hp.deferred⟩
  have cm := State.complete_completed hplain (s.unlockCode x) Res.zero
  rw [← State.completeCommitted_unlock hp.ctx hch] at cm
  have hserve : (s.completeCommitted c).serve = s.completeCommitted c :=
    State.serve_idle (cm.noFollower hf.lanes (fun d _ => hf.syncs d) hf.engine)
  have hrelease : s.releaseRec r = s.completeCommitted c := by
    unfold State.releaseRec
    rw [ho]
    dsimp only
    rw [hserve]
    refine State.releaseOthers (fun d y hy => ?_) r
    by_cases hd : d = c
    · rw [hd, cm.ctx] at hy
      cases hy
    · rw [cm.ctxs d hd] at hy
      obtain ⟨z, hz, rfl⟩ := Option.map_eq_some_iff.mp hy
      exact hw d z hd hz
  rw [hrelease]
  exact cm

/-- A note carries no counters and changes no table: its commit is the release of the order that placed it (R112). -/
theorem State.commitGroup_note {s : State} {g : Group} {r : Rec} {c : Nat} {i : Option TamperInput}
    {a : Option TamperAction} {f : Bool} {tm : Nat} {q : Word} (hrecs : g.recs = [r]) (ho : r.owner = .unlock c)
    (hbody : r.body = .note i a f tm q) : s.commitGroup g = ((s.moved g).stepless.releaseRec r).rested := by
  have hcounters : (s.moved g).stepless.commitCounters r = (s.moved g).stepless := by
    unfold State.commitCounters
    rw [hbody]
  have htable : ((s.moved g).stepless.noteRaise r).commitTable r = (s.moved g).stepless := by
    unfold State.noteRaise State.commitTable
    rw [ho]
  have hone := State.commitGroup_one (s := s) (u := (s.moved g).stepless) hrecs (by unfold State.moved; rw [hrecs]; rfl)
  dsimp only at hone
  rw [hcounters, htable, State.together_same rfl] at hone
  exact hone

/-- A note takes one unit, and its group two (R108). -/
theorem groupSize_note {r : Rec} {i : Option TamperInput} {a : Option TamperAction} {f : Bool} {tm : Nat} {q : Word}
    (h : r.body = .note i a f tm q) : groupSize [r] = 1 := by
  unfold groupSize
  rw [List.foldl_cons, h]
  rfl

/-- The state in which the orders of a group of two units are released, but for the lockdown that an UNLOCK may end
(R112). -/
def State.noteStored (s : State) (g : Group) (bk : Bank) (at_ : Nat) (w : UnitWord) : State :=
  (State.moved (s.setUnits bk (setUnit (s.units bk) at_ (.good w))) g).stepless

theorem State.noteStored_eq (s : State) (g : Group) (bk : Bank) (at_ : Nat) (w : UnitWord) :
    ∃ j, s.noteStored g bk at_ w = { s with ju := j } := by
  cases bk <;> exact ⟨_, rfl⟩

theorem State.noteStored_array {s : State} {g : Group} {r : Rec} (bk : Bank) (at_ : Nat) (w : UnitWord) (b : Bool)
    (hrecs : g.recs = [r]) (hsize : groupSize [r] = 1) :
    State.SameArray
      (State.setUnits
        { s with
          ju := { s.ju with lastSeq := g.seq, used := s.ju.used + 2, next := s.ju.next + 2 }
          tm := { s.tm with lockdown := b } } bk (setUnit (s.units bk) at_ (.good w)))
      (s.noteStored g bk at_ w) := by
  unfold State.noteStored State.moved
  rw [hrecs, hsize]
  cases bk <;> exact ⟨rfl, rfl, rfl, rfl, rfl, rfl, rfl, rfl, rfl, rfl, rfl⟩

/-- Settles O42: the note carries no counters and changes no table, so the commit is the completion of the order. -/
theorem groupCommitOfUnlockEndsLockdown : Obligations.GroupCommitOfUnlockEndsLockdown := by
  unfold Obligations.GroupCommitOfUnlockEndsLockdown
  intro s c x g bk at_ w r i a f tm q hset hrun hplain hstep hrecs howner hbody hheld hch hwait hothers good u
  have harray : u.SameArray (s.noteStored g bk at_ w) := State.noteStored_array bk at_ w _ hrecs (groupSize_note hbody)
  have hu : ∃ j, u = { s.unlockedBy x with ju := j } := by cases bk <;> exact ⟨_, rfl⟩
  obtain ⟨l, hu⟩ := hu
  clear_value u
  obtain ⟨j, hv⟩ := s.noteStored_eq g bk at_ w
  have hexec : exec .groupCommit s = .next ((s.noteStored g bk at_ w).releaseRec r).rested.goOn := by
    rw [exec_groupCommit hstep, State.commitGroup_note hrecs howner hbody]
    rfl
  generalize s.noteStored g bk at_ w = v at harray hv hexec
  have cm : Completed (v.unlockedBy x) (v.releaseRec r) c x (s.unlockCode x) Res.zero := by
    subst hv
    exact State.releaseRec_unlock ⟨hplain.ctx, hplain.small, hplain.lane, hplain.cell, hplain.erase, hplain.deferred⟩ hch
      howner (hset.follower.congr rfl rfl) fun d y _ => hothers d y
  subst hv
  generalize State.releaseRec { s with ju := j } r = z at cm hexec
  have hkicked : Kicked z z.rested.goOn :=
    State.goOn_rested (by rw [cm.wp]; exact hset.after.2) (by rw [cm.wp]; exact hrun)
  have honward : Onward u (State.unlockedBy { s with ju := j } x) c x := by
    subst hu
    exact (Onward.refl (s := { s.unlockedBy x with ju := l }) hplain.ctx hplain.small).tables rfl rfl
      (harray.trans ⟨rfl, rfl, rfl, rfl, rfl, rfl, rfl, rfl, rfl, rfl, rfl⟩) rfl rfl rfl
  refine ⟨_, hexec, cm.orderEnds honward hkicked rfl rfl rfl (by rw [hu]; rfl), ?_, ?_, ?_, ?_, ?_⟩
  · exact hkicked.kt.trans cm.kt
  · exact hkicked.tu.trans cm.tu
  · exact (hkicked.nu.trans (cm.nu hrun)).trans (State.countCompletion_nu (by rfl) (by rfl) (by rfl) x.lane)
  · exact hkicked.xu.trans cm.xu
  · rw [hkicked.wp, cm.wp]
    unfold State.unlockCode
    show (if (if s.tm.seq = x.challenge then Code.ok else Code.tokenRejected) = Code.ok then _ else _) = _
    by_cases hgood : s.tm.seq = x.challenge
    · rw [if_pos hgood, if_pos rfl, if_pos hgood]
      rfl
    · rw [if_neg hgood, if_neg (by decide), if_neg hgood]
      rfl

end Sys2Proof.Machine
end

section
/-! Proofs, the journal, part 4: start-up of a blank array (R121, R124, R133, R135). -/

namespace Sys2Proof.Machine

/-! ## Start-up part by part (R133) -/

theorem State.passPart_none {s : State} (h : s.wp.pauses = []) (p : StartPoint) : s.passPart p = s := by
  unfold State.passPart
  obtain ⟨⟨⟩⟩ := s
  cases h
  rfl

/-- A part of start-up that nothing interrupts: start-up goes on from it at once, or waits for the array or ends. -/
theorem State.runBoot_part {s t : State} {p : StartPoint} {on : Bool} (k : Nat) (he : s.wp.engine = .starting)
    (hp : s.wp.startAt = some p) (hpauses : s.wp.pauses = []) (h : s.bootStep p = (t, on)) :
    State.runBoot (k + 1) s = bif on then State.runBoot k t else t := by
  have hgo : ¬s.pausesAt p = true := by
    unfold State.pausesAt
    rw [hpauses]
    exact Bool.false_ne_true
  rw [State.runBoot, if_pos he, hp]
  dsimp only
  rw [if_neg hgo, State.passPart_none hpauses, h]
  cases on <;> rfl

/-! ## A blank array is read (R121, R124) -/

/-- No bank holds a unit. -/
def State.blank (s : State) : Prop := ∀ bk, s.units bk = []

theorem State.blank.report {s : State} (h : s.blank) (bk : Bank) (i j : Nat) : s.reportCorrected bk i j = s := by
  unfold State.reportCorrected
  rw [h bk]
  exact List.foldl_fixed _

theorem State.blank.header {s : State} (h : s.blank) (bk : Bank) : s.headerOf bk = none := by
  unfold State.headerOf
  rw [h bk]
  rfl

theorem State.blank.base {s : State} (h : s.blank) (bk : Bank) : s.baseOf bk = none := by
  unfold State.baseOf
  rw [h.header bk]

theorem State.blank.readHead {s : State} (h : s.blank) (bk : Bank) : s.readHead bk = s := by
  unfold State.readHead
  dsimp only
  rw [h.report, h.header]
  rfl

theorem State.blank.readArray {s : State} (h : s.blank) : s.readArray = s := by
  unfold State.readArray
  rw [h.report, h.report]

theorem State.blank.wholeErased {s : State} (h : s.blank) (bk : Bank) : s.wholeErased bk = true := by
  unfold State.wholeErased
  rw [h bk]
  rfl

/-- Replay of a blank array makes both banks ERASED, and start-up goes on to an empty base (R121, R124). -/
theorem State.blank.chooseBank {s : State} (h : s.blank) :
    s.chooseBank = State.goTo { s with ju := { s.ju with stateA := .erased, stateB := .erased } } .emptyBase := by
  have haside : (s.putAside .a).putAside .b =
      { s with ju := { s.ju with stateA := .erased, stateB := .erased } } := by
    have hb : (s.putAside .a).wholeErased .b = true := h.wholeErased .b
    unfold State.putAside at hb ⊢
    rw [hb, h.wholeErased .a]
    rfl
  have hblank : State.blank { s with ju := { s.ju with stateA := .erased, stateB := .erased } } := fun bk => by
    rw [← h bk]
    cases bk <;> rfl
  unfold State.chooseBank
  rw [h.readHead, h.readHead]
  dsimp only
  rw [h.base, h.base]
  dsimp only
  rw [h.readArray, haside, hblank.wholeErased, hblank.wholeErased]
  rfl

/-! ## The start-up of a blank array (R133, R135) -/

/-- Start-up is about to run on a blank array, with no command that waits and nothing that interrupts it, and nothing
has been begun in the array. -/
structure State.StartsBlank (s : State) : Prop where
  blank : s.blank
  engine : s.wp.engine = .starting
  part : s.wp.startAt = some .step1
  pauses : s.wp.pauses = []
  commands : s.wp.deferredCmds = []
  current : s.ju.current = none
  step : s.ju.step = none
  gate : s.ju.hot = false
  left : s.ju.emptyLeft = []

/-- A blank array has been read, and an empty base is to be written (R124, R135). -/
def State.atEmptyBase (s : State) : State :=
  { s with
    wp := { s.wp with startAt := some .emptyBase, provisioning := s.wp.strap }
    ju := { s.ju with stateA := .erased, stateB := .erased } }

/-- Steps 1 and 2, and the choice of the bank (R133, R135). -/
theorem State.StartsBlank.runBoot {s : State} (h : s.StartsBlank) (k : Nat) :
    State.runBoot (k + 3) s = State.runBoot k s.atEmptyBase := by
  have hstep1 : s.bootStep .step1 = (s.goTo .step2, true) := by
    have hcmds := h.commands
    unfold State.bootStep
    obtain ⟨⟨⟩⟩ := s
    cases hcmds
    rfl
  let r : State := { s with wp := { s.wp with startAt := some .choosing, provisioning := s.wp.strap } }
  have hblank : State.blank r := fun bk => by
    rw [← h.blank bk]
    cases bk <;> rfl
  calc State.runBoot (k + 3) s
      = State.runBoot (k + 2) (s.goTo .step2) := State.runBoot_part (k + 2) h.engine h.part h.pauses hstep1
    _ = State.runBoot (k + 1) r := State.runBoot_part (s := s.goTo .step2) (k + 1) h.engine rfl h.pauses rfl
    _ = State.runBoot k s.atEmptyBase :=
      State.runBoot_part (s := r) k h.engine rfl h.pauses (congrArg (·, true) hblank.chooseBank)

/-- The first unit of an empty base is the header of bank A, under epoch 1 (R124). -/
theorem State.bootEmptyBase_begins {s : State} (hcurrent : s.ju.current = none) (hstep : s.ju.step = none)
    (hhot : s.ju.hot = false) (hleft : s.ju.emptyLeft = []) :
    s.bootEmptyBase =
      ({ s with ju := { s.ju with
        emptyLeft := emptyBaseUnits.mapIdx fun i u => (i + 1, u)
        step := some ⟨.emptyBase, .a, 0, [headerUnit 1]⟩ } }, false) := by
  unfold State.bootEmptyBase
  rw [hcurrent, hstep, hhot, hleft]
  rfl

/-- In STARTING the Journal Unit takes up no work of R111, and there is no safe point. -/
theorem State.finish_starting {s : State} (h : s.wp.engine = .starting) : s.finish = s := by
  have hkick : s.kick = s := by
    unfold State.kick State.journalRuns
    rw [h]
    rfl
  unfold State.finish State.safePoint
  rw [hkick, h]
  rfl

/-- Start-up of a blank array waits for the header of an empty base (R124, R133, R135). -/
theorem State.StartsBlank.goOn {s : State} (h : s.StartsBlank) :
    s.goOn =
      { s.atEmptyBase with ju := { s.atEmptyBase.ju with
        emptyLeft := emptyBaseUnits.mapIdx fun i u => (i + 1, u)
        step := some ⟨.emptyBase, .a, 0, [headerUnit 1]⟩ } } := by
  have hstarting : s.startingUp = true := by
    unfold State.startingUp
    rw [h.part]
    rfl
  have hbegins : s.atEmptyBase.bootStep .emptyBase = _ :=
    State.bootEmptyBase_begins (s := s.atEmptyBase) h.current h.step h.gate h.left
  unfold State.goOn
  rw [if_pos hstarting, h.runBoot 1097, State.runBoot_part 1096 (by exact h.engine) rfl (by exact h.pauses) hbegins,
    cond_false, State.finish_starting (by exact h.engine)]

/-- Settles O53; where RESETN holds the part, nothing runs. -/
theorem blankArrayStartsAnEmptyBase : Obligations.BlankArrayStartsAnEmptyBase := by
  unfold Obligations.BlankArrayStartsAnEmptyBase
  intro s prov hwarn hA hB
  cases hreset : s.wp.inReset with
  | some cause =>
    refine ⟨s.holdReset ⟨prov, [], []⟩ .power, ?_, nofun⟩
    show execPowerOnReset _ s = _
    unfold execPowerOnReset
    rw [hreset]
    rfl
  | none =>
    have hblank : (s.afterReset ⟨prov, [], []⟩ .power).blank := fun bk => by
      cases bk
      · exact hA
      · exact hB
    have hexec : exec (.powerOnReset ⟨prov, [], []⟩) s = .next (s.afterReset ⟨prov, [], []⟩ .power).goOn := by
      show execPowerOnReset _ s = _
      unfold execPowerOnReset State.leaveReset
      rw [hreset, if_neg (by exact Bool.false_ne_true)]
      dsimp only
      rw [if_neg (by show ¬s.wp.supplyWarn = true; rw [hwarn]; exact Bool.false_ne_true)]
    refine ⟨_, hexec, fun _ => ?_⟩
    rw [State.StartsBlank.goOn ⟨hblank, rfl, rfl, rfl, rfl, rfl, rfl, rfl, rfl⟩]
    exact ⟨rfl, rfl, rfl, rfl, rfl, rfl, rfl⟩

end Sys2Proof.Machine
end

section
/-! Proofs, the journal, part 5: the filter of a tamper input, and the action of its event (R139 to R145, R149). -/

namespace Sys2Proof.Machine

/-! ## The inputs (R139) -/

theorem State.tamper_setTamper (s : State) (i : TamperInput) (x : TamperState) : (s.setTamper i x).tamper i = x := by
  cases i <;> rfl

theorem State.tamper_setTamper_other (s : State) {i j : TamperInput} (x : TamperState) (h : j ≠ i) :
    (s.setTamper i x).tamper j = s.tamper j := by
  cases i with
  | cover => cases j with
    | cover => exact absurd rfl h
    | field => rfl
  | field => cases j with
    | cover => rfl
    | field => exact absurd rfl h

theorem State.setTamper_eq (s : State) (i : TamperInput) (x : TamperState) :
    s.setTamper i x =
      { s with tm := { s.tm with cover := (s.setTamper i x).tm.cover, field := (s.setTamper i x).tm.field } } := by
  cases i <;> rfl

/-- A change of the line starts the filter timer, keeps it or stops it (R139). -/
theorem exec_tamperInputChange {s : State} (h : s.wp.inReset = none) (i : TamperInput) (b : Bool) :
    exec (.tamperInputChange i b) s = .next (s.setTamper i { s.tamper i with
      level := b
      timer := if b = (s.tamper i).settled then none
        else if (s.tamper i).timer = none then some s.clock else (s.tamper i).timer }) := by
  show execTamperInputChange i b s = _
  unfold execTamperInputChange
  dsimp only
  rw [h, if_neg (by exact Bool.false_ne_true)]
  cases (s.tamper i).timer <;> rfl

/-! ## The event is noted (R140, R142, R149) -/

/-- The filter of an input has run out: the input has settled, and its event is counted and raises TAMPER (R140). -/
def State.eventCounted (s : State) (i : TamperInput) : State :=
  let x := s.tamper i
  let u := s.setTamper i
    { x with settled := x.level, timer := none, time := s.tu.now, count := min (x.count + 1) 65535 }
  { u with nu := (s.raise bitTamper).nu }

/-- A locking action sets lockdown under the next sequence (R142, R149). -/
def State.lockedBy (s : State) (a : TamperAction) : State :=
  { s with tm := { s.tm with
    lockdown := a.locks || s.tm.lockdown, seq := if a.locks then s.tm.seq + 1 else s.tm.seq } }

theorem State.lockedBy_eq (s : State) (a : TamperAction) :
    (if a.locks then { s with tm := { s.tm with lockdown := true, seq := s.tm.seq + 1 } } else s) = s.lockedBy a := by
  unfold State.lockedBy
  cases a.locks <;> rfl

/-- The event is counted, and lockdown is as its action leaves it. -/
def State.eventNoted (s : State) (i : TamperInput) : State := (s.eventCounted i).lockedBy (s.tamperAction i)

/-- The tamper group has taken the TAMPER_NOTE of the event (R145). -/
def State.noteTaken (s : State) (i : TamperInput) : State :=
  (s.eventNoted i).toTamperGroup
    (.note (some i) (some (s.tamperAction i)) (s.eventNoted i).tm.lockdown s.tu.now (s.eventNoted i).tm.seq)

/-- The event takes its action once it is noted (R142 to R144). -/
theorem State.tamperEvent_noted {s : State} (i : TamperInput) (hr : s.tm.restored = true) (hk : s.tu.kept = true) :
    s.tamperEvent i =
      let a := s.tamperAction i
      let e := if a.erases then (s.noteTaken i).eraseAll else s.noteTaken i
      (if a.locks then e.lockOrders else e).cipherKick.serve := by
  let v := s.setTamper i { s.tamper i with settled := (s.tamper i).level, timer := none }
  have hrestored : v.tm.restored = true := by cases i <;> exact hr
  have htime : v.captureTime = s.tu.now := by
    have htu : v.tu = s.tu := State.setTamper_tu ..
    unfold State.captureTime
    rw [htu, if_pos hk]
  have hcounted : (v.setTamper i { v.tamper i with
      time := s.tu.now, count := min ((v.tamper i).count + 1) 65535 }).raise bitTamper = s.eventCounted i := by
    cases i <;> rfl
  have haction : (s.eventCounted i).tamperAction i = s.tamperAction i := by cases i <;> rfl
  have hevent : s.tamperEvent i = v.takeEvent i 1 s.tu.now := by
    unfold State.tamperEvent
    dsimp only
    rw [if_pos hrestored, htime]
  rw [hevent]
  unfold State.takeEvent
  dsimp only
  rw [hcounted, haction, State.lockedBy_eq]
  rfl

/-! ## The action with no order in flight (R143, R150) -/

/-- With no order in flight, a locking event ends none (R150). -/
theorem State.lockOrders_none {s : State} (h : ∀ c, s.ctx c = none) : s.lockOrders = s := by
  unfold State.lockOrders
  rw [range4]
  simp [h]

theorem ErasedBy.refl (s : State) : ErasedBy s s (fun _ => false) where
  wp := rfl
  od := rfl
  xu := rfl
  tm := rfl
  nu := rfl
  clock := rfl
  pending := rfl
  tu := by simp
  array := State.SameArray.refl s
  slots _ := rfl
  images _ h := absurd h Bool.false_ne_true
  keeps _ _ h := h

/-- The erase action, where the event has one, with no order in flight (R143). -/
theorem State.eraseIf_by {s : State} (h : s.wp.engine = .running) (hnone : ∀ c, s.ctx c = none) (b : Bool) :
    ErasedBy s (if b then s.eraseAll else s) (fun _ => b) := by
  cases b
  · exact ErasedBy.refl s
  · exact State.eraseAll_by h hnone

/-- Taking the note changes the tamper group alone; the note stands there, and waits for the lockdown state in force when
its group begins (R145). -/
theorem State.noteTaken_eq {s : State} (h : s.wp.engine = .running) (i : TamperInput) :
    ∃ t, s.noteTaken i = { s.eventNoted i with ju := { s.ju with tamper := t } } ∧
      (s.noteTaken i).inTamperGroup (.note (some i) (some (s.tamperAction i)) (s.eventNoted i).tm.lockdown s.tu.now
        (s.eventNoted i).tm.seq) = true := by
  have hwp : (s.eventNoted i).wp = s.wp := State.setTamper_wp ..
  have hju : (s.eventNoted i).ju = s.ju := State.setTamper_ju ..
  obtain ⟨t, ht, hin, -⟩ := State.toTamperGroup_eq (s := s.eventNoted i) (by rw [hwp]; exact h)
    (.note (some i) (some (s.tamperAction i)) (s.eventNoted i).tm.lockdown s.tu.now (s.eventNoted i).tm.seq)
  have heq : s.noteTaken i = { s.eventNoted i with ju := { s.ju with tamper := t } } := by rw [← hju]; exact ht
  exact ⟨t, heq, by rw [heq]; exact hin⟩

/-- With no order in flight, and nothing in the Cipher Unit, the event is noted and erases, and nothing follows (R142 to
R145). -/
theorem State.tamperEvent_by {s : State} (i : TamperInput) (hset : s.Settled) (hrun : s.wp.engine = .running)
    (hr : s.tm.restored = true) (hk : s.tu.kept = true) (hidle : s.cipherIdle) (hnone : ∀ c, s.ctx c = none) :
    ErasedBy (s.noteTaken i) (s.tamperEvent i) (fun _ => (s.tamperAction i).erases) := by
  obtain ⟨t, heq, -⟩ := State.noteTaken_eq hrun i
  have hod : (s.noteTaken i).od = s.od := by rw [heq]; exact State.setTamper_od ..
  have hwp : (s.noteTaken i).wp = s.wp := by rw [heq]; exact State.setTamper_wp ..
  have hxu : (s.noteTaken i).xu = s.xu := by rw [heq]; exact State.setTamper_xu ..
  have herased := State.eraseIf_by (s := s.noteTaken i) (by rw [hwp]; exact hrun)
    (fun c => (State.ctx_congr hod c).trans (hnone c)) (s.tamperAction i).erases
  rw [State.tamperEvent_noted i hr hk]
  dsimp only
  generalize (if (s.tamperAction i).erases = true then (s.noteTaken i).eraseAll else s.noteTaken i) = e at herased
  have heod : e.od = s.od := herased.od.trans hod
  have hlock : (if (s.tamperAction i).locks = true then e.lockOrders else e) = e := by
    rw [State.lockOrders_none fun c => (State.ctx_congr heod c).trans (hnone c), ite_self]
  have hqueue : e.xu.queue = [] := by rw [herased.xu, hxu]; exact hidle.2
  rw [hlock, State.cipherKick_none hqueue, State.serve_idle (hset.follower.congr heod (herased.wp.trans hwp))]
  exact herased

/-! ## The tamper group (R113, R145) -/

/-- A body that the stamp of the lockdown state leaves stands in the tamper group, or in the group that is programmed, when
the Journal Unit has taken up what it can (R111, R145). -/
theorem State.finish_inTamperGroup {s : State} {b : RecBody} (hb : ∀ q : Rec, q.body = b → (s.stampNote q).body = b)
    (h : s.inTamperGroup b = true) : s.finish.holdsTamperRecord (fun q => q.body == b) = true :=
  State.finish_tamper (fun q hq => beq_iff_eq.mpr (hb q (beq_iff_eq.mp hq))) h

theorem State.stampNote_inForce (s : State) {i : Option TamperInput} {a : Option TamperAction} {t : Nat} (q : Rec)
    (h : q.body = .note i a s.tm.lockdown t s.tm.seq) : (s.stampNote q).body = .note i a s.tm.lockdown t s.tm.seq := by
  unfold State.stampNote
  rw [h]

theorem State.stampNote_image (s : State) {n : Nat} {r : SlotRec} (q : Rec) (h : q.body = .image n r) :
    (s.stampNote q).body = .image n r := by
  unfold State.stampNote
  rw [h]
  exact h

/-! ## The end of the filter -/

/-- What the event of a filter leaves, before the Journal Unit takes up its work (R140 to R145, R149). -/
structure State.EventTaken (s z : State) (i : TamperInput) : Prop where
  wp : z.wp = s.wp
  od : z.od = s.od
  xu : z.xu = s.xu
  tm : z.tm = (s.eventNoted i).tm
  nu : z.nu = (s.raise bitTamper).nu
  clock : z.clock = s.clock
  pending : z.pending = s.pending
  tu : z.tu = { s.tu with
    deadlines := s.tu.deadlines.filter fun d => !((s.tamperAction i).erases && (s.slot d.slot).erasable) }
  array : s.SameArray z
  slots : ∀ n, z.slot n = if (s.tamperAction i).erases && (s.slot n).erasable then (s.slot n).erase else s.slot n
  note : z.inTamperGroup (.note (some i) (some (s.tamperAction i)) z.tm.lockdown s.tu.now z.tm.seq) = true
  images : ∀ n, ((s.tamperAction i).erases && (s.slot n).erasable) = true →
    z.inTamperGroup (.image n (s.slot n).erase) = true

theorem State.tamperEvent_taken {s : State} (i : TamperInput) (hset : s.Settled) (hrun : s.wp.engine = .running)
    (hr : s.tm.restored = true) (hk : s.tu.kept = true) (hidle : s.cipherIdle) (hnone : ∀ c, s.ctx c = none) :
    s.EventTaken (s.tamperEvent i) i := by
  have he := State.tamperEvent_by i hset hrun hr hk hidle hnone
  obtain ⟨g, heq, hnote⟩ := State.noteTaken_eq hrun i
  generalize s.tamperEvent i = z at he
  have hslot : ∀ n, (s.noteTaken i).slot n = s.slot n := State.slot_congr (by rw [heq]; exact State.setTamper_kt ..)
  have htu : (s.noteTaken i).tu = s.tu := by rw [heq]; exact State.setTamper_tu ..
  have htm : (s.noteTaken i).tm = (s.eventNoted i).tm := by rw [heq]
  have hslots : ∀ n, z.slot n =
      if (s.tamperAction i).erases && (s.slot n).erasable then (s.slot n).erase else s.slot n := fun n => by
    rw [he.slots, hslot]
  refine ⟨?_, ?_, ?_, he.tm.trans htm, ?_, ?_, ?_, ?_, ?_, hslots, ?_, fun n hn => ?_⟩
  · rw [he.wp, heq]
    exact State.setTamper_wp ..
  · rw [he.od, heq]
    exact State.setTamper_od ..
  · rw [he.xu, heq]
    exact State.setTamper_xu ..
  · rw [he.nu, heq]
    rfl
  · rw [he.clock, heq]
    exact State.setTamper_clock ..
  · rw [he.pending, heq]
    exact State.setTamper_pending ..
  · rw [he.tu, htu]
    simp only [hslot]
  · refine State.SameArray.trans ?_ he.array
    rw [heq]
    exact ⟨rfl, rfl, rfl, rfl, rfl, rfl, rfl, rfl, rfl, rfl, rfl⟩
  · rw [he.tm, htm]
    exact he.keeps _ (fun _ _ _ => RecBody.noConfusion) hnote
  · have himage := he.images n (by rw [hslot]; exact hn)
    rwa [hslots, if_pos hn] at himage

/-- The event of a filter and its action change the slots, the deadlines, the tamper inputs with lockdown, the notices and
the Journal Unit's work alone. -/
theorem State.EventTaken.takenUp {s z t : State} {i : TamperInput} (h : s.EventTaken z i) (k : Kicked z t) :
    State.TakenUp
      { s with
        kt := t.kt, tu := t.tu, nu := t.nu
        tm := { s.tm with
          cover := t.tm.cover, field := t.tm.field, lockdown := t.tm.lockdown, seq := t.tm.seq } } t where
  window := k.wp.trans h.wp
  plan := k.plan.trans (congrArg Od.plan h.od)
  lanes := k.lanes.trans (congrArg Od.lanes h.od)
  timer := k.timer.trans (congrArg Od.scanTimer h.od)
  ctxs c := (k.core c).trans (congrArg (Option.map Ctx.core) (State.ctx_congr h.od c))
  slots := rfl
  cipher := k.xu.trans h.xu
  time := rfl
  array := State.SameArray.trans (t := s) (sameArray_ju (by rfl)) (h.array.trans k.array)
  tamper := by
    rw [k.tm, h.tm]
    cases i <;> rfl
  notices := rfl
  clock := k.clock.trans h.clock
  pending := k.pending.trans h.pending

/-- The input whose filter has run out has settled, and its event is counted (R139, R140). -/
theorem State.eventNoted_tamper (s : State) (i : TamperInput) :
    (s.eventNoted i).tamper i = { s.tamper i with
      settled := (s.tamper i).level, timer := none, time := s.tu.now, count := min ((s.tamper i).count + 1) 65535 } := by
  cases i <;> rfl

theorem exec_tamperFilterExpiry {s : State} {i : TamperInput} (h : (s.tamper i).timer ≠ none) :
    exec (.tamperFilterExpiry i) s = .next (s.tamperEvent i).finish := by
  obtain ⟨m, hm⟩ := Option.ne_none_iff_exists'.mp h
  show execTamperFilterExpiry i s = _
  unfold execTamperFilterExpiry
  rw [hm]

/-- Settles O54: the inputs at once, and the event by what it has taken and erased before the Journal Unit's work. -/
theorem tamperInputIsFilteredAndItsEventActs : Obligations.TamperInputIsFilteredAndItsEventActs := by
  unfold Obligations.TamperInputIsFilteredAndItsEventActs
  intro s i x a erased
  refine ⟨fun b hreset => ⟨_, exec_tamperInputChange hreset i b, State.tamper_setTamper .., fun j hj =>
    State.tamper_setTamper_other s _ hj, State.setTamper_eq ..⟩, fun hset hrun hr hk hidle hnone htimer => ?_⟩
  have hz := State.tamperEvent_taken i hset hrun hr hk hidle hnone
  have hkicked := State.finish_kicked (s.tamperEvent i) (by rw [hz.wp, hrun]; decide)
  have hnote := State.finish_inTamperGroup (fun q => State.stampNote_inForce _ q) hz.note
  have himages := fun n hn => State.finish_inTamperGroup (fun q => State.stampNote_image _ q) (hz.images n hn)
  refine ⟨_, exec_tamperFilterExpiry htimer, ?_⟩
  generalize s.tamperEvent i = z at hz hkicked hnote himages
  generalize z.finish = t at hkicked hnote himages
  have htm : t.tm = (s.eventNoted i).tm := hkicked.tm.trans hz.tm
  have htamper : ∀ j, t.tamper j = (s.eventNoted i).tamper j := fun j => by
    cases j
    · exact congrArg Tm.cover htm
    · exact congrArg Tm.field htm
  have hlockdown : t.tm.lockdown = (a.locks || s.tm.lockdown) := by
    rw [htm]
    cases i <;> rfl
  refine ⟨(htamper i).trans (s.eventNoted_tamper i), fun j hj => (htamper j).trans ?_,
    fun n _ => (hkicked.slot n).trans (hz.slots n), hkicked.tu.trans hz.tu, hkicked.nu.trans hz.nu, hlockdown, ?_, ?_,
    himages, hz.takenUp hkicked⟩
  · exact State.tamper_setTamper_other s _ hj
  · rw [htm]
    cases i <;> rfl
  · rw [← hlockdown, hkicked.tm]
    exact hnote

end Sys2Proof.Machine
end

section
/-! Proofs, the journal, part 6: what the end of a reset leaves, and what RESETN holds (R132, R134). -/

namespace Sys2Proof.Machine

/-! ## The resets as commands (R132) -/

/-- Where RESETN does not hold the part, a power-on reset comes to its end. -/
theorem exec_powerOnReset {s : State} (h : s.wp.inReset = none) (b : Boot) :
    exec (.powerOnReset b) s = .next (s.leaveReset b .power) := by
  show execPowerOnReset b s = _
  unfold execPowerOnReset
  rw [h]
  rfl

/-- A reset that begins as a power-on reset stays one when RESETN is negated. -/
theorem exec_pinReset {s : State} {held : Option ResetCause} (h : s.wp.inReset = held) (b : Boot) :
    exec (.pinReset b) s = .next (s.leaveReset b (held.getD .pin)) := by
  subst h
  rfl

theorem exec_resetnAsserted {s : State} (h : s.wp.inReset = none) :
    exec .resetnAsserted s = .next (s.holdReset ⟨s.wp.strap, [], []⟩ .pin) := by
  show execResetnAsserted s = _
  unfold execResetnAsserted
  rw [h]
  rfl

/-! ## The end of a reset (R132) -/

/-- Start-up runs no part where it is interrupted before the one to come; the interruption is spent. -/
theorem State.runBoot_paused {s : State} {p : StartPoint} (k : Nat) (he : s.wp.engine = .starting)
    (hp : s.wp.startAt = some p) (hpauses : s.wp.pauses.head? = some ⟨p, 0⟩) :
    State.runBoot (k + 1) s = s.dropPause := by
  have hstop : s.pausesAt p = true := by
    unfold State.pausesAt
    rw [hpauses]
    exact beq_self_eq_true _
  rw [State.runBoot, if_pos he, hp]
  dsimp only
  rw [if_pos hstop]

/-- A reset that ends with the supply up, and start-up interrupted before step 1, leaves the values after reset. -/
theorem State.leaveReset_paused {s : State} (hwarn : s.wp.supplyWarn = false) (prov : Bool)
    (array : List (Bank × Nat × NvUnit)) (cause : ResetCause) :
    s.leaveReset ⟨prov, array, [⟨.step1, 0⟩]⟩ cause = s.afterReset ⟨prov, array, []⟩ cause := by
  let r := s.afterReset ⟨prov, array, [⟨.step1, 0⟩]⟩ cause
  have hup : ¬r.wp.supplyWarn = true := by
    show ¬s.wp.supplyWarn = true
    rw [hwarn]
    exact Bool.false_ne_true
  calc s.leaveReset ⟨prov, array, [⟨.step1, 0⟩]⟩ cause
      = r.goOn := if_neg hup
    _ = (State.runBoot 1100 r).finish := rfl
    _ = r.dropPause.finish := congrArg State.finish (State.runBoot_paused 1099 rfl rfl rfl)
    _ = r.dropPause := State.finish_starting rfl

/-- With the supply up and the array as it was left, the values after reset are those of `State.reset` but for the array,
the lines, the cause, the queue and the source of keys. -/
theorem State.afterReset_eq {s : State} (hwarn : s.wp.supplyWarn = false) (prov : Bool) (cause : ResetCause) :
    s.afterReset ⟨prov, [], []⟩ cause =
      { State.reset with
        wp := { Wp.reset with cause := cause, strap := prov }
        xu := { Xu.reset with draws := s.xu.draws, cuts := s.xu.cuts }
        ju := { Ju.reset with unitsA := s.ju.unitsA, unitsB := s.ju.unitsB }
        tm := { Tm.reset with
          cover := { TamperState.reset with
            level := s.tm.cover.level, timer := if s.tm.cover.level then some 0 else none }
          field := { TamperState.reset with
            level := s.tm.field.level, timer := if s.tm.field.level then some 0 else none } }
        pending := s.pending } := by
  unfold State.afterReset
  rw [hwarn]
  rfl

/-! ## The part held in reset (R132) -/

/-- The window reads zero while the part is held in reset. -/
theorem State.busRead_held {s : State} (h : s.wp.inReset.isSome = true) {a : Half} (ha : a.toNat < 0x8000) :
    s.busRead a = 0 := by
  have hw : wordAddr a < 0x8000 := (wordAddr_le a).trans_lt ha
  have hclosed : s.windowClosed = true := by
    unfold State.windowClosed
    rw [h, Bool.true_or]
  unfold State.busRead
  dsimp only
  rw [if_pos hw, if_pos hclosed]

/-- What a reset leaves does not depend on RESETN having held the part before. -/
theorem State.afterReset_holdReset (s : State) (strap : Bool) (c : ResetCause) (b : Boot) (cause : ResetCause) :
    (s.holdReset ⟨strap, [], []⟩ c).afterReset b cause = s.afterReset b cause := rfl

/-- No cause is in service while the part is held in reset. -/
theorem State.holdReset_note (s : State) (b : Boot) (c : ResetCause) : (s.holdReset b c).note = false := by
  show State.reset.note = false
  decide

/-- Settles O52: either reset ends in `State.afterReset`, and so does one that RESETN has held. -/
theorem resetsPutEverythingBack : Obligations.ResetsPutEverythingBack := by
  unfold Obligations.ResetsPutEverythingBack
  intro s prov hwarn hreset after
  have hends (cause : ResetCause) : s.leaveReset ⟨prov, [], [⟨.step1, 0⟩]⟩ cause = after cause :=
    (State.leaveReset_paused hwarn prov [] cause).trans (State.afterReset_eq hwarn prov cause)
  let t := s.holdReset ⟨s.wp.strap, [], []⟩ .pin
  have hheld : t.leaveReset ⟨prov, [], [⟨.step1, 0⟩]⟩ .pin = after .pin :=
    calc t.leaveReset ⟨prov, [], [⟨.step1, 0⟩]⟩ .pin
        = t.afterReset ⟨prov, [], []⟩ .pin := State.leaveReset_paused hwarn prov [] .pin
      _ = s.afterReset ⟨prov, [], []⟩ .pin := State.afterReset_holdReset ..
      _ = after .pin := State.afterReset_eq hwarn prov .pin
  exact ⟨(exec_powerOnReset hreset _).trans (congrArg _ (hends .power)),
    (exec_pinReset hreset _).trans (congrArg _ (hends .pin)),
    t, exec_resetnAsserted hreset, rfl, rfl, rfl, State.holdReset_note .., fun _ => State.busRead_held rfl, rfl, rfl, rfl,
    (exec_pinReset (s := t) (held := some .pin) rfl _).trans (congrArg _ hheld)⟩

end Sys2Proof.Machine
end

section
/-! Proofs, tamper response and lockdown: the common checks of every order (R146, R170, R171), and UNLOCK as it is taken
(R84, R149). -/

namespace Sys2Proof.Machine

/-! ## The common checks (R146, R170, R171) -/

/-- 0 and 16 to 255 are the codes of no kind (R186). -/
theorem Kind.ofCode_eq_none {b : Byte} (h : b = 0 ∨ 16 ≤ b.toNat) : Kind.ofCode b = none := by
  have hn : b.toNat = 0 ∨ 16 ≤ b.toNat := h.imp_left (congrArg BitVec.toNat)
  unfold Kind.ofCode
  split <;> simp only [reduceCtorEq] <;> omega

/-- An order of no kind fails the first common check (R170). -/
theorem State.commonCheck_badKind {T : State} {x : Ctx} (h : x.kindOf = none) : T.commonCheck x = some .badKind := by
  unfold State.commonCheck
  rw [h]

/-- In FAILED an order of a kind that is not taken there fails the second common check (R170, R171). -/
theorem State.commonCheck_storeFailed {T : State} {x : Ctx} {k : Kind} (he : T.wp.engine = .failed) (hk : x.kindOf = some k)
    (hf : k.takenInFailed = false) : T.commonCheck x = some .storeFailed := by
  unfold State.commonCheck
  rw [hk, he]
  dsimp only
  rw [hf]
  rfl

/-- An order that fails a common check is refused with the code of that check (R170). -/
theorem State.startOrder_refuses {T : State} {c : Nat} {x : Ctx} {code : Code} (hx : T.ctx c = some x)
    (hc : T.commonCheck x = some code) : T.startOrder c = T.complete c code Res.zero := by
  unfold State.startOrder
  rw [hx]
  dsimp only
  rw [hc]
  rfl

/-- The common checks of an order of a kind in RUNNING, after BAD_KIND and STORE_FAILED (R146, R170). -/
def State.runningChecks (s : State) (k : Kind) (o : OrderFields) : List (Bool × Code) :=
  [(!k.namesSlot || decide (o.slot.toNat < 64), .badSlot), (extentsGood k o, .badExtent),
    (!s.tm.lockdown || !k.refusedLocked, .locked)]

/-- The slot check passes for a kind that names no slot, and for a slot number below 64 (R170). -/
theorem Kind.slotCheck_holds {k : Kind} {n : Nat} (h : k.namesSlot = true → n < 64) :
    (!k.namesSlot || decide (n < 64)) = true := by
  cases hk : k.namesSlot with
  | false => rfl
  | true => exact decide_eq_true (h hk)

section
variable {s : State} {lane : Nat} {p : PlanLane} {k : Kind} {o : OrderFields} {code : Code}

/-- A cell posted at the cursor of a quiet lane whose order fails a common check completes at once (R170). -/
theorem State.QuietLane.failsCommon {b : Byte} (h : s.QuietLane lane p) (ht : s.taking = true)
    (hd : (s.slot o.slot.toNat).deferred = Deferred.none)
    (hc : ∀ T x, Taken s T lane p b o → x.kind = b → x.order = o → T.commonCheck x = some code) :
    s.EndsAtOnce (s.postedIn lane b o).serve.finish lane p b o code Res.zero := by
  have tk := State.taken_takenIn h b o
  refine State.posted_ends h ht rfl (State.startOrder_refuses tk.ctx (hc _ _ tk rfl rfl)) fun n hn => ?_
  rw [(heldSlot_names hn).1]
  exact hd

/-- An order posted in a quiet lane in RUNNING completes at once with the code of its first common check that fails (R146,
R170). -/
theorem State.Quiet.failsRunning (h : s.Quiet lane p) (hd : (s.slot o.slot.toNat).deferred = Deferred.none)
    (hf : firstFailure (s.runningChecks k o) = some code) :
    s.EndsAtOnce (s.post k lane o) lane p k.code o code Res.zero := by
  rw [State.post_posted h.toQuietLane h.taking]
  refine h.toQuietLane.failsCommon h.taking hd fun T x tk hk ho => ?_
  rw [State.commonCheck_eq (by rw [tk.wp]; exact h.running) hk ho, tk.tm]
  exact hf

/-- A cell of no kind, posted at the cursor of a quiet lane and nudged, completes BAD_KIND (R170). -/
theorem State.QuietLane.failsKind {b : Byte} (h : s.QuietLane lane p) (ht : s.taking = true)
    (hd : (s.slot o.slot.toNat).deferred = Deferred.none) (hb : Kind.ofCode b = none) :
    s.EndsAtOnce (s.postedIn lane b o).serve.finish lane p b o .badKind Res.zero :=
  h.failsCommon ht hd fun _ _ _ hk _ => State.commonCheck_badKind ((congrArg Kind.ofCode hk).trans hb)

/-- An order posted in a quiet lane in FAILED entered from RUNNING, of a kind that is not taken there, completes
STORE_FAILED (R170, R171). -/
theorem State.QuietLane.failsStore (h : s.QuietLane lane p) (he : s.wp.engine = .failed) (hs : s.wp.served = true)
    (hd : (s.slot o.slot.toNat).deferred = Deferred.none) (hf : k.takenInFailed = false) :
    s.EndsAtOnce (s.post k lane o) lane p k.code o .storeFailed Res.zero := by
  have ht : s.taking = true := by
    unfold State.taking
    rw [he, hs]
    rfl
  rw [State.post_posted h ht]
  exact h.failsCommon ht hd fun T x tk hk _ => State.commonCheck_storeFailed (by rw [tk.wp]; exact he)
    ((congrArg Kind.ofCode hk).trans (Kind.ofCode_code k)) hf

end

/-- Settles O14: each clause says which check of the list is the first to fail. -/
theorem commonChecksRefuseInOrder : Obligations.CommonChecksRefuseInOrder := by
  unfold Obligations.CommonChecksRefuseInOrder
  intro s lane p o hd
  refine ⟨fun k h => ⟨_, exec_command k lane o s, fun hn hbad => ?_, fun hslot hbad => ?_, fun hslot hgood hk hl => ?_⟩,
    fun b h hb => ?_, fun k h he hs hf => ⟨_, exec_command k lane o s, h.failsStore he hs hd hf⟩⟩
  · have hfirst : (!k.namesSlot || decide (o.slot.toNat < 64)) = false := by simp [hn, hbad]
    exact h.failsRunning hd (firstFailure_cons_eq_some.2 (.inl ⟨hfirst, rfl⟩))
  · exact h.failsRunning hd (firstFailure_cons_eq_some.2 (.inr ⟨Kind.slotCheck_holds hslot,
      firstFailure_cons_eq_some.2 (.inl ⟨hbad, rfl⟩)⟩))
  · have hlast : (!s.tm.lockdown || !k.refusedLocked) = false := by rw [hl, hk]; rfl
    exact h.failsRunning hd (firstFailure_cons_eq_some.2 (.inr ⟨Kind.slotCheck_holds hslot,
      firstFailure_cons_eq_some.2 (.inr ⟨hgood, firstFailure_cons_eq_some.2 (.inl ⟨hlast, rfl⟩)⟩)⟩))
  · exact ⟨_, congrArg Host.Outcome.next (State.nudge_posted h.toQuietLane b o),
      h.toQuietLane.failsKind h.taking hd (Kind.ofCode_eq_none hb)⟩

/-! ## UNLOCK as it is taken (R84, R149) -/

/-- What UNLOCK notes in its order copy under lockdown: the key of the unlock authority and the token (R149). -/
def Ctx.noteToken (key : Key) (token : BitVec 128) (x : Ctx) : Ctx := { x with wrapKey := key, token := token }

theorem Ctx.Copy.noteToken {x : Ctx} {s : State} {lane : Nat} {p : PlanLane} {k : Byte} {o : OrderFields}
    (h : x.Copy s lane p k o) (key : Key) (token : BitVec 128) : (x.noteToken key token).Copy s lane p k o :=
  h.congr ⟨rfl, rfl, rfl, rfl⟩ rfl ⟨rfl, rfl, rfl⟩ rfl rfl

/-- The token that an UNLOCK takes from its input extent (R149). -/
def State.readToken (s : State) (e : Extent) : BitVec 128 := BitVec.ofNat 128 (ofBytes (s.readExtent e))

theorem Taken.readToken {s T : State} {lane : Nat} {p : PlanLane} {k : Byte} {o : OrderFields}
    (tk : Taken s T lane p k o) (e : Extent) : T.readToken e = s.readToken e := by
  unfold State.readToken
  rw [tk.readExtent]

/-- An UNLOCK with lockdown clear completes OK (R149). -/
theorem startUnlock_clear {c : Nat} {x : Ctx} {T : State} (hlen : x.order.input.len.toNat = 16)
    (hl : T.tm.lockdown = false) : startUnlock c x T = T.complete c .ok Res.zero := by
  unfold startUnlock
  rw [if_neg (not_not_intro hlen), if_pos (by rw [hl]; rfl)]

/-- An UNLOCK under lockdown that passes its checks asks for a TOKEN_CHECK with the key of the unlock authority (R149). -/
theorem startUnlock_asks {c : Nat} {x : Ctx} {T : State} {r : SlotRec} {g : Gen} (hlen : x.order.input.len.toNat = 16)
    (hl : T.tm.lockdown = true) (ha : (T.od.plan.bind fun p => p.authority).map T.slot = some r)
    (hc : r.cls = some .transport) (hg : r.current = some g) (he : g.expired = false) :
    startUnlock c x T =
      (T.modCtx c (Ctx.noteToken g.key (T.readToken x.order.input))).placeRequest c .tokenCheck := by
  unfold startUnlock
  rw [if_neg (not_not_intro hlen), if_neg (by rw [hl]; decide), ha]
  dsimp only
  rw [hg]
  dsimp only
  rw [if_neg (by rw [hc, he]; decide)]
  rfl

/-- A TOKEN_CHECK placed while the Cipher Unit is idle begins service at once, and its order takes the challenge in force
(R80, R84). -/
theorem placeTokenCheck_onward {T u : State} {c : Nat} {x : Ctx} (g : Onward T u c x) (hl : x.late = false)
    (hi : u.cipherIdle) :
    let v := u.placeRequest c .tokenCheck
    Onward T v c { x with wait := .cipherQueue, challenge := u.tm.seq } ∧ u.SameTables v ∧ v.wp = u.wp ∧
      v.xu = { u.xu with service := some (serviceOf u c .tokenCheck x) } := by
  dsimp only
  have gm := g.mod fun x => { x with wait := .cipherQueue }
  rw [placeRequest_idle g.ctx hl hi, beginService_token gm.ctx]
  exact ⟨(gm.mod fun x => { x with challenge := u.tm.seq }).tables rfl rfl (sameArray_ju rfl) rfl rfl rfl,
    ⟨rfl, rfl, rfl⟩, rfl, rfl⟩

section
variable {s : State} {lane : Nat} {p : PlanLane} {o : OrderFields}

/-- An UNLOCK posted in a quiet lane with lockdown clear completes OK at once (R149). -/
theorem State.Quiet.unlocksClear (h : s.Quiet lane p) (hp : s.PassesCommon .unlock o) (hlen : o.input.len.toNat = 16)
    (hl : s.tm.lockdown = false) :
    s.EndsAtOnce (s.post .unlock lane o) lane p Kind.unlock.code o .ok Res.zero := by
  have tk := State.taken_takenIn h.toQuietLane Kind.unlock.code o
  exact State.post_ends h.toQuietLane h.taking rfl
    ((State.startOrder_taken h tk hp).trans (startUnlock_clear hlen (by rw [tk.tm]; exact hl))) fun _ hn => nomatch hn

/-- An UNLOCK posted in a quiet lane under lockdown, with a usable unlock authority, has its TOKEN_CHECK begin service in
an idle Cipher Unit (R84, R149). -/
theorem State.Quiet.unlocksAsking {r : SlotRec} {g : Gen} (h : s.Quiet lane p) (hp : s.PassesCommon .unlock o)
    (hi : s.cipherIdle) (hlen : o.input.len.toNat = 16) (hl : s.tm.lockdown = true)
    (ha : (s.od.plan.bind fun p => p.authority).map s.slot = some r) (hc : r.cls = some .transport)
    (hg : r.current = some g) (he : g.expired = false) :
    ∃ x v, s.InFlight (s.post .unlock lane o) lane p .unlock o x ∧ x.wait = .cipherQueue ∧ x.wrapKey = g.key ∧
      x.token = BitVec.ofNat 128 (ofBytes (s.readExtent o.input)) ∧ x.challenge = s.tm.seq ∧
      s.RequestBegun (s.post .unlock lane o) .tokenCheck v ∧ v.challenge = s.tm.seq ∧
      s.SameTables (s.post .unlock lane o) ∧ (s.post .unlock lane o).wp.ram = s.wp.ram := by
  have tk := State.taken_takenIn h.toQuietLane Kind.unlock.code o
  obtain ⟨T, hT⟩ : ∃ T, s.takenIn lane p Kind.unlock.code o = T := ⟨_, rfl⟩
  rw [hT] at tk
  have hstart : T.startOrder 0 =
      (T.modCtx 0 (Ctx.noteToken g.key (s.readToken o.input))).placeRequest 0 .tokenCheck := by
    have hauth : (T.od.plan.bind fun p => p.authority).map T.slot = some r := by
      rw [tk.plan, funext (State.slot_congr tk.kt)]
      exact ha
    refine (State.startOrder_taken h tk hp).trans
      ((startUnlock_asks hlen (by rw [tk.tm]; exact hl) hauth hc hg he).trans ?_)
    rw [tk.readToken]
    rfl
  have hx := (s.orderTaken_copy lane p .unlock o).noteToken g.key (s.readToken o.input)
  obtain ⟨-, -, hlate⟩ := hx.take
  obtain ⟨on, htab, hwp, hxu⟩ := placeTokenCheck_onward (tk.onward.mod _) hlate
    (by rw [State.cipherIdle, State.modCtx_xu, tk.xu]; exact hi)
  rw [← hstart] at on htab hwp hxu
  have f := State.post_onward h hT rfl on
    ⟨hx.copy, hx.held, hx.take, fun hw => (nomatch hw), hx.erase⟩
  obtain ⟨b, hfl⟩ := f.flight
  have hseq : T.tm.seq = s.tm.seq := by rw [tk.tm]
  exact ⟨_, _, hfl, rfl, rfl, rfl, hseq, ⟨f.xu.trans (hxu.trans (by rw [State.modCtx_xu, tk.xu])), rfl, rfl⟩, hseq,
    ⟨f.kt.trans (htab.slots.trans tk.kt), f.tu.trans (htab.time.trans tk.tu), f.nu.trans (htab.notices.trans tk.nu)⟩,
    f.ram.trans ((congrArg Wp.ram hwp).trans tk.ram)⟩

end

/-- Settles O13, by whether lockdown is in force. -/
theorem unlockChecksTheToken : Obligations.UnlockChecksTheToken := by
  unfold Obligations.UnlockChecksTheToken
  intro s lane p o plan n g h hp hi hlen hplan hn hc hg he
  have ha : (s.od.plan.bind fun p => p.authority).map s.slot = some (s.slot n) := by
    rw [hplan, Option.bind_some, hn, Option.map_some]
  exact ⟨_, exec_command .unlock lane o s, fun hl => h.unlocksClear hp hlen hl,
    fun hl => h.unlocksAsking hp hi hlen hl ha hc hg he⟩

end Sys2Proof.Machine
end

section
/-! Proofs, lanes and order cells, part 1: what every command keeps (R151, R154), and the port commands that are turned
away or clear the faults (R154 to R160). -/

namespace Sys2Proof.Machine

/-! ## Steps and commands -/

/-- Settles O27. -/
theorem stepKeepsTheRamCanonical : Obligations.StepKeepsTheRamCanonical := by
  unfold Obligations.StepKeepsTheRamCanonical
  intro s t hs h
  exact step_keeps_of (P := State.ramCanonical) (fun _ _ h => h) (fun _ _ k => k.ram) hs h

/-- Settles O26. -/
theorem everyCommandAnswersANextState : Obligations.EveryCommandAnswersANextState := by
  unfold Obligations.EveryCommandAnswersANextState
  intro c s
  obtain ⟨t, ht, hk⟩ := exec_answers c s
  exact ⟨t, ht, hk.pending⟩

/-! ## Port commands -/

theorem State.windowClosed_eq_false {s : State} :
    s.windowClosed = false ↔ s.wp.inReset = none ∧ s.wp.startAt ≠ some .step1 := by
  unfold State.windowClosed
  rw [Bool.or_eq_false_iff, beq_eq_false_iff_ne, Option.isSome_eq_false_iff, Option.isNone_iff_eq_none]

theorem State.afterStartUp.windowClosed {s : State} (h : s.afterStartUp) : s.windowClosed = false :=
  State.windowClosed_eq_false.mpr ⟨h.1, by rw [h.2]; nofun⟩

/-- While the window is open a port command is taken at once (R154). -/
theorem State.writeCommand_open {s : State} (h : s.windowClosed = false) (x : PortCommand) :
    s.writeCommand x = s.portCommand x := by
  obtain ⟨hreset, hstart⟩ := State.windowClosed_eq_false.mp h
  unfold State.writeCommand
  rw [hreset, if_neg (by exact Bool.false_ne_true), if_neg hstart]

section
variable {s : State}

theorem State.portStart_wrongState (h : s.wp.engine ≠ .stopped) : s.portStart = s.portResult .start .wrongState 0 := by
  unfold State.portStart
  split
  · exact absurd ‹_› h
  · exact absurd ‹_› h
  · rfl

theorem State.portStart_noPlan (h : s.wp.engine = .stopped) (hp : s.od.plan = none) :
    s.portStart = s.portResult .start .noPlan 0 := by
  unfold State.portStart
  rw [h, hp]

theorem State.portStart_plan {p : Plan} (h : s.wp.engine = .stopped) (hp : s.od.plan = some p) :
    s.portStart = ((s.portResult .start .ok 0).startLanes p).serve.finish := by
  unfold State.portStart
  rw [h, hp]

theorem State.portStop_stopped (h : s.wp.engine = .stopped) : s.portStop = s.portResult .stop .ok 0 := by
  unfold State.portStop
  rw [h]

theorem State.portStop_wrongState (h : s.wp.engine ≠ .stopped) (h' : s.wp.engine ≠ .running) :
    s.portStop = s.portResult .stop .wrongState 0 := by
  unfold State.portStop
  split
  · exact absurd ‹_› h
  · exact absurd ‹_› h'
  · rfl

theorem State.portApply_wrongState (h : s.wp.engine ≠ .stopped) :
    s.portApply = s.portResult .applyPlan .wrongState 0 := by
  unfold State.portApply
  split
  · exact absurd ‹_› h
  · rfl

theorem State.portApply_invalid {off : Nat} (h : s.wp.engine = .stopped) (hf : planFault s.wp.ram = some off) :
    s.portApply = s.portResult .applyPlan .planInvalid off := by
  unfold State.portApply
  rw [h, hf]

end

/-- Settles O32, by the engine state in which the command is taken. -/
theorem portCommandsTurnedAwayChangeOnlyTheResult : Obligations.PortCommandsTurnedAwayChangeOnlyTheResult := by
  unfold Obligations.PortCommandsTurnedAwayChangeOnlyTheResult
  intro s hopen result
  have taken : ∀ (x : PortCommand) (t : State), s.portCommand x = t →
      (Host.Outcome.next (s.writeCommand x) : Host.Outcome State Fault Refusal) = .next t :=
    fun x t h => congrArg _ ((State.writeCommand_open hopen x).trans h)
  exact ⟨fun he => taken .start _ (State.portStart_wrongState he),
    fun he hp => taken .start _ (State.portStart_noPlan he hp), fun he => taken .stop _ (State.portStop_stopped he),
    fun he he' => taken .stop _ (State.portStop_wrongState he he'),
    fun he => taken .applyPlan _ (State.portApply_wrongState he),
    fun off he hf => taken .applyPlan _ (State.portApply_invalid he hf)⟩

/-- Settles O35: CLEAR_FAULT asks for no engine state. -/
theorem clearFaultEmptiesTheRecord : Obligations.ClearFaultEmptiesTheRecord := by
  unfold Obligations.ClearFaultEmptiesTheRecord
  intro s hopen
  exact congrArg Host.Outcome.next (State.writeCommand_open hopen .clearFault)

end Sys2Proof.Machine
end

section
/-! Proofs, lanes and order cells, part 2: the scan-wanted flags that START, a nudge and the scan period set, and the
looks that follow (R157, R163, R164, 9.6). -/

namespace Sys2Proof.Machine

/-! ## A pass over the lanes, lane by lane -/

/-- A lane whose part of a pass leaves it as it is; there are four. -/
theorem State.lane_mapped_self (s : State) (g : Nat → LaneState → LaneState) {n : Nat}
    (h : g n (s.lane n) = s.lane n) : (s.withLanes (s.od.lanes.mapFinIdx fun i l _ => g i l)).lane n = s.lane n := by
  by_cases hn : n < 4
  · rw [State.lane_mapped s g hn, h]
  · rw [State.lane_ge _ (by omega), State.lane_ge _ (by omega)]

/-- A lane after a look at it (R163). -/
def State.laneLooked (s : State) (n : Nat) (l : LaneState) : LaneState :=
  if ((s.planLane n).isSome && l.scanWanted) && decide ((s.cell l.cursor).state ≠ 1) then { l with scanWanted := false }
  else l

/-- A lane after the flags that a mask names have been set (R164). -/
def State.laneWanted (s : State) (want : Nat → Bool) (n : Nat) (l : LaneState) : LaneState :=
  if want n && (s.planLane n).isSome then { l with scanWanted := true } else l

theorem State.looks_mapped (s : State) :
    s.looks = s.withLanes (s.od.lanes.mapFinIdx fun i l _ => s.laneLooked i l) := s.looks_eq

theorem State.wantScan_mapped (s : State) (want : Nat → Bool) :
    s.wantScan want = s.withLanes (s.od.lanes.mapFinIdx fun i l _ => s.laneWanted want i l) := s.wantScan_eq want

section
variable {s : State} {n : Nat}

theorem State.lane_looks_disabled (h : s.planLane n = none) : s.looks.lane n = s.lane n := by
  rw [State.looks_mapped]
  refine State.lane_mapped_self s s.laneLooked ?_
  unfold State.laneLooked
  rw [h]
  rfl

/-- A look leaves the scan-wanted flag of an enabled lane where its cursor cell is POSTED (R163). -/
theorem State.lane_looks {p : PlanLane} (h : s.planLane n = some p) : s.looks.lane n = { s.lane n with
    scanWanted := (s.lane n).scanWanted && decide ((s.cell (s.lane n).cursor).state = 1) } := by
  rw [State.looks_mapped, State.lane_mapped s s.laneLooked (State.planLane_lt h)]
  unfold State.laneLooked
  rw [h]
  obtain ⟨cursor, wanted, credits, done⟩ := s.lane n
  dsimp only
  rw [decide_not]
  cases wanted <;> cases decide ((s.cell cursor).state = 1) <;> rfl

theorem State.lane_wantScan_disabled (want : Nat → Bool) (h : s.planLane n = none) :
    (s.wantScan want).lane n = s.lane n := by
  rw [State.wantScan_mapped]
  refine State.lane_mapped_self s (s.laneWanted want) ?_
  unfold State.laneWanted
  rw [h, if_neg (by rw [Option.isSome_none, Bool.and_false]; exact Bool.false_ne_true)]

theorem State.lane_wantScan {p : PlanLane} (want : Nat → Bool) (h : s.planLane n = some p) :
    (s.wantScan want).lane n = { s.lane n with scanWanted := (s.lane n).scanWanted || want n } := by
  rw [State.wantScan_mapped, State.lane_mapped s (s.laneWanted want) (State.planLane_lt h)]
  unfold State.laneWanted
  rw [h]
  cases hw : want n <;> simp

end

/-! ## The looks alone -/

/-- In RUNNING, where the arbiter can take no order and no SYNC is ready, the looks are all that follows (R163,
R167). -/
theorem State.serve_looks {s : State} (hr : s.wp.engine = .running) (hs : s.readySync = none)
    (h : s.freeContext = none ∨ ∀ n, s.looks.readyLane n = false) : s.serve = s.looks := by
  have htaking : s.taking = true := by
    unfold State.taking
    rw [hr]
    rfl
  unfold State.serve
  rw [State.arbitrate_looks 128 s htaking h, State.looks_eq, State.pump_none _ _ (by exact hs),
    State.settle_idle (by show s.wp.engine ≠ _; rw [hr]; nofun)]

theorem State.freeContext_none {s : State} (h : ∀ c, c < 4 → s.ctx c ≠ none) : s.freeContext = none := by
  unfold State.freeContext
  rw [List.find?_eq_none]
  intro c hc
  rw [Option.isNone_iff_eq_none]
  exact h c (List.mem_range.mp hc)

theorem State.readySync_none {s : State} (h : ∀ c, s.ctx c = none) : s.readySync = none := by
  unfold State.readySync
  rw [List.find?_eq_none]
  intro c _
  rw [h c]
  exact Bool.false_ne_true

/-- No lane is ready after the looks where each enabled lane's cursor cell is not POSTED (R163). -/
theorem State.readyLane_looks {s : State}
    (h : ∀ n p, s.planLane n = some p → (s.cell (s.lane n).cursor).state ≠ 1) (n : Nat) :
    s.looks.readyLane n = false := by
  have hlook : s.looks.looked n = false := by
    unfold State.looked
    have hplan : s.looks.planLane n = s.planLane n := by rw [State.looks_eq]; rfl
    rw [hplan]
    cases hp : s.planLane n with
    | none => rfl
    | some p =>
      rw [State.lane_looks hp, decide_eq_false (h n p hp), Bool.and_false]
      rfl
  unfold State.readyLane
  rw [hlook, Bool.false_and]

/-- The Journal Unit takes up its work over a state in which the lanes alone have changed. -/
theorem Kicked.takenUp_withLanes {s t : State} {l : Vector LaneState 4} (k : Kicked (s.withLanes l) t) :
    (s.withLanes t.od.lanes).TakenUp t := by
  have hlanes : t.od.lanes = l := k.lanes
  rw [hlanes]
  exact k.takenUp

/-! ## A nudge and the scan period (R164) -/

section
variable {s : State} {want : Nat → Bool}

/-- With every context busy, lanes that are wanted in RUNNING are looked at, and nothing else is done (R163, R164). -/
theorem State.wantScan_serve (hr : s.wp.engine = .running) (hc : ∀ c, c < 4 → s.ctx c ≠ none)
    (hs : s.readySync = none) : (s.wantScan want).serve = (s.wantScan want).looks := by
  refine State.serve_looks ?_ ?_ (.inl (State.freeContext_none ?_)) <;> rw [State.wantScan_eq]
  · exact hr
  · exact hs
  · exact hc

theorem State.wantScan_looks_withLanes (s : State) (want : Nat → Bool) :
    ∃ l, (s.wantScan want).looks = s.withLanes l := by
  rw [State.looks_eq, State.wantScan_eq]
  exact ⟨_, rfl⟩

theorem State.lane_wantScan_looks {n : Nat} (h : s.planLane n ≠ none) :
    (s.wantScan want).looks.lane n = { s.lane n with
      scanWanted := ((s.lane n).scanWanted || want n) && decide ((s.cell (s.lane n).cursor).state = 1) } := by
  obtain ⟨p, hp⟩ := Option.ne_none_iff_exists'.mp h
  have hplan : (s.wantScan want).planLane n = some p := by rw [State.wantScan_eq]; exact hp
  have hcell : ∀ m, (s.wantScan want).cell m = s.cell m := fun m => by rw [State.wantScan_eq]; rfl
  rw [State.lane_looks hplan, State.lane_wantScan want hp, hcell]

theorem State.lane_wantScan_looks_disabled {n : Nat} (h : s.planLane n = none) :
    (s.wantScan want).looks.lane n = s.lane n := by
  have hplan : (s.wantScan want).planLane n = none := by rw [State.wantScan_eq]; exact h
  rw [State.lane_looks_disabled hplan, State.lane_wantScan_disabled want h]

/-- With every context busy, a nudge or the scan period sets the flags that it names, and the looks follow (R163,
R164). -/
theorem State.wantScan_follows (hr : s.wp.engine = .running) (hc : ∀ c, c < 4 → s.ctx c ≠ none)
    (hs : s.readySync = none) (want : Nat → Bool) :
    let t := (s.wantScan want).serve.finish
    (∀ n, s.planLane n ≠ none → t.lane n = { s.lane n with
      scanWanted := ((s.lane n).scanWanted || want n) && decide ((s.cell (s.lane n).cursor).state = 1) }) ∧
    (∀ n, s.planLane n = none → t.lane n = s.lane n) ∧
    (s.withLanes t.od.lanes).TakenUp t := by
  dsimp only
  rw [State.wantScan_serve hr hc hs]
  obtain ⟨l, hl⟩ := s.wantScan_looks_withLanes want
  have hk : Kicked (s.wantScan want).looks (s.wantScan want).looks.finish :=
    State.finish_kicked _ (by rw [hl]; show s.wp.engine ≠ _; rw [hr]; nofun)
  refine ⟨fun n hn => (hk.lane n).trans (State.lane_wantScan_looks hn),
    fun n hn => (hk.lane n).trans (State.lane_wantScan_looks_disabled hn), ?_⟩
  rw [hl] at hk ⊢
  exact hk.takenUp_withLanes

end

theorem exec_nudge {s : State} (h : s.wp.inReset = none) (v : Half) :
    exec (.nudge v) s = .next (s.wantScan fun n => v.getLsbD n).serve.finish := by
  show Host.Outcome.next (s.writeNudge v) = _
  unfold State.writeNudge
  rw [h, if_neg (by exact Bool.false_ne_true)]

/-- The scan timer restarted (R164). -/
def State.scanRestarted (s : State) : State := { s with od := { s.od with scanTimer := some s.clock } }

theorem exec_scanPeriodExpiry {s : State} (h : s.od.scanTimer ≠ none) :
    exec .scanPeriodExpiry s = .next (s.scanRestarted.wantScan fun _ => true).serve.finish := by
  obtain ⟨m, hm⟩ := Option.ne_none_iff_exists'.mp h
  show execScanPeriodExpiry s = _
  unfold execScanPeriodExpiry
  rw [hm]
  rfl

/-! ## Posting an order is a nudge of its lane (9.6) -/

/-- Masks that agree on the four lanes set the same flags. -/
theorem State.wantScan_congr (s : State) {want want' : Nat → Bool} (h : ∀ n, n < 4 → want n = want' n) :
    s.wantScan want = s.wantScan want' := by
  unfold State.wantScan
  exact List.foldl_ext _ _ _ fun t n hn => by rw [h n (List.mem_range.mp hn)]

/-- The nudge value of one lane names that lane alone (R164). -/
theorem nudge_names_lane {lane n : Nat} (h : n < 4) : (BitVec.ofNat 16 (2 ^ lane)).getLsbD n = (n == lane) := by
  rw [BitVec.getLsbD_ofNat, Nat.testBit_two_pow, decide_eq_true (show n < 16 by omega), Bool.true_and]
  exact decide_eq_decide.mpr eq_comm

theorem State.post_nudges {s : State} {lane n : Nat} {p : PlanLane} (h : s.afterStartUp)
    (hp : s.planLane lane = some p) (hn : s.postCell lane p = some n) (k : Kind) (o : OrderFields) :
    exec (k.command lane o) s = exec (.nudge (BitVec.ofNat 16 (2 ^ lane)))
      (s.setCell n { s.cell n with state := 1, kind := k.code, order := o }) := by
  rw [exec_command, exec_nudge (by exact h.1), State.wantScan_congr _ fun m hm => nudge_names_lane hm]
  unfold State.post
  rw [if_neg (by rw [h.windowClosed]; exact Bool.false_ne_true), hp]
  dsimp only
  rw [hn]

/-- Settles O36: after a nudge and after the scan period the looks are all that follows, and posting is a nudge. -/
theorem nudgeAndScanPeriodWantTheLanes : Obligations.NudgeAndScanPeriodWantTheLanes := by
  unfold Obligations.NudgeAndScanPeriodWantTheLanes
  refine ⟨fun s v ha hr hc hs => ⟨⟨_, exec_nudge ha.1 v, State.wantScan_follows hr hc hs _⟩, fun htimer => ?_⟩,
    fun s k lane n p o ha hp hn => State.post_nudges ha hp hn k o⟩
  obtain ⟨henabled, hdisabled, htaken⟩ :=
    State.wantScan_follows (s := s.scanRestarted) hr (by exact hc) (by exact hs) fun _ => true
  refine ⟨_, exec_scanPeriodExpiry htimer, fun n hn => (henabled n hn).trans ?_, hdisabled, htaken⟩
  rw [Bool.or_true, Bool.true_and]
  rfl

/-! ## START (R157) -/

/-- A lane as START sets it (R157). -/
def State.laneStarted (s : State) (n : Nat) (l : LaneState) : LaneState :=
  match s.planLane n with
  | none => l
  | some p => { l with cursor := p.first, scanWanted := true, credits := p.weight }

/-- RUNNING has been entered under a plan, and no lane has been set yet (R157, R159). -/
def State.started (s : State) (p : Plan) : State :=
  { s with
    wp := { s.wp with
      engine := .running, lastCmd := some .start, lastOutcome := .ok, lastOffset := 0, cmdCount := s.wp.cmdCount + 1 }
    od := { s.od with scanTimer := if p.scanPeriod = 0 then none else some s.clock }
    nu := (s.raise bitEngine).nu }

/-- RUNNING has been entered under a plan, with the lanes set (R157). -/
def State.lanesStarted (s : State) (p : Plan) : State :=
  (s.started p).withLanes (s.od.lanes.mapFinIdx fun i l _ => s.laneStarted i l)

theorem State.startLanes_eq (s : State) (p : Plan) : (s.portResult .start .ok 0).startLanes p = s.lanesStarted p := by
  unfold State.startLanes
  rw [State.foldl_lanes (s.portResult .start .ok 0) _ s.laneStarted]
  · rfl
  · intro l n _
    have hplan : ((s.portResult .start .ok 0).withLanes l).planLane n = s.planLane n := rfl
    unfold State.laneStarted
    dsimp only
    rw [hplan]
    cases s.planLane n with
    | none => exact (State.withLanes_set_self _ _ _ _ fun _ => rfl).symm
    | some _ => rfl

section
variable {s : State} {p : Plan} {n : Nat}

theorem State.lane_lanesStarted {l : PlanLane} (h : s.planLane n = some l) : (s.lanesStarted p).lane n =
    { cursor := l.first, scanWanted := true, credits := l.weight, done := (s.lane n).done } := by
  refine (State.lane_mapped (s.started p) s.laneStarted (State.planLane_lt h)).trans ?_
  unfold State.laneStarted
  rw [h]
  rfl

theorem State.lane_lanesStarted_disabled (h : s.planLane n = none) : (s.lanesStarted p).lane n = s.lane n :=
  State.lane_mapped_self (s.started p) s.laneStarted (by unfold State.laneStarted; rw [h])

/-- With no cell POSTED at the first cell of a lane, START is followed by the looks alone (R157, R163). -/
theorem State.lanesStarted_serve (hc : ∀ c, s.ctx c = none)
    (h : ∀ n l, s.planLane n = some l → (s.cell l.first).state ≠ 1) :
    (s.lanesStarted p).serve = (s.lanesStarted p).looks :=
  State.serve_looks rfl (State.readySync_none hc) <| .inr <| State.readyLane_looks fun n l hl => by
    rw [State.lane_lanesStarted (s := s) hl]
    exact h n l hl

end

/-- Settles O31. -/
theorem startEntersRunning : Obligations.StartEntersRunning := by
  unfold Obligations.StartEntersRunning
  intro s p ha he hp hc hfirst
  have hstart : exec .start s = .next (s.lanesStarted p).looks.finish := by
    refine congrArg Host.Outcome.next ((State.writeCommand_open ha.windowClosed .start).trans ?_)
    rw [← State.lanesStarted_serve hc hfirst, ← State.startLanes_eq]
    exact State.portStart_plan he hp
  have hk : Kicked (s.lanesStarted p).looks (s.lanesStarted p).looks.finish :=
    State.finish_kicked _ (by rw [State.looks_eq]; nofun)
  refine ⟨_, hstart, fun n l hl => (hk.lane n).trans ?_, fun n hn => (hk.lane n).trans ?_, ?_⟩
  · rw [State.lane_looks (s := s.lanesStarted p) hl, State.lane_lanesStarted hl]
    have hcell : decide (((s.lanesStarted p).cell l.first).state = 1) = false := decide_eq_false (hfirst n l hl)
    dsimp only
    rw [hcell, Bool.and_false]
  · rw [State.lane_looks_disabled (s := s.lanesStarted p) hn, State.lane_lanesStarted_disabled hn]
  · generalize (s.lanesStarted p).looks.finish = t at hk
    rw [State.looks_eq] at hk
    exact hk.takenUp_withLanes (s := s.started p)

end Sys2Proof.Machine
end

section
/-! Proofs, lanes and order cells, part 3: an order cell as its 64 bytes (12.3), and what a bus write leaves on the port
bus (R151, R153). -/

namespace Sys2Proof.Machine

/-! ## The 64 bytes of a cell spell the cell (12.3) -/

/-- The fields of an order cell: offset, size and value (12.3). -/
def cellFields (c : OrderCell) : List (Nat × Nat × Nat) :=
  [(0x00, 2, c.state.toNat), (0x02, 1, c.kind.toNat), (0x03, 1, c.order.flags.toNat),
    (0x04, 4, c.order.tag.toNat), (0x08, 1, c.order.slot.toNat), (0x09, 1, c.order.cls.toNat),
    (0x0A, 2, c.order.gen.toNat), (0x0C, 4, c.order.counter.toNat), (0x10, 4, Extent.toNat c.order.assoc),
    (0x14, 4, Extent.toNat c.order.input), (0x18, 4, Extent.toNat c.order.output),
    (0x1C, 22, c.order.args.toNat), (0x32, 1, c.result.code.toNat), (0x33, 1, c.result.flags.toNat),
    (0x34, 2, c.result.outLen.toNat), (0x36, 2, c.result.genUsed.toNat), (0x38, 4, c.result.ctrUsed.toNat),
    (0x3C, 4, c.result.time.toNat)]

theorem OrderCell.toNat_eq (c : OrderCell) : c.toNat = packFields (cellFields c) := rfl

theorem cellFields_rise (c : OrderCell) : fieldsRise 64 0 (cellFields c) = true := rfl

/-- A field of bits reads back from the bytes of a cell. -/
theorem ofNat_fieldAt_cell {c : OrderCell} {off size w : Nat} {x : BitVec w} (hw : w = 8 * size)
    (hm : (off, size, x.toNat) ∈ cellFields c) : BitVec.ofNat w (fieldAt c.toNat off size) = x :=
  ofNat_fieldAt (cellFields_rise c) hw hm

/-- An extent is the two halves of its field. -/
theorem Extent.ofNat_mod_toNat (e : Extent) : Extent.ofNat (e.toNat % 2 ^ (8 * 4)) = e := by
  have hrise : fieldsRise 4 0 [(0, 2, e.unit.toNat), (2, 2, e.len.toNat)] = true := rfl
  have hunit : BitVec.ofNat 16 (fieldAt e.toNat 0 2) = e.unit := ofNat_fieldAt hrise rfl (by simp)
  have hlen : BitVec.ofNat 16 (fieldAt e.toNat 2 2) = e.len := ofNat_fieldAt hrise rfl (by simp)
  have hfield : e.toNat % 2 ^ (8 * 4) = fieldAt e.toNat 0 4 := rfl
  unfold Extent.ofNat
  rw [hfield, fieldAt_fieldAt _ (by decide), fieldAt_fieldAt _ (by decide), Nat.zero_add, hunit, Nat.zero_add, hlen]

/-- An extent reads back from the bytes of a cell. -/
theorem extent_fieldAt_cell {c : OrderCell} {off : Nat} {e : Extent} (hm : (off, 4, e.toNat) ∈ cellFields c) :
    Extent.ofNat (fieldAt c.toNat off 4) = e := by
  rw [OrderCell.toNat_eq, fieldAt_packFields (cellFields_rise c) hm, e.ofNat_mod_toNat]

/-- Settles O59, field by field. -/
theorem orderCellReadsBackFromItsBytes : Obligations.OrderCellReadsBackFromItsBytes := by
  unfold Obligations.OrderCellReadsBackFromItsBytes
  intro c
  have state : BitVec.ofNat 16 (fieldAt c.toNat 0x00 2) = c.state := ofNat_fieldAt_cell rfl (by simp [cellFields])
  have kind : BitVec.ofNat 8 (fieldAt c.toNat 0x02 1) = c.kind := ofNat_fieldAt_cell rfl (by simp [cellFields])
  have flags : BitVec.ofNat 8 (fieldAt c.toNat 0x03 1) = c.order.flags := ofNat_fieldAt_cell rfl (by simp [cellFields])
  have tag : BitVec.ofNat 32 (fieldAt c.toNat 0x04 4) = c.order.tag := ofNat_fieldAt_cell rfl (by simp [cellFields])
  have slot : BitVec.ofNat 8 (fieldAt c.toNat 0x08 1) = c.order.slot := ofNat_fieldAt_cell rfl (by simp [cellFields])
  have cls : BitVec.ofNat 8 (fieldAt c.toNat 0x09 1) = c.order.cls := ofNat_fieldAt_cell rfl (by simp [cellFields])
  have gen : BitVec.ofNat 16 (fieldAt c.toNat 0x0A 2) = c.order.gen := ofNat_fieldAt_cell rfl (by simp [cellFields])
  have counter : BitVec.ofNat 32 (fieldAt c.toNat 0x0C 4) = c.order.counter :=
    ofNat_fieldAt_cell rfl (by simp [cellFields])
  have assoc : Extent.ofNat (fieldAt c.toNat 0x10 4) = c.order.assoc := extent_fieldAt_cell (by simp [cellFields])
  have input : Extent.ofNat (fieldAt c.toNat 0x14 4) = c.order.input := extent_fieldAt_cell (by simp [cellFields])
  have output : Extent.ofNat (fieldAt c.toNat 0x18 4) = c.order.output := extent_fieldAt_cell (by simp [cellFields])
  have args : BitVec.ofNat 176 (fieldAt c.toNat 0x1C 22) = c.order.args := ofNat_fieldAt_cell rfl (by simp [cellFields])
  have code : BitVec.ofNat 8 (fieldAt c.toNat 0x32 1) = c.result.code := ofNat_fieldAt_cell rfl (by simp [cellFields])
  have resFlags : BitVec.ofNat 8 (fieldAt c.toNat 0x33 1) = c.result.flags :=
    ofNat_fieldAt_cell rfl (by simp [cellFields])
  have outLen : BitVec.ofNat 16 (fieldAt c.toNat 0x34 2) = c.result.outLen :=
    ofNat_fieldAt_cell rfl (by simp [cellFields])
  have genUsed : BitVec.ofNat 16 (fieldAt c.toNat 0x36 2) = c.result.genUsed :=
    ofNat_fieldAt_cell rfl (by simp [cellFields])
  have ctrUsed : BitVec.ofNat 32 (fieldAt c.toNat 0x38 4) = c.result.ctrUsed :=
    ofNat_fieldAt_cell rfl (by simp [cellFields])
  have time : BitVec.ofNat 32 (fieldAt c.toNat 0x3C 4) = c.result.time := ofNat_fieldAt_cell rfl (by simp [cellFields])
  unfold OrderCell.ofNat
  rw [state, kind, flags, tag, slot, cls, gen, counter, assoc, input, output, args, code, resFlags, outLen, genUsed,
    ctrUsed, time]

/-! ## The cell that 64 bytes spell has those bytes -/

/-- The fields lie one after the other from `b` to `n`, and each has the value that stands in its place in `x`. -/
def fieldsTile (x n : Nat) : Nat → List (Nat × Nat × Nat) → Prop
  | b, [] => b = n
  | b, (off, size, v) :: rest => off = b ∧ v % 2 ^ (8 * size) = fieldAt x off size ∧ fieldsTile x n (off + size) rest

/-- Two fields that lie one after the other are one. -/
theorem fieldAt_append (x b m k : Nat) : fieldAt x b m + 2 ^ (8 * m) * fieldAt x (b + m) k = fieldAt x b (m + k) := by
  unfold fieldAt
  rw [Nat.mul_add 8 b m, Nat.shiftRight_add, Nat.shiftRight_eq_div_pow _ (8 * m), Nat.mul_add 8 m k, Nat.pow_add,
    Nat.mod_mul]

/-- Fields that tile a layout pack to it. -/
theorem packFields_tile {x n b : Nat} {fs : List (Nat × Nat × Nat)} (h : fieldsTile x n b fs) :
    b ≤ n ∧ packFields fs = 2 ^ (8 * b) * fieldAt x b (n - b) := by
  induction fs generalizing b with
  | nil =>
    cases h
    refine ⟨Nat.le_refl _, ?_⟩
    rw [Nat.sub_self, fieldAt, Nat.mul_zero, Nat.pow_zero, Nat.mod_one]
    rfl
  | cons f rest ih =>
    obtain ⟨off, size, v⟩ := f
    obtain ⟨rfl, hv, hrest⟩ := h
    obtain ⟨hle, hpack⟩ := ih hrest
    have hsplit := fieldAt_append x off size (n - (off + size))
    rw [show size + (n - (off + size)) = n - off by omega] at hsplit
    refine ⟨by omega, ?_⟩
    rw [packFields, hv, hpack, ← hsplit, Nat.shiftLeft_eq, Nat.mul_add 8 off size, Nat.pow_add, Nat.mul_assoc,
      Nat.mul_comm (fieldAt x off size), ← Nat.mul_add]

theorem fieldAt_lt (x off size : Nat) : fieldAt x off size < 2 ^ (8 * size) := Nat.mod_lt _ (Nat.two_pow_pos _)

/-- Bits taken from a field of their width are the field. -/
theorem toNat_bits_fieldAt (x off : Nat) {size w : Nat} (h : w = 8 * size) :
    (BitVec.ofNat w (fieldAt x off size)).toNat % 2 ^ (8 * size) = fieldAt x off size := by
  have hlt := fieldAt_lt x off size
  rw [BitVec.toNat_ofNat, h, Nat.mod_mod, Nat.mod_eq_of_lt hlt]

theorem Extent.toNat_ofNat_fieldAt (x off : Nat) :
    (Extent.ofNat (fieldAt x off 4)).toNat % 2 ^ (8 * 4) = fieldAt x off 4 := by
  have htile : fieldsTile (fieldAt x off 4) 4 0
      [(0, 2, (Extent.ofNat (fieldAt x off 4)).unit.toNat), (2, 2, (Extent.ofNat (fieldAt x off 4)).len.toNat)] :=
    ⟨rfl, toNat_bits_fieldAt _ _ rfl, rfl, toNat_bits_fieldAt _ _ rfl, rfl⟩
  obtain ⟨-, hpack⟩ := packFields_tile htile
  have heq : (Extent.ofNat (fieldAt x off 4)).toNat = fieldAt x off 4 := by
    refine hpack.trans ?_
    rw [Nat.mul_zero, Nat.pow_zero, Nat.one_mul, fieldAt_fieldAt _ (by decide), Nat.add_zero]
  rw [heq, Nat.mod_eq_of_lt (fieldAt_lt ..)]

/-- The cell that 64 bytes spell has those 64 bytes (12.3). -/
theorem OrderCell.toNat_ofNat (x : Nat) : (OrderCell.ofNat x).toNat = fieldAt x 0 64 := by
  have htile : fieldsTile x 64 0 (cellFields (OrderCell.ofNat x)) :=
    ⟨rfl, toNat_bits_fieldAt _ _ rfl, rfl, toNat_bits_fieldAt _ _ rfl, rfl, toNat_bits_fieldAt _ _ rfl,
      rfl, toNat_bits_fieldAt _ _ rfl, rfl, toNat_bits_fieldAt _ _ rfl, rfl, toNat_bits_fieldAt _ _ rfl,
      rfl, toNat_bits_fieldAt _ _ rfl, rfl, toNat_bits_fieldAt _ _ rfl, rfl, Extent.toNat_ofNat_fieldAt ..,
      rfl, Extent.toNat_ofNat_fieldAt .., rfl, Extent.toNat_ofNat_fieldAt .., rfl, toNat_bits_fieldAt _ _ rfl,
      rfl, toNat_bits_fieldAt _ _ rfl, rfl, toNat_bits_fieldAt _ _ rfl, rfl, toNat_bits_fieldAt _ _ rfl,
      rfl, toNat_bits_fieldAt _ _ rfl, rfl, toNat_bits_fieldAt _ _ rfl, rfl, toNat_bits_fieldAt _ _ rfl, rfl⟩
  obtain ⟨-, hpack⟩ := packFields_tile htile
  rw [OrderCell.toNat_eq, hpack, Nat.mul_zero, Nat.pow_zero, Nat.one_mul]

/-! ## One word of a cell replaced (R151) -/

/-- The word put in its place reads back. -/
theorem fieldAt_replaceHalf (x off : Nat) (v : Half) : fieldAt (replaceHalf x off v) off 2 = v.toNat := by
  have hlow : x % 2 ^ (8 * off) < 2 ^ (8 * off) := Nat.mod_lt _ (Nat.two_pow_pos _)
  unfold fieldAt replaceHalf
  rw [Nat.shiftRight_eq_div_pow, Nat.shiftLeft_eq, Nat.shiftLeft_eq, Nat.mul_add 8 off 2, Nat.pow_add,
    ← Nat.mul_assoc, Nat.mul_right_comm, ← Nat.add_mul, Nat.mul_comm (_ + v.toNat), Nat.mul_add_div (Nat.two_pow_pos _),
    Nat.div_eq_of_lt hlow, Nat.add_zero, Nat.mul_add_mod_self_right, Nat.mod_eq_of_lt v.isLt]

/-- A field below the word that is replaced reads as before. -/
theorem fieldAt_replaceHalf_below (x : Nat) {off d n : Nat} (v : Half) (h : d + n ≤ off) :
    fieldAt (replaceHalf x off v) d n = fieldAt x d n := by
  have hlow : fieldAt (replaceHalf x off v) 0 off = fieldAt x 0 off := by
    unfold fieldAt replaceHalf
    rw [Nat.mul_zero, Nat.shiftRight_zero, Nat.shiftRight_zero, Nat.shiftLeft_eq, Nat.shiftLeft_eq,
      Nat.mul_add 8 off 2, Nat.pow_add, ← Nat.mul_assoc, Nat.mul_right_comm, ← Nat.add_mul,
      Nat.mul_add_mod_self_right, Nat.mod_mod]
  have hsub : ∀ y, fieldAt y d n = fieldAt (fieldAt y 0 off) d n := fun y => by
    rw [fieldAt_fieldAt _ h, Nat.zero_add]
  rw [hsub, hlow, ← hsub]

/-- A field above the word that is replaced reads as before. -/
theorem fieldAt_replaceHalf_above (x : Nat) {off d : Nat} (n : Nat) (v : Half) (h : off + 2 ≤ d) :
    fieldAt (replaceHalf x off v) d n = fieldAt x d n := by
  have hhigh : replaceHalf x off v >>> (8 * (off + 2)) = x >>> (8 * (off + 2)) := by
    have hlow : x % 2 ^ (8 * off) < 2 ^ (8 * off) := Nat.mod_lt _ (Nat.two_pow_pos _)
    have hword : v.toNat <<< (8 * off) + x % 2 ^ (8 * off) < 2 ^ (8 * (off + 2)) := by
      rw [Nat.shiftLeft_eq, Nat.mul_add 8 off 2, Nat.pow_add, Nat.mul_comm (2 ^ (8 * off))]
      calc v.toNat * 2 ^ (8 * off) + x % 2 ^ (8 * off) < (v.toNat + 1) * 2 ^ (8 * off) := by
            rw [Nat.add_mul, Nat.one_mul]; omega
        _ ≤ 2 ^ (8 * 2) * 2 ^ (8 * off) := Nat.mul_le_mul_right _ v.isLt
    unfold replaceHalf
    rw [Nat.add_assoc, Nat.shiftLeft_eq _ (8 * (off + 2)), Nat.shiftRight_eq_div_pow, Nat.mul_comm,
      Nat.mul_add_div (Nat.two_pow_pos _), Nat.div_eq_of_lt hword, Nat.add_zero]
  obtain ⟨k, rfl⟩ := Nat.exists_eq_add_of_le h
  unfold fieldAt
  rw [Nat.mul_add 8 (off + 2) k, Nat.shiftRight_add, hhigh, ← Nat.shiftRight_add]

section
variable (c : OrderCell) {off : Nat} (v : Half)

/-- The bytes of a cell after a write of one of its words. -/
theorem OrderCell.fieldAt_writeHalf {d : Nat} (h : d + 2 ≤ 64) :
    fieldAt (c.writeHalf off v).toNat d 2 = fieldAt (replaceHalf c.toNat off v) d 2 := by
  unfold OrderCell.writeHalf
  rw [OrderCell.toNat_ofNat, fieldAt_fieldAt _ h, Nat.zero_add]

theorem OrderCell.fieldAt_writeHalf_same (h : off + 2 ≤ 64) : fieldAt (c.writeHalf off v).toNat off 2 = v.toNat := by
  rw [c.fieldAt_writeHalf v h, fieldAt_replaceHalf]

theorem OrderCell.fieldAt_writeHalf_other {d : Nat} (h : d + 2 ≤ 64) (hd : d + 2 ≤ off ∨ off + 2 ≤ d) :
    fieldAt (c.writeHalf off v).toNat d 2 = fieldAt c.toNat d 2 := by
  rw [c.fieldAt_writeHalf v h]
  rcases hd with hd | hd
  · exact fieldAt_replaceHalf_below _ v hd
  · exact fieldAt_replaceHalf_above _ 2 v hd

end

/-! ## One word of the RAM written (R151) -/

/-- The RAM with a word written, low byte first. -/
def Ram.writeHalf (m : List Host.Cell) (a : Nat) (v : Half) : List Host.Cell :=
  Ram.writeBytes m a [v.extractLsb' 0 8, v.extractLsb' 8 8]

theorem ofBytes_half (v : Half) : ofBytes [v.extractLsb' 0 8, v.extractLsb' 8 8] = v.toNat := by
  have hlt := v.isLt
  simp only [ofBytes, BitVec.extractLsb'_toNat, Nat.shiftRight_eq_div_pow]
  omega

theorem Ram.readNat_writeHalf {m : List Host.Cell} (h : Ram.wf m = true) (a : Nat) (v : Half) :
    Ram.readNat (Ram.writeHalf m a v) a 2 = v.toNat :=
  (congrArg ofBytes (Ram.readBytes_writeBytes _ m a h)).trans (ofBytes_half v)

theorem Ram.readNat_writeHalf_other {m : List Host.Cell} (h : Ram.wf m = true) {a b : Nat} (v : Half)
    (hb : b + 2 ≤ a ∨ a + 2 ≤ b) : Ram.readNat (Ram.writeHalf m a v) b 2 = Ram.readNat m b 2 := by
  have hbyte : ∀ d, d < a ∨ a + 2 ≤ d → Ram.read (Ram.writeHalf m a v) d = Ram.read m d :=
    fun d hd => Ram.read_writeBytes_outside _ m a d h hd
  unfold Ram.readNat Ram.readBytes Ram.readBytes Ram.readBytes
  rw [hbyte b (by omega), hbyte (b + 1) (by omega)]

/-! ## The port bus (R151, R153) -/

theorem inRange_iff {lo hi w : Nat} : (decide (lo ≤ w) && decide (w < hi)) = true ↔ lo ≤ w ∧ w < hi := by
  rw [Bool.and_eq_true, decide_eq_true_iff, decide_eq_true_iff]

/-- The plan block and the data area, which the RAM holds (R151). -/
theorem inRam_iff {w : Nat} : (decide (w < 0x0200) || (decide (0x2400 ≤ w) && decide (w < 0x8000))) = true ↔
    w < 0x0200 ∨ (0x2400 ≤ w ∧ w < 0x8000) := by
  rw [Bool.or_eq_true, inRange_iff, decide_eq_true_iff]

theorem wordAddr_even (a : Half) : wordAddr a % 2 = 0 := Nat.mul_mod_left ..

/-- The RAM and the cells replaced. -/
def State.withWindow (s : State) (m : List Host.Cell) (cells : Vector OrderCell 128) : State :=
  { s with wp := { s.wp with ram := m, cells := cells } }

section
variable {s : State} {a : Half}

theorem State.busRead_cell (h : s.windowClosed = false) (h1 : 0x0400 ≤ wordAddr a) (h2 : wordAddr a < 0x2400) :
    s.busRead a = BitVec.ofNat 16
      (fieldAt (s.cell ((wordAddr a - 0x0400) / 64)).toNat ((wordAddr a - 0x0400) % 64) 2) := by
  unfold State.busRead
  dsimp only
  rw [if_pos (by omega), if_neg (by rw [h]; exact Bool.false_ne_true),
    if_neg (by rw [inRange_iff]; omega), if_pos (inRange_iff.mpr ⟨h1, h2⟩)]

theorem State.busRead_ram (h : s.windowClosed = false)
    (hw : wordAddr a < 0x0200 ∨ (0x2400 ≤ wordAddr a ∧ wordAddr a < 0x8000)) :
    s.busRead a = BitVec.ofNat 16 (Ram.readNat s.wp.ram (wordAddr a) 2) := by
  unfold State.busRead
  dsimp only
  rw [if_pos (by omega), if_neg (by rw [h]; exact Bool.false_ne_true),
    if_neg (by rw [inRange_iff]; omega), if_neg (by rw [inRange_iff]; omega)]

theorem State.busRead_summary (h1 : 0x0200 ≤ wordAddr a) (h2 : wordAddr a < 0x0400) : s.busRead a =
    if s.windowClosed then 0 else BitVec.ofNat 16 (fieldAt s.summaryNat (wordAddr a - 0x0200) 2) := by
  unfold State.busRead
  dsimp only
  rw [if_pos (show wordAddr a < 0x8000 by omega), if_pos (inRange_iff.mpr ⟨h1, h2⟩)]

/-- The summary block and the registers show nothing of the RAM and the cells (R153, 12.2). -/
theorem State.busRead_withWindow {m : List Host.Cell} {cells : Vector OrderCell 128}
    (hw : (0x0200 ≤ wordAddr a ∧ wordAddr a < 0x0400) ∨ 0x8000 ≤ wordAddr a) :
    (s.withWindow m cells).busRead a = s.busRead a := by
  rcases hw with ⟨h1, h2⟩ | h
  · rw [State.busRead_summary h1 h2, State.busRead_summary h1 h2]
    rfl
  · have hregister : ¬wordAddr a < 0x8000 := by omega
    unfold State.busRead
    dsimp only
    rw [if_neg hregister, if_neg hregister]
    rfl

/-- Where a word may lie: in the summary block or the registers, in the cells, or in the RAM (R151). -/
theorem wordAddr_regions (a : Half) :
    ((0x0200 ≤ wordAddr a ∧ wordAddr a < 0x0400) ∨ 0x8000 ≤ wordAddr a) ∨
      (0x0400 ≤ wordAddr a ∧ wordAddr a < 0x2400) ∨
      (wordAddr a < 0x0200 ∨ (0x2400 ≤ wordAddr a ∧ wordAddr a < 0x8000)) := by omega

end

/-! ## A bus write that is no command (R151, R153) -/

/-- `t` is `s` with a word stored, as the port bus shows it: the word is read back, and every other word reads as before
(R151). -/
structure State.WordStored (s t : State) (a v : Half) : Prop where
  reads : t.busRead a = v
  others : ∀ b : Half, wordAddr b ≠ wordAddr a → t.busRead b = s.busRead b

section
variable {s : State} {a : Half} (v : Half)

theorem exec_registerWrite (s : State) (a v : Half) : exec (.registerWriteIgnored a v) s = .next (s.busWrite a v) := rfl

theorem State.busWrite_ram (h : s.windowClosed = false)
    (hw : wordAddr a < 0x0200 ∨ (0x2400 ≤ wordAddr a ∧ wordAddr a < 0x8000)) :
    s.busWrite a v = s.withWindow (Ram.writeHalf s.wp.ram (wordAddr a) v) s.wp.cells := by
  unfold State.busWrite State.writeWindow
  dsimp only
  rw [if_pos (by omega), if_neg (by rw [h]; exact Bool.false_ne_true),
    if_pos (inRam_iff.mpr hw)]
  rfl

theorem State.busWrite_cell (h : s.windowClosed = false) (h1 : 0x0400 ≤ wordAddr a) (h2 : wordAddr a < 0x2400) :
    s.busWrite a v = s.setCell ((wordAddr a - 0x0400) / 64)
      ((s.cell ((wordAddr a - 0x0400) / 64)).writeHalf ((wordAddr a - 0x0400) % 64) v) := by
  unfold State.busWrite State.writeWindow
  dsimp only
  rw [if_pos (by omega), if_neg (by rw [h]; exact Bool.false_ne_true),
    if_neg (by rw [inRam_iff]; omega), if_pos (inRange_iff.mpr ⟨h1, h2⟩)]

theorem State.busWrite_summary (h1 : 0x0200 ≤ wordAddr a) (h2 : wordAddr a < 0x0400) : s.busWrite a v = s := by
  unfold State.busWrite State.writeWindow
  dsimp only
  have hram :
      ¬(decide (wordAddr a < 0x0200) || (decide (0x2400 ≤ wordAddr a) && decide (wordAddr a < 0x8000))) = true := by
    rw [inRam_iff]
    omega
  have hcells : ¬(decide (0x0400 ≤ wordAddr a) && decide (wordAddr a < 0x2400)) = true := by
    rw [inRange_iff]
    omega
  rw [if_pos (by omega), if_neg hram, if_neg hcells, ite_self]

/-- A register write that is no command is dropped (R153). -/
theorem State.busWrite_register (h : 0x8000 ≤ wordAddr a) (hc : isCommandWrite a v = false) : s.busWrite a v = s := by
  simp only [isCommandWrite, Bool.or_eq_false_iff, Bool.and_eq_false_iff, beq_eq_false_iff_ne, decide_eq_false_iff_not]
    at hc
  obtain ⟨⟨hcommand, hnudge⟩, hack⟩ := hc
  unfold State.busWrite
  dsimp only
  rw [if_neg (by omega), if_neg hnudge]
  split
  · next h4 =>
    split
    · next hv => omega
    · next hv => omega
    · next hv => omega
    · next hv => omega
    · rfl
  · split
    · next hA =>
      unfold State.writeAcknowledge
      rw [if_pos]
      simp only [Bool.or_eq_true, decide_eq_true_eq]
      omega
    · rfl

/-- A word written in the cells is stored there (R151, 12.3). -/
theorem State.busWrite_cell_stored (h : s.windowClosed = false) (h1 : 0x0400 ≤ wordAddr a) (h2 : wordAddr a < 0x2400) :
    s.WordStored (s.busWrite a v) a v := by
  rw [State.busWrite_cell v h h1 h2]
  have ha := wordAddr_even a
  refine ⟨?_, fun b hb => ?_⟩
  · rw [State.busRead_cell (by exact h) h1 h2, State.cell_setCell, if_pos ⟨rfl, by omega⟩,
      OrderCell.fieldAt_writeHalf_same _ v (by omega), BitVec.ofNat_toNat, BitVec.setWidth_eq]
  · have hbe := wordAddr_even b
    rcases wordAddr_regions b with hr | ⟨hb1, hb2⟩ | hr
    · exact State.busRead_withWindow hr
    · rw [State.busRead_cell (by exact h) hb1 hb2, State.busRead_cell h hb1 hb2, State.cell_setCell]
      split
      · next hn =>
        obtain ⟨hn, -⟩ := hn
        rw [OrderCell.fieldAt_writeHalf_other _ v (by omega) (by omega), hn]
      · rfl
    · rw [State.busRead_ram (by exact h) hr, State.busRead_ram h hr]
      rfl

/-- A word written in the plan block or the data area is stored in the RAM (R151). -/
theorem State.busWrite_ram_stored (hram : s.ramCanonical) (h : s.windowClosed = false)
    (hw : wordAddr a < 0x0200 ∨ (0x2400 ≤ wordAddr a ∧ wordAddr a < 0x8000)) :
    s.WordStored (s.busWrite a v) a v := by
  rw [State.busWrite_ram v h hw]
  have ha := wordAddr_even a
  refine ⟨?_, fun b hb => ?_⟩
  · rw [State.busRead_ram (by exact h) hw]
    refine (congrArg (BitVec.ofNat 16) (Ram.readNat_writeHalf hram (wordAddr a) v)).trans ?_
    rw [BitVec.ofNat_toNat, BitVec.setWidth_eq]
  · have hbe := wordAddr_even b
    rcases wordAddr_regions b with hr | ⟨hb1, hb2⟩ | hr
    · exact State.busRead_withWindow hr
    · rw [State.busRead_cell (by exact h) hb1 hb2, State.busRead_cell h hb1 hb2]
      rfl
    · rw [State.busRead_ram (by exact h) hr, State.busRead_ram h hr]
      exact congrArg (BitVec.ofNat 16) (Ram.readNat_writeHalf_other hram v (by omega))

end

/-- Settles O38, by the region of the window in which the word lies. -/
theorem busWritesAreStoredOrDropped : Obligations.BusWritesAreStoredOrDropped := by
  unfold Obligations.BusWritesAreStoredOrDropped
  intro s a v hram hopen w
  refine ⟨fun hw => ?_, fun hw => ?_⟩
  · refine ⟨_, exec_registerWrite s a v, ?_⟩
    by_cases hcells : 0x0400 ≤ w ∧ w < 0x2400
    · obtain ⟨h1, h2⟩ := hcells
      have hstored := State.busWrite_cell_stored v hopen h1 h2
      exact ⟨hstored.reads, hstored.others, by rw [State.busWrite_cell v hopen h1 h2]; rfl⟩
    · have hplain : w < 0x0200 ∨ (0x2400 ≤ w ∧ w < 0x8000) := by omega
      have hstored := State.busWrite_ram_stored v hram hopen hplain
      exact ⟨hstored.reads, hstored.others, by rw [State.busWrite_ram v hopen hplain]; rfl⟩
  · rw [exec_registerWrite]
    rcases hw with ⟨h1, h2⟩ | ⟨h, hc⟩
    · exact congrArg _ (State.busWrite_summary v h1 h2)
    · exact congrArg _ (State.busWrite_register v h hc)

end Sys2Proof.Machine
end

section
/-! Proofs, lanes and order cells, part 4: APPLY_PLAN, and the fields of a plan block that passes the checks (R155,
R156, R167, R181, R183). -/

namespace Sys2Proof.Machine

/-! ## The plan is applied -/

/-- The plan block has been taken as the plan, and neither the credits nor the notices follow it yet (R155). -/
def State.planTaken (s : State) : State :=
  { s with
    wp := { s.wp with
      lastCmd := some .applyPlan, lastOutcome := .ok, lastOffset := 0, cmdCount := s.wp.cmdCount + 1 }
    od := { s.od with plan := some (planOf s.wp.ram) } }

/-- The plan has been applied (R155): the credits and the notices follow it. -/
def State.planApplied (s : State) : State := s.planTaken.refill.applyNotices

theorem State.cause_applyNotices (s : State) {n : Nat} (h : n < 13) :
    s.applyNotices.cause n = (s.cause n).apply (causeEnable s.wp.ram n) (causeGroup s.wp.ram n) := by
  unfold State.applyNotices State.clearCoalescing State.cause
  simp [getD_eq, h]

/-- There are 13 causes. -/
theorem State.cause_ge (s : State) {n : Nat} (h : 13 ≤ n) : s.cause n = Cause.reset := by
  unfold State.cause
  rw [getD_eq, Vector.getElem?_eq_none h]
  rfl

theorem State.coalescing_applyNotices (s : State) (n : Nat) : s.applyNotices.coalescing n = ⟨0, none⟩ := by
  unfold State.applyNotices State.clearCoalescing State.coalescing
  rw [getD_eq]
  by_cases h : n < 4 <;> simp [h]

theorem State.applyFilter_none {s : State} {i : TamperInput} (h : (s.tamper i).timer = none) :
    s.applyFilter i = s := by
  unfold State.applyFilter
  rw [h]

section
variable {s : State}

theorem State.planApplied_cause {n : Nat} (h : n < 13) :
    s.planApplied.cause n = (s.cause n).apply (causeEnable s.wp.ram n) (causeGroup s.wp.ram n) := by
  unfold State.planApplied
  rw [State.cause_applyNotices _ h, State.refill_eq]
  rfl

/-- Each cause has had at most the one event that its new enable gives it (R179, R181). -/
theorem State.together_planApplied (s : State) : s.together s.planApplied = s.planApplied := by
  refine State.together_eq fun n => ?_
  by_cases h : n < 13
  · rw [State.planApplied_cause h, Cause.together_apply]
  · rw [State.cause_ge _ (by omega), State.cause_ge _ (by omega), Cause.together_self]

/-- APPLY_PLAN in STOPPED takes a plan block that passes the checks, where no tamper filter runs (R155). -/
theorem exec_applyPlan (ha : s.afterStartUp) (he : s.wp.engine = .stopped) (hf : planFault s.wp.ram = none)
    (hcover : s.tm.cover.timer = none) (hfield : s.tm.field.timer = none) :
    exec .applyPlan s = .next s.planApplied.finish := by
  have htm : s.planApplied.tm = s.tm := by
    unfold State.planApplied
    rw [State.refill_eq]
    rfl
  have happly : s.portApply = (s.together ((s.planApplied.applyFilter .cover).applyFilter .field)).finish := by
    unfold State.portApply
    rw [he, hf]
    rfl
  refine congrArg Host.Outcome.next ((State.writeCommand_open ha.windowClosed .applyPlan).trans (happly.trans ?_))
  rw [State.applyFilter_none (i := .cover) (by show s.planApplied.tm.cover.timer = none; rw [htm]; exact hcover),
    State.applyFilter_none (i := .field) (by show s.planApplied.tm.field.timer = none; rw [htm]; exact hfield),
    State.together_planApplied]

theorem State.planLane_planApplied (s : State) (n : Nat) : s.planApplied.planLane n = s.planTaken.planLane n :=
  State.refill_planLane s.planTaken n

theorem State.lane_planApplied {n : Nat} {l : PlanLane} (h : s.planApplied.planLane n = some l) :
    s.planApplied.lane n = { s.lane n with credits := l.weight } := by
  rw [State.planLane_planApplied] at h
  refine (State.refill_lane s.planTaken n (State.planLane_lt h)).trans ?_
  rw [h]
  rfl

theorem State.lane_planApplied_disabled {n : Nat} (h : s.planApplied.planLane n = none) :
    s.planApplied.lane n = s.lane n := by
  by_cases hn : n < 4
  · rw [State.planLane_planApplied] at h
    refine (State.refill_lane s.planTaken n hn).trans ?_
    rw [h]
    rfl
  · rw [State.lane_ge _ (by omega), State.lane_ge _ (by omega)]

/-- The lanes and the notices are all that follows the plan. -/
theorem State.planApplied_eq (s : State) : s.planApplied =
    { s.planTaken with
      od := { s.planTaken.od with lanes := s.planApplied.od.lanes }
      nu := s.planApplied.nu } := by
  unfold State.planApplied
  rw [State.refill_eq]
  rfl

theorem State.planApplied_nu (s : State) :
    s.planApplied.nu = { s.nu with causes := s.planApplied.nu.causes, lanes := s.planApplied.nu.lanes } := by
  unfold State.planApplied
  rw [State.refill_eq]
  rfl

end

/-! ## A plan block that passes the checks (R155, R156) -/

theorem clamp_bounds {lo hi : Nat} (h : lo ≤ hi) (x : Nat) : lo ≤ clamp lo hi x ∧ clamp lo hi x ≤ hi :=
  ⟨Nat.le_min.mpr ⟨Nat.le_max_left .., h⟩, Nat.min_le_right ..⟩

/-- The lanes of the plan are those of the plan block, in order. -/
theorem planOf_lanes {ram : List Host.Cell} {n : Nat} {l : PlanLane} (h : (planOf ram).lanes[n]? = some l) :
    n < 4 ∧ l = planLaneOf ram n := by
  obtain ⟨hn, hl⟩ := Vector.getElem?_eq_some_iff.mp h
  refine ⟨hn, hl.symm.trans ?_⟩
  match n, hn with
  | 0, _ => rfl
  | 1, _ => rfl
  | 2, _ => rfl
  | 3, _ => rfl

theorem planOf_lanes_get (ram : List Host.Cell) {n : Nat} (h : n < 4) :
    (planOf ram).lanes[n]? = some (planLaneOf ram n) := by
  have hget := Vector.getElem?_eq_getElem (xs := (planOf ram).lanes) h
  rw [hget, (planOf_lanes hget).2]

section
variable {ram : List Host.Cell} {n : Nat}

theorem planLaneOf_enabled (ram : List Host.Cell) (n : Nat) : (planLaneOf ram n).enabled = rawEnabled ram n := by
  unfold planLaneOf
  cases rawEnabled ram n <;> rfl

theorem planLaneOf_cells (h : rawEnabled ram n = true) :
    (planLaneOf ram n).first = rawFirst ram n ∧ (planLaneOf ram n).count = rawCount ram n := by
  unfold planLaneOf
  rw [if_pos h]
  exact ⟨rfl, rfl⟩

/-- The fields of an enabled lane that are brought into range (R156). -/
theorem planLaneOf_clamped (h : rawEnabled ram n = true) (hc : 1 ≤ rawCount ram n) :
    let l := planLaneOf ram n
    (1 ≤ l.weight ∧ l.weight ≤ 8) ∧ (1 ≤ l.budget ∧ l.budget ≤ 255) ∧
      (1 ≤ l.threshold ∧ l.threshold ≤ min 64 (rawCount ram n)) ∧ l.delay ≤ 255 := by
  unfold planLaneOf
  rw [if_pos h]
  exact ⟨clamp_bounds (by decide) _, clamp_bounds (by decide) _, clamp_bounds (Nat.le_min.mpr ⟨by decide, hc⟩) _,
    (clamp_bounds (by decide) _).2⟩

/-- An enabled lane that passes its checks has its cells among the 128, apart from those of each enabled lane before it
(R155, checks a to c). -/
theorem laneFault_none (h : laneFault ram n = none) (he : rawEnabled ram n = true) :
    2 ≤ rawCount ram n ∧ rawFirst ram n + rawCount ram n ≤ 128 ∧
      ∀ m, m < n → rawEnabled ram m = true → lanesMeet ram n m = false := by
  unfold laneFault at h
  rw [if_pos he] at h
  split at h
  · cases h
  · split at h
    · cases h
    · next hcells =>
      split at h
      · cases h
      · next hmeet =>
        simp only [Bool.or_eq_true, decide_eq_true_eq, not_or] at hcells
        refine ⟨by omega, by omega, fun m hm hem => Bool.eq_false_iff.mpr fun hmm => hmeet ?_⟩
        exact List.any_eq_true.mpr ⟨m, List.mem_range.mpr hm, by rw [hem, hmm]; rfl⟩

/-- A plan block passes the checks where each lane does, some lane is enabled, and the unlock authority is a slot or
none (R155). -/
theorem planFault_none (h : planFault ram = none) :
    (∀ n, n < 4 → laneFault ram n = none) ∧ (∃ n, n < 4 ∧ rawEnabled ram n = true) ∧
      (planHalf ram 0x042 ≤ 63 ∨ planHalf ram 0x042 = 255) := by
  unfold planFault at h
  split at h
  · cases h
  · next hlanes =>
    split at h
    · cases h
    · next hany =>
      dsimp only at h
      split at h
      · cases h
      · next hauthority =>
        rw [Bool.not_eq_true', Bool.not_eq_false, List.any_eq_true] at hany
        obtain ⟨n, hn, hen⟩ := hany
        simp only [Bool.and_eq_true, decide_eq_true_eq, not_and_or, Nat.not_lt, not_not] at hauthority
        exact ⟨fun m hm => List.findSome?_eq_none_iff.mp hlanes m (List.mem_range.mpr hm),
          ⟨n, List.mem_range.mp hn, hen⟩, hauthority⟩

theorem lanesMeet_eq_false {m : Nat} (h : lanesMeet ram n m = false) :
    rawFirst ram n + rawCount ram n ≤ rawFirst ram m ∨ rawFirst ram m + rawCount ram m ≤ rawFirst ram n := by
  simp only [lanesMeet, Bool.and_eq_false_iff, decide_eq_false_iff_not, Nat.not_lt] at h
  exact h.symm

/-- Two enabled lanes of a plan block that passes share no cell: the check of the later one has asked (R155). -/
theorem lanes_apart (h : planFault ram = none) {m : Nat} (hnm : n ≠ m) (hn : n < 4) (hm : m < 4)
    (hen : rawEnabled ram n = true) (hem : rawEnabled ram m = true) :
    rawFirst ram n + rawCount ram n ≤ rawFirst ram m ∨ rawFirst ram m + rawCount ram m ≤ rawFirst ram n := by
  obtain ⟨hlanes, -, -⟩ := planFault_none h
  obtain ⟨-, -, hnBefore⟩ := laneFault_none (hlanes n hn) hen
  obtain ⟨-, -, hmBefore⟩ := laneFault_none (hlanes m hm) hem
  rcases Nat.lt_or_gt_of_ne hnm with hlt | hlt
  · exact (lanesMeet_eq_false (hmBefore n hlt hen)).symm
  · exact lanesMeet_eq_false (hnBefore m hlt hem)

/-- A lane that the plan enables is enabled in the plan block, and is the lane that its fields give. -/
theorem planOf_enabled {l : PlanLane} (hl : (planOf ram).lanes[n]? = some l) (he : l.enabled = true) :
    n < 4 ∧ l = planLaneOf ram n ∧ rawEnabled ram n = true := by
  obtain ⟨hn, rfl⟩ := planOf_lanes hl
  exact ⟨hn, rfl, (planLaneOf_enabled ram n).symm.trans he⟩

/-- Every field of an enabled lane is in range (R155, R156). -/
theorem planOf_lane_inRange (h : planFault ram = none) {l : PlanLane} (hl : (planOf ram).lanes[n]? = some l)
    (he : l.enabled = true) :
    2 ≤ l.count ∧ l.first + l.count ≤ 128 ∧ 1 ≤ l.weight ∧ l.weight ≤ 8 ∧ 1 ≤ l.budget ∧ l.budget ≤ 255 ∧
      1 ≤ l.threshold ∧ l.threshold ≤ 64 ∧ l.threshold ≤ l.count ∧ l.delay ≤ 255 := by
  obtain ⟨hn, rfl, hraw⟩ := planOf_enabled hl he
  obtain ⟨hlanes, -, -⟩ := planFault_none h
  obtain ⟨hcount, hend, -⟩ := laneFault_none (hlanes n hn) hraw
  obtain ⟨hfirst', hcount'⟩ := planLaneOf_cells hraw
  obtain ⟨⟨hw1, hw8⟩, ⟨hb1, hb255⟩, ⟨ht1, ht⟩, hdelay⟩ := planLaneOf_clamped hraw (by omega)
  obtain ⟨ht64, htcount⟩ := Nat.le_min.mp ht
  rw [hfirst', hcount']
  exact ⟨hcount, hend, hw1, hw8, hb1, hb255, ht1, ht64, htcount, hdelay⟩

theorem planOf_lanes_apart (h : planFault ram = none) {m : Nat} {k l : PlanLane} (hnm : n ≠ m)
    (hk : (planOf ram).lanes[n]? = some k) (hl : (planOf ram).lanes[m]? = some l) (hek : k.enabled = true)
    (hel : l.enabled = true) : k.first + k.count ≤ l.first ∨ l.first + l.count ≤ k.first := by
  obtain ⟨hn, rfl, hrawn⟩ := planOf_enabled hk hek
  obtain ⟨hm, rfl, hrawm⟩ := planOf_enabled hl hel
  obtain ⟨hfirstn, hcountn⟩ := planLaneOf_cells hrawn
  obtain ⟨hfirstm, hcountm⟩ := planLaneOf_cells hrawm
  rw [hfirstn, hcountn, hfirstm, hcountm]
  exact lanes_apart h hnm hn hm hrawn hrawm

theorem planOf_authority (h : planFault ram = none) {a : Nat} (ha : (planOf ram).authority = some a) : a < 64 := by
  obtain ⟨-, -, hauthority⟩ := planFault_none h
  have hfield : (if planHalf ram 0x042 = 255 then none else some (planHalf ram 0x042)) = some a := ha
  split at hfield
  · cases hfield
  · cases hfield
    omega

end

/-- Settles O34: the lanes and the causes after the plan, and what the checks and the clamps say of its fields. -/
theorem applyPlanTakesThePlanBlock : Obligations.ApplyPlanTakesThePlanBlock := by
  unfold Obligations.ApplyPlanTakesThePlanBlock
  refine ⟨fun s ha he hf hcover hfield => ?_, fun ram hf => ?_⟩
  · have hengine : s.planApplied.wp.engine = .stopped := by rw [State.planApplied_eq]; exact he
    have hk : Kicked s.planApplied s.planApplied.finish := State.finish_kicked _ (by rw [hengine]; nofun)
    refine ⟨_, exec_applyPlan ha he hf hcover hfield, ?_⟩
    generalize s.planApplied.finish = t at hk
    refine ⟨fun n l hl => (hk.lane n).trans (State.lane_planApplied ((hk.planLane n).symm.trans hl)),
      fun n hn => (hk.lane n).trans (State.lane_planApplied_disabled ((hk.planLane n).symm.trans hn)),
      fun n hn => (State.cause_congr hk.nu n).trans (State.planApplied_cause hn),
      fun n => ?_, ?_, ?_⟩
    · exact (congrArg (fun v => v.lanes.getD n ⟨0, none⟩) hk.nu).trans (State.coalescing_applyNotices _ n)
    · rw [hk.nu]
      exact s.planApplied_nu
    · rw [hk.nu, hk.lanes]
      rw [State.planApplied_eq] at hk
      exact hk.takenUp
  · obtain ⟨-, ⟨n, hn, hen⟩, -⟩ := planFault_none hf
    obtain ⟨hcover, hcover'⟩ := clamp_bounds (show 1 ≤ 255 by decide) (planHalf ram 0x062)
    obtain ⟨hfield, hfield'⟩ := clamp_bounds (show 1 ≤ 255 by decide) (planHalf ram 0x066)
    exact ⟨⟨n, _, planOf_lanes_get ram hn, (planLaneOf_enabled ram n).trans hen⟩,
      fun n l hl he => planOf_lane_inRange hf hl he, fun n m k l hnm hk hl => planOf_lanes_apart hf hnm hk hl,
      (clamp_bounds (by decide) _).2, (clamp_bounds (by decide) _).2, (clamp_bounds (by decide) _).2,
      fun a ha => planOf_authority hf ha, hcover, hcover', hfield, hfield'⟩

end Sys2Proof.Machine
end

section
/-! Proofs, dispatch and order budgets: a SYNC with no order ahead of it (R175), and the budget of an order that runs out
(R172, R173). -/

namespace Sys2Proof.Machine

/-! ## SYNC (R175) -/

/-- In RUNNING a SYNC fails no common check: it names no slot, uses no extent, and is taken under lockdown (R146, R170). -/
theorem State.passesCommon_sync (s : State) (o : OrderFields) : s.PassesCommon .sync o where
  slot := nofun
  extents := rfl
  unlocked := nofun

/-- A SYNC that is the only order in flight completes OK (R175). -/
theorem startSync_alone {c : Nat} {x : Ctx} {T : State} (h : ∀ d, d ≠ c → T.ctx d = none) :
    startSync c x T = T.complete c .ok Res.zero := by
  have hnone : ∀ d ∈ T.busy, ¬(decide (d ≠ c) && (x.order.all || (T.ctx d).any fun y => y.lane == x.lane)) = true := by
    intro d hd hahead
    have hbusy : (T.ctx d).isSome = true := (List.mem_filter.mp hd).2
    have hother : d ≠ c := of_decide_eq_true (Bool.and_eq_true_iff.mp hahead).1
    rw [h d hother] at hbusy
    cases hbusy
  exact if_pos (List.isEmpty_iff.mpr (List.filter_eq_nil_iff.mpr hnone))

/-- Settles O12: the order posted is the only one in flight, so nothing is ahead of it. -/
theorem syncCompletesWithNothingAhead : Obligations.SyncCompletesWithNothingAhead := by
  unfold Obligations.SyncCompletesWithNothingAhead
  intro s lane p o h
  have tk := State.taken_takenIn h.toQuietLane Kind.sync.code o
  have hstart := (State.startOrder_taken h tk (s.passesCommon_sync o)).trans (startSync_alone tk.ctxs)
  exact ⟨_, exec_command .sync lane o s, State.post_ends h.toQuietLane h.taking rfl hstart fun _ hn => nomatch hn⟩

/-! ## The late mark (R172) -/

/-- The order in context `c` has become late (R172). -/
def State.markedLate (s : State) (c : Nat) : State := s.modCtx c fun x => { x with late := true }

section
variable {s : State} {c : Nat} {x : Ctx}

/-- The late mark acts where the order waits for a cipher service, its group, a reservation or a mark (R173). -/
theorem State.lateActs_iff :
    s.lateActs c x = true ↔
      (x.wait = .cipherQueue ∧ s.inService c = false) ∨ x.wait = .group ∨ x.wait = .reservation ∨ x.wait = .mark := by
  simp [State.lateActs, or_assoc]

/-- The late mark does not act on an order that waits for none of these: its request is in service, or it has no wait, or
it is a SYNC (R173). -/
theorem State.lateActs_eq_false
    (h : (x.wait = .cipherQueue ∧ s.inService c = true) ∨ x.wait = .none ∨ x.wait = .predecessors) :
    s.lateActs c x = false := by
  unfold State.lateActs
  obtain ⟨hw, hi⟩ | hw | hw := h
  · rw [hw, hi]; rfl
  · rw [hw]; rfl
  · rw [hw]; rfl

/-- A budget that runs out marks its order late, and withdraws it where the mark acts (R172, R173). -/
theorem exec_budgetExpiry_applies (hx : s.ctx c = some x) (hb : x.budgetApplies = true) (hl : x.late = false) :
    exec (.budgetExpiry c) s =
      if s.lateActs c x then .next ((s.markedLate c).endOrder c .timedOut).serve.finish else .next (s.markedLate c) := by
  show execBudgetExpiry c s = _
  unfold execBudgetExpiry
  rw [hx]
  dsimp only
  rw [hb, hl]
  rfl

/-- A budget that no longer applies, or that has run out before, does nothing (R172). -/
theorem exec_budgetExpiry_idle (hx : s.ctx c = some x) (h : x.budgetApplies = false ∨ x.late = true) :
    exec (.budgetExpiry c) s = .next s := by
  have hover : ¬(x.budgetApplies && !x.late) = true := by
    obtain hb | hl := h
    · rw [hb, Bool.false_and]; decide
    · rw [hl, Bool.not_true, Bool.and_false]; decide
  show execBudgetExpiry c s = _
  unfold execBudgetExpiry
  rw [hx]
  exact if_neg hover

/-! ## The withdrawal (R173) -/

theorem State.ctx_markedLate (hx : s.ctx c = some x) : (s.markedLate c).ctx c = some { x with late := true } := by
  unfold State.markedLate
  rw [State.ctx_modCtx, if_pos rfl, hx, Option.map_some]

theorem State.Plain.markedLate (h : s.Plain c x) : (s.markedLate c).Plain c { x with late := true } :=
  ⟨State.ctx_markedLate h.ctx, h.small, h.lane, h.cell, h.erase, h.deferred⟩

/-- The late mark changes the order alone. -/
theorem State.Plain.late_onward (h : s.Plain c x) : Onward s (s.markedLate c) c { x with late := true } :=
  (Onward.refl h.ctx h.small).mod fun x => { x with late := true }

/-- A late order stands in its lane and cell as before. -/
theorem State.markedLate_place (s : State) (c d : Nat) :
    ((s.markedLate c).ctx d).map (fun x => (x.lane, x.cell)) = (s.ctx d).map fun x => (x.lane, x.cell) := by
  unfold State.markedLate
  rw [State.ctx_modCtx]
  split
  · cases s.ctx d <;> rfl
  · rfl

/-- What abandoning its request leaves of the notices does not depend on whether an order is late (R81). -/
theorem State.abandon_markedLate (s : State) (c : Nat) :
    (if (s.markedLate c).inService c then (s.markedLate c).abandon else s.markedLate c).nu =
      (if s.inService c then s.abandon else s).nu := by
  rw [State.abandon_congr (s := s) (t := s.markedLate c) rfl rfl rfl (s.markedLate_place c)]
  show (if s.inService c then _ else _ : State).nu = _
  split <;> rfl

/-- An order whose budget runs out where it waits completes TIMED_OUT over a state in which only its records and its
request have gone, and in which it is late (R110, R173). -/
theorem State.Plain.timesOut (h : s.Plain c x) :
    ∃ u l y, u = { s.markedLate c with
          ju := { s.ju with waiting := l }, xu := y, nu := (if s.inService c then s.abandon else s).nu } ∧
      y.queue = s.xu.queue.filter (fun q => q.ctx ≠ c) ∧
      Completed u ((s.markedLate c).endOrder c .timedOut) c { x with late := true } .timedOut (x.endRes .timedOut) := by
  obtain ⟨u, l, y, n, hu, hn, hq, cm⟩ := State.endOrder_completed h.markedLate .timedOut
  rw [State.abandon_markedLate] at hn
  rw [hn] at hu
  exact ⟨u, l, y, hu, hq, cm⟩

/-- A late order is no SYNC that waits, and neither is any other order, where nothing follows a completion. -/
theorem State.isSync_markedLate (hs : ∀ d, s.isSync d = false) (d : Nat) : (s.markedLate c).isSync d = false := by
  have hd := hs d
  unfold State.isSync State.markedLate at *
  rw [State.ctx_modCtx]
  split
  · rw [← hd]
    cases s.ctx d <;> rfl
  · exact hd

/-- The withdrawal of an order whose budget runs out, in a state where nothing follows it (R173). -/
theorem State.Plain.withdrawn (h : s.Plain c x) (hset : s.Settled) (he : s.wp.engine = .running) :
    let t := ((s.markedLate c).endOrder c .timedOut).serve.finish
    s.OrderEnds t c x .timedOut (x.endRes .timedOut) ∧ t.kt = s.kt ∧ t.tu = s.tu ∧
      t.nu = ((if s.inService c then s.abandon else s).countCompletion x.lane).nu ∧ t.wp.ram = s.wp.ram ∧
      t.xu.queue = s.xu.queue.filter (fun q => q.ctx ≠ c) := by
  intro t
  obtain ⟨u, l, y, hu, hq, cm⟩ := h.timesOut
  have g : Onward s u c { x with late := true } := by
    rw [hu]
    exact h.late_onward.tables rfl rfl ⟨rfl, rfl, rfl, rfl, rfl, rfl, rfl, rfl, rfl, rfl, rfl⟩ rfl rfl rfl
  have hengine : u.wp.engine = .running := by rw [hu]; exact he
  have hfollower := cm.noFollower (fun n => by rw [g.lane]; exact hset.follower.lanes n)
    (fun d _ => by rw [hu]; exact State.isSync_markedLate hset.follower.syncs d) (by rw [hengine]; decide)
  have k : Kicked ((s.markedLate c).endOrder c .timedOut) t := by
    show Kicked _ (State.finish _)
    rw [State.serve_idle hfollower]
    exact State.finish_kicked _ (by rw [cm.wp]; exact hengine ▸ nofun)
  obtain ⟨hkt, htu, hxu, hram⟩ := cm.leavesTables k (by decide)
  have hcount : (u.countCompletion x.lane).nu =
      ((if s.inService c then s.abandon else s).countCompletion x.lane).nu := by
    obtain ⟨y', n, habandoned, -⟩ := s.abandon_eq
    refine State.countCompletion_nu ?_ (by rw [hu]) ?_ x.lane
    all_goals
      rw [hu, habandoned]
      split <;> rfl
  refine ⟨cm.orderEnds g k rfl rfl rfl (by rw [hu]; rfl), ?_, ?_, ?_, ?_, ?_⟩
  · rw [hkt, hu]; rfl
  · rw [htu, hu]; rfl
  · rw [k.nu, cm.nu hengine, hcount]
  · rw [hram, hu]; rfl
  · rw [hxu, hu]; exact hq

end

/-- Settles O49, by what a budget that runs out finds: an order that waits where the late mark acts, one elsewhere, or one
whose budget no longer applies. -/
theorem budgetExpiryWithdrawsTheOrder : Obligations.BudgetExpiryWithdrawsTheOrder := by
  unfold Obligations.BudgetExpiryWithdrawsTheOrder
  intro s c x hx
  refine ⟨fun hset he hplain hb hl hwait => ?_, fun hb hl helse => ?_, exec_budgetExpiry_idle hx⟩
  · rw [exec_budgetExpiry_applies hx hb hl, if_pos (State.lateActs_iff.mpr hwait)]
    exact ⟨_, rfl, hplain.withdrawn hset he⟩
  · rw [exec_budgetExpiry_applies hx hb hl, State.lateActs_eq_false helse, if_neg Bool.false_ne_true]
    unfold State.markedLate State.modCtx
    rw [hx]
    rfl

end Sys2Proof.Machine
end

section
/-! Proofs, notices and the fault record: what every step keeps of the causes (R179 to R181), the acknowledgement of a group
(R180), and the end of a coalescing delay (R182). -/

namespace Sys2Proof.Machine

/-! ## Steps -/

/-- Settles O28. -/
theorem stepKeepsTheCausesSettled : Obligations.StepKeepsTheCausesSettled := by
  unfold Obligations.StepKeepsTheCausesSettled
  intro s t hs h
  exact step_keeps_of (P := State.causesSettled) (fun _ _ h => h) (fun _ _ k => k.causes) hs h

/-! ## One cause -/

/-- A cause fires where it is PENDING, enabled and not INSERVICE; firing passes PENDING on to INSERVICE (R179). -/
theorem Cause.fire_eq (c : Cause) :
    c.fire =
      let fires := c.pending && c.enabled && !c.inService
      { c with pending := c.pending && !fires, inService := c.inService || fires } := by
  unfold Cause.fire
  split
  · next hfires => rw [hfires]; simp
  · next hrests => rw [Bool.eq_false_iff.mpr hrests]; simp

theorem Cause.raise_eq (c : Cause) :
    c.raise =
      let fires := c.enabled && !c.inService
      { c with pending := !fires, inService := c.inService || fires } := by
  simp [Cause.raise, Cause.fire_eq]

theorem Cause.acknowledge_eq (c : Cause) :
    c.acknowledge =
      { c with pending := c.pending && !c.enabled, inService := c.pending && c.enabled } := by
  cases hp : c.pending <;> simp [Cause.acknowledge, Cause.fire_eq, hp]

/-! ## The acknowledgement of a group (R180) -/

theorem State.cause_acknowledge (s : State) (g : Nat) {n : Nat} (h : n < 13) :
    (s.acknowledge g).cause n = if (s.cause n).group = g then (s.cause n).acknowledge else s.cause n := by
  unfold State.acknowledge State.cause
  simp [getD_eq, h]

/-- A cause of another group stands as it did, and so does a bit that is no cause's. -/
theorem State.cause_acknowledge_other (s : State) (g : Nat) {n : Nat} (h : (s.cause n).group ≠ g) :
    (s.acknowledge g).cause n = s.cause n := by
  by_cases hn : n < 13
  · rw [State.cause_acknowledge s g hn, if_neg h]
  · rw [State.cause_ge _ (Nat.not_lt.mp hn), State.cause_ge _ (Nat.not_lt.mp hn)]

theorem exec_noticeAcknowledge {s : State} {v : Half} (hreset : s.wp.inReset = none) (hv : v.toNat ≤ 7) :
    exec (.noticeAcknowledge v) s = .next (s.acknowledge v.toNat) := by
  show Host.Outcome.next (s.writeAcknowledge v) = _
  unfold State.writeAcknowledge
  rw [hreset, if_neg (by simpa using hv)]

/-- Settles O37, by the group of each cause. -/
theorem acknowledgeReleasesTheGroup : Obligations.AcknowledgeReleasesTheGroup := by
  unfold Obligations.AcknowledgeReleasesTheGroup
  intro s v hreset hv
  refine ⟨_, exec_noticeAcknowledge hreset hv, fun n hother => State.cause_acknowledge_other s _ hother,
    fun n hn hgroup => ?_, rfl⟩
  rw [State.cause_acknowledge s _ hn, if_pos hgroup, Cause.acknowledge_eq]

/-! ## The end of a coalescing delay (R182) -/

/-- There are four lanes, so a bit past them has no delay that runs. -/
theorem State.lane_lt_of_timer {s : State} {lane : Nat} (h : (s.coalescing lane).timer ≠ none) : lane < 4 := by
  by_contra hlane
  exact h (by simp [State.coalescing, getD_eq, hlane])

theorem exec_coalescingDelayExpiry {s : State} {lane : Nat} (h : (s.coalescing lane).timer ≠ none) :
    exec (.coalescingDelayExpiry lane) s = .next ((s.setCoalescing lane ⟨0, none⟩).raise lane) := by
  obtain ⟨since, hsince⟩ := Option.ne_none_iff_exists'.mp h
  show execCoalescingDelayExpiry lane s = _
  unfold execCoalescingDelayExpiry
  rw [hsince]

/-- Settles O50: the lane's cause is raised and its count put back, each an update of one place. -/
theorem coalescingDelayRaisesLaneDone : Obligations.CoalescingDelayRaisesLaneDone := by
  unfold Obligations.CoalescingDelayRaisesLaneDone
  intro s lane htimer
  have hlane : lane < 4 := State.lane_lt_of_timer htimer
  have hcount : ∀ n, ((s.setCoalescing lane ⟨0, none⟩).raise lane).coalescing n =
      if lane = n ∧ lane < 4 then ⟨0, none⟩ else s.coalescing n := fun n => State.coalescing_setCoalescing ..
  refine ⟨_, exec_coalescingDelayExpiry htimer, ?_, ?_, fun n hn => ⟨?_, ?_⟩, rfl⟩
  · rw [State.cause_raise, if_pos ⟨rfl, by omega⟩]
    exact Cause.raise_eq _
  · rw [hcount, if_pos ⟨rfl, hlane⟩]
  · rw [State.cause_raise, if_neg fun h => hn h.1.symm]
    rfl
  · rw [hcount, if_neg fun h => hn h.1.symm]

end Sys2Proof.Machine
end
